-- ==== Sys2Proof/Word.lean ====
section
/-! DEFINITION. The widths the spec names: a 64-bit scalar cell (R21, R28) and the byte of the vector
backing store (R50). -/

namespace Sys2Proof

/-- A 64-bit scalar value: a general-purpose register, a parameter slot, an options word (R21, R28, R29). -/
abbrev Word := BitVec 64

/-- One byte of the vector backing store (R50). -/
abbrev Byte := BitVec 8

/-- The index of one of the 32 general-purpose or one of the 32 vector registers (R21, R22). -/
abbrev RegIx := Fin 32

end Sys2Proof
end

