-- ==== Sys2Proof/Config.lean ====
section
/-! DEFINITION. The implementation parameters of R9 and R12 as plain data, and the free values the spec leaves
unspecified (U4, U6). A machine carries its `Config` in its state and no step changes it, so a statement
about every state is a statement about every configuration. -/

namespace Sys2Proof

/-- The rounding mode of float narrowing, of the float square root and of the 64-bit multiplication heuristic
(R12 `roundingMode`, R162, R272). The spec's default is `nearestEven`; that the other values of the parameter are the
four further rounding directions of IEEE 754 is PRESUMED (log entry 9). -/
inductive RoundingMode where
  /-- to nearest, ties to even: the spec's default -/
  | nearestEven
  /-- to nearest, ties away from zero -/
  | nearestAway
  /-- toward zero -/
  | towardZero
  /-- toward plus infinity -/
  | towardPositive
  /-- toward minus infinity -/
  | towardNegative
  deriving DecidableEq, Repr

/-- How the sign and payload of a produced NaN are fixed (R12 `nanPayload`, U4). -/
inductive NanPayload where
  /-- an unspecified draw among the NaN encodings: the spec's default -/
  | unspecified
  /-- the positive quiet NaN with zero payload of R272 -/
  | defaultQuiet
  deriving DecidableEq, Repr

/-- Double-width division at `ot = 3` (R12 `divEx64`, R226). -/
inductive DivEx64 where
  /-- rule R225 at `W = 64`: the spec's default -/
  | exact
  /-- `ot = 3` raises `INT_INST_ILLEGAL` -/
  | illegal
  deriving DecidableEq, Repr

/-- The configuration: R9's `MaxVectorLength` and the parameters of R12, each with the default the spec uses.
`maxVectorLength` has no default in the spec; 128 is the value of the test vectors (log entry 5). -/
structure Config where
  /-- byte capacity of each vector register (R9) -/
  maxVectorLength : Nat := 128
  /-- exact overflow detection of 64-bit multiplication (R247) -/
  mul64OverflowExact : Bool := true
  /-- double-width division at 64 bits (R226) -/
  divEx64 : DivEx64 := .exact
  /-- whether the saturating operations raise interrupts (R240) -/
  satTraps : Bool := false
  /-- whether `compress_us` reads its source as signed (R161) -/
  compressUsSourceSigned : Bool := true
  /-- rounding mode (R162, R272) -/
  roundingMode : RoundingMode := .nearestEven
  /-- sign and payload of a produced NaN (R272, U4) -/
  nanPayload : NanPayload := .unspecified
  /-- `numContr` after reset (R40) -/
  numContrReset : Word := 0
  /-- whether a command that raises an overflow or invalid interrupt commits (R96, R287) -/
  commitOnInterrupt : Bool := true
  deriving DecidableEq, Repr

/-- The spec's default configuration (R12). -/
def Config.default : Config := {}

/-- R9: a multiple of 16 and at least 16. Other values are refused (U3). -/
abbrev Config.wf (c : Config) : Prop := c.maxVectorLength % 16 = 0 ∧ 16 ≤ c.maxVectorLength

/-- FREE VALUE (U4; log entry 7): the bits from which the sign and payload of a produced NaN are taken, for the draw
number of the command and the byte offset of the lane that produces it. Nothing constrains it. -/
opaque Config.freeNaN : Nat → Nat → BitVec 64

/-- FREE VALUE (U6; log entry 3): `returnType` after an operation that the spec ties to no tag, for the draw number of
the command. Nothing constrains it. -/
opaque Config.freeReturnType : Nat → BitVec 16

end Sys2Proof
end

