-- ==== Sys2Proof/Syntax.lean ====
section
/-! DEFINITION. The instructions: one constructor per row of the opcode map R74, each carrying the fields of its
command word (R70). Every field of the word is kept, also those an operation ignores (R76), because the decoder
places all of them in the command slots (R27). -/

namespace Sys2Proof

/-- The operand type codes 0 to 6 (R14). Code 7 is no operand type (R26). -/
inductive OpType where
  | i8 | i16 | i32 | i64 | i128 | f32 | f64
  deriving DecidableEq, Repr

/-- The fields of a command word other than `tab`, `op` and `zero` (R70). -/
structure Fields where
  /-- operand type -/
  ot : OpType
  /-- destination register -/
  rd : RegIx
  /-- first source register -/
  rs : RegIx
  /-- second source register -/
  rt : RegIx
  /-- mask register `v[0]` to `v[6]`; `none` is the field value 7, "no mask" -/
  rm : Option (Fin 7)
  /-- immediate -/
  imm : BitVec 32
  deriving DecidableEq, Repr

/-- The 55 operations of R74, in the table's order. -/
inductive Instr where
  /-- `bitscan_forward xd, xt`: table 0, minor opcode 0 (R111) -/
  | bitscanForward (c : Fields)
  /-- `bitscan_reverse xd, xt`: table 0, minor opcode 1 (R112) -/
  | bitscanReverse (c : Fields)
  /-- `round_down_pow2 xd, xt`: table 0, minor opcode 2 (R113) -/
  | roundDownPow2 (c : Fields)
  /-- `round_up_pow2 xd, xt`: table 0, minor opcode 3 (R114) -/
  | roundUpPow2 (c : Fields)
  /-- `set_len vd, xs, vt`: table 2, minor opcode 0 (R151) -/
  | setLen (c : Fields)
  /-- `get_len xd, vt`: table 2, minor opcode 1 (R153) -/
  | getLen (c : Fields)
  /-- `set_num vd, xs, vt`: table 2, minor opcode 2 (R152) -/
  | setNum (c : Fields)
  /-- `get_num xd, vt`: table 2, minor opcode 3 (R154) -/
  | getNum (c : Fields)
  /-- `compress vd, xs, vt [, mask]`: table 2, minor opcode 4 (R164) -/
  | compress (c : Fields)
  /-- `compress_ss vd, xs, vt [, mask]`: table 2, minor opcode 5 (R165) -/
  | compressSs (c : Fields)
  /-- `compress_us vd, xs, vt [, mask]`: table 2, minor opcode 6 (R166) -/
  | compressUs (c : Fields)
  /-- `expand_u vd, xs, vt`: table 2, minor opcode 8 (R168) -/
  | expandU (c : Fields)
  /-- `expand_s vd, xs, vt`: table 2, minor opcode 9 (R169) -/
  | expandS (c : Fields)
  /-- `compress_sparse vd, xs, vt, mask`: table 2, minor opcode 10 (R170) -/
  | compressSparse (c : Fields)
  /-- `expand_sparse vd, xs, vt, mask`: table 2, minor opcode 11 (R171) -/
  | expandSparse (c : Fields)
  /-- `extract vd, xs, vt`: table 2, minor opcode 12 (R181) -/
  | extract (c : Fields)
  /-- `insert vd, xs, vt`: table 2, minor opcode 13 (R183) -/
  | insert (c : Fields)
  /-- `broadcast vd, xs, vt`: table 2, minor opcode 14 (R184) -/
  | broadcast (c : Fields)
  /-- `bits2bool vd, xs, vt [, mask]`: table 2, minor opcode 16 (R191) -/
  | bits2bool (c : Fields)
  /-- `bool2bits vd, xs, vt`: table 2, minor opcode 17 (R195) -/
  | bool2bits (c : Fields)
  /-- `bool_reduce vd, xs, vt`: table 2, minor opcode 18 (R200) -/
  | boolReduce (c : Fields)
  /-- `category_reduce vd, xs, vt`: table 2, minor opcode 19 (R202) -/
  | categoryReduce (c : Fields)
  /-- `shift_expand vd, xs, vt`: table 2, minor opcode 20 (R211) -/
  | shiftExpand (c : Fields)
  /-- `shift_reduce vd, xs, vt`: table 2, minor opcode 21 (R212) -/
  | shiftReduce (c : Fields)
  /-- `shift_up vd, xs, vt`: table 2, minor opcode 22 (R213) -/
  | shiftUp (c : Fields)
  /-- `shift_down vd, xs, vt`: table 2, minor opcode 23 (R214) -/
  | shiftDown (c : Fields)
  /-- `rotate_up vd, xs, vt`: table 2, minor opcode 24 (R215) -/
  | rotateUp (c : Fields)
  /-- `rotate_down vd, xs, vt`: table 2, minor opcode 25 (R216) -/
  | rotateDown (c : Fields)
  /-- `add_carry vd, vs, vt`: table 2, minor opcode 28 (R221) -/
  | addCarry (c : Fields)
  /-- `sub_borrow vd, vs, vt`: table 2, minor opcode 29 (R222) -/
  | subBorrow (c : Fields)
  /-- `div_ex vd, vs, vt [, mask]`: table 2, minor opcode 30 (R226) -/
  | divEx (c : Fields)
  /-- `div_ex_u vd, vs, vt [, mask]`: table 2, minor opcode 31 (R227) -/
  | divExU (c : Fields)
  /-- `add_ss vd, vs, vt`: table 2, minor opcode 32 (R241) -/
  | addSs (c : Fields)
  /-- `sub_ss vd, vs, vt`: table 2, minor opcode 33 (R242) -/
  | subSs (c : Fields)
  /-- `add_us vd, vs, vt`: table 2, minor opcode 34 (R243) -/
  | addUs (c : Fields)
  /-- `sub_us vd, vs, vt`: table 2, minor opcode 35 (R244) -/
  | subUs (c : Fields)
  /-- `mul_ss vd, vs, vt`: table 2, minor opcode 36 (R245) -/
  | mulSs (c : Fields)
  /-- `mul_us vd, vs, vt`: table 2, minor opcode 37 (R246) -/
  | mulUs (c : Fields)
  /-- `add_oc vd, vs, vt`: table 2, minor opcode 40 (R251) -/
  | addOc (c : Fields)
  /-- `sub_oc vd, vs, vt`: table 2, minor opcode 41 (R252) -/
  | subOc (c : Fields)
  /-- `mul_oc vd, vs, vt`: table 2, minor opcode 42 (R253) -/
  | mulOc (c : Fields)
  /-- `div_oc vd, vs, vt`: table 2, minor opcode 43 (R254) -/
  | divOc (c : Fields)
  /-- `sqrt vd, vt [, mask]`: table 2, minor opcode 48 (R271) -/
  | sqrt (c : Fields)
  /-- `absolute xd, xt, imm`: table 3, minor opcode 0 (R118) -/
  | absolute (c : Fields)
  /-- `shift_add xd, xs, xt, imm`: table 3, minor opcode 1 (R120) -/
  | shiftAdd (c : Fields)
  /-- `move_hi32 xd, imm`: table 4, minor opcode 0 (R131) -/
  | moveHi32 (c : Fields)
  /-- `insert_hi32 xd, xt, imm`: table 4, minor opcode 1 (R132) -/
  | insertHi32 (c : Fields)
  /-- `add_32u xd, xt, imm`: table 4, minor opcode 2 (R133) -/
  | add32u (c : Fields)
  /-- `sub_32u xd, xt, imm`: table 4, minor opcode 3 (R134) -/
  | sub32u (c : Fields)
  /-- `add_hi32 xd, xt, imm`: table 4, minor opcode 4 (R135) -/
  | addHi32 (c : Fields)
  /-- `and_hi32 xd, xt, imm`: table 4, minor opcode 5 (R136) -/
  | andHi32 (c : Fields)
  /-- `or_hi32 xd, xt, imm`: table 4, minor opcode 6 (R137) -/
  | orHi32 (c : Fields)
  /-- `xor_hi32 xd, xt, imm`: table 4, minor opcode 7 (R138) -/
  | xorHi32 (c : Fields)
  /-- `replace_bits xd, xt, imm`: table 4, minor opcode 8 (R140) -/
  | replaceBits (c : Fields)
  /-- `address_form xd, xt, imm`: table 4, minor opcode 9 (R141) -/
  | addressForm (c : Fields)
  deriving DecidableEq, Repr

/-- The fields of an instruction's command word. -/
def Instr.fields : Instr → Fields
  | .bitscanForward c
  | .bitscanReverse c
  | .roundDownPow2 c
  | .roundUpPow2 c
  | .setLen c
  | .getLen c
  | .setNum c
  | .getNum c
  | .compress c
  | .compressSs c
  | .compressUs c
  | .expandU c
  | .expandS c
  | .compressSparse c
  | .expandSparse c
  | .extract c
  | .insert c
  | .broadcast c
  | .bits2bool c
  | .bool2bits c
  | .boolReduce c
  | .categoryReduce c
  | .shiftExpand c
  | .shiftReduce c
  | .shiftUp c
  | .shiftDown c
  | .rotateUp c
  | .rotateDown c
  | .addCarry c
  | .subBorrow c
  | .divEx c
  | .divExU c
  | .addSs c
  | .subSs c
  | .addUs c
  | .subUs c
  | .mulSs c
  | .mulUs c
  | .addOc c
  | .subOc c
  | .mulOc c
  | .divOc c
  | .sqrt c
  | .absolute c
  | .shiftAdd c
  | .moveHi32 c
  | .insertHi32 c
  | .add32u c
  | .sub32u c
  | .addHi32 c
  | .andHi32 c
  | .orHi32 c
  | .xorHi32 c
  | .replaceBits c
  | .addressForm c => c

end Sys2Proof
end

