-- ==== Sys2Proof/Machine/State.lean ====
section
/-! DEFINITION. The thread execution context (R20) with the reference sequencer's state (R100), as plain data; the
interrupt kinds, the reasons a step can stop, and the state after reset (R40). -/

namespace Sys2Proof.Machine

open Sys2Proof

/-- The five interrupt kinds (R281). -/
inductive IntKind where
  /-- `INT_INST_ILLEGAL` -/
  | instIllegal
  /-- `INT_OVERFL_SIGN` -/
  | overflSign
  /-- `INT_OVERFL_UNSIGN` -/
  | overflUnsign
  /-- `INT_OVERFL_FLOAT` -/
  | overflFloat
  /-- `INT_FLOAT_INVALID` -/
  | floatInvalid
  deriving DecidableEq, Repr

/-- The reasons for which the sequencer can make no step (R100). -/
inductive Fault where
  /-- Raised by `step` in the fault state: `intRaised` is not empty, and what the surrounding emulator does with the
  interrupt is outside the core (R286, U14). Safe: the model claims nothing about what follows. -/
  | faultState
  /-- Raised by `step` when `pc = N` and `intRaised` is empty: the run is finished (R100). Safe: no step exists. -/
  | programFinished
  deriving DecidableEq, Repr

/-- The reasons for which the model refuses. -/
inductive Refusal where
  /-- An instruction without a meaning. No arm answers it: every instruction is modelled. -/
  | notModelled (mnemonic : String)
  /-- Raised by `step` when `MaxVectorLength` is not a multiple of 16 or is below 16 (U3). Safe: the spec refuses it. -/
  | badConfiguration
  /-- Raised by `step` when `pc` is outside `0..N` (U23). Safe: the spec refuses it. -/
  | pcOutsideProgram
  deriving DecidableEq, Repr

/-- The command slots (R24 to R28, R34 to R36), which the decoder fills before each handler invocation. -/
structure Slots where
  /-- byte offset of the current lane (R24); a greater one modulo `2^64` (log entry 19) -/
  vectorOffset : Word
  /-- writeback length of the destination vector (R25); a longer one modulo `2^64` (log entry 19) -/
  vectorLengthR : Word
  /-- operand type (R26) -/
  operandType : OpType
  /-- minor opcode (R26) -/
  op : BitVec 6
  /-- decoded register fields (R27) -/
  operands : Vector RegIx 6
  /-- parameter slots (R28, R84) -/
  parm : Vector Word 6
  /-- effective address handed in by the decoder (R34) -/
  memAddress : Word
  /-- vector-loop control (R35) -/
  vect : Nat
  /-- commit control (R36) -/
  running : Nat
  deriving DecidableEq, Repr

/-- The vector backing store (R50): address and byte pairs, addresses strictly rising, no entry equal to what an
unlisted address reads as. -/
abbrev Memory := List Host.Cell

/-- All state of the machine. -/
structure State where
  /-- the configuration, which no step changes (R9, R12) -/
  cfg : Config
  /-- general-purpose registers (R21) -/
  x : Vector Word 32
  /-- the vector backing store (R22, R50) -/
  mem : Memory
  /-- byte length of each vector register (R23) -/
  vlen : Vector Nat 32
  /-- numeric control word (R29) -/
  numContr : Word
  /-- command slots (R24 to R28, R34 to R36) -/
  slots : Slots
  /-- debug tag (R32) -/
  returnType : BitVec 16
  /-- interrupt record: kind and command index, oldest first (R39) -/
  intRaised : List (IntKind × Nat)
  /-- the command list (R100) -/
  cmds : List Word
  /-- command index (R37) -/
  pc : Nat
  /-- the MODEL's own field (log entry 8): the number of the next draw of the free values -/
  draws : Nat
  deriving DecidableEq, Repr

/-- The command slots after reset: R40 leaves them unspecified. DESIGN CHOICE (log entry 2). -/
def Slots.reset : Slots where
  vectorOffset := 0
  vectorLengthR := 0
  operandType := .i8
  op := 0
  operands := Vector.replicate 6 0
  parm := Vector.replicate 6 0
  memAddress := 0
  vect := 0
  running := 1

/-- Thread construction (R310) under a configuration: the values of R40. `x`, the slots and `returnType` are unspecified
there; the values here are DESIGN CHOICE (log entries 1, 2, 3), as are the empty command list (6) and `draws` (8). -/
def State.resetWith (cfg : Config) : State where
  cfg := cfg
  x := Vector.replicate 32 0
  mem := []
  vlen := Vector.replicate 32 0
  numContr := cfg.numContrReset
  slots := Slots.reset
  returnType := 0
  intRaised := []
  cmds := []
  pc := 0
  draws := 0

/-- The machine right after reset, under the spec's default configuration (R12, R40; log entry 5). -/
def State.reset : State := State.resetWith Config.default

end Sys2Proof.Machine
end

