-- ==== Sys2Proof/Machine/Arith.lean ====
section
/-! DEFINITION. The arithmetic primitives of R13 and R15 on element patterns, the byte order R52, and the integer square
root. An element of `w` bits is a `Nat` pattern, because the width varies with the operand type. -/

namespace Sys2Proof.Machine

open Sys2Proof

/-- R13 `u_w(v)`: the unsigned reading of the low `w` bits. -/
def uns (w v : Nat) : Nat := v % 2 ^ w

/-- R13 `s_w(v)`: the two's-complement reading of the low `w` bits. -/
def sgn (w v : Nat) : Int := if uns w v < 2 ^ (w - 1) then (uns w v : Int) else (uns w v : Int) - 2 ^ w

/-- R13 `u_w` of an exact integer: its `w`-bit pattern. -/
def pat (w : Nat) (t : Int) : Nat := (t % 2 ^ w).toNat

/-- R15 `MAX_SIGNED(w)`. -/
def maxSigned (w : Nat) : Int := 2 ^ (w - 1) - 1

/-- R15 `MIN_SIGNED(w)`. -/
def minSigned (w : Nat) : Int := -2 ^ (w - 1)

/-- R15 `MAX_UNSIGNED(w)`, which is also the document's `sizeMask` of a `w`-bit type. -/
def maxUnsigned (w : Nat) : Nat := 2 ^ w - 1

/-- R15: the pattern of `MIN_SIGNED(w)`, the document's `signBit`. -/
def signBit (w : Nat) : Nat := 2 ^ (w - 1)

/-- R52: the little-endian number of a byte sequence. -/
def leNat : List Byte → Nat
  | [] => 0
  | b :: bs => b.toNat + 256 * leNat bs

/-- R52: the `n` low bytes of a number, least significant first. -/
def leBytes : Nat → Nat → List Byte
  | 0, _ => []
  | n + 1, v => BitVec.ofNat 8 v :: leBytes n (v / 256)

/-- The greatest `q < r + 2 ^ n` with `q * q ≤ v`, given `r * r ≤ v`: one bit at a time from the top. -/
def isqrtFrom (v : Nat) : Nat → Nat → Nat
  | 0, r => r
  | n + 1, r => if (r + 2 ^ n) * (r + 2 ^ n) ≤ v then isqrtFrom v n (r + 2 ^ n) else isqrtFrom v n r

/-- R273: the greatest `q` with `q * q ≤ v`. -/
def isqrt (v : Nat) : Nat := isqrtFrom v (Nat.log2 v / 2 + 1) 0

end Sys2Proof.Machine
end

