-- ==== Sys2Proof/Machine/Flags.lean ====
section
/-! DEFINITION. The mask bits (R30) and trap-enable predicates (R283), and every overflow condition an operation
computes. The core has no flag register (R38): these values live inside one operation, in a sideband lane, or in
`intRaised`. -/

namespace Sys2Proof.Machine

open Sys2Proof

/-! Mask bits (R30). The positions are named constants so that another assignment can be substituted (U2; log entry 18). -/

def mskBit0 : Word := 0x01
def mskOverflUnsign : Word := 0x02
def mskOverflSign : Word := 0x04
def mskOverflFloat : Word := 0x08
def mskFloatInvalid : Word := 0x10
/-- composite (R30) -/
def mskOverflI : Word := mskOverflSign ||| mskOverflUnsign
/-- composite (R30) -/
def mskOverflAll : Word := mskOverflI ||| mskOverflFloat

/-- R281: the numeric code of an interrupt kind, a named constant (U1; log entry 18). -/
def intCode : IntKind → Nat
  | .instIllegal => 1
  | .overflSign => 2
  | .overflUnsign => 3
  | .overflFloat => 4
  | .floatInvalid => 5

/-- R283 `TrapS`. -/
def trapS (o : Word) : Bool := o &&& mskOverflSign != 0
/-- R283 `TrapU`. -/
def trapU (o : Word) : Bool := o &&& mskOverflUnsign != 0
/-- R283 `TrapF`. -/
def trapF (o : Word) : Bool := o &&& mskOverflFloat != 0
/-- R283 `TrapInv`. -/
def trapInv (o : Word) : Bool := o &&& mskFloatInvalid != 0

/-- The interrupt list of one `if cond then raise k` statement. -/
def raiseIf (cond : Bool) (k : IntKind) : List IntKind := if cond then [k] else []

/-- The pattern of R114 and R273: signed if enabled, else unsigned if enabled, at most one. -/
def signedElseUnsigned (opts : Word) : List IntKind :=
  if trapS opts then [.overflSign] else raiseIf (trapU opts) .overflUnsign

/-- An exact integer that does not fit the signed `w`-bit type (R120, R241, R245, R251 to R253). -/
def overS (w : Nat) (t : Int) : Bool := decide (t > maxSigned w ∨ t < minSigned w)

/-- An exact integer that does not fit the unsigned `w`-bit type (R243, R244, R246). -/
def overU (w : Nat) (t : Int) : Bool := decide (t > maxUnsigned w ∨ t < 0)

/-- R120 `lostU`: `b * 2^imm` does not fit unsigned. For `imm ≥ w` the rule says `b ≠ 0`. -/
def shiftLosesU (w b imm : Nat) : Bool := if imm < w then overU w (b * 2 ^ imm : Nat) else b != 0

/-- R120 `lostS`: `s_w(b) * 2^imm` does not fit signed. For `imm ≥ w` that is `b ≠ 0`, DEDUCED (log entry 15). -/
def shiftLosesS (w b imm : Nat) : Bool := if imm < w then overS w (sgn w b * 2 ^ imm) else b != 0

/-- Signed saturation of an exact integer: the pattern, and whether it saturated (R241). -/
def satS (w : Nat) (t : Int) : Nat × Bool :=
  if t > maxSigned w then (2 ^ (w - 1) - 1, true)
  else if t < minSigned w then (signBit w, true)
  else (pat w t, false)

/-- Unsigned saturation of an exact integer to `[0, sizeMask]`: the pattern, and whether it saturated (R243, R244). -/
def satU (w : Nat) (t : Int) : Nat × Bool :=
  if t > maxUnsigned w then (maxUnsigned w, true)
  else if t < 0 then (0, true)
  else (t.toNat, false)

/-- One unit of the sideband flag byte: bit 0 unsigned overflow, bit 1 signed overflow (R250). -/
def flagByte (ovU ovS : Bool) : Nat := (if ovU then 1 else 0) ||| (if ovS then 2 else 0)

end Sys2Proof.Machine
end

