-- ==== Sys2Proof/Machine/Float.lean ====
section
/-! DEFINITION. The IEEE 754 formats of R272, the conversions of R162 and R167, the correctly rounded square root of R274
and the binary64 heuristic of R247. A finite float is an exact dyadic number `m * 2^e`; every result is computed exactly
and rounded once. -/

namespace Sys2Proof.Machine

open Sys2Proof

/-- A binary interchange format of R272. -/
structure FloatFormat where
  expBits : Nat
  manBits : Nat
  deriving DecidableEq, Repr

def float16 : FloatFormat := ⟨5, 10⟩
def float32 : FloatFormat := ⟨8, 23⟩
def float64 : FloatFormat := ⟨11, 52⟩

/-- R272, column "bias". -/
def FloatFormat.bias (f : FloatFormat) : Nat := 2 ^ (f.expBits - 1) - 1
/-- R272, column "emax". -/
def FloatFormat.emax (f : FloatFormat) : Nat := 2 ^ f.expBits - 1
/-- R272, column "total bits". -/
def FloatFormat.width (f : FloatFormat) : Nat := 1 + f.expBits + f.manBits
/-- The exponent of the least normal number. -/
def FloatFormat.emin (f : FloatFormat) : Int := 1 - f.bias

/-- The sign bit of a pattern. -/
def FloatFormat.sign (f : FloatFormat) (v : Nat) : Bool := v.testBit (f.expBits + f.manBits)
/-- The exponent field of a pattern. -/
def FloatFormat.exp (f : FloatFormat) (v : Nat) : Nat := v / 2 ^ f.manBits % 2 ^ f.expBits
/-- The mantissa field of a pattern. -/
def FloatFormat.man (f : FloatFormat) (v : Nat) : Nat := v % 2 ^ f.manBits

def FloatFormat.isNaN (f : FloatFormat) (v : Nat) : Bool := f.exp v == f.emax && f.man v != 0
def FloatFormat.isInf (f : FloatFormat) (v : Nat) : Bool := f.exp v == f.emax && f.man v == 0
def FloatFormat.isZero (f : FloatFormat) (v : Nat) : Bool := f.exp v == 0 && f.man v == 0
def FloatFormat.isFinite (f : FloatFormat) (v : Nat) : Bool := f.exp v != f.emax

/-- A pattern from its sign and its lower `width - 1` bits. -/
def FloatFormat.pack (f : FloatFormat) (neg : Bool) (mag : Nat) : Nat :=
  (if neg then 2 ^ (f.expBits + f.manBits) else 0) + mag

/-- The lower bits of infinity. -/
def FloatFormat.infMag (f : FloatFormat) : Nat := f.emax * 2 ^ f.manBits

/-- R272: the magnitude of a finite pattern as `m * 2^e`. -/
def FloatFormat.unpack (f : FloatFormat) (v : Nat) : Nat × Int :=
  if f.exp v = 0 then (f.man v, f.emin - f.manBits)
  else (f.man v + 2 ^ f.manBits, (f.exp v : Int) - f.bias - f.manBits)

/-- The NaN encoding of a format taken from raw bits: any sign, any mantissa but zero. Every NaN encoding is the
image of some raw bits, so a free argument leaves the NaN unspecified (U4). -/
def FloatFormat.nanOfBits (f : FloatFormat) (raw : BitVec 64) : Nat :=
  let man := raw.toNat % 2 ^ f.manBits
  f.pack (raw.getLsbD 63) (f.infMag + (if man = 0 then 2 ^ (f.manBits - 1) else man))

/-- R272: the positive quiet NaN with zero payload. -/
def FloatFormat.quietNaN (f : FloatFormat) : Nat := f.infMag + 2 ^ (f.manBits - 1)

/-- A produced NaN (R162, R167, R272, R274; U4): a draw, or the default quiet NaN by the parameter `nanPayload`. -/
def FloatFormat.producedNaN (f : FloatFormat) (cfg : Config) (draw lane : Nat) : Nat :=
  match cfg.nanPayload with
  | .unspecified => f.nanOfBits (Config.freeNaN draw lane)
  | .defaultQuiet => f.quietNaN

/-- `m / 2^k` rounded to an integer, for a value of sign `neg`. -/
def roundShift (mode : RoundingMode) (neg : Bool) (m k : Nat) : Nat :=
  let q := m / 2 ^ k
  let r := m % 2 ^ k
  let up : Bool := match mode with
    | .nearestEven => decide (2 * r > 2 ^ k) || (decide (2 * r = 2 ^ k) && decide (q % 2 = 1))
    | .nearestAway => decide (2 * r ≥ 2 ^ k)
    | .towardZero => false
    | .towardPositive => decide (r ≠ 0) && !neg
    | .towardNegative => decide (r ≠ 0) && neg
  if up then q + 1 else q

/-- The lower bits of a result too large for the format: infinity, or the largest finite number in a mode that
rounds away from infinity (PRESUMED for the modes other than to-nearest-even, log entry 9). -/
def FloatFormat.overflowMag (f : FloatFormat) (mode : RoundingMode) (neg : Bool) : Nat :=
  match mode, neg with
  | .nearestEven, _ => f.infMag
  | .nearestAway, _ => f.infMag
  | .towardZero, _ => f.infMag - 1
  | .towardPositive, false => f.infMag
  | .towardPositive, true => f.infMag - 1
  | .towardNegative, false => f.infMag - 1
  | .towardNegative, true => f.infMag

/-- The pattern nearest to `±m * 2^e` in the format (R162, R274), subnormal results included. With `t` the distance of
the value's exponent above the least normal one, the value is rounded to a multiple of `2^(emin - manBits + t)`. -/
def FloatFormat.roundDyadic (f : FloatFormat) (mode : RoundingMode) (neg : Bool) (m : Nat) (e : Int) : Nat :=
  if m = 0 then f.pack neg 0
  else
    let t := ((Nat.log2 m : Int) + e - f.emin).toNat
    let q : Int := f.emin - f.manBits + t
    let n := if e ≤ q then roundShift mode neg m (q - e).toNat else m * 2 ^ (e - q).toNat
    let mag := t * 2 ^ f.manBits + n
    f.pack neg (if mag ≥ f.infMag then f.overflowMag mode neg else mag)

/-- The IEEE 754 format conversion of R162 and R167; `nan` is the NaN it produces. -/
def convertFloat (src dst : FloatFormat) (mode : RoundingMode) (nan v : Nat) : Nat :=
  if src.isNaN v then nan
  else if src.isInf v then dst.pack (src.sign v) dst.infMag
  else dst.roundDyadic mode (src.sign v) (src.unpack v).1 (src.unpack v).2

/-- R274, last arm: the correctly rounded square root of the positive finite pattern `v`. The root is taken of
`m * 2^(2*(manBits + 4))`, exactly but for one sticky bit, which lies below every rounding point. -/
def FloatFormat.sqrtFinite (f : FloatFormat) (mode : RoundingMode) (v : Nat) : Nat :=
  let m := (f.unpack v).1
  let e := (f.unpack v).2
  let odd := (e % 2).toNat
  let scale := f.manBits + 4
  let m1 := m * 2 ^ (odd + 2 * scale)
  let root := isqrt m1
  let sticky := if root * root = m1 then 0 else 1
  f.roundDyadic mode false (2 * root + sticky) ((e - odd) / 2 - scale - 1)

/-- An exact integer rounded to binary64, as an integer: the conversion `(double)` of R247. -/
def toBinary64 (mode : RoundingMode) (t : Int) : Int :=
  let k := Nat.log2 t.natAbs - 52
  let m := roundShift mode (decide (t < 0)) t.natAbs k * 2 ^ k
  if t < 0 then -(m : Int) else m

/-- R247, the source's heuristic: `fabs((double)a * (double)b - (double)r) > 1e8`, for the exact readings `a`, `b` and the
wrapped product's reading `r`. The rounding of each operation is `roundingMode` (log entry 10). -/
def mul64Heuristic (mode : RoundingMode) (a b r : Int) : Bool :=
  let product := toBinary64 mode (toBinary64 mode a * toBinary64 mode b)
  decide ((toBinary64 mode (product - toBinary64 mode r)).natAbs > 100000000)

end Sys2Proof.Machine
end

