-- ==== Sys2Proof/Machine/Ops.lean ====
section
/-! DEFINITION. The named operations over the vector backing store and the registers (R16), raising an interrupt (R284),
and the end of a command (R96, R287). There is no return from an interrupt (R291). -/

namespace Sys2Proof.Machine

open Sys2Proof

/-- The outcome of an instruction or a step. -/
abbrev StepOutcome := Host.Outcome State Fault Refusal

/-! ## Memory -/

/-- What an unlisted address reads as. The stored byte is unspecified and unobservable (R40, U15): DESIGN CHOICE (log
entry 4). -/
def Memory.unlisted : Byte := 0

/-- R16 `MemRead` of one byte. -/
def Memory.read : Memory → Nat → Byte
  | [], _ => Memory.unlisted
  | (a, b) :: m, i => if a = i then b else Memory.read m i

/-- The canonical form: addresses strictly rising, no entry equal to what an unlisted address reads as. -/
abbrev Memory.wf (m : Memory) : Prop :=
  m.Pairwise (fun p q => p.1 < q.1) ∧ ∀ p ∈ m, p.2 ≠ Memory.unlisted

/-- The entries of a byte sequence stored from address `base` on. -/
def Memory.cells : Nat → List Byte → Memory
  | _, [] => []
  | base, b :: bs =>
    if b = Memory.unlisted then Memory.cells (base + 1) bs else (base, b) :: Memory.cells (base + 1) bs

/-- The store with the window of `size` bytes from `base` on replaced by `bs`, padded with unlisted bytes. -/
def Memory.splice (m : Memory) (base size : Nat) (bs : List Byte) : Memory :=
  m.filter (fun p => p.1 < base) ++ Memory.cells base (bs.take size) ++ m.filter (fun p => base + size ≤ p.1)

/-- R50: the first byte address of vector register `r`. -/
def State.vbase (s : State) (r : RegIx) : Nat := r.val * s.cfg.maxVectorLength

/-! ## Registers -/

/-- R16 `x[i]`. -/
def State.gpr (s : State) (r : RegIx) : Word := s.x[r.val]

/-- R16 `x[i] <- v`. -/
def State.setGpr (s : State) (r : RegIx) (v : Word) : State := { s with x := s.x.set r.val v }

/-- R16 `VLen[r]`. -/
def State.len (s : State) (r : RegIx) : Nat := s.vlen[r.val]

/-- R16 `VB(r, i)`: the stored byte below `VLen[r]`, else 0 (R31, R57). -/
def State.vb (s : State) (r : RegIx) (i : Nat) : Byte := if i < s.len r then s.mem.read (s.vbase r + i) else 0

/-- The `n` bytes of `v[r]` from offset `off` on, with the zero tail. -/
def State.vslice (s : State) (r : RegIx) (off n : Nat) : List Byte := (List.range n).map fun k => s.vb r (off + k)

/-- R16 `VBytes(r, L)`. -/
def State.vbytes (s : State) (r : RegIx) (n : Nat) : List Byte := s.vslice r 0 n

/-- R16 `VElem(r, off, n)`: `n` bytes as a little-endian number (R52). -/
def State.velem (s : State) (r : RegIx) (off n : Nat) : Nat := leNat (s.vslice r off n)

/-- Bit 0 of the byte of `v[r]` at an offset: a lane's boolean, a carry, a borrow. -/
def State.bit0 (s : State) (r : RegIx) (off : Nat) : Bool := (s.vb r off).getLsbD 0

/-- R16 `v[r] <- bytes`: content and length in one update. The length is clamped to `MaxVectorLength` (R57; log entry
20); stored bytes past the new length become unlisted (R31, log entry 4). -/
def State.setVec (s : State) (r : RegIx) (bs : List Byte) : State :=
  { s with
    mem := s.mem.splice (s.vbase r) s.cfg.maxVectorLength bs
    vlen := s.vlen.set r.val (min bs.length s.cfg.maxVectorLength) }

/-- R16 `clampL(n)`. -/
def State.clampL (s : State) (n : Nat) : Nat := min n s.cfg.maxVectorLength

/-! ## Interrupts -/

/-- R284 `raise INT_X`: the entry `(kind, pc)` is appended to `intRaised`, and nothing else changes. This is the whole of
taking an interrupt: no register is saved, no mode, mask or `pc` changes (R289). -/
def raise (k : IntKind) (s : State) : State := { s with intRaised := s.intRaised ++ [(k, s.pc)] }

/-- Several `raise` statements in order (R288). -/
def raiseAll (ks : List IntKind) (s : State) : State := ks.foldl (fun t k => raise k t) s

/-- R76, R78: an illegal command raises `INT_INST_ILLEGAL` once and changes no other state. -/
def illegal (s : State) : State := raise .instIllegal s

/-! ## The end of a command -/

/-- The debug tag after a command (R32): the tag of the rule, or a free value where the spec ties none to the operation
(U6). Each executed command takes the next draw number. -/
def State.tagged (s : State) (tag : Option (BitVec 16)) : State :=
  { s with
    returnType := tag.getD (Config.freeReturnType s.draws)
    draws := s.draws + 1 }

/-- `t` without the commits made since `s`: registers, vector bytes and lengths are those of `s` (R287 with
`commitOnInterrupt = false`; log entry 13). -/
def State.uncommitted (s t : State) : State := { t with x := s.x, mem := s.mem, vlen := s.vlen }

/-- R96, R287: the state after the command that took `s` to `t` and raised `ks`. Its writes stand unless an interrupt
was raised and `commitOnInterrupt` is false; the interrupts are recorded in order. -/
def finishState (s t : State) (tag : Option (BitVec 16)) (ks : List IntKind) : State :=
  raiseAll ks (if ks.isEmpty || s.cfg.commitOnInterrupt then t.tagged tag else s.uncommitted (t.tagged tag))

/-- The end of a command is always a next state. -/
def finish (s t : State) (tag : Option (BitVec 16)) (ks : List IntKind) : StepOutcome := .next (finishState s t tag ks)

/-- R100: `pc <- pc + 1`. -/
def State.advance (s : State) : State := { s with pc := s.pc + 1 }

end Sys2Proof.Machine
end

