-- ==== Sys2Proof/Machine/Operands.lean ====
section
/-! DEFINITION. Operand types (R14), the parameter slots (R84), the options word (R86), and the execution classes with
their loops and commits (R88 to R94). -/

namespace Sys2Proof.Machine

open Sys2Proof

/-! ## Operand types -/

/-- R14 `dataSize`, in bytes (`S`). -/
def dataSize : OpType → Nat
  | .i8 => 1
  | .i16 => 2
  | .i32 => 4
  | .i64 => 8
  | .i128 => 16
  | .f32 => 4
  | .f64 => 8

/-- R14 `dataSizeBits` (`W`). -/
def dataBits (ot : OpType) : Nat := 8 * dataSize ot

/-- R14 `dataSizeLog` (`LG`). -/
def dataSizeLog : OpType → Nat
  | .i8 => 0
  | .i16 => 1
  | .i32 => 2
  | .i64 => 3
  | .i128 => 4
  | .f32 => 2
  | .f64 => 3

/-- R14: operand types 5 and 6. -/
def isFloatType : OpType → Bool
  | .f32 => true
  | .f64 => true
  | _ => false

/-! The operand-type sets of R74's column "ot". -/

/-- "any" and 0 to 6 -/
def typesAll : OpType → Bool := fun _ => true
/-- 0, 1, 2, 3, 5, 6: at most 64 bits (R75) -/
def typesTo64 : OpType → Bool := fun ot => ot != .i128
/-- 0 to 3 -/
def typesInt64 : OpType → Bool := fun ot => ot != .i128 && !isFloatType ot
/-- 0 to 4 -/
def typesInt : OpType → Bool := fun ot => !isFloatType ot
/-- 5, 6 -/
def typesFloat : OpType → Bool := isFloatType

/-! ## Command slots -/

/-- The six parameter slots (R28). -/
abbrev Parms := Vector Word 6

/-- `parm[0]`: the old destination value (R84). -/
def Parms.old (p : Parms) : Word := p[0]
/-- `parm[1]` (R17 `a`). -/
def Parms.a (p : Parms) : Word := p[1]
/-- `parm[2]` (R17 `b`). -/
def Parms.b (p : Parms) : Word := p[2]
/-- `parm[3]` (R17 `opts`). -/
def Parms.opts (p : Parms) : Word := p[3]
/-- `parm[4]` (R82): the immediate, zero-extended. -/
def Parms.imm (p : Parms) : Word := p[4]
/-- `parm[5]` (R17 `aux`). -/
def Parms.aux (p : Parms) : Word := p[5]

/-- What a handler gives back (R87): its result, the value it leaves in `parm[5]`, and the interrupts it raises. -/
structure Ret where
  result : Word
  aux : Word := 0
  raised : List IntKind := []
  deriving DecidableEq, Repr

/-- The vector register a mask field names (R70). -/
def maskReg (m : Fin 7) : RegIx := ⟨m.val, by omega⟩

/-- The register index placed in `operands[1]` (R27): the mask field, 7 for none. -/
def maskField : Option (Fin 7) → RegIx
  | some m => maskReg m
  | none => 7

/-- R26, R27: the slots the decoder fills from the command's fields. -/
def decodedSlots (op : BitVec 6) (c : Fields) (s : State) : Slots :=
  { s.slots with
    operandType := c.ot
    op := op
    operands := #v[c.rd, maskField c.rm, 0, 0, c.rs, c.rt] }

/-- R86: the options word of the lane at offset `off`; `masked` says whether the operation's syntax shows a mask. -/
def options (masked : Bool) (c : Fields) (s : State) (off : Nat) : Word :=
  match masked, c.rm with
  | true, some m => BitVec.ofNat 64 (s.velem (maskReg m) off (min (dataSize c.ot) 8))
  | _, _ => s.numContr

/-- R84, column "class S". -/
def scalarParms (c : Fields) (s : State) : Parms :=
  #v[s.gpr c.rd, s.gpr c.rs, s.gpr c.rt, s.numContr, c.imm.setWidth 64, 0]

/-- R84, column "classes G, W, X". -/
def wholeParms (masked : Bool) (c : Fields) (s : State) : Parms :=
  #v[0, s.gpr c.rs, 0, options masked c s 0, c.imm.setWidth 64, 0]

/-- R84, column "class L and P": `vectorRs` says whether `rs` names a vector register (R83). -/
def laneParms (masked vectorRs : Bool) (c : Fields) (s : State) (off : Nat) : Parms :=
  let n := min (dataSize c.ot) 8
  #v[BitVec.ofNat 64 (s.velem c.rd off n),
     if vectorRs then BitVec.ofNat 64 (s.velem c.rs off n) else s.gpr c.rs,
     BitVec.ofNat 64 (s.velem c.rt (if vectorRs then off else 0) n),
     options masked c s off,
     c.imm.setWidth 64,
     if c.ot = .i128 then BitVec.ofNat 64 (s.velem c.rd (off + 8) 8) else 0]

/-! ## Execution classes -/

/-- Class S (R88, R92): one invocation, `x[rd] <- result`, `aux` discarded. -/
def scalarOp (op : BitVec 6) (types : OpType → Bool) (c : Fields) (s : State) (handler : Parms → Ret) : StepOutcome :=
  if types c.ot then
    let p := scalarParms c s
    let r := handler p
    let slots := { decodedSlots op c s with parm := p, vect := 0, running := 1 }
    finish s ({ s with slots := slots }.setGpr c.rd r.result) none r.raised
  else .next (illegal s)

/-- Class G (R88, R92): one invocation, `x[rd] <- result`, with `returnType = 0x12` (R153, R154). -/
def getterOp (op : BitVec 6) (types : OpType → Bool) (c : Fields) (s : State) (result : Word) : StepOutcome :=
  if types c.ot then
    let slots := { decodedSlots op c s with parm := wholeParms false c s, vect := 0, running := 1 }
    finish s ({ s with slots := slots }.setGpr c.rd result) (some 0x12) []
  else .next (illegal s)

/-- Class W (R88, R93): one invocation with `vectorOffset = 0`; the handler gives, from its parameter slots and the state
before the operation, the new bytes of `v[rd]` and the interrupts it raises, and sets `running = 2`, `vect = 4`. -/
def wholeOp (op : BitVec 6) (types : OpType → Bool) (masked : Bool) (c : Fields) (s : State)
    (handler : Parms → List Byte × List IntKind) : StepOutcome :=
  if types c.ot then
    let p := wholeParms masked c s
    let r := handler p
    let slots := { decodedSlots op c s with vectorOffset := 0, parm := p, vect := 4, running := 2 }
    finish s ({ s with slots := slots }.setVec c.rd r.1) none r.2
  else .next (illegal s)

/-- Class X (R88, R94): one invocation with `vectorOffset = 0`; the `S` low bytes of `aux ++ result` become `v[rd]`. -/
def extractOp (op : BitVec 6) (types : OpType → Bool) (c : Fields) (s : State) (handler : Parms → Ret) : StepOutcome :=
  if types c.ot then
    let p := wholeParms false c s
    let r := handler p
    let slots := { decodedSlots op c s with vectorOffset := 0, parm := p.set 5 r.aux, vect := 1, running := 1 }
    finish s ({ s with slots := slots }.setVec c.rd
      ((leBytes 8 r.result.toNat ++ leBytes 8 r.aux.toNat).take (dataSize c.ot))) none r.raised
  else .next (illegal s)

/-- R90: the bytes a lane receives. -/
def laneBytes (size : Nat) (r : Ret) : List Byte :=
  if size ≤ 8 then leBytes size r.result.toNat else leBytes 8 r.result.toNat ++ leBytes 8 r.aux.toNat

/-- R91: the bytes a pair of lanes receives, `result` in the even lane and `aux` in the odd lane. -/
def pairBytes (size : Nat) (r : Ret) : List Byte := leBytes size r.result.toNat ++ leBytes size r.aux.toNat

/-- The loops of R90 and R91 over `n` invocations `stride` bytes apart. `fill` gives the parameter slots at an offset,
`handler` the invocation at it, `bytes` what an invocation contributes to the destination. Every invocation reads the
state before the operation (the snapshots of R90), so no invocation sees another's writes. The slots are left as the
last invocation leaves them; without an invocation only the decoder's fields and `vectorLengthR` are written. The loop
runs over the exact length; the 64-bit slots `vectorLengthR` and `vectorOffset` hold it and the offset modulo `2^64`,
which shows only at lengths of `2^64` bytes or more: DESIGN CHOICE (log entry 19). -/
def loopOp (op : BitVec 6) (c : Fields) (s : State) (lengthR stride : Nat) (fill : Nat → Parms)
    (handler : Nat → Parms → Ret) (bytes : Ret → List Byte) : StepOutcome :=
  let n := lengthR / stride
  let ret := fun k => handler (k * stride) (fill (k * stride))
  let base := { decodedSlots op c s with vectorLengthR := BitVec.ofNat 64 lengthR }
  let slots := match n with
    | 0 => base
    | k + 1 =>
      { base with
        vectorOffset := BitVec.ofNat 64 (k * stride)
        parm := (fill (k * stride)).set 5 (ret k).aux
        vect := 1
        running := 1 }
  let rets := (List.range n).map ret
  finish s ({ s with slots := slots }.setVec c.rd (rets.flatMap bytes)) none (rets.flatMap (·.raised))

/-- Class L (R88, R90): the lane loop over `lengthR` bytes. The handler is given its lane's offset beside its slots. -/
def laneOp (op : BitVec 6) (types : OpType → Bool) (masked vectorRs : Bool) (c : Fields) (s : State) (lengthR : Nat)
    (handler : Nat → Parms → Ret) : StepOutcome :=
  if types c.ot then
    loopOp op c s lengthR (dataSize c.ot) (laneParms masked vectorRs c s) handler (laneBytes (dataSize c.ot))
  else .next (illegal s)

/-- Class P (R88, R91): the pair loop over `VLen[rs]` bytes (R89). -/
def pairOp (op : BitVec 6) (types : OpType → Bool) (masked : Bool) (c : Fields) (s : State)
    (handler : Nat → Parms → Ret) : StepOutcome :=
  if types c.ot then
    loopOp op c s (s.len c.rs) (2 * dataSize c.ot) (laneParms masked true c s) handler (pairBytes (dataSize c.ot))
  else .next (illegal s)

end Sys2Proof.Machine
end

