-- ==== Sys2Proof/Machine/Compress.lean ====
section
/-! DEFINITION. Compress, expand and the sparse networks (43_compress_expand.md). -/

namespace Sys2Proof.Machine

open Sys2Proof

/-- R161: the selector of a narrowing. -/
inductive Narrowing where
  | wrap | signedSat | unsignedSat
  deriving DecidableEq, Repr

/-- One narrowed element with the overflow conditions of R161 and R162. -/
structure Narrowed where
  value : Nat
  ovU : Bool := false
  ovS : Bool := false
  ovF : Bool := false
  deriving DecidableEq, Repr

/-- R160: the number of whole elements in a requested length. -/
def elementCount (ot : OpType) (length : Nat) : Nat := length / dataSize ot

/-- R161 `NarrowI(sel, e, W)`. -/
def narrowInt (cfg : Config) (sel : Narrowing) (w e : Nat) : Narrowed :=
  let h := w / 2
  { value := match sel with
      | .wrap => uns h e
      | .signedSat =>
        if sgn w e > maxSigned h then 2 ^ (h - 1) - 1
        else if sgn w e < minSigned h then signBit h
        else uns h e
      | .unsignedSat =>
        if cfg.compressUsSourceSigned && decide (sgn w e < 0) then 0
        else if uns w e > maxUnsigned h then maxUnsigned h
        else uns h e
    ovU := decide (uns w e > maxUnsigned h)
    ovS := overS h (sgn w e) }

/-- The wide format of a float operand type: the type itself (R160, R162). -/
def wideFormat : OpType → FloatFormat
  | .f64 => float64
  | _ => float32

/-- The narrow format: float16 for `ot` 5, float32 for `ot` 6 (R162). -/
def narrowFormat : OpType → FloatFormat
  | .f64 => float32
  | _ => float16

/-- R162 `NarrowF(e, ot)`; `lane` numbers the draw of a produced NaN (U4). -/
def narrowFloat (cfg : Config) (draw lane : Nat) (ot : OpType) (e : Nat) : Narrowed :=
  let src := wideFormat ot
  let dst := narrowFormat ot
  let y := convertFloat src dst cfg.roundingMode (dst.producedNaN cfg draw lane) e
  { value := y, ovF := src.isFinite e && dst.isInf y }

/-- R164: the narrowed elements of `v[rt]`; a float type ignores the selector (R162). -/
def narrowedElements (sel : Narrowing) (c : Fields) (s : State) (length : Nat) : List Narrowed :=
  (List.range (elementCount c.ot length)).map fun i =>
    let e := s.velem c.rt (i * dataSize c.ot) (dataSize c.ot)
    if isFloatType c.ot then narrowFloat s.cfg s.draws i c.ot e
    else narrowInt s.cfg sel (dataBits c.ot) e

/-- R161, R164 at `ot = 0`: two 4-bit elements a byte, the first in bits 3:0; an unpaired last element is dropped. -/
def packNibbles : List Nat → List Byte
  | a :: b :: rest => BitVec.ofNat 8 (b * 16 + a) :: packNibbles rest
  | _ => []

/-- R164: the bytes of the narrowed elements. -/
def compressedBytes (ot : OpType) (ys : List Nat) : List Byte :=
  match ot with
  | .i8 => packNibbles ys
  | _ => ys.flatMap (leBytes (dataSize ot / 2))

/-- R163: the traps of the accumulated conditions, in the order signed, unsigned, float. -/
def compressTraps (opts : Word) (es : List Narrowed) : List IntKind :=
  raiseIf (es.any (·.ovS) && trapS opts) .overflSign
    ++ raiseIf (es.any (·.ovU) && trapU opts) .overflUnsign
    ++ raiseIf (es.any (·.ovF) && trapF opts) .overflFloat

/-- R164 under a selector. -/
def compressOp (op : BitVec 6) (sel : Narrowing) (c : Fields) (s : State) : StepOutcome :=
  wholeOp op typesAll true c s fun p =>
    let es := narrowedElements sel c s (s.clampL p.a.toNat)
    (compressedBytes c.ot (es.map (·.value)), compressTraps p.opts es)

/-- R167 `WidenI(sel, e, W)`: zero- or sign-extension of an `h`-bit element. -/
def widenInt (signed : Bool) (w e : Nat) : Nat := if signed then pat w (sgn (w / 2) e) else uns (w / 2) e

/-- R167 `WidenF(e, ot)`. Widening is exact, so the rounding mode is not consulted. -/
def widenFloat (cfg : Config) (draw lane : Nat) (ot : OpType) (e : Nat) : Nat :=
  let dst := wideFormat ot
  convertFloat (narrowFormat ot) dst .nearestEven (dst.producedNaN cfg draw lane) e

/-- R167, R168: source element `i` of an expansion; at `ot = 0` it is a half of byte `i div 2`. -/
def narrowElement (c : Fields) (s : State) (i : Nat) : Nat :=
  match c.ot with
  | .i8 =>
    let b := (s.vb c.rt (i / 2)).toNat
    if i % 2 = 0 then b % 16 else b / 16
  | _ => s.velem c.rt (i * (dataSize c.ot / 2)) (dataSize c.ot / 2)

/-- R168 under a selector. -/
def expandOp (op : BitVec 6) (signed : Bool) (c : Fields) (s : State) : StepOutcome :=
  wholeOp op typesAll false c s fun p =>
    ((List.range (elementCount c.ot (s.clampL p.a.toNat))).flatMap fun i =>
      let e := narrowElement c s i
      leBytes (dataSize c.ot)
        (if isFloatType c.ot then widenFloat s.cfg s.draws i c.ot e else widenInt signed (dataBits c.ot) e), [])

/-- R170, R171: the lanes of the mask register that are selected, lane `k` at offset `k*S`. -/
def laneSelected (m : Fin 7) (c : Fields) (s : State) (k : Nat) : Bool := s.bit0 (maskReg m) (k * dataSize c.ot)

/-- R170: the selected lanes in order. -/
def sparseCompressed (m : Fin 7) (c : Fields) (s : State) (n : Nat) : List Byte :=
  (List.range n).flatMap fun k =>
    if laneSelected m c s k then s.vslice c.rt (k * dataSize c.ot) (dataSize c.ot) else []

/-- R171: how many lanes before lane `k` are selected, which is the source lane that lane `k` consumes. -/
def selectedBefore (m : Fin 7) (c : Fields) (s : State) (k : Nat) : Nat :=
  (List.range k).countP (laneSelected m c s)

/-- R171: the destination lanes in order. -/
def sparseExpanded (m : Fin 7) (c : Fields) (s : State) (n : Nat) : List Byte :=
  (List.range n).flatMap fun k =>
    if laneSelected m c s k then s.vslice c.rt (selectedBefore m c s k * dataSize c.ot) (dataSize c.ot)
    else List.replicate (dataSize c.ot) 0

/-! ## Meanings -/

/-- R164. -/
def execCompress (c : Fields) (s : State) : StepOutcome := compressOp 4 .wrap c s

/-- R165. -/
def execCompressSs (c : Fields) (s : State) : StepOutcome := compressOp 5 .signedSat c s

/-- R166. -/
def execCompressUs (c : Fields) (s : State) : StepOutcome := compressOp 6 .unsignedSat c s

/-- R168. -/
def execExpandU (c : Fields) (s : State) : StepOutcome := expandOp 8 false c s

/-- R169. -/
def execExpandS (c : Fields) (s : State) : StepOutcome := expandOp 9 true c s

/-- R170; without a mask register the command is illegal. -/
def execCompressSparse (c : Fields) (s : State) : StepOutcome :=
  match c.rm with
  | none => .next (illegal s)
  | some m => wholeOp 10 typesAll true c s fun p =>
      (sparseCompressed m c s (elementCount c.ot (s.clampL p.a.toNat)), [])

/-- R171; without a mask register the command is illegal. -/
def execExpandSparse (c : Fields) (s : State) : StepOutcome :=
  match c.rm with
  | none => .next (illegal s)
  | some m => wholeOp 11 typesAll true c s fun p =>
      (sparseExpanded m c s (elementCount c.ot (s.clampL p.a.toNat)), [])

end Sys2Proof.Machine
end

