-- ==== Sys2Proof/Machine/BitPack.lean ====
section
/-! DEFINITION. Bit packing, boolean reduction and the floating-point classifier (45_bitpack_reduce_classify.md). -/

namespace Sys2Proof.Machine

open Sys2Proof

/-- R53: bit `i` of the bit stream of a vector register. -/
def streamBit (s : State) (r : RegIx) (i : Nat) : Bool := (s.vb r (i / 8)).getLsbD (i % 8)

/-- R191: an element `(opts & ~1) | bit`. -/
def boolElement (opts : Word) (bit : Bool) : Word := (opts &&& ~~~mskBit0) ||| (if bit then 1 else 0)

/-- R191: the destination of length `length`. -/
def bits2boolBytes (c : Fields) (s : State) (opts : Word) (length : Nat) : List Byte :=
  let n := elementCount c.ot length
  ((List.range n).flatMap fun i => leBytes (dataSize c.ot) (boolElement opts (streamBit s c.rt i)).toNat)
    ++ List.replicate (length - n * dataSize c.ot) 0

/-- A byte from its bits, least significant first. -/
def byteOfBits (bit : Nat → Bool) : Byte :=
  BitVec.ofNat 8 (((List.range 8).map fun j => if bit j then 2 ^ j else 0).sum)

/-- R195: the bit stream of bit 0 of each of the `n` lanes, in whole 4-byte blocks. -/
def bool2bitsBytes (c : Fields) (s : State) (n : Nat) : List Byte :=
  (List.range (4 * ((n + 31) / 32))).map fun q =>
    byteOfBits fun j => decide (8 * q + j < n) && s.bit0 c.rt ((8 * q + j) * dataSize c.ot)

/-- R200: bit 0 is the AND, bit 1 the OR of the lanes' booleans; a request past the source forces the AND to 0. -/
def boolReduction (c : Fields) (s : State) (req : Nat) : Nat :=
  let scan := min req (s.len c.rt)
  let lanes := (List.range (elementCount c.ot scan)).map fun k => s.bit0 c.rt (k * dataSize c.ot)
  let all := lanes.all id && !decide (scan < req)
  let any := lanes.any id
  (if all then 1 else 0) + 2 * (if any then 1 else 0)

/-- R203 `Classify(e, ot)`: the mask of the one category that holds. -/
def classify (f : FloatFormat) (e : Nat) : Nat :=
  if f.exp e = f.emax then
    if f.man e ≠ 0 then 0x01 else if f.sign e then 0x40 else 0x80
  else if f.exp e = 0 then
    if f.man e = 0 then 0x02 else if f.sign e then 0x04 else 0x08
  else if f.sign e then 0x10 else 0x20

/-- R202: the OR of the lanes' categories over the lanes of the source. -/
def categoryReduction (c : Fields) (s : State) (req : Nat) : Nat :=
  let scan := min req (s.len c.rt)
  ((List.range (elementCount c.ot scan)).map fun k =>
    classify (wideFormat c.ot) (s.velem c.rt (k * dataSize c.ot) (dataSize c.ot))).foldl (· ||| ·) 0

/-! ## Meanings -/

/-- R191. -/
def execBits2bool (c : Fields) (s : State) : StepOutcome :=
  wholeOp 16 typesAll true c s fun p => (bits2boolBytes c s p.opts (s.clampL p.a.toNat), [])

/-- R195. -/
def execBool2bits (c : Fields) (s : State) : StepOutcome :=
  wholeOp 17 typesAll false c s fun p => (bool2bitsBytes c s (elementCount c.ot (s.clampL p.a.toNat)), [])

/-- R200. -/
def execBoolReduce (c : Fields) (s : State) : StepOutcome :=
  wholeOp 18 typesInt false c s fun p => (leBytes 8 (boolReduction c s p.a.toNat), [])

/-- R202. -/
def execCategoryReduce (c : Fields) (s : State) : StepOutcome :=
  wholeOp 19 typesFloat false c s fun p => (leBytes 8 (categoryReduction c s p.a.toNat), [])

end Sys2Proof.Machine
end

