-- ==== Sys2Proof/Machine/Extended.lean ====
section
/-! DEFINITION. Carry and borrow chains and double-width division (47_extended_precision.md). -/

namespace Sys2Proof.Machine

open Sys2Proof

/-- R221, one pair: `result` and carry-out. -/
def addCarry (w a b : Nat) (cin : Bool) : Ret :=
  let am := uns w a
  let r0 := uns w (am + uns w b)
  let r := uns w (r0 + (if cin then 1 else 0))
  let carry := decide (r0 < am) || (cin && decide (r = 0))
  { result := BitVec.ofNat 64 r, aux := if carry then 1 else 0 }

/-- R222, one pair: `result` and borrow-out. -/
def subBorrow (w a b : Nat) (bin : Bool) : Ret :=
  let am := uns w a
  let bm := uns w b
  let r0 := pat w ((am : Int) - bm)
  let r := pat w ((r0 : Int) - (if bin then 1 else 0))
  let borrow := decide (am < bm) || (bin && decide (r0 = 0))
  { result := BitVec.ofNat 64 r, aux := if borrow then 1 else 0 }

/-- R225, the unsigned divider. -/
def divExUnsigned (w lo hi d : Nat) (opts : Word) : Ret :=
  let dividend := hi * 2 ^ w + lo
  if d = 0 ∨ dividend / d ≥ 2 ^ w then
    { result := BitVec.ofNat 64 (maxUnsigned w), aux := 0, raised := raiseIf (trapU opts) .overflUnsign }
  else { result := BitVec.ofNat 64 (dividend / d), aux := BitVec.ofNat 64 (dividend % d) }

/-- R225, the signed divider: quotient toward zero, remainder with the dividend's sign. -/
def divExSigned (w lo hi d : Nat) (opts : Word) : Ret :=
  let dividend := sgn (2 * w) (hi * 2 ^ w + lo)
  let dv := sgn w d
  if dv = 0 ∨ overS w (dividend.tdiv dv) then
    { result := BitVec.ofNat 64 (signBit w), aux := 0, raised := raiseIf (trapS opts) .overflSign }
  else
    { result := BitVec.ofNat 64 (pat w (dividend.tdiv dv)), aux := BitVec.ofNat 64 (pat w (dividend.tmod dv)) }

/-- R226: the types of the dividers; `ot = 3` is illegal under `divEx64 = illegal`. -/
def divExTypes (cfg : Config) (ot : OpType) : Bool :=
  typesInt64 ot && (ot != .i64 || decide (cfg.divEx64 = .exact))

/-- The odd lane of the pair at offset `off` of `v[r]` (R220). -/
def oddLane (c : Fields) (s : State) (r : RegIx) (off : Nat) : Nat :=
  s.velem r (off + dataSize c.ot) (dataSize c.ot)

/-! ## Meanings -/

/-- R221: carry-in is bit 0 of the odd lane of the first source. -/
def execAddCarry (c : Fields) (s : State) : StepOutcome :=
  pairOp 28 typesInt64 false c s fun off p =>
    addCarry (dataBits c.ot) p.a.toNat p.b.toNat (s.bit0 c.rs (off + dataSize c.ot))

/-- R222: borrow-in is bit 0 of the odd lane of the first source. -/
def execSubBorrow (c : Fields) (s : State) : StepOutcome :=
  pairOp 29 typesInt64 false c s fun off p =>
    subBorrow (dataBits c.ot) p.a.toNat p.b.toNat (s.bit0 c.rs (off + dataSize c.ot))

/-- R226: the dividend is the pair of `v[rs]`, low in the even lane; the divisor is the even lane of `v[rt]`. -/
def execDivEx (c : Fields) (s : State) : StepOutcome :=
  pairOp 30 (divExTypes s.cfg) true c s fun off p =>
    let w := dataBits c.ot
    divExSigned w (uns w p.a.toNat) (oddLane c s c.rs off) (uns w p.b.toNat) p.opts

/-- R227. -/
def execDivExU (c : Fields) (s : State) : StepOutcome :=
  pairOp 31 (divExTypes s.cfg) true c s fun off p =>
    let w := dataBits c.ot
    divExUnsigned w (uns w p.a.toNat) (oddLane c s c.rs off) (uns w p.b.toNat) p.opts

end Sys2Proof.Machine
end

