-- ==== Sys2Proof/Machine/Length.lean ====
section
/-! DEFINITION. Vector length management (42_vector_length.md). -/

namespace Sys2Proof.Machine

open Sys2Proof

/-- R151. -/
def execSetLen (c : Fields) (s : State) : StepOutcome :=
  wholeOp 0 typesAll false c s fun p => (s.vbytes c.rt (s.clampL p.a.toNat), [])

/-- R153. -/
def execGetLen (c : Fields) (s : State) : StepOutcome :=
  getterOp 1 typesAll c s (BitVec.ofNat 64 (s.len c.rt))

/-- R152: the product is exact. -/
def execSetNum (c : Fields) (s : State) : StepOutcome :=
  wholeOp 2 typesAll false c s fun p => (s.vbytes c.rt (s.clampL (p.a.toNat * dataSize c.ot)), [])

/-- R154: "byte length >> dataSizeLog[operandType]". -/
def execGetNum (c : Fields) (s : State) : StepOutcome :=
  getterOp 3 typesAll c s (BitVec.ofNat 64 (s.len c.rt >>> dataSizeLog c.ot))

end Sys2Proof.Machine
end

