-- ==== Sys2Proof/Machine/Permute.lean ====
section
/-! DEFINITION. Element extract, insert and broadcast (44_element_permute.md). -/

namespace Sys2Proof.Machine

open Sys2Proof

/-- R181: the position is the exact product, and bytes at or past `VLen[rt]` read as 0. -/
def execExtract (c : Fields) (s : State) : StepOutcome :=
  extractOp 12 typesAll c s fun p =>
    let pos := p.a.toNat * dataSize c.ot
    if s.len c.rt ≤ pos then { result := 0 }
    else
      { result := BitVec.ofNat 64 (s.velem c.rt pos 8)
        aux := if c.ot = .i128 then BitVec.ofNat 64 (s.velem c.rt (pos + 8) 8) else 0 }

/-- The high 8 bytes of the first element of `v[rt]` at `ot = 4` (R183, R184). -/
def firstElementHigh (c : Fields) (s : State) : Word :=
  if c.ot = .i128 then BitVec.ofNat 64 (s.velem c.rt 8 8) else 0

/-- R183: the lane at `x[rs] * S` returns the first element of `v[rt]`, the others their old value. -/
def execInsert (c : Fields) (s : State) : StepOutcome :=
  laneOp 13 typesAll false false c s (s.len c.rd) fun off p =>
    if off = p.a.toNat * dataSize c.ot then { result := p.b, aux := firstElementHigh c s }
    else { result := p.old, aux := p.aux }

/-- R184: every lane returns the first element of `v[rt]`; the length is `clampL(x[rs])`. -/
def execBroadcast (c : Fields) (s : State) : StepOutcome :=
  laneOp 14 typesAll false false c s (s.clampL (s.gpr c.rs).toNat) fun _ p =>
    { result := p.b, aux := firstElementHigh c s }

end Sys2Proof.Machine
end

