-- ==== Sys2Proof/Machine/Saturate.lean ====
section
/-! DEFINITION. Saturating and overflow-checked arithmetic (48_saturating_overflow_checked.md). -/

namespace Sys2Proof.Machine

open Sys2Proof

/-! ## Products (R245 to R247, R253) -/

/-- The overflow condition of a signed product: exact, or the heuristic of R247 at 64 bits by parameter. -/
def mulOverS (cfg : Config) (w a b : Nat) : Bool :=
  let t := sgn w a * sgn w b
  if w = 64 && !cfg.mul64OverflowExact then mul64Heuristic cfg.roundingMode (sgn w a) (sgn w b) (sgn w (pat w t))
  else overS w t

/-- The overflow condition of an unsigned product: exact, or the heuristic of R247 at 64 bits by parameter. -/
def mulOverU (cfg : Config) (w a b : Nat) : Bool :=
  let t := uns w a * uns w b
  if w = 64 && !cfg.mul64OverflowExact then mul64Heuristic cfg.roundingMode (uns w a) (uns w b) (uns w t)
  else overU w t

/-- R245: the saturated signed product. Which bound the heuristic of R247 saturates to is the sign of the exact product
(log entry 10). -/
def mulSatS (cfg : Config) (w a b : Nat) : Nat × Bool :=
  let t := sgn w a * sgn w b
  if mulOverS cfg w a b then (if t < 0 then signBit w else 2 ^ (w - 1) - 1, true) else (pat w t, false)

/-- R246: the saturated unsigned product. -/
def mulSatU (cfg : Config) (w a b : Nat) : Nat × Bool :=
  if mulOverU cfg w a b then (maxUnsigned w, true) else (uns w (uns w a * uns w b), false)

/-! ## Saturating operations -/

/-- R240: a signed saturating lane; it raises `INT_OVERFL_SIGN` only with `satTraps` and `TrapS(numContr)`. -/
def satSignedRet (s : State) (r : Nat × Bool) : Ret :=
  { result := BitVec.ofNat 64 r.1
    raised := raiseIf (s.cfg.satTraps && r.2 && trapS s.numContr) .overflSign }

/-- R240: an unsigned saturating lane; it raises `INT_OVERFL_UNSIGN` only with `satTraps` and `TrapU(numContr)`. -/
def satUnsignedRet (s : State) (r : Nat × Bool) : Ret :=
  { result := BitVec.ofNat 64 r.1
    raised := raiseIf (s.cfg.satTraps && r.2 && trapU s.numContr) .overflUnsign }

/-- R241 to R246: a saturating operation over the lanes of `v[rs]` and `v[rt]`; `lane w a b` is one invocation. -/
def saturatingOp (op : BitVec 6) (c : Fields) (s : State) (lane : Nat → Nat → Nat → Ret) : StepOutcome :=
  laneOp op typesInt64 false true c s (s.len c.rs) fun _ p => lane (dataBits c.ot) p.a.toNat p.b.toNat

/-! ## Overflow-checked operations -/

/-- What one overflow-checked invocation computes (R250). -/
structure Checked where
  value : Nat
  ovU : Bool
  ovS : Bool
  deriving DecidableEq, Repr

/-- R251. -/
def addChecked (w a b : Nat) : Checked :=
  { value := uns w (uns w a + uns w b)
    ovU := overU w (uns w a + uns w b : Nat)
    ovS := overS w (sgn w a + sgn w b) }

/-- R252. -/
def subChecked (w a b : Nat) : Checked :=
  { value := pat w ((uns w a : Int) - uns w b)
    ovU := decide (uns w a < uns w b)
    ovS := overS w (sgn w a - sgn w b) }

/-- R253. Under `mul64OverflowExact = false` the heuristic of R247 reads its operands "in the signedness of the operation",
which the spec does not give for `mul_oc`: the model evaluates it twice, on the unsigned readings for `ovU` and on the
signed readings for `ovS`. DESIGN CHOICE (log entry 25). -/
def mulChecked (cfg : Config) (w a b : Nat) : Checked :=
  { value := uns w (uns w a * uns w b)
    ovU := mulOverU cfg w a b
    ovS := mulOverS cfg w a b }

/-- R254. -/
def divChecked (w a b : Nat) : Checked :=
  if uns w b = 0 then { value := signBit w, ovU := true, ovS := true }
  else if sgn w a = minSigned w ∧ sgn w b = -1 then { value := signBit w, ovU := false, ovS := true }
  else { value := pat w ((sgn w a).tdiv (sgn w b)), ovU := false, ovS := false }

/-- R250: an overflow-checked operation over the pairs of `v[rs]` and `v[rt]`; the incoming flags are the first bytes of
both odd lanes. No interrupt is raised. -/
def checkedOp (op : BitVec 6) (c : Fields) (s : State) (pair : Nat → Nat → Nat → Checked) : StepOutcome :=
  pairOp op typesInt64 false c s fun off p =>
    let r := pair (dataBits c.ot) p.a.toNat p.b.toNat
    let fin := (s.vb c.rs (off + dataSize c.ot)).toNat ||| (s.vb c.rt (off + dataSize c.ot)).toNat
    { result := BitVec.ofNat 64 r.value, aux := BitVec.ofNat 64 (fin ||| flagByte r.ovU r.ovS) }

/-! ## Meanings -/

/-- R241. -/
def execAddSs (c : Fields) (s : State) : StepOutcome :=
  saturatingOp 32 c s fun w a b => satSignedRet s (satS w (sgn w a + sgn w b))

/-- R242. -/
def execSubSs (c : Fields) (s : State) : StepOutcome :=
  saturatingOp 33 c s fun w a b => satSignedRet s (satS w (sgn w a - sgn w b))

/-- R243. -/
def execAddUs (c : Fields) (s : State) : StepOutcome :=
  saturatingOp 34 c s fun w a b => satUnsignedRet s (satU w (uns w a + uns w b : Nat))

/-- R244. -/
def execSubUs (c : Fields) (s : State) : StepOutcome :=
  saturatingOp 35 c s fun w a b => satUnsignedRet s (satU w ((uns w a : Int) - uns w b))

/-- R245. -/
def execMulSs (c : Fields) (s : State) : StepOutcome :=
  saturatingOp 36 c s fun w a b => satSignedRet s (mulSatS s.cfg w a b)

/-- R246. -/
def execMulUs (c : Fields) (s : State) : StepOutcome :=
  saturatingOp 37 c s fun w a b => satUnsignedRet s (mulSatU s.cfg w a b)

/-- R251. -/
def execAddOc (c : Fields) (s : State) : StepOutcome := checkedOp 40 c s addChecked

/-- R252. -/
def execSubOc (c : Fields) (s : State) : StepOutcome := checkedOp 41 c s subChecked

/-- R253. -/
def execMulOc (c : Fields) (s : State) : StepOutcome := checkedOp 42 c s (mulChecked s.cfg)

/-- R254. -/
def execDivOc (c : Fields) (s : State) : StepOutcome := checkedOp 43 c s divChecked

end Sys2Proof.Machine
end

