-- ==== Sys2Proof/Machine/Scalar.lean ====
section
/-! DEFINITION. Scalar bit and numeric helpers (40_scalar_bit_numeric.md): tables 0 and 3. -/

namespace Sys2Proof.Machine

open Sys2Proof

/-- R110: a register value masked to the operand type. -/
def masked (ot : OpType) (v : Word) : Nat := uns (dataBits ot) v.toNat

/-- The least set bit below bit `w`. -/
def lowestBit (w v : Nat) : Option Nat := (List.range w).find? fun i => v.testBit i

/-- The greatest set bit below bit `w`. -/
def highestBit (w v : Nat) : Option Nat := (List.range w).reverse.find? fun i => v.testBit i

/-- The 64-bit all-ones sentinel of R111, R112 and R114. -/
def allOnes : Word := BitVec.allOnes 64

/-- R111. -/
def bitscanForward (ot : OpType) (a : Word) : Word :=
  match lowestBit (dataBits ot) (masked ot a) with
  | some i => BitVec.ofNat 64 i
  | none => allOnes

/-- R112. -/
def bitscanReverse (ot : OpType) (a : Word) : Word :=
  match highestBit (dataBits ot) (masked ot a) with
  | some i => BitVec.ofNat 64 i
  | none => allOnes

/-- R113. -/
def roundDownPow2 (ot : OpType) (a : Word) : Word :=
  match highestBit (dataBits ot) (masked ot a) with
  | some i => BitVec.ofNat 64 (2 ^ i)
  | none => 0

/-- R114. -/
def roundUpPow2 (ot : OpType) (a opts : Word) : Ret :=
  let am := masked ot a
  match highestBit (dataBits ot) am with
  | none => { result := 0 }
  | some i =>
    if am &&& (am - 1) = 0 then { result := BitVec.ofNat 64 am }
    else if i + 1 < dataBits ot then { result := BitVec.ofNat 64 (2 ^ (i + 1)) }
    else { result := allOnes, raised := signedElseUnsigned opts }

/-- R118, the value at `MIN_SIGNED` under the policy `imm[1:0]` (0 wrap, 1 saturate, 2 zero). -/
def absoluteOverflow (w policy : Nat) : Nat :=
  match policy with
  | 0 => signBit w
  | 1 => 2 ^ (w - 1) - 1
  | _ => 0

/-- R118, for a policy other than 3. -/
def absolute (ot : OpType) (a : Word) (imm : BitVec 32) : Ret :=
  let w := dataBits ot
  let s := sgn w (masked ot a)
  if 0 ≤ s then { result := BitVec.ofNat 64 (masked ot a) }
  else if minSigned w < s then { result := BitVec.ofNat 64 (-s).toNat }
  else
    { result := BitVec.ofNat 64 (absoluteOverflow w (imm.toNat % 4))
      raised := raiseIf (imm.getLsbD 2) .overflSign }

/-- R120. -/
def shiftAdd (ot : OpType) (a b : Word) (imm : BitVec 32) (opts : Word) : Ret :=
  let w := dataBits ot
  let am := masked ot a
  let bm := masked ot b
  let n := imm.toNat
  let r1 := if n < w then uns w (bm * 2 ^ n) else 0
  let lossS := shiftLosesS w bm n || overS w (sgn w am + sgn w r1)
  let lossU := shiftLosesU w bm n || overU w (am + r1 : Nat)
  { result := BitVec.ofNat 64 (uns w (am + r1))
    raised := raiseIf (trapS opts && lossS) .overflSign ++ raiseIf (trapU opts && lossU) .overflUnsign }

/-! ## Meanings -/

/-- R111. -/
def execBitscanForward (c : Fields) (s : State) : StepOutcome :=
  scalarOp 0 typesTo64 c s fun p => { result := bitscanForward c.ot p.b }

/-- R112. -/
def execBitscanReverse (c : Fields) (s : State) : StepOutcome :=
  scalarOp 1 typesTo64 c s fun p => { result := bitscanReverse c.ot p.b }

/-- R113. -/
def execRoundDownPow2 (c : Fields) (s : State) : StepOutcome :=
  scalarOp 2 typesTo64 c s fun p => { result := roundDownPow2 c.ot p.b }

/-- R114. -/
def execRoundUpPow2 (c : Fields) (s : State) : StepOutcome :=
  scalarOp 3 typesTo64 c s fun p => roundUpPow2 c.ot p.b p.opts

/-- R118; the policy `imm[1:0] = 3` is illegal. -/
def execAbsolute (c : Fields) (s : State) : StepOutcome :=
  if c.imm.toNat % 4 = 3 then .next (illegal s)
  else scalarOp 0 typesInt64 c s fun p => absolute c.ot p.b c.imm

/-- R120. -/
def execShiftAdd (c : Fields) (s : State) : StepOutcome :=
  scalarOp 1 typesInt64 c s fun p => shiftAdd c.ot p.a p.b c.imm p.opts

end Sys2Proof.Machine
end

