-- ==== Sys2Proof/Machine/Shift.lean ====
section
/-! DEFINITION. Vector lane shifts and rotates (46_vector_shift_rotate.md). -/

namespace Sys2Proof.Machine

open Sys2Proof

/-- `n` bytes of `v[r]` moved up by `k`, zeros entering below (R211, R213). -/
def shiftedUp (s : State) (r : RegIx) (k n : Nat) : List Byte :=
  (List.range n).map fun i => if i < k then 0 else s.vb r (i - k)

/-- R215, R216: the ring of the first `n` elements of `v[rt]`, element `from i` in position `i`. -/
def ring (c : Fields) (s : State) (n : Nat) (source : Nat → Nat) : List Byte :=
  (List.range n).flatMap fun i => s.vslice c.rt (source i * dataSize c.ot) (dataSize c.ot)

/-! ## Meanings -/

/-- R211. -/
def execShiftExpand (c : Fields) (s : State) : StepOutcome :=
  wholeOp 20 typesAll false c s fun p =>
    (shiftedUp s c.rt p.a.toNat (s.clampL (s.len c.rt + p.a.toNat)), [])

/-- R212. -/
def execShiftReduce (c : Fields) (s : State) : StepOutcome :=
  wholeOp 21 typesAll false c s fun p => (s.vslice c.rt p.a.toNat (s.len c.rt - p.a.toNat), [])

/-- R213. -/
def execShiftUp (c : Fields) (s : State) : StepOutcome :=
  wholeOp 22 typesAll false c s fun p => (shiftedUp s c.rt p.a.toNat (s.len c.rt), [])

/-- R214: a byte past the source's length reads as 0 (R31). -/
def execShiftDown (c : Fields) (s : State) : StepOutcome :=
  wholeOp 23 typesAll false c s fun p => (s.vslice c.rt p.a.toNat (s.len c.rt), [])

/-- R215: position `i + 1` receives element `i`, so position `i` receives element `i - 1` of the ring. -/
def execRotateUp (c : Fields) (s : State) : StepOutcome :=
  wholeOp 24 typesAll false c s fun p =>
    let n := elementCount c.ot (s.clampL p.a.toNat)
    (ring c s n fun i => (i + n - 1) % n, [])

/-- R216: position `i` receives element `i + 1` of the ring. -/
def execRotateDown (c : Fields) (s : State) : StepOutcome :=
  wholeOp 25 typesAll false c s fun p =>
    let n := elementCount c.ot (s.clampL p.a.toNat)
    (ring c s n fun i => (i + 1) % n, [])

end Sys2Proof.Machine
end

