-- ==== Sys2Proof/Machine/Sqrt.lean ====
section
/-! DEFINITION. Square root (49_sqrt.md). -/

namespace Sys2Proof.Machine

open Sys2Proof

/-- R273 `IntSqrt(b, W, opts)`. -/
def intSqrt (w b : Nat) (opts : Word) : Ret :=
  if sgn w b < 0 then { result := 0, raised := signedElseUnsigned opts }
  else { result := BitVec.ofNat 64 (isqrt (uns w b)) }

/-- R274 `FloatSqrt(b, ot, opts)`; `nan` is the NaN it returns. -/
def floatSqrt (f : FloatFormat) (mode : RoundingMode) (nan b : Nat) (opts : Word) : Ret :=
  if f.isNaN b then { result := BitVec.ofNat 64 nan }
  else if f.isZero b then { result := BitVec.ofNat 64 b }
  else if f.sign b then { result := BitVec.ofNat 64 nan, raised := raiseIf (trapInv opts) .floatInvalid }
  else if f.isInf b then { result := BitVec.ofNat 64 b }
  else { result := BitVec.ofNat 64 (f.sqrtFinite mode b) }

/-- R271: the lane loop runs over `VLen[rt]` (R89, R270); the offset of a lane numbers the draw of its NaN (U4). -/
def execSqrt (c : Fields) (s : State) : StepOutcome :=
  laneOp 48 typesTo64 true true c s (s.len c.rt) fun off p =>
    if isFloatType c.ot then
      let f := wideFormat c.ot
      floatSqrt f s.cfg.roundingMode (f.producedNaN s.cfg s.draws off) p.b.toNat p.opts
    else intSqrt (dataBits c.ot) p.b.toNat p.opts

end Sys2Proof.Machine
end

