-- ==== Sys2Proof/Machine/WideImm.lean ====
section
/-! DEFINITION. Wide-immediate and high-half operations (41_wide_immediate.md): table 4. All work on 64 bits and consult
no operand type (R130). -/

namespace Sys2Proof.Machine

open Sys2Proof

/-- R130 `hi`: the immediate in bits 63:32, bits 31:0 zero. -/
def hi32 (imm : Word) : Word := imm <<< 32

/-- R140: the legality of the packed immediate. -/
def replaceBitsLegal (imm : BitVec 32) : Bool :=
  let start := (imm.extractLsb' 16 8).toNat
  let count := (imm.extractLsb' 24 8).toNat
  decide (count ≤ 32 ∧ start + count ≤ 64)

/-- R140, for a legal packed immediate. -/
def replaceBits (a : Word) (imm : BitVec 32) : Word :=
  let value := (imm.extractLsb' 0 16).setWidth 64
  let start := (imm.extractLsb' 16 8).toNat
  let count := (imm.extractLsb' 24 8).toNat
  let cm : Word := BitVec.ofNat 64 (2 ^ count - 1)
  (a &&& ~~~(cm <<< start)) ||| ((value &&& cm) <<< start)

/-! ## Meanings -/

/-- R131. -/
def execMoveHi32 (c : Fields) (s : State) : StepOutcome :=
  scalarOp 0 typesAll c s fun p => { result := hi32 p.imm }

/-- R132. -/
def execInsertHi32 (c : Fields) (s : State) : StepOutcome :=
  scalarOp 1 typesAll c s fun p => { result := hi32 p.imm ||| (p.b &&& 0xFFFFFFFF) }

/-- R133. -/
def execAdd32u (c : Fields) (s : State) : StepOutcome :=
  scalarOp 2 typesAll c s fun p => { result := p.b + p.imm }

/-- R134. -/
def execSub32u (c : Fields) (s : State) : StepOutcome :=
  scalarOp 3 typesAll c s fun p => { result := p.b - p.imm }

/-- R135. -/
def execAddHi32 (c : Fields) (s : State) : StepOutcome :=
  scalarOp 4 typesAll c s fun p => { result := p.b + hi32 p.imm }

/-- R136: the low half of the result is zero (U10). -/
def execAndHi32 (c : Fields) (s : State) : StepOutcome :=
  scalarOp 5 typesAll c s fun p => { result := p.b &&& hi32 p.imm }

/-- R137. -/
def execOrHi32 (c : Fields) (s : State) : StepOutcome :=
  scalarOp 6 typesAll c s fun p => { result := p.b ||| hi32 p.imm }

/-- R138. -/
def execXorHi32 (c : Fields) (s : State) : StepOutcome :=
  scalarOp 7 typesAll c s fun p => { result := p.b ^^^ hi32 p.imm }

/-- R140. -/
def execReplaceBits (c : Fields) (s : State) : StepOutcome :=
  if replaceBitsLegal c.imm then scalarOp 8 typesAll c s fun p => { result := replaceBits p.b c.imm }
  else .next (illegal s)

/-- R141: the decoder computes `memAddress = x[rt] + sext(imm)` before the handler runs; the handler returns it with
`returnType = 0x13`. -/
def execAddressForm (c : Fields) (s : State) : StepOutcome :=
  let address := s.gpr c.rt + c.imm.signExtend 64
  let slots :=
    { decodedSlots 9 c s with parm := scalarParms c s, memAddress := address, vect := 0, running := 1 }
  finish s ({ s with slots := slots }.setGpr c.rd address) (some 0x13) []

end Sys2Proof.Machine
end

