-- ==== Sys2Proof/Machine/Dispatch.lean ====
section
/-! DEFINITION. The meaning of every instruction: one arm per constructor of `Instr`, each one direct call. -/

namespace Sys2Proof.Machine

open Sys2Proof

def exec (i : Instr) (s : State) : Host.Outcome State Fault Refusal :=
  match i with
  | .bitscanForward c => Sys2Proof.Machine.execBitscanForward c s
  | .bitscanReverse c => Sys2Proof.Machine.execBitscanReverse c s
  | .roundDownPow2 c => Sys2Proof.Machine.execRoundDownPow2 c s
  | .roundUpPow2 c => Sys2Proof.Machine.execRoundUpPow2 c s
  | .setLen c => Sys2Proof.Machine.execSetLen c s
  | .getLen c => Sys2Proof.Machine.execGetLen c s
  | .setNum c => Sys2Proof.Machine.execSetNum c s
  | .getNum c => Sys2Proof.Machine.execGetNum c s
  | .compress c => Sys2Proof.Machine.execCompress c s
  | .compressSs c => Sys2Proof.Machine.execCompressSs c s
  | .compressUs c => Sys2Proof.Machine.execCompressUs c s
  | .expandU c => Sys2Proof.Machine.execExpandU c s
  | .expandS c => Sys2Proof.Machine.execExpandS c s
  | .compressSparse c => Sys2Proof.Machine.execCompressSparse c s
  | .expandSparse c => Sys2Proof.Machine.execExpandSparse c s
  | .extract c => Sys2Proof.Machine.execExtract c s
  | .insert c => Sys2Proof.Machine.execInsert c s
  | .broadcast c => Sys2Proof.Machine.execBroadcast c s
  | .bits2bool c => Sys2Proof.Machine.execBits2bool c s
  | .bool2bits c => Sys2Proof.Machine.execBool2bits c s
  | .boolReduce c => Sys2Proof.Machine.execBoolReduce c s
  | .categoryReduce c => Sys2Proof.Machine.execCategoryReduce c s
  | .shiftExpand c => Sys2Proof.Machine.execShiftExpand c s
  | .shiftReduce c => Sys2Proof.Machine.execShiftReduce c s
  | .shiftUp c => Sys2Proof.Machine.execShiftUp c s
  | .shiftDown c => Sys2Proof.Machine.execShiftDown c s
  | .rotateUp c => Sys2Proof.Machine.execRotateUp c s
  | .rotateDown c => Sys2Proof.Machine.execRotateDown c s
  | .addCarry c => Sys2Proof.Machine.execAddCarry c s
  | .subBorrow c => Sys2Proof.Machine.execSubBorrow c s
  | .divEx c => Sys2Proof.Machine.execDivEx c s
  | .divExU c => Sys2Proof.Machine.execDivExU c s
  | .addSs c => Sys2Proof.Machine.execAddSs c s
  | .subSs c => Sys2Proof.Machine.execSubSs c s
  | .addUs c => Sys2Proof.Machine.execAddUs c s
  | .subUs c => Sys2Proof.Machine.execSubUs c s
  | .mulSs c => Sys2Proof.Machine.execMulSs c s
  | .mulUs c => Sys2Proof.Machine.execMulUs c s
  | .addOc c => Sys2Proof.Machine.execAddOc c s
  | .subOc c => Sys2Proof.Machine.execSubOc c s
  | .mulOc c => Sys2Proof.Machine.execMulOc c s
  | .divOc c => Sys2Proof.Machine.execDivOc c s
  | .sqrt c => Sys2Proof.Machine.execSqrt c s
  | .absolute c => Sys2Proof.Machine.execAbsolute c s
  | .shiftAdd c => Sys2Proof.Machine.execShiftAdd c s
  | .moveHi32 c => Sys2Proof.Machine.execMoveHi32 c s
  | .insertHi32 c => Sys2Proof.Machine.execInsertHi32 c s
  | .add32u c => Sys2Proof.Machine.execAdd32u c s
  | .sub32u c => Sys2Proof.Machine.execSub32u c s
  | .addHi32 c => Sys2Proof.Machine.execAddHi32 c s
  | .andHi32 c => Sys2Proof.Machine.execAndHi32 c s
  | .orHi32 c => Sys2Proof.Machine.execOrHi32 c s
  | .xorHi32 c => Sys2Proof.Machine.execXorHi32 c s
  | .replaceBits c => Sys2Proof.Machine.execReplaceBits c s
  | .addressForm c => Sys2Proof.Machine.execAddressForm c s

end Sys2Proof.Machine
end

