-- ==== Sys2Proof/WellFormed.lean ====
section
/-! DEFINITION. When an instruction is well formed: the operation supports its operand type (R74's column "ot"), and its
immediate and mask fields are not of the malformed shapes that raise `INT_INST_ILLEGAL` (R118, R140, R170, R171). A command
word of an instruction that is not well formed decodes and, when executed, raises that interrupt (R78). Not in this
check: `div_ex` at `ot = 3` under the parameter `divEx64 = illegal` (R226), which depends on the configuration. -/

namespace Sys2Proof

/-! The sets of operand types that occur in R74's column "ot". -/

def OpType.upTo64Bits : List OpType := [.i8, .i16, .i32, .i64, .f32, .f64]

def OpType.allTypes : List OpType := [.i8, .i16, .i32, .i64, .i128, .f32, .f64]

def OpType.integers : List OpType := [.i8, .i16, .i32, .i64, .i128]

def OpType.floats : List OpType := [.f32, .f64]

def OpType.integersUpTo64 : List OpType := [.i8, .i16, .i32, .i64]

/-- R74, column "ot". -/
def Instr.supportedTypes : Instr → List OpType
  | .bitscanForward _ => OpType.upTo64Bits
  | .bitscanReverse _ => OpType.upTo64Bits
  | .roundDownPow2 _ => OpType.upTo64Bits
  | .roundUpPow2 _ => OpType.upTo64Bits
  | .setLen _ => OpType.allTypes
  | .getLen _ => OpType.allTypes
  | .setNum _ => OpType.allTypes
  | .getNum _ => OpType.allTypes
  | .compress _ => OpType.allTypes
  | .compressSs _ => OpType.allTypes
  | .compressUs _ => OpType.allTypes
  | .expandU _ => OpType.allTypes
  | .expandS _ => OpType.allTypes
  | .compressSparse _ => OpType.allTypes
  | .expandSparse _ => OpType.allTypes
  | .extract _ => OpType.allTypes
  | .insert _ => OpType.allTypes
  | .broadcast _ => OpType.allTypes
  | .bits2bool _ => OpType.allTypes
  | .bool2bits _ => OpType.allTypes
  | .boolReduce _ => OpType.integers
  | .categoryReduce _ => OpType.floats
  | .shiftExpand _ => OpType.allTypes
  | .shiftReduce _ => OpType.allTypes
  | .shiftUp _ => OpType.allTypes
  | .shiftDown _ => OpType.allTypes
  | .rotateUp _ => OpType.allTypes
  | .rotateDown _ => OpType.allTypes
  | .addCarry _ => OpType.integersUpTo64
  | .subBorrow _ => OpType.integersUpTo64
  | .divEx _ => OpType.integersUpTo64
  | .divExU _ => OpType.integersUpTo64
  | .addSs _ => OpType.integersUpTo64
  | .subSs _ => OpType.integersUpTo64
  | .addUs _ => OpType.integersUpTo64
  | .subUs _ => OpType.integersUpTo64
  | .mulSs _ => OpType.integersUpTo64
  | .mulUs _ => OpType.integersUpTo64
  | .addOc _ => OpType.integersUpTo64
  | .subOc _ => OpType.integersUpTo64
  | .mulOc _ => OpType.integersUpTo64
  | .divOc _ => OpType.integersUpTo64
  | .sqrt _ => OpType.upTo64Bits
  | .absolute _ => OpType.integersUpTo64
  | .shiftAdd _ => OpType.integersUpTo64
  | .moveHi32 _ => OpType.allTypes
  | .insertHi32 _ => OpType.allTypes
  | .add32u _ => OpType.allTypes
  | .sub32u _ => OpType.allTypes
  | .addHi32 _ => OpType.allTypes
  | .andHi32 _ => OpType.allTypes
  | .orHi32 _ => OpType.allTypes
  | .xorHi32 _ => OpType.allTypes
  | .replaceBits _ => OpType.allTypes
  | .addressForm _ => OpType.allTypes

/-- R78: the operand type is in the operation's set. -/
def Instr.typeOk (i : Instr) : Bool := i.supportedTypes.contains i.fields.ot

/-- The immediates that R118 (`imm[1:0] = 3`) and R140 (`count > 32` or `start + count > 64`) call illegal. -/
def Instr.immOk : Instr → Bool
  | .absolute c => decide (c.imm.toNat % 4 ≠ 3)
  | .replaceBits c =>
    let start := c.imm.toNat / 2 ^ 16 % 2 ^ 8
    let count := c.imm.toNat / 2 ^ 24
    decide (count ≤ 32 ∧ start + count ≤ 64)
  | _ => true

/-- R170, R171: the sparse operations need a mask register. -/
def Instr.maskOk : Instr → Bool
  | .compressSparse c => c.rm.isSome
  | .expandSparse c => c.rm.isSome
  | _ => true

/-- A well-formed instruction. -/
def Instr.wf (i : Instr) : Bool := i.typeOk && i.immOk && i.maskOk

end Sys2Proof
end

