-- ==== Sys2Proof/Decode.lean ====
section
/-! DEFINITION. The command word `CW64` (R70): the decoder, total on every 64-bit word and rejecting illegal commands by
name (R76), and the encoder, from the same layout and the same opcode map (R74). -/

namespace Sys2Proof

/-- The field of `n` bits whose lowest bit is bit `lo` of the command word, as a number. -/
def cwField (cw : Word) (lo n : Nat) : Nat := cw.toNat / 2 ^ lo % 2 ^ n

/-- R14: the operand type of a code; code 7 is none (R26). -/
def opTypeOfCode : Nat → Option OpType
  | 0 => some .i8
  | 1 => some .i16
  | 2 => some .i32
  | 3 => some .i64
  | 4 => some .i128
  | 5 => some .f32
  | 6 => some .f64
  | _ => none

/-- R14: the code of an operand type. -/
def opTypeCode : OpType → Nat
  | .i8 => 0
  | .i16 => 1
  | .i32 => 2
  | .i64 => 3
  | .i128 => 4
  | .f32 => 5
  | .f64 => 6

/-- R70: the mask field; 7 is "no mask". -/
def maskOfCode (n : Nat) : Option (Fin 7) := if h : n < 7 then some ⟨n, h⟩ else none

/-- R70: the mask field of a mask choice. -/
def maskCode : Option (Fin 7) → Nat
  | some m => m.val
  | none => 7

/-- A register field of 5 bits as a register index. -/
def regOfField (n : Nat) : RegIx := Fin.ofNat 32 n

/-- R74: the operation in slot `op` of table `tab`; `none` is a null slot (R73) or a reserved table (R76). -/
def operationAt (tab op : Nat) (c : Fields) : Option Instr :=
  match tab, op with
  | 0, 0 => some (.bitscanForward c)
  | 0, 1 => some (.bitscanReverse c)
  | 0, 2 => some (.roundDownPow2 c)
  | 0, 3 => some (.roundUpPow2 c)
  | 2, 0 => some (.setLen c)
  | 2, 1 => some (.getLen c)
  | 2, 2 => some (.setNum c)
  | 2, 3 => some (.getNum c)
  | 2, 4 => some (.compress c)
  | 2, 5 => some (.compressSs c)
  | 2, 6 => some (.compressUs c)
  | 2, 8 => some (.expandU c)
  | 2, 9 => some (.expandS c)
  | 2, 10 => some (.compressSparse c)
  | 2, 11 => some (.expandSparse c)
  | 2, 12 => some (.extract c)
  | 2, 13 => some (.insert c)
  | 2, 14 => some (.broadcast c)
  | 2, 16 => some (.bits2bool c)
  | 2, 17 => some (.bool2bits c)
  | 2, 18 => some (.boolReduce c)
  | 2, 19 => some (.categoryReduce c)
  | 2, 20 => some (.shiftExpand c)
  | 2, 21 => some (.shiftReduce c)
  | 2, 22 => some (.shiftUp c)
  | 2, 23 => some (.shiftDown c)
  | 2, 24 => some (.rotateUp c)
  | 2, 25 => some (.rotateDown c)
  | 2, 28 => some (.addCarry c)
  | 2, 29 => some (.subBorrow c)
  | 2, 30 => some (.divEx c)
  | 2, 31 => some (.divExU c)
  | 2, 32 => some (.addSs c)
  | 2, 33 => some (.subSs c)
  | 2, 34 => some (.addUs c)
  | 2, 35 => some (.subUs c)
  | 2, 36 => some (.mulSs c)
  | 2, 37 => some (.mulUs c)
  | 2, 40 => some (.addOc c)
  | 2, 41 => some (.subOc c)
  | 2, 42 => some (.mulOc c)
  | 2, 43 => some (.divOc c)
  | 2, 48 => some (.sqrt c)
  | 3, 0 => some (.absolute c)
  | 3, 1 => some (.shiftAdd c)
  | 4, 0 => some (.moveHi32 c)
  | 4, 1 => some (.insertHi32 c)
  | 4, 2 => some (.add32u c)
  | 4, 3 => some (.sub32u c)
  | 4, 4 => some (.addHi32 c)
  | 4, 5 => some (.andHi32 c)
  | 4, 6 => some (.orHi32 c)
  | 4, 7 => some (.xorHi32 c)
  | 4, 8 => some (.replaceBits c)
  | 4, 9 => some (.addressForm c)
  | _, _ => none

/-- R74: the table and the minor opcode of an operation. -/
def opcodeOf : Instr → Nat × Nat
  | .bitscanForward _ => (0, 0)
  | .bitscanReverse _ => (0, 1)
  | .roundDownPow2 _ => (0, 2)
  | .roundUpPow2 _ => (0, 3)
  | .setLen _ => (2, 0)
  | .getLen _ => (2, 1)
  | .setNum _ => (2, 2)
  | .getNum _ => (2, 3)
  | .compress _ => (2, 4)
  | .compressSs _ => (2, 5)
  | .compressUs _ => (2, 6)
  | .expandU _ => (2, 8)
  | .expandS _ => (2, 9)
  | .compressSparse _ => (2, 10)
  | .expandSparse _ => (2, 11)
  | .extract _ => (2, 12)
  | .insert _ => (2, 13)
  | .broadcast _ => (2, 14)
  | .bits2bool _ => (2, 16)
  | .bool2bits _ => (2, 17)
  | .boolReduce _ => (2, 18)
  | .categoryReduce _ => (2, 19)
  | .shiftExpand _ => (2, 20)
  | .shiftReduce _ => (2, 21)
  | .shiftUp _ => (2, 22)
  | .shiftDown _ => (2, 23)
  | .rotateUp _ => (2, 24)
  | .rotateDown _ => (2, 25)
  | .addCarry _ => (2, 28)
  | .subBorrow _ => (2, 29)
  | .divEx _ => (2, 30)
  | .divExU _ => (2, 31)
  | .addSs _ => (2, 32)
  | .subSs _ => (2, 33)
  | .addUs _ => (2, 34)
  | .subUs _ => (2, 35)
  | .mulSs _ => (2, 36)
  | .mulUs _ => (2, 37)
  | .addOc _ => (2, 40)
  | .subOc _ => (2, 41)
  | .mulOc _ => (2, 42)
  | .divOc _ => (2, 43)
  | .sqrt _ => (2, 48)
  | .absolute _ => (3, 0)
  | .shiftAdd _ => (3, 1)
  | .moveHi32 _ => (4, 0)
  | .insertHi32 _ => (4, 1)
  | .add32u _ => (4, 2)
  | .sub32u _ => (4, 3)
  | .addHi32 _ => (4, 4)
  | .andHi32 _ => (4, 5)
  | .orHi32 _ => (4, 6)
  | .xorHi32 _ => (4, 7)
  | .replaceBits _ => (4, 8)
  | .addressForm _ => (4, 9)

/-- Why a command word is illegal (R76). Each raises `INT_INST_ILLEGAL` when it is executed and changes nothing else. -/
inductive DecodeError where
  /-- `tab` is 5, 6 or 7, a reserved table -/
  | reservedTable
  /-- the slot of the table is null; `tab = 1` has no other slots -/
  | nullSlot
  /-- the `zero` field is not 0 -/
  | nonzeroReservedField
  /-- `ot` is 7 -/
  | reservedOperandType
  deriving DecidableEq, Repr

/-- R70, R76: the command in a command word. -/
def decode (cw : Word) : Except DecodeError Instr :=
  if 5 ≤ cwField cw 61 3 then .error .reservedTable
  else if cwField cw 32 2 ≠ 0 then .error .nonzeroReservedField
  else
    match opTypeOfCode (cwField cw 52 3) with
    | none => .error .reservedOperandType
    | some ot =>
      match operationAt (cwField cw 61 3) (cwField cw 55 6)
          { ot := ot
            rd := regOfField (cwField cw 47 5)
            rs := regOfField (cwField cw 42 5)
            rt := regOfField (cwField cw 37 5)
            rm := maskOfCode (cwField cw 34 3)
            imm := BitVec.ofNat 32 (cwField cw 0 32) } with
      | none => .error .nullSlot
      | some i => .ok i

/-- R70: the command word of an instruction, as the number `tab*2^61 + op*2^55 + ot*2^52 + rd*2^47 + rs*2^42 +
rt*2^37 + rm*2^34 + imm`. -/
def encodeNat (i : Instr) : Nat :=
  let c := i.fields
  (opcodeOf i).1 * 2 ^ 61 + (opcodeOf i).2 * 2 ^ 55 + opTypeCode c.ot * 2 ^ 52 + c.rd.val * 2 ^ 47
    + c.rs.val * 2 ^ 42 + c.rt.val * 2 ^ 37 + maskCode c.rm * 2 ^ 34 + c.imm.toNat

/-- The command word of an instruction (R70). -/
def encode (i : Instr) : Word := BitVec.ofNat 64 (encodeNat i)

/-- The instruction the decoder reads from a row's word, for the host's table check. A command is one 64-bit word (R70),
not a byte string (R52), so bits at and above `nbits` are 0 and the word is taken as it stands. -/
def decodeTableWord (nbits w : Nat) : Option Instr := (decode (BitVec.ofNat 64 (w % 2 ^ nbits))).toOption

end Sys2Proof
end

