-- ==== Sys2Proof/Machine/Fetch.lean ====
section
/-! DEFINITION. Reading the command at `pc` (R100) and placing one there. -/

namespace Sys2Proof.Machine

open Sys2Proof

/-- R100: the command word `cmd[pc]`, if there is one. -/
def State.fetch (s : State) : Option Word := s.cmds[s.pc]?

/-- The command list with the word `w` at index `n`, lengthened by zero words where it is shorter. -/
def placeCommand (cmds : List Word) (n : Nat) (w : Word) : List Word :=
  cmds.take n ++ List.replicate (n - cmds.length) 0 ++ w :: cmds.drop (n + 1)

end Sys2Proof.Machine
end

