-- ==== Sys2Proof/Machine/Step.lean ====
section
/-! DEFINITION. One step of the reference sequencer (R100). -/

namespace Sys2Proof.Machine

open Sys2Proof

/-- R100: the outcome of a command, with `pc` advanced by 1. -/
def advanced : StepOutcome → StepOutcome
  | .next t => .next t.advance
  | .fault f => .fault f
  | .refused r => .refused r

/-- R100: run the command word `cw` at `pc`. An illegal command raises `INT_INST_ILLEGAL` (R76). -/
def runWord (cw : Word) (s : State) : StepOutcome :=
  match decode cw with
  | .error _ => .next (illegal s).advance
  | .ok i => advanced (exec i s)

/-- One step (R100). No step is possible in the fault state (R286) or at `pc = N`; a configuration outside R9 and a `pc`
outside `0..N` are refused (U3, U23). -/
def step (s : State) : Host.Outcome State Fault Refusal :=
  if ¬ s.cfg.wf then .refused .badConfiguration
  else if s.intRaised ≠ [] then .fault .faultState
  else if s.pc = s.cmds.length then .fault .programFinished
  else
    match s.fetch with
    | none => .refused .pcOutsideProgram
    | some cw => runWord cw s

/-- The state with the command word `w` (its bits below `nbits`) placed where `step` fetches next: the host's load of a
command list (R102; log entry 6). -/
def State.withFetchWord (s : State) (nbits w : Nat) : State :=
  { s with cmds := placeCommand s.cmds s.pc (BitVec.ofNat 64 (w % 2 ^ nbits)) }

end Sys2Proof.Machine
end

