-- ==== Sys2Proof/Safety.lean ====
section
/-! DEFINITION. The terms in which claims about the machine are stated: the state invariant, the shape of a command's
effect, the execution class of an operation (R74), and the rational values of the float formats (R272). -/

namespace Sys2Proof.Machine

open Sys2Proof

/-! ## Safe states -/

/-- R33, invariant 2. -/
def LengthsOk (s : State) : Prop := ∀ r : RegIx, s.len r ≤ s.cfg.maxVectorLength

/-- What holds of every state the machine can be in. -/
structure State.Inv (s : State) : Prop where
  /-- R9 -/
  config : s.cfg.wf
  /-- the store is in canonical form -/
  store : s.mem.wf
  /-- R33, invariant 2 -/
  lengths : LengthsOk s
  /-- a stored byte that is not zero lies below the length of the vector register that owns it (R31, R50); that the bytes
  past it are cleared is the model's choice (log entry 4) -/
  tail : ∀ p ∈ s.mem, ∃ r : RegIx, s.vbase r ≤ p.1 ∧ p.1 < s.vbase r + s.len r
  /-- R35 -/
  vect : s.slots.vect = 0 ∨ s.slots.vect = 1 ∨ s.slots.vect = 4
  /-- R36 -/
  running : s.slots.running = 1 ∨ s.slots.running = 2
  /-- R100, U23 -/
  inProgram : s.pc ≤ s.cmds.length
  /-- R285, R286: an interrupt on record was raised by the last command -/
  precise : ∀ e ∈ s.intRaised, e.2 + 1 = s.pc

/-- R100: a state from which a step is possible. -/
def Ready (s : State) : Prop := s.cfg.wf ∧ s.intRaised = [] ∧ s.pc < s.cmds.length

/-! ## The effect of a command -/

/-- R96, R287: the writes of a command that raises `ks` are committed. -/
def Committed (s : State) (ks : List IntKind) : Prop := ks = [] ∨ s.cfg.commitOnInterrupt = true

/-- What no instruction writes: the configuration, `numContr` (R29), the command list (R62), `pc` (R16). -/
def Kept (s t : State) : Prop := t.cfg = s.cfg ∧ t.numContr = s.numContr ∧ t.cmds = s.cmds ∧ t.pc = s.pc

/-- R284: `intRaised` after raising `ks` in order. -/
def Raised (s t : State) (ks : List IntKind) : Prop := t.intRaised = s.intRaised ++ ks.map fun k => (k, s.pc)

/-- Only general-purpose register `rd` may differ: the other registers, every stored byte and every length are unchanged. -/
def OnlyGpr (rd : RegIx) (s t : State) : Prop :=
  (∀ r, r ≠ rd → t.gpr r = s.gpr r) ∧ (∀ a, t.mem.read a = s.mem.read a) ∧ ∀ r, t.len r = s.len r

/-- Only vector register `rd` may differ: every general-purpose register, every byte outside the window of `rd` and every
other length are unchanged. -/
def OnlyVector (rd : RegIx) (s t : State) : Prop :=
  (∀ r, t.gpr r = s.gpr r)
    ∧ (∀ a, a < s.vbase rd ∨ s.vbase rd + s.cfg.maxVectorLength ≤ a → t.mem.read a = s.mem.read a)
    ∧ ∀ r, r ≠ rd → t.len r = s.len r

/-- `exec i` completes, writes at most general-purpose register `rd`, raises `ks`, and `P` holds of the next state. That the
slot `memAddress` keeps its value is part of it: the model's reading (DEDUCED, log entry 12), where U16 leaves the slots
open between commands. -/
def GprEffect (i : Instr) (s : State) (ks : List IntKind) (P : State → Prop) : Prop :=
  ∃ t, exec i s = .next t ∧ P t ∧ OnlyGpr i.fields.rd s t ∧ Kept s t ∧ Raised s t ks
    ∧ t.slots.memAddress = s.slots.memAddress

/-- `exec i` completes, writes at most vector register `rd`, raises `ks`, and `P` holds of the next state. That the slot
`memAddress` keeps its value is part of it, as in `GprEffect` (DEDUCED, log entry 12). -/
def VectorEffect (i : Instr) (s : State) (ks : List IntKind) (P : State → Prop) : Prop :=
  ∃ t, exec i s = .next t ∧ P t ∧ OnlyVector i.fields.rd s t ∧ Kept s t ∧ Raised s t ks
    ∧ t.slots.memAddress = s.slots.memAddress

/-- R76, R78: `exec i` raises `INT_INST_ILLEGAL` once and changes no other state. -/
def IllegalEffect (i : Instr) (s : State) : Prop :=
  exec i s = .next { s with intRaised := s.intRaised ++ [(.instIllegal, s.pc)] }

/-- R88: the execution classes. -/
inductive OpClass where
  | scalar | getter | whole | extract | lane | pair
  deriving DecidableEq, Repr

/-- R74, column "class". -/
def opClass : Instr → OpClass
  | .bitscanForward _ => .scalar
  | .bitscanReverse _ => .scalar
  | .roundDownPow2 _ => .scalar
  | .roundUpPow2 _ => .scalar
  | .setLen _ => .whole
  | .getLen _ => .getter
  | .setNum _ => .whole
  | .getNum _ => .getter
  | .compress _ => .whole
  | .compressSs _ => .whole
  | .compressUs _ => .whole
  | .expandU _ => .whole
  | .expandS _ => .whole
  | .compressSparse _ => .whole
  | .expandSparse _ => .whole
  | .extract _ => .extract
  | .insert _ => .lane
  | .broadcast _ => .lane
  | .bits2bool _ => .whole
  | .bool2bits _ => .whole
  | .boolReduce _ => .whole
  | .categoryReduce _ => .whole
  | .shiftExpand _ => .whole
  | .shiftReduce _ => .whole
  | .shiftUp _ => .whole
  | .shiftDown _ => .whole
  | .rotateUp _ => .whole
  | .rotateDown _ => .whole
  | .addCarry _ => .pair
  | .subBorrow _ => .pair
  | .divEx _ => .pair
  | .divExU _ => .pair
  | .addSs _ => .lane
  | .subSs _ => .lane
  | .addUs _ => .lane
  | .subUs _ => .lane
  | .mulSs _ => .lane
  | .mulUs _ => .lane
  | .addOc _ => .pair
  | .subOc _ => .pair
  | .mulOc _ => .pair
  | .divOc _ => .pair
  | .sqrt _ => .lane
  | .absolute _ => .scalar
  | .shiftAdd _ => .scalar
  | .moveHi32 _ => .scalar
  | .insertHi32 _ => .scalar
  | .add32u _ => .scalar
  | .sub32u _ => .scalar
  | .addHi32 _ => .scalar
  | .andHi32 _ => .scalar
  | .orHi32 _ => .scalar
  | .xorHi32 _ => .scalar
  | .replaceBits _ => .scalar
  | .addressForm _ => .scalar

/-- R74, column "operands": the syntax shows a mask. -/
def showsMask : Instr → Bool
  | .bitscanForward _ => false
  | .bitscanReverse _ => false
  | .roundDownPow2 _ => false
  | .roundUpPow2 _ => false
  | .setLen _ => false
  | .getLen _ => false
  | .setNum _ => false
  | .getNum _ => false
  | .compress _ => true
  | .compressSs _ => true
  | .compressUs _ => true
  | .expandU _ => false
  | .expandS _ => false
  | .compressSparse _ => true
  | .expandSparse _ => true
  | .extract _ => false
  | .insert _ => false
  | .broadcast _ => false
  | .bits2bool _ => true
  | .bool2bits _ => false
  | .boolReduce _ => false
  | .categoryReduce _ => false
  | .shiftExpand _ => false
  | .shiftReduce _ => false
  | .shiftUp _ => false
  | .shiftDown _ => false
  | .rotateUp _ => false
  | .rotateDown _ => false
  | .addCarry _ => false
  | .subBorrow _ => false
  | .divEx _ => true
  | .divExU _ => true
  | .addSs _ => false
  | .subSs _ => false
  | .addUs _ => false
  | .subUs _ => false
  | .mulSs _ => false
  | .mulUs _ => false
  | .addOc _ => false
  | .subOc _ => false
  | .mulOc _ => false
  | .divOc _ => false
  | .sqrt _ => true
  | .absolute _ => false
  | .shiftAdd _ => false
  | .moveHi32 _ => false
  | .insertHi32 _ => false
  | .add32u _ => false
  | .sub32u _ => false
  | .addHi32 _ => false
  | .andHi32 _ => false
  | .orHi32 _ => false
  | .xorHi32 _ => false
  | .replaceBits _ => false
  | .addressForm _ => false

/-! ## Reading operands in a claim -/

/-- R86: the options word of an operation whose syntax shows a mask, for the lane at offset `off`. -/
def maskedOptions (c : Fields) (s : State) (off : Nat) : Word :=
  match c.rm with
  | none => s.numContr
  | some m => BitVec.ofNat 64 (s.velem ⟨m.val, by omega⟩ off (min (dataSize c.ot) 8))

/-- R161, R167: element `k` of half the width of `ot` in `v[r]`; at `ot = 0` the even elements are the low halves of
the bytes. -/
def halfElement (ot : OpType) (s : State) (r : RegIx) (k : Nat) : Nat :=
  if ot = .i8 then (s.vb r (k / 2)).toNat / 16 ^ (k % 2) % 16
  else s.velem r (k * (dataSize ot / 2)) (dataSize ot / 2)

/-- The exact integer `t` brought into `[lo, hi]`. -/
def clampTo (lo hi t : Int) : Int := max lo (min hi t)

/-- R170, R171: lane `k` is selected by the mask register. -/
def Selected (m : Fin 7) (c : Fields) (s : State) (k : Nat) : Bool :=
  (s.vb ⟨m.val, by omega⟩ (k * dataSize c.ot)).getLsbD 0

/-- R89: the byte length that the loop of an operation of class L or P runs over. -/
def loopLength (i : Instr) (s : State) : Nat :=
  match i with
  | .insert c => s.len c.rd
  | .broadcast c => min (s.gpr c.rs).toNat s.cfg.maxVectorLength
  | .sqrt c => s.len c.rt
  | i => s.len i.fields.rs

/-! ## Float values -/

/-- R162, R167, R274: the operations that can produce a NaN: `compress`, `compress_ss`, `compress_us`, `expand_u`,
`expand_s` and `sqrt`. -/
def producesNaN (i : Instr) : Bool := [(2, 4), (2, 5), (2, 6), (2, 8), (2, 9), (2, 48)].contains (opcodeOf i)

/-- R162, R167, R271: the format of the lanes that such an operation writes at a float type. -/
def resultFormat (i : Instr) : FloatFormat :=
  if [(2, 4), (2, 5), (2, 6)].contains (opcodeOf i) then narrowFormat i.fields.ot else wideFormat i.fields.ot

/-- R272: the value of the finite pattern with exponent and mantissa fields `mag`, without its sign; for the pattern of
infinity it is the value the next exponent would have, which is where the format's range ends. -/
def FloatFormat.value (f : FloatFormat) (mag : Nat) : ℚ :=
  if f.exp mag = 0 then 2 ^ (1 - (f.bias : ℤ)) * ((f.man mag : ℚ) / 2 ^ f.manBits)
  else 2 ^ ((f.exp mag : ℤ) - f.bias) * (1 + (f.man mag : ℚ) / 2 ^ f.manBits)

/-- The exponent and mantissa fields of a pattern, as one number. -/
def FloatFormat.mag (f : FloatFormat) (v : Nat) : Nat := v % 2 ^ (f.expBits + f.manBits)

/-- `mag` is `q ≥ 0` rounded to nearest, ties to even (R162): `2 q` lies between the sums of `mag` with its two neighbours,
and on a sum only if `mag` is even. Infinity is a neighbour like any other. -/
def FloatFormat.Nearest (f : FloatFormat) (q : ℚ) (mag : Nat) : Prop :=
  mag ≤ f.infMag
    ∧ (mag ≠ 0 → f.value (mag - 1) + f.value mag ≤ 2 * q
        ∧ (f.value (mag - 1) + f.value mag = 2 * q → mag % 2 = 0))
    ∧ (mag < f.infMag → 2 * q ≤ f.value mag + f.value (mag + 1)
        ∧ (2 * q = f.value mag + f.value (mag + 1) → mag % 2 = 0))

/-- The same for the square root of `q` (R274): the comparisons are those of the squares. -/
def FloatFormat.NearestRoot (f : FloatFormat) (q : ℚ) (mag : Nat) : Prop :=
  mag < f.infMag
    ∧ (mag ≠ 0 → (f.value (mag - 1) + f.value mag) ^ 2 ≤ 4 * q
        ∧ ((f.value (mag - 1) + f.value mag) ^ 2 = 4 * q → mag % 2 = 0))
    ∧ 4 * q ≤ (f.value mag + f.value (mag + 1)) ^ 2
    ∧ (4 * q = (f.value mag + f.value (mag + 1)) ^ 2 → mag % 2 = 0)

/-- R203: the conditions of the eight categories, in the order of their bits. -/
def InCategory (f : FloatFormat) (e : Nat) : Nat → Prop
  | 0 => f.exp e = f.emax ∧ f.man e ≠ 0
  | 1 => f.exp e = 0 ∧ f.man e = 0
  | 2 => f.exp e = 0 ∧ f.man e ≠ 0 ∧ f.sign e = true
  | 3 => f.exp e = 0 ∧ f.man e ≠ 0 ∧ f.sign e = false
  | 4 => 0 < f.exp e ∧ f.exp e < f.emax ∧ f.sign e = true
  | 5 => 0 < f.exp e ∧ f.exp e < f.emax ∧ f.sign e = false
  | 6 => f.exp e = f.emax ∧ f.man e = 0 ∧ f.sign e = true
  | 7 => f.exp e = f.emax ∧ f.man e = 0 ∧ f.sign e = false
  | _ => False

end Sys2Proof.Machine
end

