-- ==== Sys2Proof/Certificates/Slice0/Obligations.lean ====
section
/-! DEFINITION. The statements about the machine. Each formalises what its docstring names; `OBLIGATIONS.json` lists them. -/

open Sys2Proof Sys2Proof.Machine

/-- Decoding the command word of an instruction gives the instruction back. For every instruction i, whatever its operand
type, registers, mask and immediate, decode (encode i) = i: no bit of an encoding is dropped. Source: 30_encoding.md 2
(R70); 30_encoding.md 3 (R74). -/
def Obligations.DecodeOfEncode : Prop :=
  ∀ i : Instr, decode (encode i) = .ok i

/-- Every legal command word is the word of exactly one instruction. If a 64-bit word decodes to an instruction i, then
the word is encode i. Source: 30_encoding.md 2 (R70); 30_encoding.md 3 (R74). -/
def Obligations.EncodeOfDecode : Prop :=
  ∀ (cw : Word) (i : Instr), decode cw = .ok i → encode i = cw

/-- The decoder rejects exactly the illegal command words. A word is rejected if and only if tab is 1, 5, 6 or 7, or no
operation has its (tab, op) pair, or the zero field is not 0, or ot is 7. Source: 30_encoding.md 4 (R76, first
sentence). -/
def Obligations.IllegalWordsAreExactlyThose : Prop :=
  ∀ cw : Word, (∃ e, decode cw = .error e) ↔
    ((cw.extractLsb' 61 3).toNat = 1 ∨ 5 ≤ (cw.extractLsb' 61 3).toNat
      ∨ (∀ i : Instr, opcodeOf i ≠ ((cw.extractLsb' 61 3).toNat, (cw.extractLsb' 55 6).toNat))
      ∨ (cw.extractLsb' 32 2).toNat ≠ 0 ∨ (cw.extractLsb' 52 3).toNat = 7)

/-- Six command words of the spec decode to the instructions they stand for. The words of the encoding vectors for
add_ss.i8 v1, v2, v3; bitscan_forward.i32 x1, x2; absolute.i8 x7, x4, 5; compress.i16 v2, x1, v1, mask=v3; mul_us.i32
v31, v30, v29; sqrt.f64 v1, v2, mask=v6. Source: 95_test_vectors.md Part 2. -/
def Obligations.SampleWordsDecode : Prop :=
  decode 0x5000887C00000000 = .ok (.addSs ⟨.i8, 1, 2, 3, none, 0⟩)
    ∧ decode 0x0020805C00000000 = .ok (.bitscanForward ⟨.i32, 1, 0, 2, none, 0⟩)
    ∧ decode 0x6003809C00000005 = .ok (.absolute ⟨.i8, 7, 0, 4, none, 5⟩)
    ∧ decode 0x4211042C00000000 = .ok (.compress ⟨.i16, 2, 1, 1, some 3, 0⟩)
    ∧ decode 0x52AFFBBC00000000 = .ok (.mulUs ⟨.i32, 31, 30, 29, none, 0⟩)
    ∧ decode 0x5860805800000000 = .ok (.sqrt ⟨.f64, 1, 0, 2, some 6, 0⟩)

/-- The word placed by withFetchWord is the one the next step runs. From a state with a legal configuration and no
interrupt on record, the step after placing the word of i is exec of i followed by pc + 1. Placing a word stands for
the host supplying the command list (log entry 6, the model's choice). Source: 30_encoding.md 8 (R100, R102). -/
def Obligations.FetchedWordRuns : Prop :=
  ∀ (s t : State) (i : Instr), s.cfg.wf → s.intRaised = [] →
    exec i (s.withFetchWord 64 (encode i).toNat) = .next t →
    step (s.withFetchWord 64 (encode i).toNat) = .next { t with pc := s.pc + 1 }

/-- A step runs the instruction the command word at pc decodes to, and advances pc by 1. In a state from which a step is
possible, if cmd[pc] decodes to i, then exec i answers a next state t and the step answers t with pc + 1. Source:
30_encoding.md 8 (R100); 60_exceptions.md 2 (R287). -/
def Obligations.StepRunsDecodedInstruction : Prop :=
  ∀ (s : State) (cw : Word) (i : Instr), Ready s → s.cmds[s.pc]? = some cw → decode cw = .ok i →
    ∃ t, exec i s = .next t ∧ step s = .next { t with pc := s.pc + 1 }

/-- An illegal command word raises INT_INST_ILLEGAL, advances pc and changes nothing else. In a state from which a step is
possible, if cmd[pc] is an illegal word, the next state is the state with (INT_INST_ILLEGAL, pc) appended to intRaised
and pc + 1. Source: 30_encoding.md 4 (R76); 60_exceptions.md 2 (R287). -/
def Obligations.StepOnIllegalWord : Prop :=
  ∀ (s : State) (cw : Word) (e : DecodeError), Ready s → s.cmds[s.pc]? = some cw → decode cw = .error e →
    step s = .next { s with intRaised := s.intRaised ++ [(.instIllegal, s.pc)], pc := s.pc + 1 }

/-- Where no step is possible the step stops, by name. In the fault state step faults with faultState; at pc = N with no
interrupt it faults with programFinished; with pc beyond N it refuses with pcOutsideProgram; with a MaxVectorLength
outside R9 it refuses with badConfiguration. The names are the model's (log entry 16). Source: 30_encoding.md 8
(R100); 60_exceptions.md 2 (R286); 93_implementation_defined.md U3, U23. -/
def Obligations.StepStopsWhereNoStepIsPossible : Prop :=
  ∀ s : State,
    (s.cfg.wf → s.intRaised ≠ [] → step s = .fault .faultState)
    ∧ (s.cfg.wf → s.intRaised = [] → s.pc = s.cmds.length → step s = .fault .programFinished)
    ∧ (s.cfg.wf → s.intRaised = [] → s.cmds.length < s.pc → step s = .refused .pcOutsideProgram)
    ∧ (¬ s.cfg.wf → step s = .refused .badConfiguration)

/-- Every step keeps the state invariant. If the invariant (legal configuration, canonical store, every length at most
MaxVectorLength, zero tail, legal vect and running, pc within the program, every interrupt on record raised by the
last command) holds of s and step s answers next t, it holds of t. That stored bytes at and past a length are cleared,
and that vect and running start at 0 and 1, are the model's choices (log entries 2 and 4). Source: 10_state.md 6
(R33); 10_state.md (R31, R35, R36); 20_memory.md 1 (R50, R57); 60_exceptions.md 2 (R285). -/
def Obligations.StepKeepsInvariant : Prop :=
  ∀ s t : State, s.Inv → step s = .next t → t.Inv

/-- The state invariant holds at reset, under every legal configuration. For every configuration that meets R9 the
invariant holds of the machine after reset, and so it does of State.reset. R40 leaves the slots and the stored bytes
unspecified: that vect and running are 0 and 1 at reset is the model's choice (log entry 2), that no nonzero byte is
stored is (log entry 4), and so is the MaxVectorLength of 128 of State.reset (log entry 5). Source: 10_state.md 10
(R40); 10_state.md 6 (R33). -/
def Obligations.ResetMeetsInvariant : Prop :=
  (∀ cfg : Config, cfg.wf → (State.resetWith cfg).Inv) ∧ State.reset.Inv

/-- What reset leaves: empty vectors, no interrupt, pc 0, numContr from the configuration. After reset under a
configuration every vector length is 0, every byte of every vector register reads 0, intRaised is empty, pc is 0 and
numContr is numContrReset. Source: 10_state.md 10 (R40); 70_reset_and_hazards.md 1 (R310). -/
def Obligations.ResetValues : Prop :=
  ∀ (cfg : Config) (r : RegIx),
    (State.resetWith cfg).len r = 0 ∧ (∀ i, (State.resetWith cfg).vb r i = 0) ∧ (State.resetWith cfg).intRaised = []
      ∧ (State.resetWith cfg).pc = 0 ∧ (State.resetWith cfg).numContr = cfg.numContrReset

/-- An unsupported operand type or a malformed immediate or mask field raises INT_INST_ILLEGAL and changes nothing else.
For every instruction that is not well formed (operand type not in its set of R74, absolute with imm[1:0] = 3,
replace_bits with count > 32 or start + count > 64, a sparse operation without a mask register) and every state, exec
answers the state with (INT_INST_ILLEGAL, pc) appended to intRaised once. The same holds of div_ex and div_ex_u at ot
= 3 under divEx64 = illegal. Source: 30_encoding.md 4 (R78); 40_scalar_bit_numeric.md (R118); 41_wide_immediate.md
(R140); 43_compress_expand.md (R170, R171); 47_extended_precision.md (R226, R227). -/
def Obligations.NotWellFormedIsIllegal : Prop :=
  ∀ (i : Instr) (s : State), (i.wf = false → IllegalEffect i s)
    ∧ (s.cfg.divEx64 = .illegal → ∀ c : Fields, c.ot = .i64 → IllegalEffect (.divEx c) s ∧ IllegalEffect (.divExU c) s)

/-- Every instruction completes in every state, and a well-formed one without INT_INST_ILLEGAL. exec i s answers a next
state for every i and s; if i is well formed (and is not div_ex or div_ex_u at ot = 3 under divEx64 = illegal), the
interrupts it records do not include INT_INST_ILLEGAL. Source: 60_exceptions.md 1 (R282); 60_exceptions.md 2 (R284). -/
def Obligations.WellFormedCompletes : Prop :=
  ∀ (i : Instr) (s : State), ∃ (t : State) (ks : List IntKind), exec i s = .next t ∧ Raised s t ks
    ∧ (i.wf = true →
      (s.cfg.divEx64 = .exact ∨ i.fields.ot ≠ .i64 ∨ opcodeOf i ≠ (2, 30) ∧ opcodeOf i ≠ (2, 31)) → .instIllegal ∉ ks)

/-- Along every run the configuration, numContr and the command list stay, and pc advances by 1 a command. If k steps from
s answer a next state t, then t has the configuration, numContr and command list of s, and its pc is that of s plus k.
Source: 10_state.md 5 (R29); 10_state.md 7 (R37); 20_memory.md 4 (R62); 30_encoding.md 8 (R100). -/
def Obligations.RunKeepsConfiguration : Prop :=
  ∀ (k : Nat) (s t : State), Sys2Proof.core.run k s = .next t →
    t.cfg = s.cfg ∧ t.numContr = s.numContr ∧ t.cmds = s.cmds ∧ t.pc = s.pc + k

/-- Every interrupt a step records carries the index of the command that raised it. If step s answers next t, then
intRaised of t consists of entries whose command index is the pc of s; and exec only ever appends such entries.
Source: 10_state.md 9 (R39); 60_exceptions.md 2 (R284, R285). -/
def Obligations.InterruptsArePrecise : Prop :=
  (∀ s t : State, step s = .next t → ∃ ks : List IntKind, t.intRaised = ks.map fun k => (k, s.pc))
    ∧ ∀ (i : Instr) (s t : State), exec i s = .next t → ∃ ks, Raised s t ks

/-- With commitOnInterrupt = false a command that raises commits nothing. If commitOnInterrupt is false and exec i s
answers next t with an interrupt recorded, then the general-purpose registers, the vector bytes and the lengths of t
are those of s. What else stays is the model's reading (log entry 13) and is not claimed. Source: 60_exceptions.md 2
(R287, last paragraph). -/
def Obligations.NothingCommittedWithoutCommitOnInterrupt : Prop :=
  ∀ (i : Instr) (s t : State), s.cfg.commitOnInterrupt = false → exec i s = .next t → t.intRaised ≠ s.intRaised →
    t.x = s.x ∧ t.mem = s.mem ∧ t.vlen = s.vlen

/-- numContr decides which interrupts are raised and no value, except for bits2bool. With commitOnInterrupt = true,
running an instruction other than bits2bool in two states that differ only in numContr gives the same general-purpose
registers, vector bytes and lengths. Source: 60_exceptions.md 2 (R287, first item); 30_encoding.md 6 (R96). -/
def Obligations.TrapEnablesChangeNoValue : Prop :=
  ∀ (i : Instr) (s t u : State) (n : Word), (∀ c, i ≠ .bits2bool c) → s.cfg.commitOnInterrupt = true →
    exec i s = .next t → exec i { s with numContr := n } = .next u → u.x = t.x ∧ u.mem = t.mem ∧ u.vlen = t.vlen

/-- The operations the spec lists as silent raise no overflow or float interrupt. add_carry, sub_borrow, the four _oc
operations, the ten wide-immediate operations and the length, expand, sparse, permutation, bit-packing, reduction,
shift and rotate operations, the two bit scans and round_down_pow2 record at most INT_INST_ILLEGAL; so do the six
saturating operations when satTraps is false. Source: 60_exceptions.md 1 (R282); 48_saturating_overflow_checked.md 1
(R240). -/
def Obligations.SilentOperations : Prop :=
  ∀ (i : Instr) (s t : State), exec i s = .next t →
    ((opcodeOf i).1 = 0 ∧ (opcodeOf i).2 ≤ 2 ∨ (opcodeOf i).1 = 4
      ∨ (opcodeOf i).1 = 2 ∧ ((opcodeOf i).2 ≤ 3 ∨ 8 ≤ (opcodeOf i).2 ∧ (opcodeOf i).2 ≤ 29
        ∨ 40 ≤ (opcodeOf i).2 ∧ (opcodeOf i).2 ≤ 43
        ∨ s.cfg.satTraps = false ∧ 32 ≤ (opcodeOf i).2 ∧ (opcodeOf i).2 ≤ 37)) →
    t.intRaised = s.intRaised ∨ t.intRaised = s.intRaised ++ [(.instIllegal, s.pc)]

/-- Each execution class writes its own kind of destination and nothing else. If exec i s answers next t: for classes S
and G only x[rd] may differ among registers, stored bytes and lengths; for classes W, X, L and P only v[rd] may (every
stored byte outside the window of rd, every other length and every general-purpose register is unchanged). The
configuration, numContr, the command list and pc are unchanged. So is memAddress but for address_form, which is the
model's reading (log entry 12), since U16 leaves the slot open between commands. Source: 30_encoding.md 6 (R88, R92,
R93, R94); 20_memory.md 1 (R50, R57); 10_state.md 4 (R34); 30_encoding.md 1 (R87). -/
def Obligations.ClassFrames : Prop :=
  ∀ (i : Instr) (s t : State), exec i s = .next t →
    (opClass i = .scalar ∨ opClass i = .getter → OnlyGpr i.fields.rd s t)
    ∧ (opClass i ≠ .scalar → opClass i ≠ .getter → OnlyVector i.fields.rd s t)
    ∧ Kept s t ∧ ((∀ c, i ≠ .addressForm c) → t.slots.memAddress = s.slots.memAddress)

/-- The decoder fills the command slots from the command word and the registers. For a well-formed instruction (not div_ex
or div_ex_u at ot = 3 under divEx64 = illegal) exec answers a next state whose operandType, op and operands slots are
the command's fields. Class S: parm is x[rd], x[rs], x[rt], numContr, imm, 0. Classes G and W: parm is 0, x[rs], 0,
the options word, imm, 0. Class X: the same but for slot 5, which holds what the handler left there: 0, and at ot = 4,
under a legal configuration, bytes 8 to 15 of the new v[rd]. Classes L and P: vectorLengthR is the length of R89,
modulo 2^64 (log entry 19); if the loop has an invocation, vectorOffset is the offset of the last one, and parm holds
its old lane, a, b, options word and imm, and in slot 5 what the handler left at that invocation: in class L 0, and at
ot = 4 bytes 8 to 15 of the last lane of the new v[rd]; in class P the new odd lane of the last pair (carry, borrow,
remainder or flag byte) as the run with commitOnInterrupt = true commits it. What is said of lanes of the new v[rd] in
classes L and P is for lengths within MaxVectorLength. vect and running end as 0 and 1 in classes S and G, 4 and 2 in
class W, 1 and 1 in class X and after a loop with an invocation. That the slots still hold after the command what the
decoder and the last invocation left is the model's choice (log entry 11; U16 allows any value), and so are vect and
running where R35 and R36 do not name the class (log entry 12). Source: 10_state.md 4 (R26, R27); 10_state.md 4 (R24,
R25, R35, R36); 30_encoding.md 5 (R84, R86); 30_encoding.md 6 (R89, R90, R91, R93, R94); 30_encoding.md 1 (R87). -/
def Obligations.DecoderFillsSlots : Prop :=
  ∀ (i : Instr) (s : State), i.wf = true →
    (s.cfg.divEx64 = .exact ∨ i.fields.ot ≠ .i64 ∨ opcodeOf i ≠ (2, 30) ∧ opcodeOf i ≠ (2, 31)) →
    let c := i.fields
    let opts := fun off => if showsMask i then maskedOptions c s off else s.numContr
    let gprSource := opcodeOf i = (2, 13) ∨ opcodeOf i = (2, 14)
    let length := loopLength i s
    let stride := if opClass i = .pair then 2 * dataSize c.ot else dataSize c.ot
    let last := (length / stride - 1) * stride
    let lane := fun (r : RegIx) off => BitVec.ofNat 64 (s.velem r off (min (dataSize c.ot) 8))
    ∃ t, exec i s = .next t
      ∧ t.slots.operandType = c.ot ∧ t.slots.op = BitVec.ofNat 6 (opcodeOf i).2
      ∧ t.slots.operands
          = #v[c.rd, (match c.rm with | some m => ⟨m.val, by omega⟩ | none => 7), 0, 0, c.rs, c.rt]
      ∧ (opClass i = .scalar → t.slots.parm = #v[s.gpr c.rd, s.gpr c.rs, s.gpr c.rt, s.numContr, c.imm.setWidth 64, 0])
      ∧ (opClass i = .scalar ∨ opClass i = .getter → t.slots.vect = 0 ∧ t.slots.running = 1)
      ∧ (opClass i = .getter ∨ opClass i = .whole → t.slots.parm = #v[0, s.gpr c.rs, 0, opts 0, c.imm.setWidth 64, 0])
      ∧ (opClass i = .whole → t.slots.vectorOffset = 0 ∧ t.slots.vect = 4 ∧ t.slots.running = 2)
      ∧ (opClass i = .extract → t.slots.vectorOffset = 0 ∧ t.slots.vect = 1 ∧ t.slots.running = 1
          ∧ ∃ aux, t.slots.parm = #v[0, s.gpr c.rs, 0, opts 0, c.imm.setWidth 64, aux]
            ∧ (c.ot ≠ .i128 → aux = 0)
            ∧ (c.ot = .i128 → s.cfg.wf → aux = BitVec.ofNat 64 (t.velem c.rd 8 8)))
      ∧ (opClass i = .lane ∨ opClass i = .pair → t.slots.vectorLengthR = BitVec.ofNat 64 length
          ∧ (stride ≤ length → t.slots.vectorOffset = BitVec.ofNat 64 last ∧ t.slots.vect = 1 ∧ t.slots.running = 1
            ∧ ∃ aux, t.slots.parm = #v[lane c.rd last, if gprSource then s.gpr c.rs else lane c.rs last,
                lane c.rt (if gprSource then 0 else last), opts last, c.imm.setWidth 64, aux]
              ∧ (opClass i = .lane → c.ot ≠ .i128 → aux = 0)
              ∧ (opClass i = .lane → c.ot = .i128 → LengthsOk s → aux = BitVec.ofNat 64 (t.velem c.rd (last + 8) 8))
              ∧ (opClass i = .pair → LengthsOk s →
                  ∃ u, exec i { s with cfg := { s.cfg with commitOnInterrupt := true } } = .next u
                    ∧ aux = BitVec.ofNat 64 (u.velem c.rd (last + dataSize c.ot) (dataSize c.ot)))))

/-- The command slots carry no information from one instruction to the next. Running any instruction in two states that
differ only in the command slots and returnType gives the same general-purpose registers, vector bytes, lengths and
interrupts. Source: 10_state.md 1 (R20); 10_state.md 4 (R32). -/
def Obligations.CommandSlotsCarryNothing : Prop :=
  ∀ (i : Instr) (s t u : State) (slots : Slots) (tag : BitVec 16), exec i s = .next t →
    exec i { s with slots := slots, returnType := tag } = .next u →
    u.x = t.x ∧ u.mem = t.mem ∧ u.vlen = t.vlen ∧ u.intRaised = t.intRaised

/-- The unspecified draws reach no register, byte, length or interrupt except through a NaN. Running any instruction in
two states that differ only in the number of the next draw gives the same general-purpose registers, lengths and
interrupts, and the same bytes outside the window of rd. The vector bytes are all the same for an operand type that is
not a float type, with nanPayload fixed to the default quiet NaN, and for every operation other than the compress,
expand and sqrt operations. For those, with float types and lengths within MaxVectorLength, each lane of the result is
the same in both runs or a NaN in both. The draw number is the model's own field, and how a produced NaN is drawn is
its reading (log entries 7 and 8). Source: 93_implementation_defined.md U4, U6; 43_compress_expand.md (R162, R167);
49_sqrt.md (R272, R274). -/
def Obligations.FreeValuesReachOnlyNaNs : Prop :=
  ∀ (i : Instr) (s t u : State) (d : Nat), exec i s = .next t → exec i { s with draws := d } = .next u →
    let c := i.fields
    let g := resultFormat i
    let size := g.width / 8
    u.x = t.x ∧ u.vlen = t.vlen ∧ u.intRaised = t.intRaised
      ∧ (∀ a, a < s.vbase c.rd ∨ s.vbase c.rd + s.cfg.maxVectorLength ≤ a → u.mem.read a = t.mem.read a)
      ∧ (c.ot ∉ OpType.floats ∨ s.cfg.nanPayload = .defaultQuiet ∨ producesNaN i = false → u.mem = t.mem)
      ∧ (c.ot ∈ OpType.floats → producesNaN i = true → LengthsOk s → ∀ k,
          u.velem c.rd (k * size) size = t.velem c.rd (k * size) size
          ∨ g.isNaN (u.velem c.rd (k * size) size) = true ∧ g.isNaN (t.velem c.rd (k * size) size) = true)

/-- bitscan_forward and bitscan_reverse give the least and the greatest set bit, or all ones. For an operand type of at
most 64 bits, with a = x[rt] masked to the type: for a = 0 the result is 64 ones, else bit v of a is set and no bit
below (forward) or above (reverse) it. Only x[rd] changes and no interrupt is raised. At ot = 4 both are illegal.
Source: R111; R112. -/
def Obligations.BitscanResults : Prop :=
  ∀ (c : Fields) (s : State),
    (opcodeOf (.bitscanForward c) = (0, 0) ∧ opcodeOf (.bitscanReverse c) = (0, 1))
    ∧ (c.ot ≠ .i128 →
      let a := uns (dataBits c.ot) (s.gpr c.rt).toNat
      GprEffect (.bitscanForward c) s [] (fun t =>
          (a = 0 → t.gpr c.rd = BitVec.allOnes 64)
          ∧ (a ≠ 0 → a.testBit (t.gpr c.rd).toNat = true ∧ ∀ j < (t.gpr c.rd).toNat, a.testBit j = false))
      ∧ GprEffect (.bitscanReverse c) s [] (fun t =>
          (a = 0 → t.gpr c.rd = BitVec.allOnes 64)
          ∧ (a ≠ 0 → a.testBit (t.gpr c.rd).toNat = true ∧ ∀ j, (t.gpr c.rd).toNat < j → a.testBit j = false)))
    ∧ (c.ot = .i128 → IllegalEffect (.bitscanForward c) s ∧ IllegalEffect (.bitscanReverse c) s)

/-- round_down_pow2 and round_up_pow2, with the width overflow of the latter. With a = x[rt] masked to the type:
round_down_pow2 gives 0 for 0, else the power of two v with v <= a < 2v. round_up_pow2 gives 0 for 0, the power of two
v with a <= v < 2a if a <= 2^(W-1), and else 64 ones with INT_OVERFL_SIGN if bit 2 of numContr is set, else
INT_OVERFL_UNSIGN if bit 1 is. At ot = 4 both are illegal. Source: R113; R114. -/
def Obligations.RoundPow2Results : Prop :=
  ∀ (c : Fields) (s : State),
    (opcodeOf (.roundDownPow2 c) = (0, 2) ∧ opcodeOf (.roundUpPow2 c) = (0, 3))
    ∧ (c.ot ≠ .i128 →
      let w := dataBits c.ot
      let a := uns w (s.gpr c.rt).toNat
      let ks : List IntKind := if a ≤ 2 ^ (w - 1) then [] else if s.numContr.getLsbD 2 then [.overflSign]
        else if s.numContr.getLsbD 1 then [.overflUnsign] else []
      GprEffect (.roundDownPow2 c) s [] (fun t =>
          (a = 0 → t.gpr c.rd = 0)
          ∧ (a ≠ 0 → (∃ k, (t.gpr c.rd).toNat = 2 ^ k) ∧ (t.gpr c.rd).toNat ≤ a ∧ a < 2 * (t.gpr c.rd).toNat))
      ∧ (Committed s ks → GprEffect (.roundUpPow2 c) s ks (fun t =>
          (a = 0 → t.gpr c.rd = 0)
          ∧ (a ≠ 0 → a ≤ 2 ^ (w - 1) →
              (∃ k, (t.gpr c.rd).toNat = 2 ^ k) ∧ a ≤ (t.gpr c.rd).toNat ∧ (t.gpr c.rd).toNat < 2 * a)
          ∧ (2 ^ (w - 1) < a → t.gpr c.rd = BitVec.allOnes 64))))
    ∧ (c.ot = .i128 → IllegalEffect (.roundDownPow2 c) s ∧ IllegalEffect (.roundUpPow2 c) s)

/-- absolute: the magnitude, the three policies at MIN_SIGNED, and the interrupt of imm[2]. With s the signed reading of
x[rt] at the type: the result is the magnitude of s, except at MIN_SIGNED, where it is 2^(W-1), MAX_SIGNED or 0 by
imm[1:0] and INT_OVERFL_SIGN is raised if imm[2] is set, whatever numContr holds. imm[1:0] = 3 and a type outside 0 to
3 are illegal. Source: R118. -/
def Obligations.AbsoluteResult : Prop :=
  ∀ (c : Fields) (s : State),
    opcodeOf (.absolute c) = (3, 0)
    ∧ (c.imm.toNat % 4 = 3 ∨ c.ot ∉ OpType.integersUpTo64 → IllegalEffect (.absolute c) s)
    ∧ (c.imm.toNat % 4 ≠ 3 → c.ot ∈ OpType.integersUpTo64 →
      let w := dataBits c.ot
      let a := sgn w (s.gpr c.rt).toNat
      let ks : List IntKind := if a = minSigned w ∧ c.imm.getLsbD 2 = true then [.overflSign] else []
      Committed s ks → GprEffect (.absolute c) s ks (fun t =>
        (a ≠ minSigned w → ((t.gpr c.rd).toNat : Int) = |a|)
        ∧ (a = minSigned w → c.imm.toNat % 4 = 0 → (t.gpr c.rd).toNat = 2 ^ (w - 1))
        ∧ (a = minSigned w → c.imm.toNat % 4 = 1 → (t.gpr c.rd).toNat = 2 ^ (w - 1) - 1)
        ∧ (a = minSigned w → c.imm.toNat % 4 = 2 → (t.gpr c.rd).toNat = 0)))

/-- shift_add: the wrapped sum and the exact loss and overflow conditions. With a = x[rs], b = x[rt] masked to the type
and the whole immediate as shift count: the result is (a + b * 2^imm) mod 2^W; INT_OVERFL_SIGN is raised if enabled
and b * 2^imm or the sum does not fit signed, then INT_OVERFL_UNSIGN if enabled and one does not fit unsigned. A type
outside 0 to 3 is illegal. Source: R120. -/
def Obligations.ShiftAddResult : Prop :=
  ∀ (c : Fields) (s : State),
    opcodeOf (.shiftAdd c) = (3, 1)
    ∧ (c.ot ∉ OpType.integersUpTo64 → IllegalEffect (.shiftAdd c) s)
    ∧ (c.ot ∈ OpType.integersUpTo64 →
      let w := dataBits c.ot
      let a := uns w (s.gpr c.rs).toNat
      let b := uns w (s.gpr c.rt).toNat
      let r1 := b * 2 ^ c.imm.toNat % 2 ^ w
      let outS := fun x : Int => x < minSigned w ∨ maxSigned w < x
      let ks : List IntKind :=
        (if s.numContr.getLsbD 2 = true ∧ (outS (sgn w b * 2 ^ c.imm.toNat) ∨ outS (sgn w a + sgn w r1))
          then [.overflSign] else [])
        ++ (if s.numContr.getLsbD 1 = true ∧ (2 ^ w ≤ b * 2 ^ c.imm.toNat ∨ 2 ^ w ≤ a + r1) then [.overflUnsign] else [])
      Committed s ks → GprEffect (.shiftAdd c) s ks (fun t =>
        (t.gpr c.rd).toNat = (a + b * 2 ^ c.imm.toNat) % 2 ^ w))

/-- The eight high-half and 32-bit immediate operations. For every operand type, with a = x[rt] and imm the 32-bit
immediate: move_hi32 gives imm * 2^32, insert_hi32 gives imm * 2^32 + a[31:0], add_32u and sub_32u add and subtract
imm, add_hi32, and_hi32, or_hi32, xor_hi32 combine a with imm * 2^32, all modulo 2^64. Only x[rd] changes and no
interrupt is raised. Source: R131; R132; R133; R134; R135; R136; R137; R138. -/
def Obligations.WideImmediateResults : Prop :=
  ∀ (c : Fields) (s : State),
    let a := s.gpr c.rt
    let imm := c.imm.toNat
    let hi := BitVec.ofNat 64 (imm * 2 ^ 32)
    (opcodeOf (.moveHi32 c) = (4, 0) ∧ opcodeOf (.insertHi32 c) = (4, 1) ∧ opcodeOf (.add32u c) = (4, 2)
      ∧ opcodeOf (.sub32u c) = (4, 3) ∧ opcodeOf (.addHi32 c) = (4, 4) ∧ opcodeOf (.andHi32 c) = (4, 5)
      ∧ opcodeOf (.orHi32 c) = (4, 6) ∧ opcodeOf (.xorHi32 c) = (4, 7))
    ∧ GprEffect (.moveHi32 c) s [] (fun t => (t.gpr c.rd).toNat = imm * 2 ^ 32)
    ∧ GprEffect (.insertHi32 c) s [] (fun t => (t.gpr c.rd).toNat = imm * 2 ^ 32 + a.toNat % 2 ^ 32)
    ∧ GprEffect (.add32u c) s [] (fun t => (t.gpr c.rd).toNat = (a.toNat + imm) % 2 ^ 64)
    ∧ GprEffect (.sub32u c) s [] (fun t => ((t.gpr c.rd).toNat : Int) = ((a.toNat : Int) - imm) % 2 ^ 64)
    ∧ GprEffect (.addHi32 c) s [] (fun t => (t.gpr c.rd).toNat = (a.toNat + imm * 2 ^ 32) % 2 ^ 64)
    ∧ GprEffect (.andHi32 c) s [] (fun t => t.gpr c.rd = a &&& hi)
    ∧ GprEffect (.orHi32 c) s [] (fun t => t.gpr c.rd = a ||| hi)
    ∧ GprEffect (.xorHi32 c) s [] (fun t => t.gpr c.rd = a ^^^ hi)

/-- replace_bits writes the value into the window and leaves every other bit. With value = imm[15:0], start = imm[23:16],
count = imm[31:24]: if count <= 32 and start + count <= 64, bit j of the result is bit j - start of the zero-extended
value for start <= j < start + count and bit j of x[rt] elsewhere; otherwise the command is illegal. Source: R140. -/
def Obligations.ReplaceBitsResult : Prop :=
  ∀ (c : Fields) (s : State),
    let start := c.imm.toNat / 2 ^ 16 % 2 ^ 8
    let count := c.imm.toNat / 2 ^ 24
    opcodeOf (.replaceBits c) = (4, 8)
    ∧ (32 < count ∨ 64 < start + count → IllegalEffect (.replaceBits c) s)
    ∧ (count ≤ 32 → start + count ≤ 64 → GprEffect (.replaceBits c) s [] (fun t => ∀ j < 64,
        (t.gpr c.rd).getLsbD j = if start ≤ j ∧ j < start + count then (c.imm.toNat % 2 ^ 16).testBit (j - start)
          else (s.gpr c.rt).getLsbD j))

/-- address_form returns x[rt] plus the sign-extended immediate, as memAddress, with tag 0x13. address_form completes for
every operand type with x[rd] = memAddress = (x[rt] + sext(imm)) mod 2^64 and returnType = 0x13; no other register,
byte or length changes and no interrupt is raised. Source: R141. -/
def Obligations.AddressFormResult : Prop :=
  ∀ (c : Fields) (s : State), opcodeOf (.addressForm c) = (4, 9) ∧
    ∃ t, exec (.addressForm c) s = .next t ∧ OnlyGpr c.rd s t ∧ Kept s t ∧ Raised s t []
      ∧ ((t.gpr c.rd).toNat : Int) = ((s.gpr c.rt).toNat + c.imm.toInt) % 2 ^ 64
      ∧ t.slots.memAddress = t.gpr c.rd ∧ t.returnType = 0x13

/-- set_len and set_num give the source cut or zero-padded to the clamped length. For every operand type, with L =
min(x[rs], MaxVectorLength) for set_len and L = min(x[rs] * S, MaxVectorLength), product exact, for set_num: v[rd] has
length L and byte k < L is byte k of v[rt] with its zero tail; vect is 4 and running 2; nothing else changes. Source:
R151; R152. -/
def Obligations.SetLengthResults : Prop :=
  ∀ (c : Fields) (s : State),
    opcodeOf (.setLen c) = (2, 0) ∧ opcodeOf (.setNum c) = (2, 2)
    ∧ (let n := min (s.gpr c.rs).toNat s.cfg.maxVectorLength
       VectorEffect (.setLen c) s [] (fun t => t.len c.rd = n ∧ (∀ k < n, t.vb c.rd k = s.vb c.rt k)
        ∧ t.slots.vect = 4 ∧ t.slots.running = 2))
    ∧ (let n := min ((s.gpr c.rs).toNat * dataSize c.ot) s.cfg.maxVectorLength
       VectorEffect (.setNum c) s [] (fun t => t.len c.rd = n ∧ (∀ k < n, t.vb c.rd k = s.vb c.rt k)
        ∧ t.slots.vect = 4 ∧ t.slots.running = 2))

/-- get_len and get_num return the byte length and the element count, with tag 0x12. For every operand type get_len gives
x[rd] = VLen[rt] and get_num gives x[rd] = VLen[rt] div S (counts below 2^64), with returnType = 0x12; nothing else
changes. Source: R153; R154. -/
def Obligations.GetLengthResults : Prop :=
  ∀ (c : Fields) (s : State),
    opcodeOf (.getLen c) = (2, 1) ∧ opcodeOf (.getNum c) = (2, 3)
    ∧ GprEffect (.getLen c) s [] (fun t => (s.len c.rt < 2 ^ 64 → (t.gpr c.rd).toNat = s.len c.rt) ∧ t.returnType = 0x12)
    ∧ GprEffect (.getNum c) s [] (fun t =>
        (s.len c.rt / dataSize c.ot < 2 ^ 64 → (t.gpr c.rd).toNat = s.len c.rt / dataSize c.ot) ∧ t.returnType = 0x12)

/-- compress, compress_ss and compress_us on integers: wrap, clamp to signed, clamp to unsigned, and the traps. For ot 0
to 4, with n = min(x[rs], MaxVectorLength) div S elements of v[rt]: the length of v[rd] is n*S div 2; half element k
(for ot = 0 with its byte in the result) is the element mod 2^h under compress, its signed reading clamped to
[MIN_SIGNED(h), MAX_SIGNED(h)] under compress_ss, and clamped to [0, MAX_UNSIGNED(h)] under compress_us (unsigned
reading if compressUsSourceSigned is false). INT_OVERFL_SIGN, then INT_OVERFL_UNSIGN is raised if enabled by the
options word and some element does not fit the narrow signed, unsigned range. Source: 43_compress_expand.md (R161,
R163); 43_compress_expand.md (R164, R165, R166), integer types. -/
def Obligations.CompressIntegerResults : Prop :=
  ∀ (c : Fields) (s : State), c.ot ∈ OpType.integers →
    let w := dataBits c.ot
    let h := w / 2
    let n := min (s.gpr c.rs).toNat s.cfg.maxVectorLength / dataSize c.ot
    let e := fun k => s.velem c.rt (k * dataSize c.ot) (dataSize c.ot)
    let opts := maskedOptions c s 0
    let ks : List IntKind :=
      (if opts.getLsbD 2 = true ∧ ∃ k < n, sgn w (e k) < minSigned h ∨ maxSigned h < sgn w (e k) then [.overflSign] else [])
      ++ (if opts.getLsbD 1 = true ∧ ∃ k < n, maxUnsigned h < e k then [.overflUnsign] else [])
    let count := if c.ot = .i8 then 2 * (n / 2) else n
    (opcodeOf (.compress c) = (2, 4) ∧ opcodeOf (.compressSs c) = (2, 5) ∧ opcodeOf (.compressUs c) = (2, 6))
    ∧ (Committed s ks →
      VectorEffect (.compress c) s ks (fun t => t.len c.rd = n * dataSize c.ot / 2
        ∧ ∀ k < count, halfElement c.ot t c.rd k = e k % 2 ^ h)
      ∧ VectorEffect (.compressSs c) s ks (fun t => t.len c.rd = n * dataSize c.ot / 2
        ∧ ∀ k < count, sgn h (halfElement c.ot t c.rd k) = clampTo (minSigned h) (maxSigned h) (sgn w (e k)))
      ∧ VectorEffect (.compressUs c) s ks (fun t => t.len c.rd = n * dataSize c.ot / 2
        ∧ ∀ k < count, (halfElement c.ot t c.rd k : Int) = clampTo 0 (maxUnsigned h)
          (if s.cfg.compressUsSourceSigned then sgn w (e k) else (e k : Int))))

/-- compress on floats is the IEEE conversion to the narrower format, whatever the selector. For ot 5 and 6 each of the
three operations gives n elements of half the size: a NaN for a NaN, the infinity of the same sign for an infinity,
and for a finite element a pattern of the same sign which, with roundingMode = nearestEven, is its value rounded to
nearest, ties to even (subnormals and overflow to infinity included). INT_OVERFL_FLOAT is raised if and only if the
options word enables it and a finite element became an infinity. Under the other rounding modes the clauses on the
sign and the range rest on what the model takes those modes to be (log entry 9). Source: 43_compress_expand.md (R162,
R163); 43_compress_expand.md (R164, R165, R166), float types. -/
def Obligations.CompressFloatResults : Prop :=
  ∀ (c : Fields) (s : State), c.ot ∈ OpType.floats →
    let f := wideFormat c.ot
    let g := narrowFormat c.ot
    let half := dataSize c.ot / 2
    let n := min (s.gpr c.rs).toNat s.cfg.maxVectorLength / dataSize c.ot
    let e := fun k => s.velem c.rt (k * dataSize c.ot) (dataSize c.ot)
    let opts := maskedOptions c s 0
    (s.cfg.commitOnInterrupt = true ∨ opts.getLsbD 3 = false) →
    ∀ i ∈ [Instr.compress c, Instr.compressSs c, Instr.compressUs c], ∃ ks : List IntKind,
      VectorEffect i s ks (fun t => t.len c.rd = n * half
        ∧ (ks = if opts.getLsbD 3 = true ∧ ∃ k < n, f.isFinite (e k) = true ∧ g.isInf (t.velem c.rd (k * half) half) = true
            then [.overflFloat] else [])
        ∧ ∀ k < n,
          (f.isNaN (e k) = true → g.isNaN (t.velem c.rd (k * half) half) = true)
          ∧ (f.isInf (e k) = true → t.velem c.rd (k * half) half = g.pack (f.sign (e k)) g.infMag)
          ∧ (f.isFinite (e k) = true → ∃ m, t.velem c.rd (k * half) half = g.pack (f.sign (e k)) m ∧ m ≤ g.infMag
              ∧ (s.cfg.roundingMode = .nearestEven → g.Nearest (f.value (f.mag (e k))) m)))

/-- expand_u and expand_s on integers: zero- and sign-extension of the narrow elements. For ot 0 to 4, with n = min(x[rs],
MaxVectorLength) div S: v[rd] has length n*S; element k is half element k of v[rt] under expand_u, and has its signed
reading under expand_s. No interrupt is raised. Source: 43_compress_expand.md (R167), integer types;
43_compress_expand.md (R168, R169), integer types. -/
def Obligations.ExpandIntegerResults : Prop :=
  ∀ (c : Fields) (s : State), c.ot ∈ OpType.integers →
    let w := dataBits c.ot
    let n := min (s.gpr c.rs).toNat s.cfg.maxVectorLength / dataSize c.ot
    (opcodeOf (.expandU c) = (2, 8) ∧ opcodeOf (.expandS c) = (2, 9))
    ∧ VectorEffect (.expandU c) s [] (fun t => t.len c.rd = n * dataSize c.ot
      ∧ ∀ k < n, t.velem c.rd (k * dataSize c.ot) (dataSize c.ot) = halfElement c.ot s c.rt k)
    ∧ VectorEffect (.expandS c) s [] (fun t => t.len c.rd = n * dataSize c.ot
      ∧ ∀ k < n, sgn w (t.velem c.rd (k * dataSize c.ot) (dataSize c.ot)) = sgn (w / 2) (halfElement c.ot s c.rt k))

/-- expand on floats keeps every value exactly, whatever the selector. For ot 5 and 6 both operations give n elements: a
NaN for a NaN, the infinity of the same sign for an infinity, and for a finite element a finite pattern of the same
sign and exactly the same value. No interrupt is raised. Source: 43_compress_expand.md (R167), float types;
43_compress_expand.md (R168, R169), float types. -/
def Obligations.ExpandFloatResults : Prop :=
  ∀ (c : Fields) (s : State), c.ot ∈ OpType.floats →
    let f := narrowFormat c.ot
    let g := wideFormat c.ot
    let size := dataSize c.ot
    let n := min (s.gpr c.rs).toNat s.cfg.maxVectorLength / size
    let e := fun k => s.velem c.rt (k * (size / 2)) (size / 2)
    ∀ i ∈ [Instr.expandU c, Instr.expandS c],
      VectorEffect i s [] (fun t => t.len c.rd = n * size
        ∧ ∀ k < n,
          (f.isNaN (e k) = true → g.isNaN (t.velem c.rd (k * size) size) = true)
          ∧ (f.isInf (e k) = true → t.velem c.rd (k * size) size = g.pack (f.sign (e k)) g.infMag)
          ∧ (f.isFinite (e k) = true → g.isFinite (t.velem c.rd (k * size) size) = true
              ∧ g.sign (t.velem c.rd (k * size) size) = f.sign (e k)
              ∧ g.value (g.mag (t.velem c.rd (k * size) size)) = f.value (f.mag (e k))))

/-- compress_sparse packs the selected lanes; expand_sparse deals them out again in order. With n = min(x[rs],
MaxVectorLength) div S and a lane selected when bit 0 of the mask register's lane is set: compress_sparse gives the
selected lanes of v[rt] in order and VLen[rd] = (number selected) * S; expand_sparse gives n lanes, lane k being the
next source lane if selected and zero otherwise. Without a mask register both are illegal. Source: R170; R171. -/
def Obligations.SparseResults : Prop :=
  ∀ (c : Fields) (s : State),
    let size := dataSize c.ot
    let n := min (s.gpr c.rs).toNat s.cfg.maxVectorLength / size
    (opcodeOf (.compressSparse c) = (2, 10) ∧ opcodeOf (.expandSparse c) = (2, 11))
    ∧ (c.rm = none → IllegalEffect (.compressSparse c) s ∧ IllegalEffect (.expandSparse c) s)
    ∧ ∀ m : Fin 7, c.rm = some m →
      let before := fun k => ((List.range k).filter fun i => Selected m c s i).length
      VectorEffect (.compressSparse c) s [] (fun t => t.len c.rd = before n * size
        ∧ ∀ k < n, Selected m c s k = true → ∀ j < size, t.vb c.rd (before k * size + j) = s.vb c.rt (k * size + j))
      ∧ VectorEffect (.expandSparse c) s [] (fun t => t.len c.rd = n * size
        ∧ ∀ k < n, ∀ j < size, t.vb c.rd (k * size + j)
            = if Selected m c s k then s.vb c.rt (before k * size + j) else 0)

/-- extract makes element x[rs] of v[rt] a one-lane vector, or zero past its length. For every operand type and a
MaxVectorLength of at least 16: VLen[rd] = S and byte j of v[rd] is byte x[rs]*S + j of v[rt], which is 0 past
VLen[rt]; the position is the exact product. Source: R181. -/
def Obligations.ExtractResult : Prop :=
  ∀ (c : Fields) (s : State), s.cfg.wf → opcodeOf (.extract c) = (2, 12) ∧
    VectorEffect (.extract c) s [] (fun t => t.len c.rd = dataSize c.ot
      ∧ ∀ j < dataSize c.ot, t.vb c.rd j
          = if (s.gpr c.rs).toNat * dataSize c.ot < s.len c.rt then s.vb c.rt ((s.gpr c.rs).toNat * dataSize c.ot + j) else 0)

/-- insert replaces one lane of v[rd]; broadcast fills v[rd] with one element. For every operand type and lengths within
MaxVectorLength: insert gives n = VLen[rd] div S lanes, lane x[rs] being the first element of v[rt] and the others
unchanged; broadcast gives n = min(x[rs], MaxVectorLength) div S copies of the first element of v[rt]. Source: R183;
R184. -/
def Obligations.InsertBroadcastResults : Prop :=
  ∀ (c : Fields) (s : State), LengthsOk s →
    let size := dataSize c.ot
    (opcodeOf (.insert c) = (2, 13) ∧ opcodeOf (.broadcast c) = (2, 14))
    ∧ (let n := s.len c.rd / size
       VectorEffect (.insert c) s [] (fun t => t.len c.rd = n * size
        ∧ ∀ k < n, ∀ j < size, t.vb c.rd (k * size + j)
            = if k = (s.gpr c.rs).toNat then s.vb c.rt j else s.vb c.rd (k * size + j)))
    ∧ (let n := min (s.gpr c.rs).toNat s.cfg.maxVectorLength / size
       VectorEffect (.broadcast c) s [] (fun t => t.len c.rd = n * size
        ∧ ∀ k < n, ∀ j < size, t.vb c.rd (k * size + j) = s.vb c.rt j))

/-- bits2bool spreads a bit stream over elements; bool2bits packs it in 4-byte blocks. With L = min(x[rs],
MaxVectorLength), n = L div S: bits2bool gives length L, element i being the low S bytes of the options word with bit
0 replaced by stream bit i of v[rt], and zero bytes after the last element. For a legal MaxVectorLength, bool2bits
gives 4*ceil(n/32) bytes whose bit i is bit 0 of lane i of v[rt] for i < n and 0 above. Source: R191; R195. -/
def Obligations.BitPackResults : Prop :=
  ∀ (c : Fields) (s : State),
    let size := dataSize c.ot
    let len := min (s.gpr c.rs).toNat s.cfg.maxVectorLength
    let n := len / size
    (opcodeOf (.bits2bool c) = (2, 16) ∧ opcodeOf (.bool2bits c) = (2, 17))
    ∧ VectorEffect (.bits2bool c) s [] (fun t => t.len c.rd = len
      ∧ (∀ i < n, t.velem c.rd (i * size) size
          = ((maskedOptions c s 0).toNat / 2 * 2 + ((s.vb c.rt (i / 8)).getLsbD (i % 8)).toNat) % 256 ^ size)
      ∧ ∀ k, n * size ≤ k → t.vb c.rd k = 0)
    ∧ (s.cfg.wf → VectorEffect (.bool2bits c) s [] (fun t => t.len c.rd = 4 * ((n + 31) / 32)
      ∧ ∀ i < 8 * t.len c.rd, (t.vb c.rd (i / 8)).getLsbD (i % 8)
          = (decide (i < n) && (s.vb c.rt (i * size)).getLsbD 0)))

/-- bool_reduce gives the AND and the OR of the lanes' booleans. For ot 0 to 4 and a legal MaxVectorLength, with n =
min(x[rs], VLen[rt]) div S: v[rd] has length 8; bit 0 of its 64-bit value is the AND of bit 0 of the n lanes, forced
to 0 if x[rs] exceeds VLen[rt], bit 1 is their OR. For ot 5 and 6 it is illegal. Source: R200. -/
def Obligations.BoolReduceResult : Prop :=
  ∀ (c : Fields) (s : State), opcodeOf (.boolReduce c) = (2, 18)
    ∧ (c.ot ∉ OpType.integers → IllegalEffect (.boolReduce c) s)
    ∧ (c.ot ∈ OpType.integers → s.cfg.wf →
      let n := min (s.gpr c.rs).toNat (s.len c.rt) / dataSize c.ot
      let b := fun k => (s.vb c.rt (k * dataSize c.ot)).getLsbD 0
      VectorEffect (.boolReduce c) s [] (fun t => t.len c.rd = 8
        ∧ t.velem c.rd 0 8 = (if (∀ k < n, b k = true) ∧ (s.gpr c.rs).toNat ≤ s.len c.rt then 1 else 0)
            + 2 * (if ∃ k < n, b k = true then 1 else 0)))

/-- category_reduce marks exactly the float categories that occur among the lanes. For ot 5 and 6 and a legal
MaxVectorLength, with n = min(x[rs], VLen[rt]) div S: v[rd] has length 8, its 64-bit value is below 256, and bit j of
it is set if and only if one of the n lanes is in category j of the list NaN, zero, -subnormal, +subnormal, -normal,
+normal, -inf, +inf. For ot 0 to 4 it is illegal. Source: R202; R203. -/
def Obligations.CategoryReduceResult : Prop :=
  ∀ (c : Fields) (s : State), opcodeOf (.categoryReduce c) = (2, 19)
    ∧ (c.ot ∉ OpType.floats → IllegalEffect (.categoryReduce c) s)
    ∧ (c.ot ∈ OpType.floats → s.cfg.wf →
      let n := min (s.gpr c.rs).toNat (s.len c.rt) / dataSize c.ot
      VectorEffect (.categoryReduce c) s [] (fun t => t.len c.rd = 8 ∧ t.velem c.rd 0 8 < 256
        ∧ ∀ j < 8, (t.velem c.rd 0 8).testBit j = true ↔
            ∃ k < n, InCategory (wideFormat c.ot) (s.velem c.rt (k * dataSize c.ot) (dataSize c.ot)) j))

/-- The four byte shifts. For every operand type and lengths within MaxVectorLength, with len = VLen[rt], k = x[rs] exact:
shift_expand gives min(len + k, MaxVectorLength) bytes with k zeros entering below; shift_reduce gives max(len - k, 0)
bytes from byte k on; shift_up and shift_down keep the length and move the bytes up or down by k, zeros entering.
Source: R211; R212; R213; R214. -/
def Obligations.ShiftResults : Prop :=
  ∀ (c : Fields) (s : State), LengthsOk s →
    let len := s.len c.rt
    let k := (s.gpr c.rs).toNat
    (opcodeOf (.shiftExpand c) = (2, 20) ∧ opcodeOf (.shiftReduce c) = (2, 21) ∧ opcodeOf (.shiftUp c) = (2, 22)
      ∧ opcodeOf (.shiftDown c) = (2, 23))
    ∧ VectorEffect (.shiftExpand c) s [] (fun t => t.len c.rd = min (len + k) s.cfg.maxVectorLength
      ∧ ∀ i < t.len c.rd, t.vb c.rd i = if i < k then 0 else s.vb c.rt (i - k))
    ∧ VectorEffect (.shiftReduce c) s [] (fun t => t.len c.rd = len - k ∧ ∀ i < len - k, t.vb c.rd i = s.vb c.rt (i + k))
    ∧ VectorEffect (.shiftUp c) s [] (fun t => t.len c.rd = len
      ∧ ∀ i < len, t.vb c.rd i = if i < k then 0 else s.vb c.rt (i - k))
    ∧ VectorEffect (.shiftDown c) s [] (fun t => t.len c.rd = len
      ∧ ∀ i < len, t.vb c.rd i = if i + k < len then s.vb c.rt (i + k) else 0)

/-- rotate_up and rotate_down move each element of the ring by one position. With n = min(x[rs], MaxVectorLength) div S:
v[rd] has length n*S; under rotate_up element i of v[rt] (zero past its length) stands in position (i + 1) mod n,
under rotate_down element (i + 1) mod n stands in position i. Source: R215; R216. -/
def Obligations.RotateResults : Prop :=
  ∀ (c : Fields) (s : State),
    let size := dataSize c.ot
    let n := min (s.gpr c.rs).toNat s.cfg.maxVectorLength / size
    (opcodeOf (.rotateUp c) = (2, 24) ∧ opcodeOf (.rotateDown c) = (2, 25))
    ∧ VectorEffect (.rotateUp c) s [] (fun t => t.len c.rd = n * size
      ∧ ∀ i < n, ∀ j < size, t.vb c.rd ((i + 1) % n * size + j) = s.vb c.rt (i * size + j))
    ∧ VectorEffect (.rotateDown c) s [] (fun t => t.len c.rd = n * size
      ∧ ∀ i < n, ∀ j < size, t.vb c.rd (i * size + j) = s.vb c.rt ((i + 1) % n * size + j))

/-- add_carry and sub_borrow: exact sum and difference with carry and borrow, pair by pair. For ot 0 to 3 and lengths
within MaxVectorLength, with np = VLen[rs] div (2*S) pairs: v[rd] has length 2*np*S; in pair j, with a, b the even
lanes and c bit 0 of the odd lane of v[rs], the even lane r and the odd lane o of v[rd] satisfy r + 2^W * o = a + b +
c (add_carry) and r - 2^W * o = a - b - c (sub_borrow). Other types are illegal. Source: R221; R222. -/
def Obligations.CarryChainResults : Prop :=
  ∀ (c : Fields) (s : State),
    (opcodeOf (.addCarry c) = (2, 28) ∧ opcodeOf (.subBorrow c) = (2, 29))
    ∧ (c.ot ∉ OpType.integersUpTo64 → IllegalEffect (.addCarry c) s ∧ IllegalEffect (.subBorrow c) s)
    ∧ (c.ot ∈ OpType.integersUpTo64 → LengthsOk s →
      let size := dataSize c.ot
      let np := s.len c.rs / (2 * size)
      let a := fun j => s.velem c.rs (j * (2 * size)) size
      let b := fun j => s.velem c.rt (j * (2 * size)) size
      let cin := fun j => ((s.vb c.rs (j * (2 * size) + size)).getLsbD 0).toNat
      VectorEffect (.addCarry c) s [] (fun t => t.len c.rd = 2 * np * size
        ∧ ∀ j < np, t.velem c.rd (j * (2 * size)) size + 2 ^ dataBits c.ot * t.velem c.rd (j * (2 * size) + size) size
            = a j + b j + cin j)
      ∧ VectorEffect (.subBorrow c) s [] (fun t => t.len c.rd = 2 * np * size
        ∧ ∀ j < np, (t.velem c.rd (j * (2 * size)) size : Int)
              - 2 ^ dataBits c.ot * t.velem c.rd (j * (2 * size) + size) size
            = (a j : Int) - b j - cin j))

/-- Two chained add_carry steps give the exact double-width sum. If the carry lane of the first result is moved into the
odd lane of the first source of a second add_carry of the same type, the two result words and the last carry are the
exact sum of the two double-width numbers and the first carry-in. Source: 47_extended_precision.md (R221);
95_test_vectors.md E16. -/
def Obligations.AddCarryChainIsExact : Prop :=
  ∀ (c d : Fields) (s t s' t' : State), c.ot ∈ OpType.integersUpTo64 → d.ot = c.ot → LengthsOk s → LengthsOk s' →
    2 * dataSize c.ot ≤ s.len c.rs → 2 * dataSize c.ot ≤ s'.len d.rs →
    exec (.addCarry c) s = .next t → s'.velem d.rs (dataSize c.ot) (dataSize c.ot) = t.velem c.rd (dataSize c.ot) (dataSize c.ot) →
    exec (.addCarry d) s' = .next t' →
    let size := dataSize c.ot
    let B := 2 ^ dataBits c.ot
    t.velem c.rd 0 size + B * (t'.velem d.rd 0 size + B * t'.velem d.rd size size)
      = (s.velem c.rs 0 size + B * s'.velem d.rs 0 size) + (s.velem c.rt 0 size + B * s'.velem d.rt 0 size)
        + ((s.vb c.rs size).getLsbD 0).toNat

/-- div_ex: truncating double-width signed division, with saturation and interrupt on overflow. For ot 0 to 3 (ot = 3
under divEx64 = exact), in each pair, with D the signed double-width dividend from v[rs] and d the signed divisor from
v[rt]: if d = 0 or the quotient toward zero does not fit, quotient 2^(W-1), remainder 0, and INT_OVERFL_SIGN if the
options word of the pair enables it; else D = q*d + r with |r| < |d| and r of the sign of D. Source: R226; R225 (the
signed divider). -/
def Obligations.DivExResult : Prop :=
  ∀ (c : Fields) (s : State), opcodeOf (.divEx c) = (2, 30)
    ∧ (c.ot ∉ OpType.integersUpTo64 → IllegalEffect (.divEx c) s)
    ∧ (c.ot ∈ OpType.integersUpTo64 → (s.cfg.divEx64 = .exact ∨ c.ot ≠ .i64) → LengthsOk s →
      let size := dataSize c.ot
      let w := dataBits c.ot
      let np := s.len c.rs / (2 * size)
      let D := fun j => sgn (2 * w) (s.velem c.rs (j * (2 * size)) size + 2 ^ w * s.velem c.rs (j * (2 * size) + size) size)
      let d := fun j => sgn w (s.velem c.rt (j * (2 * size)) size)
      let ovf := fun j => d j = 0 ∨ (D j).tdiv (d j) < minSigned w ∨ maxSigned w < (D j).tdiv (d j)
      let ks : List IntKind := (List.range np).flatMap fun j =>
        if ovf j ∧ (maskedOptions c s (j * (2 * size))).getLsbD 2 = true then [.overflSign] else []
      Committed s ks → VectorEffect (.divEx c) s ks (fun t => t.len c.rd = 2 * np * size ∧ ∀ j < np,
        let q := t.velem c.rd (j * (2 * size)) size
        let r := t.velem c.rd (j * (2 * size) + size) size
        (ovf j → q = 2 ^ (w - 1) ∧ r = 0)
        ∧ (¬ ovf j → sgn w q * d j + sgn w r = D j ∧ |sgn w r| < |d j| ∧ 0 ≤ sgn w r * D j)))

/-- div_ex_u: double-width unsigned division, with saturation and interrupt on overflow. As for div_ex, unsigned: overflow
if the divisor is 0 or the high half of the dividend is at least the divisor, with quotient 2^W - 1, remainder 0 and
INT_OVERFL_UNSIGN if enabled; else q*d + r is the dividend with r < d. Source: R227; R225 (the unsigned divider). -/
def Obligations.DivExUResult : Prop :=
  ∀ (c : Fields) (s : State), opcodeOf (.divExU c) = (2, 31)
    ∧ (c.ot ∉ OpType.integersUpTo64 → IllegalEffect (.divExU c) s)
    ∧ (c.ot ∈ OpType.integersUpTo64 → (s.cfg.divEx64 = .exact ∨ c.ot ≠ .i64) → LengthsOk s →
      let size := dataSize c.ot
      let w := dataBits c.ot
      let np := s.len c.rs / (2 * size)
      let lo := fun j => s.velem c.rs (j * (2 * size)) size
      let hi := fun j => s.velem c.rs (j * (2 * size) + size) size
      let d := fun j => s.velem c.rt (j * (2 * size)) size
      let ks : List IntKind := (List.range np).flatMap fun j =>
        if d j ≤ hi j ∧ (maskedOptions c s (j * (2 * size))).getLsbD 1 = true then [.overflUnsign] else []
      Committed s ks → VectorEffect (.divExU c) s ks (fun t => t.len c.rd = 2 * np * size ∧ ∀ j < np,
        let q := t.velem c.rd (j * (2 * size)) size
        let r := t.velem c.rd (j * (2 * size) + size) size
        (d j ≤ hi j → q = 2 ^ w - 1 ∧ r = 0)
        ∧ (hi j < d j → q * d j + r = lo j + 2 ^ w * hi j ∧ r < d j)))

/-- add_ss, sub_ss, add_us, sub_us clamp the exact sum or difference of each lane. For ot 0 to 3 and lengths within
MaxVectorLength, over n = VLen[rs] div S lanes: the signed reading of the result is the exact signed sum or difference
clamped to [MIN_SIGNED, MAX_SIGNED], the unsigned one the exact unsigned sum or difference clamped to [0, 2^W - 1]. An
interrupt is raised only with satTraps, for each saturating lane, if numContr enables it. Other types are illegal.
Source: R240; R241; R242; R243; R244. -/
def Obligations.SaturatingAddSubResults : Prop :=
  ∀ (c : Fields) (s : State),
    (opcodeOf (.addSs c) = (2, 32) ∧ opcodeOf (.subSs c) = (2, 33) ∧ opcodeOf (.addUs c) = (2, 34)
      ∧ opcodeOf (.subUs c) = (2, 35))
    ∧ (c.ot ∉ OpType.integersUpTo64 → IllegalEffect (.addSs c) s ∧ IllegalEffect (.subSs c) s ∧ IllegalEffect (.addUs c) s
      ∧ IllegalEffect (.subUs c) s)
    ∧ (c.ot ∈ OpType.integersUpTo64 → LengthsOk s →
      let size := dataSize c.ot
      let w := dataBits c.ot
      let n := s.len c.rs / size
      let a := fun k => s.velem c.rs (k * size) size
      let b := fun k => s.velem c.rt (k * size) size
      let outS := fun x : Int => x < minSigned w ∨ maxSigned w < x
      let ksS := fun x : Nat → Int => (List.range n).flatMap fun k =>
        if s.cfg.satTraps = true ∧ outS (x k) ∧ s.numContr.getLsbD 2 = true then [IntKind.overflSign] else []
      let ksU := fun p : Nat → Bool => (List.range n).flatMap fun k =>
        if s.cfg.satTraps = true ∧ p k = true ∧ s.numContr.getLsbD 1 = true then [IntKind.overflUnsign] else []
      let signed := fun (i : Instr) (x : Nat → Int) => Committed s (ksS x) → VectorEffect i s (ksS x) (fun t =>
        t.len c.rd = n * size ∧ ∀ k < n, sgn w (t.velem c.rd (k * size) size) = clampTo (minSigned w) (maxSigned w) (x k))
      let unsigned := fun (i : Instr) (x : Nat → Int) =>
        let ks := ksU fun k => decide (x k < 0 ∨ (maxUnsigned w : Int) < x k)
        Committed s ks → VectorEffect i s ks (fun t =>
        t.len c.rd = n * size ∧ ∀ k < n, (t.velem c.rd (k * size) size : Int) = clampTo 0 (maxUnsigned w) (x k))
      signed (.addSs c) (fun k => sgn w (a k) + sgn w (b k))
      ∧ signed (.subSs c) (fun k => sgn w (a k) - sgn w (b k))
      ∧ unsigned (.addUs c) (fun k => (a k : Int) + b k)
      ∧ unsigned (.subUs c) (fun k => (a k : Int) - b k))

/-- mul_ss and mul_us clamp the exact product of each lane. As for the saturating sums, with the exact signed and unsigned
product; at ot = 3 under mul64OverflowExact = true. Other types are illegal. Source: R240; R245; R246. -/
def Obligations.SaturatingMulResults : Prop :=
  ∀ (c : Fields) (s : State),
    (opcodeOf (.mulSs c) = (2, 36) ∧ opcodeOf (.mulUs c) = (2, 37))
    ∧ (c.ot ∉ OpType.integersUpTo64 → IllegalEffect (.mulSs c) s ∧ IllegalEffect (.mulUs c) s)
    ∧ (c.ot ∈ OpType.integersUpTo64 → LengthsOk s → (s.cfg.mul64OverflowExact = true ∨ c.ot ≠ .i64) →
      let size := dataSize c.ot
      let w := dataBits c.ot
      let n := s.len c.rs / size
      let a := fun k => s.velem c.rs (k * size) size
      let b := fun k => s.velem c.rt (k * size) size
      let outS := fun x : Int => x < minSigned w ∨ maxSigned w < x
      let ksS := fun x : Nat → Int => (List.range n).flatMap fun k =>
        if s.cfg.satTraps = true ∧ outS (x k) ∧ s.numContr.getLsbD 2 = true then [IntKind.overflSign] else []
      let ksU := fun p : Nat → Bool => (List.range n).flatMap fun k =>
        if s.cfg.satTraps = true ∧ p k = true ∧ s.numContr.getLsbD 1 = true then [IntKind.overflUnsign] else []
      let signed := fun (i : Instr) (x : Nat → Int) => Committed s (ksS x) → VectorEffect i s (ksS x) (fun t =>
        t.len c.rd = n * size ∧ ∀ k < n, sgn w (t.velem c.rd (k * size) size) = clampTo (minSigned w) (maxSigned w) (x k))
      let unsigned := fun (i : Instr) (x : Nat → Int) =>
        let ks := ksU fun k => decide (x k < 0 ∨ (maxUnsigned w : Int) < x k)
        Committed s ks → VectorEffect i s ks (fun t =>
        t.len c.rd = n * size ∧ ∀ k < n, (t.velem c.rd (k * size) size : Int) = clampTo 0 (maxUnsigned w) (x k))
      signed (.mulSs c) (fun k => sgn w (a k) * sgn w (b k))
      ∧ unsigned (.mulUs c) (fun k => (a k : Int) * b k))

/-- The 64-bit overflow heuristic reports exactly the products that do not fit, so its parameter changes no result. For
every rounding mode and all 64-bit operands, the heuristic of R247 (binary64 reconstruction with tolerance 1e8)
reports an overflow if and only if the exact signed, or unsigned, product does not fit 64 bits; hence every
instruction gives the same registers, vector bytes, lengths and interrupts under both settings of mul64OverflowExact.
The rounding of the heuristic's steps (log entry 10) and the rounding modes other than nearestEven (log entry 9) are
the model's, and so is that mul_oc evaluates the heuristic unsigned for its unsigned and signed for its signed flag
(log entry 25). Source: 48_saturating_overflow_checked.md 1 (R247). -/
def Obligations.HeuristicMultiplyAgrees : Prop :=
  (∀ (mode : RoundingMode) (a b : Nat), a < 2 ^ 64 → b < 2 ^ 64 →
      (mul64Heuristic mode (sgn 64 a) (sgn 64 b) (sgn 64 (pat 64 (sgn 64 a * sgn 64 b))) = true
        ↔ (sgn 64 a * sgn 64 b < minSigned 64 ∨ maxSigned 64 < sgn 64 a * sgn 64 b))
      ∧ (mul64Heuristic mode a b (a * b % 2 ^ 64 : Nat) = true ↔ maxUnsigned 64 < a * b))
    ∧ ∀ (i : Instr) (s t u : State) (exact : Bool), exec i s = .next t →
      exec i { s with cfg := { s.cfg with mul64OverflowExact := exact } } = .next u →
      u.x = t.x ∧ u.mem = t.mem ∧ u.vlen = t.vlen ∧ u.intRaised = t.intRaised

/-- add_oc, sub_oc and mul_oc: wrapped value, and the flags of the pair in the odd lane. For ot 0 to 3 and lengths within
MaxVectorLength, in each pair of lanes: the even lane of v[rd] is the sum, difference or product modulo 2^W; the odd
lane is the OR of the first bytes of both incoming odd lanes with bit 0 for an unsigned overflow (for sub_oc the
borrow) and bit 1 for a signed overflow. No interrupt is raised. mul_oc at ot = 3 under mul64OverflowExact = true.
Other types are illegal. Source: R250; R251; R252; R253. -/
def Obligations.CheckedArithmeticResults : Prop :=
  ∀ (c : Fields) (s : State),
    (opcodeOf (.addOc c) = (2, 40) ∧ opcodeOf (.subOc c) = (2, 41) ∧ opcodeOf (.mulOc c) = (2, 42))
    ∧ (c.ot ∉ OpType.integersUpTo64 → IllegalEffect (.addOc c) s ∧ IllegalEffect (.subOc c) s ∧ IllegalEffect (.mulOc c) s)
    ∧ (c.ot ∈ OpType.integersUpTo64 → LengthsOk s →
      let size := dataSize c.ot
      let w := dataBits c.ot
      let np := s.len c.rs / (2 * size)
      let a := fun j => s.velem c.rs (j * (2 * size)) size
      let b := fun j => s.velem c.rt (j * (2 * size)) size
      let fin := fun j => (s.vb c.rs (j * (2 * size) + size)).toNat ||| (s.vb c.rt (j * (2 * size) + size)).toNat
      let outS := fun x : Int => decide (x < minSigned w ∨ maxSigned w < x)
      let checked := fun (i : Instr) (value : Nat → Nat) (ovU ovS : Nat → Bool) => VectorEffect i s [] (fun t =>
        t.len c.rd = 2 * np * size ∧ ∀ j < np, t.velem c.rd (j * (2 * size)) size = value j
          ∧ t.velem c.rd (j * (2 * size) + size) size = (fin j ||| ((ovU j).toNat + 2 * (ovS j).toNat)))
      checked (.addOc c) (fun j => (a j + b j) % 2 ^ w) (fun j => decide (2 ^ w ≤ a j + b j))
          (fun j => outS (sgn w (a j) + sgn w (b j)))
      ∧ checked (.subOc c) (fun j => (a j + (2 ^ w - b j)) % 2 ^ w) (fun j => decide (a j < b j))
          (fun j => outS (sgn w (a j) - sgn w (b j)))
      ∧ ((s.cfg.mul64OverflowExact = true ∨ c.ot ≠ .i64) →
          checked (.mulOc c) (fun j => a j * b j % 2 ^ w) (fun j => decide (2 ^ w ≤ a j * b j))
            (fun j => outS (sgn w (a j) * sgn w (b j)))))

/-- div_oc: signed quotient toward zero, and the two overflow cases in the flags. For ot 0 to 3 and lengths within
MaxVectorLength, in each pair: divisor 0 gives 2^(W-1) and sets both flags; MIN_SIGNED / -1 gives 2^(W-1) and sets the
signed flag; otherwise the signed reading of the result is the quotient rounded toward zero and no flag is set. The
flags are OR-ed into the incoming ones. Other types are illegal. Source: R250; R254. -/
def Obligations.CheckedDivisionResult : Prop :=
  ∀ (c : Fields) (s : State), opcodeOf (.divOc c) = (2, 43)
    ∧ (c.ot ∉ OpType.integersUpTo64 → IllegalEffect (.divOc c) s)
    ∧ (c.ot ∈ OpType.integersUpTo64 → LengthsOk s →
      let size := dataSize c.ot
      let w := dataBits c.ot
      let np := s.len c.rs / (2 * size)
      let a := fun j => s.velem c.rs (j * (2 * size)) size
      let b := fun j => s.velem c.rt (j * (2 * size)) size
      let fin := fun j => (s.vb c.rs (j * (2 * size) + size)).toNat ||| (s.vb c.rt (j * (2 * size) + size)).toNat
      let corner := fun j => sgn w (a j) = minSigned w ∧ sgn w (b j) = -1
      VectorEffect (.divOc c) s [] (fun t => t.len c.rd = 2 * np * size ∧ ∀ j < np,
        let q := t.velem c.rd (j * (2 * size)) size
        let o := t.velem c.rd (j * (2 * size) + size) size
        (b j = 0 → q = 2 ^ (w - 1) ∧ o = (fin j ||| 3))
        ∧ (corner j → q = 2 ^ (w - 1) ∧ o = (fin j ||| 2))
        ∧ (b j ≠ 0 → ¬ corner j → sgn w q = (sgn w (a j)).tdiv (sgn w (b j)) ∧ o = fin j)))

/-- sqrt on integers: the greatest integer whose square is at most the operand, and the error on a negative one. For ot 0
to 3 and lengths within MaxVectorLength, over n = VLen[rt] div S lanes with x the signed reading: for x >= 0 the
result q satisfies q*q <= x < (q+1)*(q+1); for x < 0 it is 0 and INT_OVERFL_SIGN is raised if the options word of the
lane enables it, else INT_OVERFL_UNSIGN if that is enabled. At ot = 4 it is illegal. Source: 49_sqrt.md (R271, R273). -/
def Obligations.IntegerSqrtResult : Prop :=
  ∀ (c : Fields) (s : State), opcodeOf (.sqrt c) = (2, 48)
    ∧ (c.ot = .i128 → IllegalEffect (.sqrt c) s)
    ∧ (c.ot ∈ OpType.integersUpTo64 → LengthsOk s →
      let size := dataSize c.ot
      let n := s.len c.rt / size
      let x := fun k => sgn (dataBits c.ot) (s.velem c.rt (k * size) size)
      let ks : List IntKind := (List.range n).flatMap fun k =>
        if 0 ≤ x k then [] else if (maskedOptions c s (k * size)).getLsbD 2 then [.overflSign]
        else if (maskedOptions c s (k * size)).getLsbD 1 then [.overflUnsign] else []
      Committed s ks → VectorEffect (.sqrt c) s ks (fun t => t.len c.rd = n * size ∧ ∀ k < n,
        let q : Int := t.velem c.rd (k * size) size
        (x k < 0 → q = 0) ∧ (0 ≤ x k → q * q ≤ x k ∧ x k < (q + 1) * (q + 1))))

/-- sqrt on floats: special operands, the invalid interrupt, and the correctly rounded root. For ot 5 and 6 and lengths
within MaxVectorLength, in each lane: a NaN gives a NaN, a zero or +inf itself, another negative operand a NaN with
INT_FLOAT_INVALID if the options word of the lane enables it; a positive finite operand gives a finite pattern which,
with roundingMode = nearestEven, is its exact square root rounded to nearest, ties to even. That the result is finite
under the other rounding modes rests on what the model takes those modes to be (log entry 9). Source: 49_sqrt.md
(R271, R274). -/
def Obligations.FloatSqrtResult : Prop :=
  ∀ (c : Fields) (s : State), c.ot ∈ OpType.floats → LengthsOk s →
    let size := dataSize c.ot
    let f := wideFormat c.ot
    let n := s.len c.rt / size
    let x := fun k => s.velem c.rt (k * size) size
    let negative := fun k => f.isNaN (x k) = false ∧ f.isZero (x k) = false ∧ f.sign (x k) = true
    let ks : List IntKind := (List.range n).flatMap fun k =>
      if negative k ∧ (maskedOptions c s (k * size)).getLsbD 4 = true then [.floatInvalid] else []
    Committed s ks → VectorEffect (.sqrt c) s ks (fun t => t.len c.rd = n * size ∧ ∀ k < n,
      let y := t.velem c.rd (k * size) size
      (f.isNaN (x k) = true ∨ negative k → f.isNaN y = true)
      ∧ (f.isZero (x k) = true ∨ f.isInf (x k) = true ∧ f.sign (x k) = false → y = x k)
      ∧ (f.isFinite (x k) = true → f.isZero (x k) = false → f.sign (x k) = false →
          y < f.infMag ∧ (s.cfg.roundingMode = .nearestEven → f.NearestRoot (f.value (x k)) y)))

/-- compress and compress_ss undo expand_s (law 1). For the integer types: expanding v[rt] with sign extension to x[rs]
bytes and compressing the result under wrap or signed saturation with the same length gives back the first half as
many bytes of v[rt]. Source: 43_compress_expand.md (R169, corner cases); 95_test_vectors.md E9. -/
def Obligations.CompressUndoesExpandS : Prop :=
  ∀ (c d : Fields) (s t u : State), c.ot ∈ OpType.integers → d.ot = c.ot → d.rt = c.rd → d.rs = c.rs →
    s.cfg.commitOnInterrupt = true → exec (.expandS c) s = .next t →
    (exec (.compress d) t = .next u ∨ exec (.compressSs d) t = .next u) →
    let n := min (s.gpr c.rs).toNat s.cfg.maxVectorLength / dataSize c.ot
    u.len d.rd = n * dataSize c.ot / 2 ∧ ∀ k < u.len d.rd, u.vb d.rd k = s.vb c.rt k

/-- bool2bits undoes bits2bool on the first x[rs] div S bits (law 2). Spreading the bit stream of v[rt] with bits2bool and
packing the result with bool2bits under the same length gives 4*ceil(n/32) bytes, n = x[rs] (clamped) div S: the first
n bits of v[rt], and zero bits above. Source: 45_bitpack_reduce_classify.md (R195, corner cases); 95_test_vectors.md
E10. -/
def Obligations.Bool2bitsUndoesBits2bool : Prop :=
  ∀ (c d : Fields) (s t u : State), s.cfg.wf → d.ot = c.ot → d.rt = c.rd → d.rs = c.rs →
    exec (.bits2bool c) s = .next t → exec (.bool2bits d) t = .next u →
    let n := min (s.gpr c.rs).toNat s.cfg.maxVectorLength / dataSize c.ot
    u.len d.rd = 4 * ((n + 31) / 32)
      ∧ ∀ i < 8 * u.len d.rd, (u.vb d.rd (i / 8)).getLsbD (i % 8) = (decide (i < n) && (s.vb c.rt (i / 8)).getLsbD (i % 8))

/-- shift_up after shift_down by the same count zeroes the low bytes and keeps the rest (law 3). For lengths within
MaxVectorLength, shift_down by k and then shift_up by k gives v[rt] with bytes 0 to k-1 zeroed and the others
unchanged, with its length. Source: 46_vector_shift_rotate.md (R214, corner cases); 95_test_vectors.md E11. -/
def Obligations.ShiftUpAfterShiftDown : Prop :=
  ∀ (c d : Fields) (s t u : State), LengthsOk s → d.rt = c.rd → d.rs = c.rs →
    exec (.shiftDown c) s = .next t → exec (.shiftUp d) t = .next u →
    u.len d.rd = s.len c.rt ∧ ∀ i, u.vb d.rd i = if i < (s.gpr c.rs).toNat then 0 else s.vb c.rt i

/-- rotate_up undoes rotate_down on the ring (law 4). Rotating v[rt] down and the result up again under the same ring
length gives back the n*S bytes of the ring; if VLen[rt] is that length, v[rd] is v[rt]. Source:
46_vector_shift_rotate.md (R216, corner cases); 95_test_vectors.md E12. -/
def Obligations.RotateUpAfterRotateDown : Prop :=
  ∀ (c d : Fields) (s t u : State), d.ot = c.ot → d.rt = c.rd → d.rs = c.rs →
    exec (.rotateDown c) s = .next t → exec (.rotateUp d) t = .next u →
    let n := min (s.gpr c.rs).toNat s.cfg.maxVectorLength / dataSize c.ot
    u.len d.rd = n * dataSize c.ot ∧ ∀ k < u.len d.rd, u.vb d.rd k = s.vb c.rt k

/-- expand_sparse of a compress_sparse restores the selected lanes and zeroes the others. Under the same mask register and
length, if compress_sparse does not write the mask register and lengths are within MaxVectorLength, expand_sparse of
its result gives n lanes: the selected lanes of v[rt] in their places, zeros elsewhere. Source: 43_compress_expand.md
(R171, corner cases). -/
def Obligations.ExpandSparseRestores : Prop :=
  ∀ (c d : Fields) (s t u : State) (m : Fin 7), LengthsOk s → c.rm = some m → d.rm = some m → d.ot = c.ot → d.rt = c.rd →
    d.rs = c.rs → c.rd.val ≠ m.val → exec (.compressSparse c) s = .next t → exec (.expandSparse d) t = .next u →
    let size := dataSize c.ot
    let n := min (s.gpr c.rs).toNat s.cfg.maxVectorLength / size
    u.len d.rd = n * size ∧ ∀ k < n, ∀ j < size,
      u.vb d.rd (k * size + j) = if Selected m c s k then s.vb c.rt (k * size + j) else 0
end

