-- ==== Sys2Proof/Laws/Arith.lean ====
section
/-! SUPPORT. What the arithmetic primitives of R13 and R15 give: ranges, the two's-complement round trip, saturation, the bit
scans and the integer square root. -/

namespace Sys2Proof.Machine

open Sys2Proof

theorem uns_lt (w v : Nat) : uns w v < 2 ^ w := Nat.mod_lt _ (by positivity)

theorem uns_of_lt {w v : Nat} (h : v < 2 ^ w) : uns w v = v := Nat.mod_eq_of_lt h

theorem two_pow_pred {w : Nat} (hw : 0 < w) : 2 ^ w = 2 * 2 ^ (w - 1) := by
  rw [← pow_succ', Nat.sub_add_cancel hw]

/-- The signed reading of a pattern of at least one bit lies between the bounds of R15. -/
theorem sgn_range {w : Nat} (hw : 0 < w) (v : Nat) : minSigned w ≤ sgn w v ∧ sgn w v ≤ maxSigned w := by
  have h1 := uns_lt w v
  have h2 := two_pow_pred hw
  have e : (2 : Int) ^ w = 2 * 2 ^ (w - 1) := by exact_mod_cast h2
  have e' : ((2 ^ (w - 1) : Nat) : Int) = 2 ^ (w - 1) := by push_cast; rfl
  unfold sgn minSigned maxSigned
  split <;> omega

theorem pat_lt (w : Nat) (t : Int) : pat w t < 2 ^ w := by
  have h : (0 : Int) < 2 ^ w := by positivity
  have h1 := Int.emod_nonneg t h.ne'
  have h2 := Int.emod_lt_of_pos t h
  unfold pat
  zify
  rw [Int.toNat_of_nonneg h1]
  exact h2

/-- The pattern of an integer, read back without its sign, is the integer modulo `2 ^ w`. -/
theorem cast_pat (w : Nat) (t : Int) : (pat w t : Int) = t % 2 ^ w :=
  Int.toNat_of_nonneg (Int.emod_nonneg t (by positivity))

/-- The pattern of an integer between the bounds of R15 reads back as the integer. -/
theorem sgn_pat {w : Nat} (hw : 0 < w) {t : Int} (h1 : minSigned w ≤ t) (h2 : t ≤ maxSigned w) : sgn w (pat w t) = t := by
  have e : (2 : Int) ^ w = 2 * 2 ^ (w - 1) := by exact_mod_cast two_pow_pred hw
  have e' : ((2 ^ (w - 1) : Nat) : Int) = 2 ^ (w - 1) := by push_cast; rfl
  have hp : (0 : Int) < 2 ^ (w - 1) := by positivity
  have hc := cast_pat w t
  unfold minSigned at h1
  unfold maxSigned at h2
  rw [sgn, uns_of_lt (pat_lt w t)]
  by_cases h0 : 0 ≤ t
  · rw [Int.emod_eq_of_lt h0 (by omega)] at hc
    rw [if_pos (by omega), hc]
  · rw [← Int.add_emod_right, Int.emod_eq_of_lt (by omega) (by omega)] at hc
    rw [if_neg (by omega), hc]
    omega

/-- The signed and the unsigned reading agree modulo `2 ^ w`. -/
theorem pat_sgn (w v : Nat) : pat w (sgn w v) = uns w v := by
  have h := uns_lt w v
  have h' : ((uns w v : Nat) : Int) < 2 ^ w := by exact_mod_cast h
  have hz : ((pat w (sgn w v) : Nat) : Int) = (uns w v : Nat) := by
    rw [cast_pat, sgn]
    split
    · exact Int.emod_eq_of_lt (by positivity) h'
    · rw [Int.sub_emod_right]; exact Int.emod_eq_of_lt (by positivity) h'
  exact_mod_cast hz

/-! ### Saturation -/

/-- R241: the signed saturation reads back as the exact integer brought between the bounds, and says whether it moved. -/
theorem satS_spec {w : Nat} (hw : 0 < w) (t : Int) :
    sgn w (satS w t).1 = max (minSigned w) (min (maxSigned w) t) ∧ ((satS w t).2 = true ↔ t < minSigned w ∨ maxSigned w < t) := by
  have hp : (0 : Int) < 2 ^ (w - 1) := by positivity
  have e : 2 ^ w = 2 * 2 ^ (w - 1) := two_pow_pred hw
  have ez : (2 : Int) ^ w = 2 * 2 ^ (w - 1) := by exact_mod_cast e
  have e' : ((2 ^ (w - 1) : Nat) : Int) = 2 ^ (w - 1) := by push_cast; rfl
  have hn : 0 < 2 ^ (w - 1) := by positivity
  unfold satS
  split
  · rename_i h
    refine ⟨?_, by simp; omega⟩
    rw [sgn, uns_of_lt (by omega), if_pos (by omega)]
    unfold minSigned maxSigned at *
    omega
  · split
    · rename_i h1 h2
      refine ⟨?_, by simp; omega⟩
      unfold signBit
      rw [sgn, uns_of_lt (by omega), if_neg (by omega)]
      unfold minSigned maxSigned at *
      omega
    · rename_i h1 h2
      refine ⟨?_, by simp; omega⟩
      rw [sgn_pat hw (by omega) (by omega)]
      omega

/-- R243, R244: the unsigned saturation is the exact integer brought between the bounds, and says whether it moved. -/
theorem satU_spec (w : Nat) (t : Int) :
    ((satU w t).1 : Int) = max 0 (min (maxUnsigned w : Int) t) ∧ ((satU w t).2 = true ↔ t < 0 ∨ (maxUnsigned w : Int) < t) := by
  unfold satU
  split
  · exact ⟨by simp only; omega, by simp; omega⟩
  · split
    · exact ⟨by simp only; omega, by simp; omega⟩
    · exact ⟨by simp only; omega, by simp; omega⟩

/-! ### Bit scans -/

/-- The least set bit below `w`. -/
theorem lowestBit_eq_some {w v i : Nat} (h : lowestBit w v = some i) :
    i < w ∧ v.testBit i = true ∧ ∀ j < i, v.testBit j = false := by
  rw [lowestBit, List.find?_range_eq_some] at h
  exact ⟨List.mem_range.mp h.2.1, h.1, fun j hj => by simpa using h.2.2 j hj⟩

theorem lowestBit_eq_none {w v : Nat} (h : lowestBit w v = none) : ∀ j < w, v.testBit j = false := by
  rw [lowestBit, List.find?_eq_none] at h
  exact fun j hj => by simpa using h j (List.mem_range.mpr hj)

/-- The greatest set bit below `w`. -/
theorem highestBit_eq_some {w v i : Nat} (h : highestBit w v = some i) :
    i < w ∧ v.testBit i = true ∧ ∀ j, i < j → j < w → v.testBit j = false := by
  induction w with
  | zero => simp [highestBit] at h
  | succ w ih =>
    simp only [highestBit, List.range_succ, List.reverse_append, List.reverse_singleton, List.singleton_append,
      List.find?_cons] at h
    split at h
    · obtain rfl : w = i := by simpa using h
      exact ⟨by omega, by assumption, fun j h1 h2 => by omega⟩
    · rename_i hw
      obtain ⟨h1, h2, h3⟩ := ih h
      refine ⟨by omega, h2, fun j hj hj' => ?_⟩
      rcases Nat.lt_succ_iff_lt_or_eq.mp hj' with hlt | rfl
      · exact h3 j hj hlt
      · exact hw

theorem highestBit_eq_none {w v : Nat} (h : highestBit w v = none) : ∀ j < w, v.testBit j = false := by
  rw [highestBit, List.find?_eq_none] at h
  exact fun j hj => by simpa using h j (List.mem_reverse.mpr (List.mem_range.mpr hj))

/-! ### The integer square root -/

theorem isqrtFrom_spec (v : Nat) : ∀ n r : Nat, r * r ≤ v → v < (r + 2 ^ n) * (r + 2 ^ n) →
    isqrtFrom v n r * isqrtFrom v n r ≤ v ∧ v < (isqrtFrom v n r + 1) * (isqrtFrom v n r + 1)
  | 0, r, h1, h2 => ⟨h1, h2⟩
  | n + 1, r, h1, h2 => by
    rw [isqrtFrom]
    split
    · rename_i h
      exact isqrtFrom_spec v n _ h (by rw [Nat.add_assoc, ← Nat.two_mul, ← pow_succ']; exact h2)
    · exact isqrtFrom_spec v n _ h1 (by omega)

/-- R273: the greatest integer whose square is at most `v`. -/
theorem isqrt_spec (v : Nat) : isqrt v * isqrt v ≤ v ∧ v < (isqrt v + 1) * (isqrt v + 1) := by
  refine isqrtFrom_spec v _ 0 (by simp) ?_
  rw [Nat.zero_add, ← pow_add]
  rcases Nat.eq_zero_or_pos v with rfl | hv
  · positivity
  · exact lt_of_lt_of_le (Nat.lt_log2_self) (Nat.pow_le_pow_right (by decide) (by omega))

end Sys2Proof.Machine
end

