-- ==== Sys2Proof/Laws/State.lean ====
section
/-! SUPPORT. One lemma per field of the state per update, so that no later proof unfolds a record update. -/

namespace Sys2Proof.Machine

open Sys2Proof

/-! ### `setGpr` -/

@[simp] theorem setGpr_cfg (s : State) (r : RegIx) (v : Word) : (s.setGpr r v).cfg = s.cfg := rfl
@[simp] theorem setGpr_x (s : State) (r : RegIx) (v : Word) : (s.setGpr r v).x = s.x.set r.val v := rfl
@[simp] theorem setGpr_mem (s : State) (r : RegIx) (v : Word) : (s.setGpr r v).mem = s.mem := rfl
@[simp] theorem setGpr_vlen (s : State) (r : RegIx) (v : Word) : (s.setGpr r v).vlen = s.vlen := rfl
@[simp] theorem setGpr_numContr (s : State) (r : RegIx) (v : Word) : (s.setGpr r v).numContr = s.numContr := rfl
@[simp] theorem setGpr_slots (s : State) (r : RegIx) (v : Word) : (s.setGpr r v).slots = s.slots := rfl
@[simp] theorem setGpr_returnType (s : State) (r : RegIx) (v : Word) : (s.setGpr r v).returnType = s.returnType := rfl
@[simp] theorem setGpr_intRaised (s : State) (r : RegIx) (v : Word) : (s.setGpr r v).intRaised = s.intRaised := rfl
@[simp] theorem setGpr_cmds (s : State) (r : RegIx) (v : Word) : (s.setGpr r v).cmds = s.cmds := rfl
@[simp] theorem setGpr_pc (s : State) (r : RegIx) (v : Word) : (s.setGpr r v).pc = s.pc := rfl
@[simp] theorem setGpr_draws (s : State) (r : RegIx) (v : Word) : (s.setGpr r v).draws = s.draws := rfl

/-! ### `setVec` -/

@[simp] theorem setVec_cfg (s : State) (r : RegIx) (bs : List Byte) : (s.setVec r bs).cfg = s.cfg := rfl
@[simp] theorem setVec_x (s : State) (r : RegIx) (bs : List Byte) : (s.setVec r bs).x = s.x := rfl
@[simp] theorem setVec_mem (s : State) (r : RegIx) (bs : List Byte) : (s.setVec r bs).mem = s.mem.splice (s.vbase r) s.cfg.maxVectorLength bs := rfl
@[simp] theorem setVec_vlen (s : State) (r : RegIx) (bs : List Byte) : (s.setVec r bs).vlen = s.vlen.set r.val (min bs.length s.cfg.maxVectorLength) := rfl
@[simp] theorem setVec_numContr (s : State) (r : RegIx) (bs : List Byte) : (s.setVec r bs).numContr = s.numContr := rfl
@[simp] theorem setVec_slots (s : State) (r : RegIx) (bs : List Byte) : (s.setVec r bs).slots = s.slots := rfl
@[simp] theorem setVec_returnType (s : State) (r : RegIx) (bs : List Byte) : (s.setVec r bs).returnType = s.returnType := rfl
@[simp] theorem setVec_intRaised (s : State) (r : RegIx) (bs : List Byte) : (s.setVec r bs).intRaised = s.intRaised := rfl
@[simp] theorem setVec_cmds (s : State) (r : RegIx) (bs : List Byte) : (s.setVec r bs).cmds = s.cmds := rfl
@[simp] theorem setVec_pc (s : State) (r : RegIx) (bs : List Byte) : (s.setVec r bs).pc = s.pc := rfl
@[simp] theorem setVec_draws (s : State) (r : RegIx) (bs : List Byte) : (s.setVec r bs).draws = s.draws := rfl

/-! ### `raise` -/

@[simp] theorem raise_cfg (k : IntKind) (s : State) : (raise k s).cfg = s.cfg := rfl
@[simp] theorem raise_x (k : IntKind) (s : State) : (raise k s).x = s.x := rfl
@[simp] theorem raise_mem (k : IntKind) (s : State) : (raise k s).mem = s.mem := rfl
@[simp] theorem raise_vlen (k : IntKind) (s : State) : (raise k s).vlen = s.vlen := rfl
@[simp] theorem raise_numContr (k : IntKind) (s : State) : (raise k s).numContr = s.numContr := rfl
@[simp] theorem raise_slots (k : IntKind) (s : State) : (raise k s).slots = s.slots := rfl
@[simp] theorem raise_returnType (k : IntKind) (s : State) : (raise k s).returnType = s.returnType := rfl
@[simp] theorem raise_intRaised (k : IntKind) (s : State) : (raise k s).intRaised = s.intRaised ++ [(k, s.pc)] := rfl
@[simp] theorem raise_cmds (k : IntKind) (s : State) : (raise k s).cmds = s.cmds := rfl
@[simp] theorem raise_pc (k : IntKind) (s : State) : (raise k s).pc = s.pc := rfl
@[simp] theorem raise_draws (k : IntKind) (s : State) : (raise k s).draws = s.draws := rfl

/-! ### `illegal` -/

@[simp] theorem illegal_cfg (s : State) : (illegal s).cfg = s.cfg := rfl
@[simp] theorem illegal_x (s : State) : (illegal s).x = s.x := rfl
@[simp] theorem illegal_mem (s : State) : (illegal s).mem = s.mem := rfl
@[simp] theorem illegal_vlen (s : State) : (illegal s).vlen = s.vlen := rfl
@[simp] theorem illegal_numContr (s : State) : (illegal s).numContr = s.numContr := rfl
@[simp] theorem illegal_slots (s : State) : (illegal s).slots = s.slots := rfl
@[simp] theorem illegal_returnType (s : State) : (illegal s).returnType = s.returnType := rfl
@[simp] theorem illegal_intRaised (s : State) : (illegal s).intRaised = s.intRaised ++ [(.instIllegal, s.pc)] := rfl
@[simp] theorem illegal_cmds (s : State) : (illegal s).cmds = s.cmds := rfl
@[simp] theorem illegal_pc (s : State) : (illegal s).pc = s.pc := rfl
@[simp] theorem illegal_draws (s : State) : (illegal s).draws = s.draws := rfl

/-! ### `tagged` -/

@[simp] theorem tagged_cfg (s : State) (tag : Option (BitVec 16)) : (s.tagged tag).cfg = s.cfg := rfl
@[simp] theorem tagged_x (s : State) (tag : Option (BitVec 16)) : (s.tagged tag).x = s.x := rfl
@[simp] theorem tagged_mem (s : State) (tag : Option (BitVec 16)) : (s.tagged tag).mem = s.mem := rfl
@[simp] theorem tagged_vlen (s : State) (tag : Option (BitVec 16)) : (s.tagged tag).vlen = s.vlen := rfl
@[simp] theorem tagged_numContr (s : State) (tag : Option (BitVec 16)) : (s.tagged tag).numContr = s.numContr := rfl
@[simp] theorem tagged_slots (s : State) (tag : Option (BitVec 16)) : (s.tagged tag).slots = s.slots := rfl
@[simp] theorem tagged_returnType (s : State) (tag : Option (BitVec 16)) : (s.tagged tag).returnType = tag.getD (Config.freeReturnType s.draws) := rfl
@[simp] theorem tagged_intRaised (s : State) (tag : Option (BitVec 16)) : (s.tagged tag).intRaised = s.intRaised := rfl
@[simp] theorem tagged_cmds (s : State) (tag : Option (BitVec 16)) : (s.tagged tag).cmds = s.cmds := rfl
@[simp] theorem tagged_pc (s : State) (tag : Option (BitVec 16)) : (s.tagged tag).pc = s.pc := rfl
@[simp] theorem tagged_draws (s : State) (tag : Option (BitVec 16)) : (s.tagged tag).draws = s.draws + 1 := rfl

/-! ### `uncommitted` -/

@[simp] theorem uncommitted_cfg (s t : State) : (s.uncommitted t).cfg = t.cfg := rfl
@[simp] theorem uncommitted_x (s t : State) : (s.uncommitted t).x = s.x := rfl
@[simp] theorem uncommitted_mem (s t : State) : (s.uncommitted t).mem = s.mem := rfl
@[simp] theorem uncommitted_vlen (s t : State) : (s.uncommitted t).vlen = s.vlen := rfl
@[simp] theorem uncommitted_numContr (s t : State) : (s.uncommitted t).numContr = t.numContr := rfl
@[simp] theorem uncommitted_slots (s t : State) : (s.uncommitted t).slots = t.slots := rfl
@[simp] theorem uncommitted_returnType (s t : State) : (s.uncommitted t).returnType = t.returnType := rfl
@[simp] theorem uncommitted_intRaised (s t : State) : (s.uncommitted t).intRaised = t.intRaised := rfl
@[simp] theorem uncommitted_cmds (s t : State) : (s.uncommitted t).cmds = t.cmds := rfl
@[simp] theorem uncommitted_pc (s t : State) : (s.uncommitted t).pc = t.pc := rfl
@[simp] theorem uncommitted_draws (s t : State) : (s.uncommitted t).draws = t.draws := rfl

/-! ### `advance` -/

@[simp] theorem advance_cfg (s : State) : s.advance.cfg = s.cfg := rfl
@[simp] theorem advance_x (s : State) : s.advance.x = s.x := rfl
@[simp] theorem advance_mem (s : State) : s.advance.mem = s.mem := rfl
@[simp] theorem advance_vlen (s : State) : s.advance.vlen = s.vlen := rfl
@[simp] theorem advance_numContr (s : State) : s.advance.numContr = s.numContr := rfl
@[simp] theorem advance_slots (s : State) : s.advance.slots = s.slots := rfl
@[simp] theorem advance_returnType (s : State) : s.advance.returnType = s.returnType := rfl
@[simp] theorem advance_intRaised (s : State) : s.advance.intRaised = s.intRaised := rfl
@[simp] theorem advance_cmds (s : State) : s.advance.cmds = s.cmds := rfl
@[simp] theorem advance_pc (s : State) : s.advance.pc = s.pc + 1 := rfl
@[simp] theorem advance_draws (s : State) : s.advance.draws = s.draws := rfl

/-! ### `withFetchWord` -/

@[simp] theorem withFetchWord_cfg (s : State) (nbits w : Nat) : (s.withFetchWord nbits w).cfg = s.cfg := rfl
@[simp] theorem withFetchWord_x (s : State) (nbits w : Nat) : (s.withFetchWord nbits w).x = s.x := rfl
@[simp] theorem withFetchWord_mem (s : State) (nbits w : Nat) : (s.withFetchWord nbits w).mem = s.mem := rfl
@[simp] theorem withFetchWord_vlen (s : State) (nbits w : Nat) : (s.withFetchWord nbits w).vlen = s.vlen := rfl
@[simp] theorem withFetchWord_numContr (s : State) (nbits w : Nat) : (s.withFetchWord nbits w).numContr = s.numContr := rfl
@[simp] theorem withFetchWord_slots (s : State) (nbits w : Nat) : (s.withFetchWord nbits w).slots = s.slots := rfl
@[simp] theorem withFetchWord_returnType (s : State) (nbits w : Nat) : (s.withFetchWord nbits w).returnType = s.returnType := rfl
@[simp] theorem withFetchWord_intRaised (s : State) (nbits w : Nat) : (s.withFetchWord nbits w).intRaised = s.intRaised := rfl
@[simp] theorem withFetchWord_cmds (s : State) (nbits w : Nat) : (s.withFetchWord nbits w).cmds = placeCommand s.cmds s.pc (BitVec.ofNat 64 (w % 2 ^ nbits)) := rfl
@[simp] theorem withFetchWord_pc (s : State) (nbits w : Nat) : (s.withFetchWord nbits w).pc = s.pc := rfl
@[simp] theorem withFetchWord_draws (s : State) (nbits w : Nat) : (s.withFetchWord nbits w).draws = s.draws := rfl

/-! ### Reads of registers and vectors that an update does not touch -/

@[simp] theorem setGpr_len (s : State) (r : RegIx) (v : Word) (q : RegIx) : (s.setGpr r v).len q = s.len q := rfl
@[simp] theorem setGpr_vb (s : State) (r : RegIx) (v : Word) (q : RegIx) (i : Nat) : (s.setGpr r v).vb q i = s.vb q i := rfl
@[simp] theorem setVec_gpr (s : State) (r : RegIx) (bs : List Byte) (q : RegIx) : (s.setVec r bs).gpr q = s.gpr q := rfl
@[simp] theorem raise_gpr (k : IntKind) (s : State) (q : RegIx) : (raise k s).gpr q = s.gpr q := rfl
@[simp] theorem raise_len (k : IntKind) (s : State) (q : RegIx) : (raise k s).len q = s.len q := rfl
@[simp] theorem raise_vb (k : IntKind) (s : State) (q : RegIx) (i : Nat) : (raise k s).vb q i = s.vb q i := rfl
@[simp] theorem illegal_gpr (s : State) (q : RegIx) : (illegal s).gpr q = s.gpr q := rfl
@[simp] theorem illegal_len (s : State) (q : RegIx) : (illegal s).len q = s.len q := rfl
@[simp] theorem illegal_vb (s : State) (q : RegIx) (i : Nat) : (illegal s).vb q i = s.vb q i := rfl
@[simp] theorem tagged_gpr (s : State) (tag : Option (BitVec 16)) (q : RegIx) : (s.tagged tag).gpr q = s.gpr q := rfl
@[simp] theorem tagged_len (s : State) (tag : Option (BitVec 16)) (q : RegIx) : (s.tagged tag).len q = s.len q := rfl
@[simp] theorem tagged_vb (s : State) (tag : Option (BitVec 16)) (q : RegIx) (i : Nat) : (s.tagged tag).vb q i = s.vb q i := rfl
@[simp] theorem advance_gpr (s : State) (q : RegIx) : s.advance.gpr q = s.gpr q := rfl
@[simp] theorem advance_len (s : State) (q : RegIx) : s.advance.len q = s.len q := rfl
@[simp] theorem advance_vb (s : State) (q : RegIx) (i : Nat) : s.advance.vb q i = s.vb q i := rfl
@[simp] theorem withFetchWord_gpr (s : State) (nbits w : Nat) (q : RegIx) : (s.withFetchWord nbits w).gpr q = s.gpr q := rfl
@[simp] theorem withFetchWord_len (s : State) (nbits w : Nat) (q : RegIx) : (s.withFetchWord nbits w).len q = s.len q := rfl
@[simp] theorem withFetchWord_vb (s : State) (nbits w : Nat) (q : RegIx) (i : Nat) : (s.withFetchWord nbits w).vb q i = s.vb q i := rfl
@[simp] theorem uncommitted_gpr (s t : State) (q : RegIx) : (s.uncommitted t).gpr q = s.gpr q := rfl
@[simp] theorem uncommitted_len (s t : State) (q : RegIx) : (s.uncommitted t).len q = s.len q := rfl

/-! ### `raiseAll` -/

theorem raiseAll_nil (s : State) : raiseAll [] s = s := rfl

theorem raiseAll_cons (k : IntKind) (ks : List IntKind) (s : State) : raiseAll (k :: ks) s = raiseAll ks (raise k s) := rfl

/-- Everything `raiseAll` does: it appends one entry per kind, in order, each with the current `pc`. -/
theorem raiseAll_eq (ks : List IntKind) (s : State) :
    raiseAll ks s = { s with intRaised := s.intRaised ++ ks.map fun k => (k, s.pc) } := by
  induction ks generalizing s with
  | nil => simp [raiseAll]
  | cons k ks ih => rw [raiseAll_cons, ih]; simp [raise]

@[simp] theorem raiseAll_cfg (ks : List IntKind) (s : State) : (raiseAll ks s).cfg = s.cfg := by
  rw [raiseAll_eq]
@[simp] theorem raiseAll_x (ks : List IntKind) (s : State) : (raiseAll ks s).x = s.x := by
  rw [raiseAll_eq]
@[simp] theorem raiseAll_mem (ks : List IntKind) (s : State) : (raiseAll ks s).mem = s.mem := by
  rw [raiseAll_eq]
@[simp] theorem raiseAll_vlen (ks : List IntKind) (s : State) : (raiseAll ks s).vlen = s.vlen := by
  rw [raiseAll_eq]
@[simp] theorem raiseAll_numContr (ks : List IntKind) (s : State) : (raiseAll ks s).numContr = s.numContr := by
  rw [raiseAll_eq]
@[simp] theorem raiseAll_slots (ks : List IntKind) (s : State) : (raiseAll ks s).slots = s.slots := by
  rw [raiseAll_eq]
@[simp] theorem raiseAll_returnType (ks : List IntKind) (s : State) : (raiseAll ks s).returnType = s.returnType := by
  rw [raiseAll_eq]
@[simp] theorem raiseAll_intRaised (ks : List IntKind) (s : State) : (raiseAll ks s).intRaised = s.intRaised ++ ks.map fun k => (k, s.pc) := by
  rw [raiseAll_eq]
@[simp] theorem raiseAll_cmds (ks : List IntKind) (s : State) : (raiseAll ks s).cmds = s.cmds := by
  rw [raiseAll_eq]
@[simp] theorem raiseAll_pc (ks : List IntKind) (s : State) : (raiseAll ks s).pc = s.pc := by
  rw [raiseAll_eq]
@[simp] theorem raiseAll_draws (ks : List IntKind) (s : State) : (raiseAll ks s).draws = s.draws := by
  rw [raiseAll_eq]

/-! ### `finishState` -/

/-- Whether the writes of a command that raised `ks` stand (R287). -/
abbrev commits (s : State) (ks : List IntKind) : Prop := ks = [] ∨ s.cfg.commitOnInterrupt = true

theorem finish_eq (s t : State) (tag : Option (BitVec 16)) (ks : List IntKind) :
    finish s t tag ks = .next (finishState s t tag ks) := rfl

theorem finishState_eq (s t : State) (tag : Option (BitVec 16)) (ks : List IntKind) :
    finishState s t tag ks =
      raiseAll ks (if commits s ks then t.tagged tag else s.uncommitted (t.tagged tag)) := by
  simp [finishState, commits, List.isEmpty_iff]

@[simp] theorem finishState_cfg (s t : State) (tag : Option (BitVec 16)) (ks : List IntKind) :
    (finishState s t tag ks).cfg = t.cfg := by
  rw [finishState_eq]; split <;> simp [*]
@[simp] theorem finishState_x (s t : State) (tag : Option (BitVec 16)) (ks : List IntKind) :
    (finishState s t tag ks).x = if commits s ks then t.x else s.x := by
  rw [finishState_eq]; split <;> simp [*]
@[simp] theorem finishState_mem (s t : State) (tag : Option (BitVec 16)) (ks : List IntKind) :
    (finishState s t tag ks).mem = if commits s ks then t.mem else s.mem := by
  rw [finishState_eq]; split <;> simp [*]
@[simp] theorem finishState_vlen (s t : State) (tag : Option (BitVec 16)) (ks : List IntKind) :
    (finishState s t tag ks).vlen = if commits s ks then t.vlen else s.vlen := by
  rw [finishState_eq]; split <;> simp [*]
@[simp] theorem finishState_numContr (s t : State) (tag : Option (BitVec 16)) (ks : List IntKind) :
    (finishState s t tag ks).numContr = t.numContr := by
  rw [finishState_eq]; split <;> simp [*]
@[simp] theorem finishState_slots (s t : State) (tag : Option (BitVec 16)) (ks : List IntKind) :
    (finishState s t tag ks).slots = t.slots := by
  rw [finishState_eq]; split <;> simp [*]
@[simp] theorem finishState_returnType (s t : State) (tag : Option (BitVec 16)) (ks : List IntKind) :
    (finishState s t tag ks).returnType = tag.getD (Config.freeReturnType t.draws) := by
  rw [finishState_eq]; split <;> simp [*]
@[simp] theorem finishState_intRaised (s t : State) (tag : Option (BitVec 16)) (ks : List IntKind) :
    (finishState s t tag ks).intRaised = t.intRaised ++ ks.map fun k => (k, t.pc) := by
  rw [finishState_eq]; split <;> simp [*]
@[simp] theorem finishState_cmds (s t : State) (tag : Option (BitVec 16)) (ks : List IntKind) :
    (finishState s t tag ks).cmds = t.cmds := by
  rw [finishState_eq]; split <;> simp [*]
@[simp] theorem finishState_pc (s t : State) (tag : Option (BitVec 16)) (ks : List IntKind) :
    (finishState s t tag ks).pc = t.pc := by
  rw [finishState_eq]; split <;> simp [*]
@[simp] theorem finishState_draws (s t : State) (tag : Option (BitVec 16)) (ks : List IntKind) :
    (finishState s t tag ks).draws = t.draws + 1 := by
  rw [finishState_eq]; split <;> simp [*]

end Sys2Proof.Machine
end

