-- ==== Sys2Proof/Laws/Memory.lean ====
section
/-! SUPPORT. The laws of the vector backing store: reading after `splice`, and that `splice` keeps the canonical form. -/

namespace Sys2Proof.Machine

open Sys2Proof

theorem Memory.read_append (m n : Memory) (a : Nat) :
    Memory.read (m ++ n) a = if a ∈ m.map Prod.fst then m.read a else n.read a := by
  induction m with
  | nil => simp
  | cons p m ih =>
    obtain ⟨b, v⟩ := p
    by_cases h : b = a
    · simp [Memory.read, h]
    · have h' : a ≠ b := fun e => h e.symm
      simp [Memory.read, h, h', ih]

/-- An address no entry has reads as unlisted. -/
theorem Memory.read_of_not_mem (m : Memory) (a : Nat) (h : a ∉ m.map Prod.fst) : m.read a = Memory.unlisted := by
  induction m with
  | nil => rfl
  | cons p m ih =>
    obtain ⟨b, v⟩ := p
    simp only [List.map_cons, List.mem_cons, not_or] at h
    simp [Memory.read, ih h.2, Ne.symm h.1]

theorem Memory.read_filter (m : Memory) (keep : Nat → Bool) (a : Nat) :
    Memory.read (m.filter fun p => keep p.1) a = if keep a then m.read a else Memory.unlisted := by
  induction m with
  | nil => simp [Memory.read]
  | cons p m ih =>
    obtain ⟨b, v⟩ := p
    by_cases hk : keep b
    · by_cases h : b = a
      · subst h; simp [Memory.read, hk]
      · simp [hk, Memory.read, h, ih]
    · by_cases h : b = a
      · subst h; simp [hk, ih]
      · simp [hk, Memory.read, h, ih]

theorem Memory.mem_cells {base : Nat} {bs : List Byte} {p : Host.Cell} (h : p ∈ Memory.cells base bs) :
    base ≤ p.1 ∧ p.1 < base + bs.length ∧ p.2 ≠ Memory.unlisted := by
  induction bs generalizing base with
  | nil => simp [Memory.cells] at h
  | cons b bs ih =>
    rw [Memory.cells] at h
    split at h
    · obtain ⟨h1, h2, h3⟩ := ih h
      exact ⟨by omega, by simp only [List.length_cons]; omega, h3⟩
    · rename_i hb
      rcases List.mem_cons.1 h with rfl | h
      · exact ⟨le_refl _, by simp, hb⟩
      · obtain ⟨h1, h2, h3⟩ := ih h
        exact ⟨by omega, by simp only [List.length_cons]; omega, h3⟩

theorem Memory.read_cells (base : Nat) (bs : List Byte) (a : Nat) :
    (Memory.cells base bs).read a = if base ≤ a then bs.getD (a - base) Memory.unlisted else Memory.unlisted := by
  induction bs generalizing base with
  | nil => simp [Memory.cells, Memory.read]
  | cons b bs ih =>
    rw [Memory.cells]
    rcases lt_trichotomy a base with h | h | h
    · split <;> simp [Memory.read, ih, show ¬ base + 1 ≤ a by omega, show ¬ base ≤ a by omega, show base ≠ a by omega]
    · subst h
      split
      · simp [*]
      · simp [Memory.read]
    · obtain ⟨k, rfl⟩ : ∃ k, a = base + 1 + k := ⟨a - base - 1, by omega⟩
      have e : base + 1 + k - base = k + 1 := by omega
      split <;> simp [Memory.read, ih, e, show base ≤ base + 1 + k by omega, show base ≠ base + 1 + k by omega]

theorem Memory.cells_pairwise (base : Nat) (bs : List Byte) :
    (Memory.cells base bs).Pairwise fun p q => p.1 < q.1 := by
  induction bs generalizing base with
  | nil => simp [Memory.cells]
  | cons b bs ih =>
    rw [Memory.cells]
    split
    · exact ih _
    · refine List.pairwise_cons.2 ⟨fun p hp => ?_, ih _⟩
      have := Memory.mem_cells hp
      omega

theorem Memory.read_append_right (m n : Memory) (a : Nat) (h : a ∉ m.map Prod.fst) :
    Memory.read (m ++ n) a = n.read a := by
  rw [Memory.read_append, if_neg h]

theorem Memory.read_append_left (m n : Memory) (a : Nat) (h : a ∉ n.map Prod.fst) :
    Memory.read (m ++ n) a = m.read a := by
  rw [Memory.read_append]
  split
  · rfl
  · rename_i hm
    rw [Memory.read_of_not_mem _ _ h, Memory.read_of_not_mem _ _ hm]

theorem Memory.not_mem_filter (m : Memory) (keep : Nat → Bool) (a : Nat) (h : keep a = false) :
    a ∉ (m.filter fun p => keep p.1).map Prod.fst := by
  intro hm
  obtain ⟨p, hp, rfl⟩ := List.mem_map.1 hm
  simp [(List.mem_filter.1 hp).2] at h

theorem Memory.not_mem_cells (base : Nat) (bs : List Byte) (a : Nat) (h : ¬ (base ≤ a ∧ a < base + bs.length)) :
    a ∉ (Memory.cells base bs).map Prod.fst := by
  intro hm
  obtain ⟨p, hp, rfl⟩ := List.mem_map.1 hm
  have := Memory.mem_cells hp
  omega

/-- Everything `splice` does to a read: inside the window the new byte, outside it the old one. -/
theorem Memory.read_splice (m : Memory) (base size : Nat) (bs : List Byte) (a : Nat) :
    (m.splice base size bs).read a =
      if base ≤ a ∧ a < base + size then (bs.take size).getD (a - base) Memory.unlisted else m.read a := by
  have hlen : (bs.take size).length ≤ size := by simp
  have low := Memory.not_mem_filter m (fun y => decide (y < base)) a
  have high := Memory.not_mem_filter m (fun y => decide (base + size ≤ y)) a
  have mid := Memory.not_mem_cells base (bs.take size) a
  simp only [decide_eq_false_iff_not] at low high
  unfold Memory.splice
  by_cases h1 : a < base
  · rw [if_neg (by omega), Memory.read_append_left _ _ _ (high (by omega)), Memory.read_append_left _ _ _ (mid (by omega)),
      Memory.read_filter m (fun y => decide (y < base)), if_pos (by simpa using h1)]
  · by_cases h2 : a < base + size
    · rw [if_pos (by omega), Memory.read_append_left _ _ _ (high (by omega)), Memory.read_append_right _ _ _ (low h1),
        Memory.read_cells, if_pos (by omega)]
    · rw [if_neg (by omega), List.append_assoc, Memory.read_append_right _ _ _ (low h1),
        Memory.read_append_right _ _ _ (mid (by omega)), Memory.read_filter m (fun y => decide (base + size ≤ y)),
        if_pos (by simpa using (by omega : base + size ≤ a))]

/-- `splice` keeps the canonical form. -/
theorem Memory.wf_splice (m : Memory) (base size : Nat) (bs : List Byte) (h : m.wf) : (m.splice base size bs).wf := by
  obtain ⟨hs, hu⟩ := h
  have hlen : (bs.take size).length ≤ size := by simp
  refine ⟨?_, ?_⟩
  · unfold Memory.splice
    refine List.pairwise_append.2 ⟨List.pairwise_append.2 ⟨hs.filter _, Memory.cells_pairwise _ _, ?_⟩, hs.filter _, ?_⟩
    · intro p hp q hq
      have h1 : p.1 < base := by simpa using (List.mem_filter.1 hp).2
      have h2 := Memory.mem_cells hq
      omega
    · intro p hp q hq
      have h2 : base + size ≤ q.1 := by simpa using (List.mem_filter.1 hq).2
      rcases List.mem_append.1 hp with hp | hp
      · have h1 : p.1 < base := by simpa using (List.mem_filter.1 hp).2
        omega
      · have h1 := Memory.mem_cells hp
        omega
  · intro p hp
    simp only [Memory.splice, List.mem_append, List.mem_filter] at hp
    rcases hp with (⟨hp, -⟩ | hp) | ⟨hp, -⟩
    · exact hu p hp
    · exact (Memory.mem_cells hp).2.2
    · exact hu p hp

/-- Where an entry of a spliced memory lies. -/
theorem Memory.mem_splice {m : Memory} {base size : Nat} {bs : List Byte} {p : Host.Cell} (h : p ∈ m.splice base size bs) :
    (p ∈ m ∧ ¬ (base ≤ p.1 ∧ p.1 < base + size)) ∨ (base ≤ p.1 ∧ p.1 < base + min size bs.length) := by
  simp only [Memory.splice, List.mem_append, List.mem_filter, decide_eq_true_eq] at h
  rcases h with (⟨hp, h⟩ | hp) | ⟨hp, h⟩
  · exact .inl ⟨hp, by omega⟩
  · have := Memory.mem_cells hp
    rw [List.length_take] at this
    exact .inr ⟨this.1, this.2.1⟩
  · exact .inl ⟨hp, by omega⟩

/-- The memory after reset has the canonical form. -/
theorem reset_mem_wf (cfg : Config) : (State.resetWith cfg).mem.wf := ⟨List.Pairwise.nil, fun _ h => nomatch h⟩

end Sys2Proof.Machine
end

