-- ==== Sys2Proof/Laws/Vectors.lean ====
section
/-! SUPPORT. The laws of registers and vector registers: reading after writing, the little-endian reading of byte
sequences, and sequences of equally long elements. -/

namespace Sys2Proof.Machine

open Sys2Proof

/-! ## General-purpose registers -/

theorem gpr_setGpr (s : State) (r q : RegIx) (v : Word) : (s.setGpr r v).gpr q = if q = r then v else s.gpr q := by
  simp only [State.gpr, State.setGpr, Vector.getElem_set, Fin.ext_iff, eq_comm]

@[simp] theorem gpr_setGpr_same (s : State) (r : RegIx) (v : Word) : (s.setGpr r v).gpr r = v := by
  simp [gpr_setGpr]

theorem gpr_setGpr_ne (s : State) {r q : RegIx} (v : Word) (h : q ≠ r) : (s.setGpr r v).gpr q = s.gpr q := by
  simp [gpr_setGpr, h]

/-! ## Byte sequences -/

@[simp] theorem length_leBytes (n v : Nat) : (leBytes n v).length = n := by
  induction n generalizing v with
  | zero => rfl
  | succ n ih => simp [leBytes, ih]

/-- Reading back the `n` low bytes of a number gives the number modulo `256^n`. -/
theorem leNat_leBytes (n v : Nat) : leNat (leBytes n v) = v % 256 ^ n := by
  induction n generalizing v with
  | zero => simp [leBytes, leNat, Nat.mod_one]
  | succ n ih =>
    rw [leBytes, leNat, ih, pow_succ', Nat.mod_mul]
    simp

theorem leNat_lt (bs : List Byte) : leNat bs < 256 ^ bs.length := by
  induction bs with
  | nil => simp [leNat]
  | cons b bs ih =>
    have := b.isLt
    simp only [leNat, List.length_cons, pow_succ]
    omega

/-- A byte sequence is the sequence of bytes of its number. -/
theorem leBytes_leNat (bs : List Byte) : leBytes bs.length (leNat bs) = bs := by
  induction bs with
  | nil => rfl
  | cons b bs ih =>
    have := b.isLt
    have e : (b.toNat + 256 * leNat bs) / 256 = leNat bs := by omega
    simp only [List.length_cons, leBytes, leNat, e, ih, List.cons.injEq, and_true]
    apply BitVec.eq_of_toNat_eq
    simp
    omega

/-- The bytes of a number, by position. -/
theorem getD_leBytes (n v k : Nat) (h : k < n) : (leBytes n v).getD k 0 = BitVec.ofNat 8 (v / 256 ^ k) := by
  induction n generalizing v k with
  | zero => omega
  | succ n ih =>
    cases k with
    | zero => simp [leBytes]
    | succ k =>
      rw [leBytes, List.getD_cons_succ, ih _ _ (by omega), Nat.div_div_eq_div_mul, pow_succ']

/-! ## Elements of one size -/

theorem length_flatMap_range (n size : Nat) (f : Nat → List Byte) (h : ∀ k < n, (f k).length = size) :
    ((List.range n).flatMap f).length = n * size := by
  induction n with
  | zero => simp
  | succ n ih =>
    rw [List.range_succ, List.flatMap_append, List.length_append, ih fun k hk => h k (by omega)]
    simp [h n (by omega), Nat.succ_mul]

/-- Byte `j` of element `k` of a sequence of elements of one size. -/
theorem getD_flatMap_range (n size : Nat) (f : Nat → List Byte) (h : ∀ k < n, (f k).length = size) (k j : Nat) (hk : k < n)
    (hj : j < size) : ((List.range n).flatMap f).getD (k * size + j) 0 = (f k).getD j 0 := by
  induction n with
  | zero => omega
  | succ n ih =>
    have hl := length_flatMap_range n size f fun k hk => h k (by omega)
    rw [List.range_succ, List.flatMap_append]
    rcases Nat.lt_or_ge k n with hkn | hkn
    · have : k * size + j < n * size := by nlinarith
      rw [List.getD_append _ _ _ _ (by omega), ih (fun k hk => h k (by omega)) hkn]
    · obtain rfl : k = n := by omega
      rw [List.getD_append_right _ _ _ _ (by omega), hl]
      simp

/-! ## Vector registers -/

theorem vbase_setVec (s : State) (r q : RegIx) (bs : List Byte) : (s.setVec r bs).vbase q = s.vbase q := rfl

theorem len_setVec (s : State) (r q : RegIx) (bs : List Byte) :
    (s.setVec r bs).len q = if q = r then min bs.length s.cfg.maxVectorLength else s.len q := by
  simp only [State.len, State.setVec, Vector.getElem_set, Fin.ext_iff, eq_comm]

/-- The windows of two vector registers do not meet (R22). -/
theorem window_disjoint (s : State) {r q : RegIx} (h : q ≠ r) {i : Nat} (hi : i < s.cfg.maxVectorLength) :
    ¬ (s.vbase r ≤ s.vbase q + i ∧ s.vbase q + i < s.vbase r + s.cfg.maxVectorLength) := by
  intro ⟨h1, h2⟩
  unfold State.vbase at h1 h2
  rcases Nat.lt_or_gt_of_ne (fun e => h (Fin.ext e) : q.val ≠ r.val) with hlt | hlt
  · have : (q.val + 1) * s.cfg.maxVectorLength ≤ r.val * s.cfg.maxVectorLength := Nat.mul_le_mul_right _ hlt
    rw [Nat.succ_mul] at this
    omega
  · have : (r.val + 1) * s.cfg.maxVectorLength ≤ q.val * s.cfg.maxVectorLength := Nat.mul_le_mul_right _ hlt
    rw [Nat.succ_mul] at this
    omega

/-- `v[r]` after `v[r] <- bytes`. -/
theorem vb_setVec_same (s : State) (r : RegIx) (bs : List Byte) (i : Nat) :
    (s.setVec r bs).vb r i = if i < s.cfg.maxVectorLength then bs.getD i 0 else 0 := by
  rw [State.vb, len_setVec, if_pos rfl, setVec_mem, vbase_setVec, Memory.read_splice]
  by_cases hi : i < s.cfg.maxVectorLength
  · rw [if_pos hi]
    by_cases hl : i < bs.length
    · rw [if_pos (by omega), if_pos (by omega), Nat.add_sub_cancel_left]
      simp [List.getD_eq_getElem?_getD, hi, Memory.unlisted]
    · rw [if_neg (by omega), List.getD_eq_default _ _ (by omega)]
  · rw [if_neg (by omega), if_neg hi]

/-- Another register after `v[r] <- bytes`. -/
theorem vb_setVec_ne (s : State) {r q : RegIx} (bs : List Byte) (i : Nat) (h : q ≠ r)
    (hq : s.len q ≤ s.cfg.maxVectorLength) : (s.setVec r bs).vb q i = s.vb q i := by
  rw [State.vb, State.vb, len_setVec, if_neg h, setVec_mem, vbase_setVec, Memory.read_splice]
  split
  · rw [if_neg (window_disjoint s h (by omega))]
  · rfl

/-- The frame of `v[rd] <- bytes`. -/
theorem onlyVector_setVec (s : State) (r : RegIx) (bs : List Byte) : OnlyVector r s (s.setVec r bs) := by
  refine ⟨fun _ => rfl, fun a ha => ?_, fun q hq => by rw [len_setVec, if_neg hq]⟩
  rw [setVec_mem, Memory.read_splice, if_neg (by omega)]

/-- The frame of `x[rd] <- v`. -/
theorem onlyGpr_setGpr (s : State) (r : RegIx) (v : Word) : OnlyGpr r s (s.setGpr r v) :=
  ⟨fun _ hq => gpr_setGpr_ne s v hq, fun _ => rfl, fun _ => rfl⟩

@[simp] theorem length_vslice (s : State) (r : RegIx) (off n : Nat) : (s.vslice r off n).length = n := by
  simp [State.vslice]

@[simp] theorem length_vbytes (s : State) (r : RegIx) (n : Nat) : (s.vbytes r n).length = n := by
  simp [State.vbytes]

theorem getD_vslice (s : State) (r : RegIx) (off n k : Nat) (h : k < n) : (s.vslice r off n).getD k 0 = s.vb r (off + k) := by
  simp [State.vslice, List.getD_eq_getElem?_getD, h]

theorem velem_lt (s : State) (r : RegIx) (off n : Nat) : s.velem r off n < 256 ^ n := by
  simpa [State.velem] using leNat_lt (s.vslice r off n)

/-- An element is the number of its bytes. -/
theorem velem_congr {s t : State} {r q : RegIx} {off off' n : Nat} (h : ∀ j < n, t.vb r (off + j) = s.vb q (off' + j)) :
    t.velem r off n = s.velem q off' n := by
  unfold State.velem State.vslice
  congr 1
  exact List.map_congr_left fun j hj => h j (List.mem_range.1 hj)

theorem leBytes_velem (s : State) (r : RegIx) (off n : Nat) : leBytes n (s.velem r off n) = s.vslice r off n := by
  simpa [State.velem] using leBytes_leNat (s.vslice r off n)

/-- An element whose bytes are those of a list at some position. -/
theorem velem_of_getD {t : State} {r : RegIx} {off n : Nat} {bs : List Byte} (hl : bs.length = n)
    (h : ∀ j < n, t.vb r (off + j) = bs.getD j 0) : t.velem r off n = leNat bs := by
  have : t.vslice r off n = bs := by
    apply List.ext_getElem (by simp [hl])
    intro j h1 h2
    have h3 : j < n := by simpa using h1
    have := h j h3
    simpa [State.vslice, List.getD_eq_getElem?_getD, h2] using this
  rw [State.velem, this]

/-- `v[r]` after `v[r] <- elements`, for elements of one size that fit: byte `j` of element `k`. -/
theorem vb_setVec_elements (s : State) (r : RegIx) (n size : Nat) (f : Nat → List Byte) (h : ∀ k < n, (f k).length = size)
    (hfit : n * size ≤ s.cfg.maxVectorLength) (k j : Nat) (hk : k < n) (hj : j < size) :
    (s.setVec r ((List.range n).flatMap f)).vb r (k * size + j) = (f k).getD j 0 := by
  have : k * size + j < n * size := by nlinarith
  rw [vb_setVec_same, if_pos (by omega), getD_flatMap_range n size f h k j hk hj]

/-- The same for whole elements. -/
theorem velem_setVec_elements (s : State) (r : RegIx) (n size : Nat) (f : Nat → List Byte)
    (h : ∀ k < n, (f k).length = size) (hfit : n * size ≤ s.cfg.maxVectorLength) (k : Nat) (hk : k < n) :
    (s.setVec r ((List.range n).flatMap f)).velem r (k * size) size = leNat (f k) :=
  velem_of_getD (h k hk) fun j hj => vb_setVec_elements s r n size f h hfit k j hk hj

theorem len_setVec_elements (s : State) (r : RegIx) (n size : Nat) (f : Nat → List Byte)
    (h : ∀ k < n, (f k).length = size) (hfit : n * size ≤ s.cfg.maxVectorLength) :
    (s.setVec r ((List.range n).flatMap f)).len r = n * size := by
  rw [len_setVec, if_pos rfl, length_flatMap_range n size f h]
  omega

end Sys2Proof.Machine
end

