-- ==== Sys2Proof/Laws/Classes.lean ====
section
/-! SUPPORT. What each execution class does, said once: a command of the class completes, writes its destination and
nothing else, and records its interrupts. Proofs about an instruction cite these and do not unfold the class. -/

namespace Sys2Proof.Machine

open Sys2Proof

/-! ## The end of a command -/

theorem finishState_gpr {s t : State} {tag : Option (BitVec 16)} {ks : List IntKind} (h : Committed s ks) (r : RegIx) :
    (finishState s t tag ks).gpr r = t.gpr r := by
  have h : commits s ks := h
  simp [State.gpr, h]

theorem finishState_len {s t : State} {tag : Option (BitVec 16)} {ks : List IntKind} (h : Committed s ks) (r : RegIx) :
    (finishState s t tag ks).len r = t.len r := by
  have h : commits s ks := h
  simp [State.len, h]

theorem finishState_vb {s t : State} {tag : Option (BitVec 16)} {ks : List IntKind} (h : Committed s ks) (r : RegIx)
    (i : Nat) : (finishState s t tag ks).vb r i = t.vb r i := by
  have h' : commits s ks := h
  simp [State.vb, finishState_len h, State.vbase, h']

/-- A command that ends in `finishState s t tag ks`, where `t` has no interrupt more than `s`. -/
theorem gprEffect_of_finish {i : Instr} {s t : State} {tag : Option (BitVec 16)} {ks : List IntKind} {P : State → Prop}
    (he : exec i s = .next (finishState s t tag ks)) (hc : Committed s ks) (hP : P (finishState s t tag ks))
    (ho : OnlyGpr i.fields.rd s t) (hk : Kept s t) (hr : t.intRaised = s.intRaised)
    (hm : t.slots.memAddress = s.slots.memAddress) : GprEffect i s ks P := by
  have hc' : commits s ks := hc
  refine ⟨_, he, hP, ⟨fun r hr => ?_, fun a => ?_, fun r => ?_⟩, ?_, ?_, ?_⟩
  · rw [finishState_gpr hc, ho.1 r hr]
  · simp [hc', ho.2.1]
  · rw [finishState_len hc, ho.2.2]
  · simpa [Kept] using hk
  · simp [Raised, hr, hk.2.2.2]
  · simpa using hm

theorem vectorEffect_of_finish {i : Instr} {s t : State} {tag : Option (BitVec 16)} {ks : List IntKind} {P : State → Prop}
    (he : exec i s = .next (finishState s t tag ks)) (hc : Committed s ks) (hP : P (finishState s t tag ks))
    (ho : OnlyVector i.fields.rd s t) (hk : Kept s t) (hr : t.intRaised = s.intRaised)
    (hm : t.slots.memAddress = s.slots.memAddress) : VectorEffect i s ks P := by
  have hc' : commits s ks := hc
  refine ⟨_, he, hP, ⟨fun r => ?_, fun a ha => ?_, fun r hr => ?_⟩, ?_, ?_, ?_⟩
  · rw [finishState_gpr hc, ho.1 r]
  · simp [hc', ho.2.1 a ha]
  · rw [finishState_len hc, ho.2.2 r hr]
  · simpa [Kept] using hk
  · simp [Raised, hr, hk.2.2.2]
  · simpa using hm

theorem illegal_eq (s : State) : illegal s = { s with intRaised := s.intRaised ++ [(.instIllegal, s.pc)] } := rfl

/-! ## Class S -/

theorem scalarOp_eq {op : BitVec 6} {types : OpType → Bool} {c : Fields} {s : State} {handler : Parms → Ret}
    (h : types c.ot = true) :
    scalarOp op types c s handler = .next (finishState s
      (({ s with slots := { decodedSlots op c s with parm := scalarParms c s, vect := 0, running := 1 } } : State).setGpr c.rd
        (handler (scalarParms c s)).result) none (handler (scalarParms c s)).raised) := by
  simp [scalarOp, h, finish_eq]

/-- R88, R92: everything class S does. -/
theorem scalarOp_effect {i : Instr} {op : BitVec 6} {types : OpType → Bool} {c : Fields} {s : State}
    {handler : Parms → Ret} {P : State → Prop} (he : exec i s = scalarOp op types c s handler) (hf : i.fields = c)
    (h : types c.ot = true) (hc : Committed s (handler (scalarParms c s)).raised)
    (hP : ∀ t : State, t.gpr c.rd = (handler (scalarParms c s)).result → P t) :
    GprEffect i s (handler (scalarParms c s)).raised P := by
  subst hf
  rw [scalarOp_eq h] at he
  refine gprEffect_of_finish he hc (hP _ ?_) (onlyGpr_setGpr _ _ _) ⟨rfl, rfl, rfl, rfl⟩ rfl rfl
  rw [finishState_gpr hc, gpr_setGpr_same]

/-! ## Class G -/

theorem getterOp_eq {op : BitVec 6} {types : OpType → Bool} {c : Fields} {s : State} {result : Word}
    (h : types c.ot = true) :
    getterOp op types c s result = .next (finishState s
      (({ s with slots := { decodedSlots op c s with parm := wholeParms false c s, vect := 0, running := 1 } } : State).setGpr
        c.rd result) (some 0x12) []) := by
  simp [getterOp, h, finish_eq]

/-- R88, R92: everything class G does. -/
theorem getterOp_effect {i : Instr} {op : BitVec 6} {types : OpType → Bool} {c : Fields} {s : State} {result : Word}
    {P : State → Prop} (he : exec i s = getterOp op types c s result) (hf : i.fields = c) (h : types c.ot = true)
    (hP : ∀ t : State, t.gpr c.rd = result → t.returnType = 0x12 → P t) : GprEffect i s [] P := by
  subst hf
  rw [getterOp_eq h] at he
  refine gprEffect_of_finish he (.inl rfl) (hP _ ?_ (by simp)) (onlyGpr_setGpr _ _ _) ⟨rfl, rfl, rfl, rfl⟩ rfl rfl
  rw [finishState_gpr (.inl rfl), gpr_setGpr_same]

/-! ## Class W -/

theorem wholeOp_eq {op : BitVec 6} {types : OpType → Bool} {masked : Bool} {c : Fields} {s : State}
    {handler : Parms → List Byte × List IntKind} (h : types c.ot = true) :
    wholeOp op types masked c s handler = .next (finishState s
      (({ s with slots := { decodedSlots op c s with vectorOffset := 0, parm := wholeParms masked c s, vect := 4, running := 2 } }
        : State).setVec c.rd (handler (wholeParms masked c s)).1) none (handler (wholeParms masked c s)).2) := by
  simp [wholeOp, h, finish_eq]

/-- What is known of `v[rd]` after `v[rd] <- bytes`. -/
structure Holds (s t : State) (rd : RegIx) (bytes : List Byte) : Prop where
  len : t.len rd = min bytes.length s.cfg.maxVectorLength
  vb : ∀ k, t.vb rd k = if k < s.cfg.maxVectorLength then bytes.getD k 0 else 0

theorem holds_finish {s s' : State} {tag : Option (BitVec 16)} {ks : List IntKind} (hc : Committed s ks) (rd : RegIx)
    (bytes : List Byte) (hcfg : s'.cfg = s.cfg) : Holds s (finishState s (s'.setVec rd bytes) tag ks) rd bytes :=
  ⟨by rw [finishState_len hc, len_setVec, if_pos rfl, hcfg],
   fun k => by rw [finishState_vb hc, vb_setVec_same, hcfg]⟩

/-- Bytes that fit are all of `v[rd]`. -/
theorem Holds.len_of_fit {s t : State} {rd : RegIx} {bytes : List Byte} (h : Holds s t rd bytes)
    (hfit : bytes.length ≤ s.cfg.maxVectorLength) : t.len rd = bytes.length := by
  rw [h.len]; omega

theorem Holds.vb_of_fit {s t : State} {rd : RegIx} {bytes : List Byte} (h : Holds s t rd bytes)
    (hfit : bytes.length ≤ s.cfg.maxVectorLength) (k : Nat) : t.vb rd k = bytes.getD k 0 := by
  rw [h.vb]
  split
  · rfl
  · rw [List.getD_eq_default _ _ (by omega)]

/-- Elements of one size that fit: the length. -/
theorem Holds.len_elements {s t : State} {rd : RegIx} {n size : Nat} {f : Nat → List Byte}
    (h : Holds s t rd ((List.range n).flatMap f)) (hf : ∀ k < n, (f k).length = size)
    (hfit : n * size ≤ s.cfg.maxVectorLength) : t.len rd = n * size := by
  rw [h.len_of_fit (by rw [length_flatMap_range n size f hf]; exact hfit), length_flatMap_range n size f hf]

/-- Elements of one size that fit: byte `j` of element `k`. -/
theorem Holds.vb_elements {s t : State} {rd : RegIx} {n size : Nat} {f : Nat → List Byte}
    (h : Holds s t rd ((List.range n).flatMap f)) (hf : ∀ k < n, (f k).length = size)
    (hfit : n * size ≤ s.cfg.maxVectorLength) (k j : Nat) (hk : k < n) (hj : j < size) :
    t.vb rd (k * size + j) = (f k).getD j 0 := by
  rw [h.vb_of_fit (by rw [length_flatMap_range n size f hf]; exact hfit), getD_flatMap_range n size f hf k j hk hj]

/-- Elements of one size that fit: element `k`. -/
theorem Holds.velem_elements {s t : State} {rd : RegIx} {n size : Nat} {f : Nat → List Byte}
    (h : Holds s t rd ((List.range n).flatMap f)) (hf : ∀ k < n, (f k).length = size)
    (hfit : n * size ≤ s.cfg.maxVectorLength) (k : Nat) (hk : k < n) : t.velem rd (k * size) size = leNat (f k) :=
  velem_of_getD (hf k hk) fun j hj => h.vb_elements hf hfit k j hk hj

/-- R88, R93: everything class W does. -/
theorem wholeOp_effect {i : Instr} {op : BitVec 6} {types : OpType → Bool} {masked : Bool} {c : Fields} {s : State}
    {handler : Parms → List Byte × List IntKind} {P : State → Prop}
    (he : exec i s = wholeOp op types masked c s handler) (hf : i.fields = c) (h : types c.ot = true)
    (hc : Committed s (handler (wholeParms masked c s)).2)
    (hP : ∀ t : State, Holds s t c.rd (handler (wholeParms masked c s)).1 → P t) :
    VectorEffect i s (handler (wholeParms masked c s)).2 P := by
  subst hf
  rw [wholeOp_eq h] at he
  refine vectorEffect_of_finish he hc (hP _ ?_) (onlyVector_setVec _ _ _) ⟨rfl, rfl, rfl, rfl⟩ rfl rfl
  exact holds_finish hc _ _ rfl

/-! ## Class X -/

theorem extractOp_eq {op : BitVec 6} {types : OpType → Bool} {c : Fields} {s : State} {handler : Parms → Ret}
    (h : types c.ot = true) :
    extractOp op types c s handler = .next (finishState s
      (({ s with slots := { decodedSlots op c s with
            vectorOffset := 0
            parm := (wholeParms false c s).set 5 (handler (wholeParms false c s)).aux
            vect := 1
            running := 1 } } : State).setVec c.rd
        ((leBytes 8 (handler (wholeParms false c s)).result.toNat ++ leBytes 8 (handler (wholeParms false c s)).aux.toNat).take
          (dataSize c.ot))) none (handler (wholeParms false c s)).raised) := by
  simp [extractOp, h, finish_eq]

/-- R88, R94: everything class X does. -/
theorem extractOp_effect {i : Instr} {op : BitVec 6} {types : OpType → Bool} {c : Fields} {s : State}
    {handler : Parms → Ret} {P : State → Prop} (he : exec i s = extractOp op types c s handler) (hf : i.fields = c)
    (h : types c.ot = true) (hc : Committed s (handler (wholeParms false c s)).raised)
    (hP : ∀ t : State, Holds s t c.rd
      ((leBytes 8 (handler (wholeParms false c s)).result.toNat ++ leBytes 8 (handler (wholeParms false c s)).aux.toNat).take
        (dataSize c.ot)) → P t) :
    VectorEffect i s (handler (wholeParms false c s)).raised P := by
  subst hf
  rw [extractOp_eq h] at he
  refine vectorEffect_of_finish he hc (hP _ ?_) (onlyVector_setVec _ _ _) ⟨rfl, rfl, rfl, rfl⟩ rfl rfl
  exact holds_finish hc _ _ rfl

/-! ## Classes L and P -/

/-- The interrupts of a loop, in the order of its invocations. -/
def loopRaised (n : Nat) (ret : Nat → Ret) : List IntKind := (List.range n).flatMap fun k => (ret k).raised

/-- R90, R91: everything a loop does. -/
theorem loopOp_effect {i : Instr} {op : BitVec 6} {c : Fields} {s : State} {lengthR stride : Nat} {fill : Nat → Parms}
    {handler : Nat → Parms → Ret} {bytes : Ret → List Byte} {P : State → Prop}
    (he : exec i s = loopOp op c s lengthR stride fill handler bytes) (hf : i.fields = c)
    (hc : Committed s (loopRaised (lengthR / stride) fun k => handler (k * stride) (fill (k * stride))))
    (hP : ∀ t : State, Holds s t c.rd ((List.range (lengthR / stride)).flatMap fun k =>
      bytes (handler (k * stride) (fill (k * stride)))) → P t) :
    VectorEffect i s (loopRaised (lengthR / stride) fun k => handler (k * stride) (fill (k * stride))) P := by
  subst hf
  have e1 : ((List.range (lengthR / stride)).map fun k => handler (k * stride) (fill (k * stride))).flatMap (·.raised)
      = loopRaised (lengthR / stride) fun k => handler (k * stride) (fill (k * stride)) := by
    rw [loopRaised, List.flatMap_map]
  have e2 : ((List.range (lengthR / stride)).map fun k => handler (k * stride) (fill (k * stride))).flatMap bytes
      = (List.range (lengthR / stride)).flatMap fun k => bytes (handler (k * stride) (fill (k * stride))) := by
    rw [List.flatMap_map]
  simp only [loopOp, finish_eq] at he
  rw [e1, e2] at he
  refine vectorEffect_of_finish he hc (hP _ (holds_finish hc _ _ rfl)) (onlyVector_setVec _ _ _) ⟨rfl, rfl, rfl, rfl⟩ rfl ?_
  simp only [setVec_slots]
  split <;> rfl

@[simp] theorem length_laneBytes (ot : OpType) (r : Ret) : (laneBytes (dataSize ot) r).length = dataSize ot := by
  cases ot <;> simp [laneBytes, dataSize]

@[simp] theorem length_pairBytes (size : Nat) (r : Ret) : (pairBytes size r).length = 2 * size := by
  simp [pairBytes, Nat.two_mul]

/-- R90: a lane of at most 64 bits is the result modulo its width. -/
theorem leNat_laneBytes {ot : OpType} (r : Ret) (h : ot ≠ .i128) :
    leNat (laneBytes (dataSize ot) r) = r.result.toNat % 256 ^ dataSize ot := by
  cases ot <;> first | exact absurd rfl h | simp [laneBytes, dataSize, leNat_leBytes]

theorem laneOp_eq {op : BitVec 6} {types : OpType → Bool} {masked vectorRs : Bool} {c : Fields} {s : State}
    {lengthR : Nat} {handler : Nat → Parms → Ret} (h : types c.ot = true) :
    laneOp op types masked vectorRs c s lengthR handler =
      loopOp op c s lengthR (dataSize c.ot) (laneParms masked vectorRs c s) handler (laneBytes (dataSize c.ot)) := by
  simp [laneOp, h]

theorem pairOp_eq {op : BitVec 6} {types : OpType → Bool} {masked : Bool} {c : Fields} {s : State}
    {handler : Nat → Parms → Ret} (h : types c.ot = true) :
    pairOp op types masked c s handler =
      loopOp op c s (s.len c.rs) (2 * dataSize c.ot) (laneParms masked true c s) handler (pairBytes (dataSize c.ot)) := by
  simp [pairOp, h]

/-! ## An unsupported operand type (R78) -/

theorem scalarOp_illegal {op : BitVec 6} {types : OpType → Bool} {c : Fields} {s : State} {handler : Parms → Ret}
    (h : types c.ot = false) : scalarOp op types c s handler = .next (illegal s) := by simp [scalarOp, h]

theorem getterOp_illegal {op : BitVec 6} {types : OpType → Bool} {c : Fields} {s : State} {result : Word}
    (h : types c.ot = false) : getterOp op types c s result = .next (illegal s) := by simp [getterOp, h]

theorem wholeOp_illegal {op : BitVec 6} {types : OpType → Bool} {masked : Bool} {c : Fields} {s : State}
    {handler : Parms → List Byte × List IntKind} (h : types c.ot = false) :
    wholeOp op types masked c s handler = .next (illegal s) := by simp [wholeOp, h]

theorem extractOp_illegal {op : BitVec 6} {types : OpType → Bool} {c : Fields} {s : State} {handler : Parms → Ret}
    (h : types c.ot = false) : extractOp op types c s handler = .next (illegal s) := by simp [extractOp, h]

theorem laneOp_illegal {op : BitVec 6} {types : OpType → Bool} {masked vectorRs : Bool} {c : Fields} {s : State}
    {lengthR : Nat} {handler : Nat → Parms → Ret} (h : types c.ot = false) :
    laneOp op types masked vectorRs c s lengthR handler = .next (illegal s) := by simp [laneOp, h]

theorem pairOp_illegal {op : BitVec 6} {types : OpType → Bool} {masked : Bool} {c : Fields} {s : State}
    {handler : Nat → Parms → Ret} (h : types c.ot = false) :
    pairOp op types masked c s handler = .next (illegal s) := by simp [pairOp, h]

end Sys2Proof.Machine
end

