-- ==== Sys2Proof/Laws/Exec.lean ====
section
/-! SUPPORT. What any instruction can do, said once for all 55 (`exec_cases`), and what any step can do (`step_cases`). Proofs
about the whole machine cite these and do not unfold a meaning. -/

namespace Sys2Proof.Machine

open Sys2Proof

/-- The command slots an executed instruction can leave: those of R35 and R36, or the old ones after a loop without lanes,
and the old `memAddress` but for `address_form`. -/
structure SlotsAfter (i : Instr) (s : State) (slots : Slots) : Prop where
  vect : slots.vect = 0 ∨ slots.vect = 1 ∨ slots.vect = 4 ∨ slots.vect = s.slots.vect
  running : slots.running = 1 ∨ slots.running = 2 ∨ slots.running = s.slots.running
  operandType : slots.operandType = i.fields.ot
  memAddress : (∀ c, i ≠ .addressForm c) → slots.memAddress = s.slots.memAddress

/-- An outcome of an instruction that writes a general-purpose register. -/
def WritesGpr (i : Instr) (s : State) (o : StepOutcome) : Prop :=
  o = .next (illegal s) ∨ ∃ slots v tag ks, SlotsAfter i s slots
    ∧ o = .next (finishState s (({ s with slots := slots } : State).setGpr i.fields.rd v) tag ks) ∧ .instIllegal ∉ ks

/-- An outcome of an instruction that writes a vector register. -/
def WritesVector (i : Instr) (s : State) (o : StepOutcome) : Prop :=
  o = .next (illegal s) ∨ ∃ slots bs ks, SlotsAfter i s slots
    ∧ o = .next (finishState s (({ s with slots := slots } : State).setVec i.fields.rd bs) none ks) ∧ .instIllegal ∉ ks

section

variable {i : Instr} {op : BitVec 6} {types : OpType → Bool} {masked vectorRs : Bool} {c : Fields} {s : State}

theorem scalarOp_writes {handler : Parms → Ret} (hf : i.fields = c) (hk : ∀ p, .instIllegal ∉ (handler p).raised) :
    WritesGpr i s (scalarOp op types c s handler) := by
  subst hf
  cases h : types i.fields.ot with
  | false => exact .inl (scalarOp_illegal h)
  | true => refine .inr ⟨_, _, _, _, ?_, scalarOp_eq h, hk _⟩; exact ⟨.inl rfl, .inl rfl, rfl, fun _ => rfl⟩

theorem getterOp_writes {result : Word} (hf : i.fields = c) : WritesGpr i s (getterOp op types c s result) := by
  subst hf
  cases h : types i.fields.ot with
  | false => exact .inl (getterOp_illegal h)
  | true => refine .inr ⟨_, _, _, _, ?_, getterOp_eq h, by simp⟩; exact ⟨.inl rfl, .inl rfl, rfl, fun _ => rfl⟩

theorem wholeOp_writes {handler : Parms → List Byte × List IntKind} (hf : i.fields = c)
    (hk : ∀ p, .instIllegal ∉ (handler p).2) : WritesVector i s (wholeOp op types masked c s handler) := by
  subst hf
  cases h : types i.fields.ot with
  | false => exact .inl (wholeOp_illegal h)
  | true => refine .inr ⟨_, _, _, ?_, wholeOp_eq h, hk _⟩; exact ⟨.inr (.inr (.inl rfl)), .inr (.inl rfl), rfl, fun _ => rfl⟩

theorem extractOp_writes {handler : Parms → Ret} (hf : i.fields = c) (hk : ∀ p, .instIllegal ∉ (handler p).raised) :
    WritesVector i s (extractOp op types c s handler) := by
  subst hf
  cases h : types i.fields.ot with
  | false => exact .inl (extractOp_illegal h)
  | true => refine .inr ⟨_, _, _, ?_, extractOp_eq h, hk _⟩; exact ⟨.inr (.inl rfl), .inl rfl, rfl, fun _ => rfl⟩

theorem loopOp_writes {lengthR stride : Nat} {fill : Nat → Parms} {handler : Nat → Parms → Ret} {bytes : Ret → List Byte}
    (hf : i.fields = c) (hk : ∀ off p, .instIllegal ∉ (handler off p).raised) :
    WritesVector i s (loopOp op c s lengthR stride fill handler bytes) := by
  subst hf
  refine .inr ⟨_, _, _, ?_, rfl, ?_⟩
  · split
    · exact ⟨.inr (.inr (.inr rfl)), .inr (.inr rfl), rfl, fun _ => rfl⟩
    · exact ⟨.inr (.inl rfl), .inl rfl, rfl, fun _ => rfl⟩
  · simp only [List.mem_flatMap, List.mem_map, not_exists, not_and]
    rintro r ⟨j, -, rfl⟩ hr
    exact hk _ _ hr

theorem laneOp_writes {lengthR : Nat} {handler : Nat → Parms → Ret} (hf : i.fields = c)
    (hk : ∀ off p, .instIllegal ∉ (handler off p).raised) :
    WritesVector i s (laneOp op types masked vectorRs c s lengthR handler) := by
  cases h : types c.ot with
  | false => exact .inl (laneOp_illegal h)
  | true => rw [laneOp_eq h]; exact loopOp_writes hf hk

theorem pairOp_writes {handler : Nat → Parms → Ret} (hf : i.fields = c)
    (hk : ∀ off p, .instIllegal ∉ (handler off p).raised) :
    WritesVector i s (pairOp op types masked c s handler) := by
  cases h : types c.ot with
  | false => exact .inl (pairOp_illegal h)
  | true => rw [pairOp_eq h]; exact loopOp_writes hf hk

end

/-! ### The interrupts a handler can raise -/

theorem mem_raiseIf {cond : Bool} {k k' : IntKind} : k ∈ raiseIf cond k' ↔ cond = true ∧ k = k' := by
  cases cond <;> simp [raiseIf]

theorem mem_signedElseUnsigned {opts : Word} {k : IntKind} (h : k ∈ signedElseUnsigned opts) :
    k = .overflSign ∧ trapS opts = true ∨ k = .overflUnsign ∧ trapU opts = true := by
  unfold signedElseUnsigned at h
  split at h
  · exact .inl ⟨by simpa using h, ‹_›⟩
  · rw [mem_raiseIf] at h; exact .inr h.symm

theorem roundUpPow2_raised (ot : OpType) (a opts : Word) : .instIllegal ∉ (roundUpPow2 ot a opts).raised := by
  unfold roundUpPow2
  dsimp only
  split
  · simp
  · split
    · simp
    · split
      · simp
      · intro h; rcases mem_signedElseUnsigned h with h | h <;> simp at h

theorem absolute_raised (ot : OpType) (a : Word) (imm : BitVec 32) : .instIllegal ∉ (absolute ot a imm).raised := by
  unfold absolute
  dsimp only
  split
  · simp
  · split
    · simp
    · simp [mem_raiseIf]

theorem shiftAdd_raised (ot : OpType) (a b : Word) (imm : BitVec 32) (opts : Word) :
    .instIllegal ∉ (shiftAdd ot a b imm opts).raised := by simp [shiftAdd, mem_raiseIf]

theorem compressTraps_raised (opts : Word) (es : List Narrowed) : .instIllegal ∉ compressTraps opts es := by
  simp [compressTraps, mem_raiseIf]

theorem divExUnsigned_raised (w lo hi d : Nat) (opts : Word) : .instIllegal ∉ (divExUnsigned w lo hi d opts).raised := by
  unfold divExUnsigned; dsimp only; split <;> simp [mem_raiseIf]

theorem divExSigned_raised (w lo hi d : Nat) (opts : Word) : .instIllegal ∉ (divExSigned w lo hi d opts).raised := by
  unfold divExSigned; dsimp only; split <;> simp [mem_raiseIf]

theorem intSqrt_raised (w b : Nat) (opts : Word) : .instIllegal ∉ (intSqrt w b opts).raised := by
  unfold intSqrt
  split
  · intro h; rcases mem_signedElseUnsigned h with h | h <;> simp at h
  · simp

theorem floatSqrt_raised (f : FloatFormat) (mode : RoundingMode) (nan b : Nat) (opts : Word) :
    .instIllegal ∉ (floatSqrt f mode nan b opts).raised := by
  unfold floatSqrt
  split
  · simp
  · split
    · simp
    · split
      · simp [mem_raiseIf]
      · split <;> simp

/-! ### All instructions -/

/-- What an instruction of each class can do: it is illegal and nothing else happens, or it writes its one destination
register, leaves the slots as `SlotsAfter` says, and ends as `finishState` says. -/
theorem exec_cases (i : Instr) (s : State) :
    ((opClass i = .scalar ∨ opClass i = .getter) → WritesGpr i s (exec i s))
    ∧ (opClass i ≠ .scalar → opClass i ≠ .getter → WritesVector i s (exec i s)) := by
  cases i with
  | addressForm c =>
    refine ⟨fun _ => .inr ⟨_, _, _, [], ?_, rfl, by simp⟩, by simp [opClass]⟩
    exact ⟨.inl rfl, .inl rfl, rfl, fun h => absurd rfl (h c)⟩
  | roundUpPow2 c => exact ⟨fun _ => by rw [exec, execRoundUpPow2]; exact scalarOp_writes (c := c) rfl fun _ => roundUpPow2_raised _ _ _, by simp [opClass]⟩
  | absolute c =>
    refine ⟨fun _ => ?_, by simp [opClass]⟩
    show WritesGpr _ s (execAbsolute c s)
    unfold execAbsolute
    split <;> first | exact .inl rfl | exact scalarOp_writes (c := c) rfl fun _ => absolute_raised _ _ _
  | shiftAdd c => exact ⟨fun _ => by rw [exec, execShiftAdd]; exact scalarOp_writes (c := c) rfl fun _ => shiftAdd_raised _ _ _ _ _, by simp [opClass]⟩
  | replaceBits c =>
    refine ⟨fun _ => ?_, by simp [opClass]⟩
    show WritesGpr _ s (execReplaceBits c s)
    unfold execReplaceBits
    split <;> first | exact .inl rfl | exact scalarOp_writes (c := c) rfl fun _ => by simp
  | getLen c => exact ⟨fun _ => by rw [exec, execGetLen]; exact getterOp_writes (c := c) rfl, by simp [opClass]⟩
  | getNum c => exact ⟨fun _ => by rw [exec, execGetNum]; exact getterOp_writes (c := c) rfl, by simp [opClass]⟩
  | compress c => exact ⟨by simp [opClass], fun _ _ => by rw [exec, execCompress, compressOp]; exact wholeOp_writes (c := c) rfl fun _ => compressTraps_raised _ _⟩
  | compressSs c => exact ⟨by simp [opClass], fun _ _ => by rw [exec, execCompressSs, compressOp]; exact wholeOp_writes (c := c) rfl fun _ => compressTraps_raised _ _⟩
  | compressUs c => exact ⟨by simp [opClass], fun _ _ => by rw [exec, execCompressUs, compressOp]; exact wholeOp_writes (c := c) rfl fun _ => compressTraps_raised _ _⟩
  | compressSparse c =>
    refine ⟨by simp [opClass], fun _ _ => ?_⟩
    show WritesVector _ s (execCompressSparse c s)
    unfold execCompressSparse
    split
    · exact .inl rfl
    · exact wholeOp_writes (c := c) rfl fun _ => by simp
  | expandSparse c =>
    refine ⟨by simp [opClass], fun _ _ => ?_⟩
    show WritesVector _ s (execExpandSparse c s)
    unfold execExpandSparse
    split
    · exact .inl rfl
    · exact wholeOp_writes (c := c) rfl fun _ => by simp
  | extract c => exact ⟨by simp [opClass], fun _ _ => by rw [exec, execExtract]; exact extractOp_writes (c := c) rfl fun _ => by rw [apply_ite Ret.raised]; simp⟩
  | insert c => exact ⟨by simp [opClass], fun _ _ => by rw [exec, execInsert]; exact laneOp_writes (c := c) rfl fun _ _ => by split <;> simp⟩
  | broadcast c => exact ⟨by simp [opClass], fun _ _ => by rw [exec, execBroadcast]; exact laneOp_writes (c := c) rfl fun _ _ => by simp⟩
  | addCarry c => exact ⟨by simp [opClass], fun _ _ => by rw [exec, execAddCarry]; exact pairOp_writes (c := c) rfl fun _ _ => by simp [Machine.addCarry]⟩
  | subBorrow c => exact ⟨by simp [opClass], fun _ _ => by rw [exec, execSubBorrow]; exact pairOp_writes (c := c) rfl fun _ _ => by simp [Machine.subBorrow]⟩
  | divEx c => exact ⟨by simp [opClass], fun _ _ => by rw [exec, execDivEx]; exact pairOp_writes (c := c) rfl fun _ _ => divExSigned_raised _ _ _ _ _⟩
  | divExU c => exact ⟨by simp [opClass], fun _ _ => by rw [exec, execDivExU]; exact pairOp_writes (c := c) rfl fun _ _ => divExUnsigned_raised _ _ _ _ _⟩
  | addSs c => exact ⟨by simp [opClass], fun _ _ => by rw [exec, execAddSs, saturatingOp]; exact laneOp_writes (c := c) rfl fun _ _ => by simp [satSignedRet, mem_raiseIf]⟩
  | subSs c => exact ⟨by simp [opClass], fun _ _ => by rw [exec, execSubSs, saturatingOp]; exact laneOp_writes (c := c) rfl fun _ _ => by simp [satSignedRet, mem_raiseIf]⟩
  | mulSs c => exact ⟨by simp [opClass], fun _ _ => by rw [exec, execMulSs, saturatingOp]; exact laneOp_writes (c := c) rfl fun _ _ => by simp [satSignedRet, mem_raiseIf]⟩
  | addUs c => exact ⟨by simp [opClass], fun _ _ => by rw [exec, execAddUs, saturatingOp]; exact laneOp_writes (c := c) rfl fun _ _ => by simp [satUnsignedRet, mem_raiseIf]⟩
  | subUs c => exact ⟨by simp [opClass], fun _ _ => by rw [exec, execSubUs, saturatingOp]; exact laneOp_writes (c := c) rfl fun _ _ => by simp [satUnsignedRet, mem_raiseIf]⟩
  | mulUs c => exact ⟨by simp [opClass], fun _ _ => by rw [exec, execMulUs, saturatingOp]; exact laneOp_writes (c := c) rfl fun _ _ => by simp [satUnsignedRet, mem_raiseIf]⟩
  | addOc c => exact ⟨by simp [opClass], fun _ _ => by rw [exec, execAddOc, checkedOp]; exact pairOp_writes (c := c) rfl fun _ _ => by simp⟩
  | subOc c => exact ⟨by simp [opClass], fun _ _ => by rw [exec, execSubOc, checkedOp]; exact pairOp_writes (c := c) rfl fun _ _ => by simp⟩
  | mulOc c => exact ⟨by simp [opClass], fun _ _ => by rw [exec, execMulOc, checkedOp]; exact pairOp_writes (c := c) rfl fun _ _ => by simp⟩
  | divOc c => exact ⟨by simp [opClass], fun _ _ => by rw [exec, execDivOc, checkedOp]; exact pairOp_writes (c := c) rfl fun _ _ => by simp⟩
  | sqrt c =>
    refine ⟨by simp [opClass], fun _ _ => laneOp_writes (c := c) rfl fun _ _ => ?_⟩
    dsimp only
    split
    · exact floatSqrt_raised _ _ _ _ _
    · exact intSqrt_raised _ _ _
  | bitscanForward c => exact ⟨fun _ => by rw [exec, execBitscanForward]; exact scalarOp_writes (c := c) rfl fun _ => by simp, by simp [opClass]⟩
  | bitscanReverse c => exact ⟨fun _ => by rw [exec, execBitscanReverse]; exact scalarOp_writes (c := c) rfl fun _ => by simp, by simp [opClass]⟩
  | roundDownPow2 c => exact ⟨fun _ => by rw [exec, execRoundDownPow2]; exact scalarOp_writes (c := c) rfl fun _ => by simp, by simp [opClass]⟩
  | moveHi32 c => exact ⟨fun _ => by rw [exec, execMoveHi32]; exact scalarOp_writes (c := c) rfl fun _ => by simp, by simp [opClass]⟩
  | insertHi32 c => exact ⟨fun _ => by rw [exec, execInsertHi32]; exact scalarOp_writes (c := c) rfl fun _ => by simp, by simp [opClass]⟩
  | add32u c => exact ⟨fun _ => by rw [exec, execAdd32u]; exact scalarOp_writes (c := c) rfl fun _ => by simp, by simp [opClass]⟩
  | sub32u c => exact ⟨fun _ => by rw [exec, execSub32u]; exact scalarOp_writes (c := c) rfl fun _ => by simp, by simp [opClass]⟩
  | addHi32 c => exact ⟨fun _ => by rw [exec, execAddHi32]; exact scalarOp_writes (c := c) rfl fun _ => by simp, by simp [opClass]⟩
  | andHi32 c => exact ⟨fun _ => by rw [exec, execAndHi32]; exact scalarOp_writes (c := c) rfl fun _ => by simp, by simp [opClass]⟩
  | orHi32 c => exact ⟨fun _ => by rw [exec, execOrHi32]; exact scalarOp_writes (c := c) rfl fun _ => by simp, by simp [opClass]⟩
  | xorHi32 c => exact ⟨fun _ => by rw [exec, execXorHi32]; exact scalarOp_writes (c := c) rfl fun _ => by simp, by simp [opClass]⟩
  | setLen c => exact ⟨by simp [opClass], fun _ _ => by rw [exec, execSetLen]; exact wholeOp_writes (c := c) rfl fun _ => by simp⟩
  | setNum c => exact ⟨by simp [opClass], fun _ _ => by rw [exec, execSetNum]; exact wholeOp_writes (c := c) rfl fun _ => by simp⟩
  | expandU c => exact ⟨by simp [opClass], fun _ _ => by rw [exec, execExpandU, expandOp]; exact wholeOp_writes (c := c) rfl fun _ => by simp⟩
  | expandS c => exact ⟨by simp [opClass], fun _ _ => by rw [exec, execExpandS, expandOp]; exact wholeOp_writes (c := c) rfl fun _ => by simp⟩
  | bits2bool c => exact ⟨by simp [opClass], fun _ _ => by rw [exec, execBits2bool]; exact wholeOp_writes (c := c) rfl fun _ => by simp⟩
  | bool2bits c => exact ⟨by simp [opClass], fun _ _ => by rw [exec, execBool2bits]; exact wholeOp_writes (c := c) rfl fun _ => by simp⟩
  | boolReduce c => exact ⟨by simp [opClass], fun _ _ => by rw [exec, execBoolReduce]; exact wholeOp_writes (c := c) rfl fun _ => by simp⟩
  | categoryReduce c => exact ⟨by simp [opClass], fun _ _ => by rw [exec, execCategoryReduce]; exact wholeOp_writes (c := c) rfl fun _ => by simp⟩
  | shiftExpand c => exact ⟨by simp [opClass], fun _ _ => by rw [exec, execShiftExpand]; exact wholeOp_writes (c := c) rfl fun _ => by simp⟩
  | shiftReduce c => exact ⟨by simp [opClass], fun _ _ => by rw [exec, execShiftReduce]; exact wholeOp_writes (c := c) rfl fun _ => by simp⟩
  | shiftUp c => exact ⟨by simp [opClass], fun _ _ => by rw [exec, execShiftUp]; exact wholeOp_writes (c := c) rfl fun _ => by simp⟩
  | shiftDown c => exact ⟨by simp [opClass], fun _ _ => by rw [exec, execShiftDown]; exact wholeOp_writes (c := c) rfl fun _ => by simp⟩
  | rotateUp c => exact ⟨by simp [opClass], fun _ _ => by rw [exec, execRotateUp]; exact wholeOp_writes (c := c) rfl fun _ => by simp⟩
  | rotateDown c => exact ⟨by simp [opClass], fun _ _ => by rw [exec, execRotateDown]; exact wholeOp_writes (c := c) rfl fun _ => by simp⟩

/-! ### A step -/

/-- What a step can do when it answers a next state: it runs the command at `pc`, which is illegal or an instruction, and
advances `pc`. -/
theorem step_cases {s t : State} (h : step s = .next t) :
    Ready s ∧ ∃ cw, s.cmds[s.pc]? = some cw ∧
      ((∃ e, decode cw = .error e ∧ t = (illegal s).advance)
        ∨ ∃ i u, decode cw = .ok i ∧ exec i s = .next u ∧ t = u.advance) := by
  unfold step at h
  split at h
  · cases h
  split at h
  · cases h
  split at h
  · cases h
  split at h
  · cases h
  rename_i hwf hint hpc _ cw hcw
  have hcw' : s.cmds[s.pc]? = some cw := hcw
  refine ⟨⟨not_not.mp hwf, not_not.mp hint, ?_⟩, cw, hcw, ?_⟩
  · exact (List.getElem?_eq_some_iff.mp hcw').1
  · unfold runWord at h
    split at h
    · rename_i e he
      exact .inl ⟨e, he, by cases h; rfl⟩
    · rename_i i hi
      refine .inr ⟨i, ?_⟩
      cases hu : exec i s with
      | next u => rw [hu] at h; cases h; exact ⟨u, hi, rfl, rfl⟩
      | fault f => rw [hu] at h; cases h
      | refused r => rw [hu] at h; cases h

end Sys2Proof.Machine
end

