-- ==== Sys2Proof/Laws/PerInstr.lean ====
section
/-! SUPPORT. The family `OpcodeRow`: the fixed bits of an instruction's command word are those of its row of the opcode
table, one lemma per constructor. -/

namespace Sys2Proof.Laws.OpcodeRow

open Sys2Proof

/-- The value `match` of the row of `spec/opcode_table.json`; every row has the mask `0xFF80000300000000` (`tab`, `op`
and `zero`). -/
def rowMatch : Instr → Nat
  | .bitscanForward _ => 0x0000000000000000
  | .bitscanReverse _ => 0x0080000000000000
  | .roundDownPow2 _ => 0x0100000000000000
  | .roundUpPow2 _ => 0x0180000000000000
  | .setLen _ => 0x4000000000000000
  | .getLen _ => 0x4080000000000000
  | .setNum _ => 0x4100000000000000
  | .getNum _ => 0x4180000000000000
  | .compress _ => 0x4200000000000000
  | .compressSs _ => 0x4280000000000000
  | .compressUs _ => 0x4300000000000000
  | .expandU _ => 0x4400000000000000
  | .expandS _ => 0x4480000000000000
  | .compressSparse _ => 0x4500000000000000
  | .expandSparse _ => 0x4580000000000000
  | .extract _ => 0x4600000000000000
  | .insert _ => 0x4680000000000000
  | .broadcast _ => 0x4700000000000000
  | .bits2bool _ => 0x4800000000000000
  | .bool2bits _ => 0x4880000000000000
  | .boolReduce _ => 0x4900000000000000
  | .categoryReduce _ => 0x4980000000000000
  | .shiftExpand _ => 0x4A00000000000000
  | .shiftReduce _ => 0x4A80000000000000
  | .shiftUp _ => 0x4B00000000000000
  | .shiftDown _ => 0x4B80000000000000
  | .rotateUp _ => 0x4C00000000000000
  | .rotateDown _ => 0x4C80000000000000
  | .addCarry _ => 0x4E00000000000000
  | .subBorrow _ => 0x4E80000000000000
  | .divEx _ => 0x4F00000000000000
  | .divExU _ => 0x4F80000000000000
  | .addSs _ => 0x5000000000000000
  | .subSs _ => 0x5080000000000000
  | .addUs _ => 0x5100000000000000
  | .subUs _ => 0x5180000000000000
  | .mulSs _ => 0x5200000000000000
  | .mulUs _ => 0x5280000000000000
  | .addOc _ => 0x5400000000000000
  | .subOc _ => 0x5480000000000000
  | .mulOc _ => 0x5500000000000000
  | .divOc _ => 0x5580000000000000
  | .sqrt _ => 0x5800000000000000
  | .absolute _ => 0x6000000000000000
  | .shiftAdd _ => 0x6080000000000000
  | .moveHi32 _ => 0x8000000000000000
  | .insertHi32 _ => 0x8080000000000000
  | .add32u _ => 0x8100000000000000
  | .sub32u _ => 0x8180000000000000
  | .addHi32 _ => 0x8200000000000000
  | .andHi32 _ => 0x8280000000000000
  | .orHi32 _ => 0x8300000000000000
  | .xorHi32 _ => 0x8380000000000000
  | .replaceBits _ => 0x8400000000000000
  | .addressForm _ => 0x8480000000000000

/-- The command word has 64 bits, and under the row's mask it is the row's match. -/
def Statement (i : Instr) : Prop :=
  encodeNat i < 2 ^ 64 ∧ encodeNat i / 2 ^ 55 = rowMatch i / 2 ^ 55
    ∧ encodeNat i / 2 ^ 32 % 2 ^ 2 = rowMatch i / 2 ^ 32 % 2 ^ 2

theorem opTypeCode_lt (ot : OpType) : opTypeCode ot < 7 := by cases ot <;> decide

theorem maskCode_lt (rm : Option (Fin 7)) : maskCode rm < 8 := by
  cases rm with
  | none => decide
  | some m => exact Nat.lt_succ_of_lt m.isLt

/-- The fields below `op` fill bits 54 to 0 and leave bits 33 and 32 clear. -/
theorem statement_of_row {i : Instr} {row : Nat} (hm : rowMatch i = row * 2 ^ 55)
    (ho : (opcodeOf i).1 * 64 + (opcodeOf i).2 = row) (hr : row < 512) : Statement i := by
  have h1 := opTypeCode_lt i.fields.ot
  have h2 := maskCode_lt i.fields.rm
  have h3 := i.fields.rd.isLt
  have h4 := i.fields.rs.isLt
  have h5 := i.fields.rt.isLt
  have h6 := i.fields.imm.isLt
  simp only [Statement, hm, encodeNat]
  refine ⟨?_, ?_, ?_⟩ <;> omega

theorem bitscanForward (c : Fields) : Statement (.bitscanForward c) := statement_of_row (row := 0) (by simp [rowMatch]) rfl (by decide)
theorem bitscanReverse (c : Fields) : Statement (.bitscanReverse c) := statement_of_row (row := 1) (by simp [rowMatch]) rfl (by decide)
theorem roundDownPow2 (c : Fields) : Statement (.roundDownPow2 c) := statement_of_row (row := 2) (by simp [rowMatch]) rfl (by decide)
theorem roundUpPow2 (c : Fields) : Statement (.roundUpPow2 c) := statement_of_row (row := 3) (by simp [rowMatch]) rfl (by decide)
theorem setLen (c : Fields) : Statement (.setLen c) := statement_of_row (row := 128) (by simp [rowMatch]) rfl (by decide)
theorem getLen (c : Fields) : Statement (.getLen c) := statement_of_row (row := 129) (by simp [rowMatch]) rfl (by decide)
theorem setNum (c : Fields) : Statement (.setNum c) := statement_of_row (row := 130) (by simp [rowMatch]) rfl (by decide)
theorem getNum (c : Fields) : Statement (.getNum c) := statement_of_row (row := 131) (by simp [rowMatch]) rfl (by decide)
theorem compress (c : Fields) : Statement (.compress c) := statement_of_row (row := 132) (by simp [rowMatch]) rfl (by decide)
theorem compressSs (c : Fields) : Statement (.compressSs c) := statement_of_row (row := 133) (by simp [rowMatch]) rfl (by decide)
theorem compressUs (c : Fields) : Statement (.compressUs c) := statement_of_row (row := 134) (by simp [rowMatch]) rfl (by decide)
theorem expandU (c : Fields) : Statement (.expandU c) := statement_of_row (row := 136) (by simp [rowMatch]) rfl (by decide)
theorem expandS (c : Fields) : Statement (.expandS c) := statement_of_row (row := 137) (by simp [rowMatch]) rfl (by decide)
theorem compressSparse (c : Fields) : Statement (.compressSparse c) := statement_of_row (row := 138) (by simp [rowMatch]) rfl (by decide)
theorem expandSparse (c : Fields) : Statement (.expandSparse c) := statement_of_row (row := 139) (by simp [rowMatch]) rfl (by decide)
theorem extract (c : Fields) : Statement (.extract c) := statement_of_row (row := 140) (by simp [rowMatch]) rfl (by decide)
theorem insert (c : Fields) : Statement (.insert c) := statement_of_row (row := 141) (by simp [rowMatch]) rfl (by decide)
theorem broadcast (c : Fields) : Statement (.broadcast c) := statement_of_row (row := 142) (by simp [rowMatch]) rfl (by decide)
theorem bits2bool (c : Fields) : Statement (.bits2bool c) := statement_of_row (row := 144) (by simp [rowMatch]) rfl (by decide)
theorem bool2bits (c : Fields) : Statement (.bool2bits c) := statement_of_row (row := 145) (by simp [rowMatch]) rfl (by decide)
theorem boolReduce (c : Fields) : Statement (.boolReduce c) := statement_of_row (row := 146) (by simp [rowMatch]) rfl (by decide)
theorem categoryReduce (c : Fields) : Statement (.categoryReduce c) := statement_of_row (row := 147) (by simp [rowMatch]) rfl (by decide)
theorem shiftExpand (c : Fields) : Statement (.shiftExpand c) := statement_of_row (row := 148) (by simp [rowMatch]) rfl (by decide)
theorem shiftReduce (c : Fields) : Statement (.shiftReduce c) := statement_of_row (row := 149) (by simp [rowMatch]) rfl (by decide)
theorem shiftUp (c : Fields) : Statement (.shiftUp c) := statement_of_row (row := 150) (by simp [rowMatch]) rfl (by decide)
theorem shiftDown (c : Fields) : Statement (.shiftDown c) := statement_of_row (row := 151) (by simp [rowMatch]) rfl (by decide)
theorem rotateUp (c : Fields) : Statement (.rotateUp c) := statement_of_row (row := 152) (by simp [rowMatch]) rfl (by decide)
theorem rotateDown (c : Fields) : Statement (.rotateDown c) := statement_of_row (row := 153) (by simp [rowMatch]) rfl (by decide)
theorem addCarry (c : Fields) : Statement (.addCarry c) := statement_of_row (row := 156) (by simp [rowMatch]) rfl (by decide)
theorem subBorrow (c : Fields) : Statement (.subBorrow c) := statement_of_row (row := 157) (by simp [rowMatch]) rfl (by decide)
theorem divEx (c : Fields) : Statement (.divEx c) := statement_of_row (row := 158) (by simp [rowMatch]) rfl (by decide)
theorem divExU (c : Fields) : Statement (.divExU c) := statement_of_row (row := 159) (by simp [rowMatch]) rfl (by decide)
theorem addSs (c : Fields) : Statement (.addSs c) := statement_of_row (row := 160) (by simp [rowMatch]) rfl (by decide)
theorem subSs (c : Fields) : Statement (.subSs c) := statement_of_row (row := 161) (by simp [rowMatch]) rfl (by decide)
theorem addUs (c : Fields) : Statement (.addUs c) := statement_of_row (row := 162) (by simp [rowMatch]) rfl (by decide)
theorem subUs (c : Fields) : Statement (.subUs c) := statement_of_row (row := 163) (by simp [rowMatch]) rfl (by decide)
theorem mulSs (c : Fields) : Statement (.mulSs c) := statement_of_row (row := 164) (by simp [rowMatch]) rfl (by decide)
theorem mulUs (c : Fields) : Statement (.mulUs c) := statement_of_row (row := 165) (by simp [rowMatch]) rfl (by decide)
theorem addOc (c : Fields) : Statement (.addOc c) := statement_of_row (row := 168) (by simp [rowMatch]) rfl (by decide)
theorem subOc (c : Fields) : Statement (.subOc c) := statement_of_row (row := 169) (by simp [rowMatch]) rfl (by decide)
theorem mulOc (c : Fields) : Statement (.mulOc c) := statement_of_row (row := 170) (by simp [rowMatch]) rfl (by decide)
theorem divOc (c : Fields) : Statement (.divOc c) := statement_of_row (row := 171) (by simp [rowMatch]) rfl (by decide)
theorem sqrt (c : Fields) : Statement (.sqrt c) := statement_of_row (row := 176) (by simp [rowMatch]) rfl (by decide)
theorem absolute (c : Fields) : Statement (.absolute c) := statement_of_row (row := 192) (by simp [rowMatch]) rfl (by decide)
theorem shiftAdd (c : Fields) : Statement (.shiftAdd c) := statement_of_row (row := 193) (by simp [rowMatch]) rfl (by decide)
theorem moveHi32 (c : Fields) : Statement (.moveHi32 c) := statement_of_row (row := 256) (by simp [rowMatch]) rfl (by decide)
theorem insertHi32 (c : Fields) : Statement (.insertHi32 c) := statement_of_row (row := 257) (by simp [rowMatch]) rfl (by decide)
theorem add32u (c : Fields) : Statement (.add32u c) := statement_of_row (row := 258) (by simp [rowMatch]) rfl (by decide)
theorem sub32u (c : Fields) : Statement (.sub32u c) := statement_of_row (row := 259) (by simp [rowMatch]) rfl (by decide)
theorem addHi32 (c : Fields) : Statement (.addHi32 c) := statement_of_row (row := 260) (by simp [rowMatch]) rfl (by decide)
theorem andHi32 (c : Fields) : Statement (.andHi32 c) := statement_of_row (row := 261) (by simp [rowMatch]) rfl (by decide)
theorem orHi32 (c : Fields) : Statement (.orHi32 c) := statement_of_row (row := 262) (by simp [rowMatch]) rfl (by decide)
theorem xorHi32 (c : Fields) : Statement (.xorHi32 c) := statement_of_row (row := 263) (by simp [rowMatch]) rfl (by decide)
theorem replaceBits (c : Fields) : Statement (.replaceBits c) := statement_of_row (row := 264) (by simp [rowMatch]) rfl (by decide)
theorem addressForm (c : Fields) : Statement (.addressForm c) := statement_of_row (row := 265) (by simp [rowMatch]) rfl (by decide)

end Sys2Proof.Laws.OpcodeRow
end

