-- ==== Sys2Proof/Tests/Slice0.lean ====
section
/-! SUPPORT. The model's own tests: the checks of `WellFormed`, one written-out word per constructor for the decoder, vectors
of `95_test_vectors.md` for every instruction (one step each), and for every statement that has hypotheses a state and operands
that meet them. -/

-- One theorem at a time: many kernel evaluations at once exhaust the memory for threads.
set_option Elab.async false

namespace Sys2Proof.Tests

open Sys2Proof Sys2Proof.Machine

/-! ## Small states -/

/-- Registers, vector registers and `numContr` set, as the host sets them before a run (R102). -/
def start (xs : List (RegIx × Word)) (vs : List (RegIx × List Byte)) (numContr : Word := 0) (cfg : Config := Config.default) :
    State :=
  vs.foldl (fun s p => s.setVec p.1 p.2)
    (xs.foldl (fun s p => s.setGpr p.1 p.2) { State.resetWith cfg with numContr := numContr })

/-- One step that fetches the command word `w`. -/
def run (w : Nat) (s : State) : StepOutcome := step (s.withFetchWord 64 w)

/-- A field of the next state; nothing where there is none. -/
def after (f : State → α) : StepOutcome → Option α
  | .next t => some (f t)
  | .fault _ => none
  | .refused _ => none

def gprAfter (r : RegIx) : StepOutcome → Option Word := after fun t => t.gpr r
/-- The bytes of `v[r]` up to its length. -/
def vecAfter (r : RegIx) : StepOutcome → Option (List Byte) := after fun t => t.vbytes r (t.len r)
def raisedAfter : StepOutcome → Option (List (IntKind × Nat)) := after (·.intRaised)

/-! ## The checks of WellFormed refuse an ill-formed term each -/

/-- R241: `add_ss` supports operand types 0 to 3. -/
theorem test_wf_refuses_unsupported_type : (Instr.addSs ⟨.f32, 1, 2, 3, none, 0⟩).typeOk = false := by decide
/-- R111: the bit scans do not support operand type 4. -/
theorem test_wf_refuses_i128_bitscan : (Instr.bitscanForward ⟨.i128, 1, 0, 2, none, 0⟩).wf = false := by decide
/-- R118: `imm[1:0] = 3`. -/
theorem test_wf_refuses_absolute_policy_3 : (Instr.absolute ⟨.i8, 1, 0, 2, none, 7⟩).immOk = false := by decide
/-- R140: `count = 33`. -/
theorem test_wf_refuses_replace_bits_count : (Instr.replaceBits ⟨.i64, 1, 0, 2, none, 0x21000000⟩).immOk = false := by decide
/-- R140: `start = 33`, `count = 32`. -/
theorem test_wf_refuses_replace_bits_window : (Instr.replaceBits ⟨.i64, 1, 0, 2, none, 0x20210000⟩).immOk = false := by decide
/-- R170, R171: a mask register is required. -/
theorem test_wf_refuses_sparse_without_mask : (Instr.compressSparse ⟨.i16, 4, 1, 2, none, 0⟩).maskOk = false
    ∧ (Instr.expandSparse ⟨.i16, 4, 1, 2, none, 0⟩).maskOk = false := by decide
/-- R140: `start = 32`, `count = 32` fits. -/
theorem test_wf_accepts_replace_bits_at_the_top : (Instr.replaceBits ⟨.i64, 1, 0, 2, none, 0x2020FFFF⟩).wf = true := by decide

/-! ## Decoding: a word for every constructor

The words of 95_test_vectors.md Part 2 are marked; the others are laid out from R70 and R74: `tab` in bits 63 to 61, `op` 60 to
55, `ot` 54 to 52, `rd` 51 to 47, `rs` 46 to 42, `rt` 41 to 37, `rm` 36 to 34, `imm` 31 to 0. -/

/-- Part 2. R111. -/
theorem test_decode_bitscanForward : decode 0x0020805C00000000 = .ok (.bitscanForward ⟨.i32, 1, 0, 2, none, 0⟩) := rfl
/-- R112. -/
theorem test_decode_bitscanReverse : decode 0x0094823C00000000 = .ok (.bitscanReverse ⟨.i16, 9, 0, 17, none, 0⟩) := rfl
/-- R113. -/
theorem test_decode_roundDownPow2 : decode 0x010F961C00000000 = .ok (.roundDownPow2 ⟨.i8, 31, 5, 16, none, 0⟩) := rfl
/-- Part 2. R114. -/
theorem test_decode_roundUpPow2 : decode 0x01B1003C00000000 = .ok (.roundUpPow2 ⟨.i64, 2, 0, 1, none, 0⟩) := rfl
/-- Part 2. R151. -/
theorem test_decode_setLen : decode 0x4031845C00000000 = .ok (.setLen ⟨.i64, 3, 1, 2, none, 0⟩) := rfl
/-- R153. -/
theorem test_decode_getLen : decode 0x40B2007C00000000 = .ok (.getLen ⟨.i64, 4, 0, 3, none, 0⟩) := rfl
/-- R152. -/
theorem test_decode_setNum : decode 0x4121845C00000000 = .ok (.setNum ⟨.i32, 3, 1, 2, none, 0⟩) := rfl
/-- Part 2. R154. -/
theorem test_decode_getNum : decode 0x4192005C00000000 = .ok (.getNum ⟨.i16, 4, 0, 2, none, 0⟩) := rfl
/-- Part 2. R164. -/
theorem test_decode_compress : decode 0x4211042C00000000 = .ok (.compress ⟨.i16, 2, 1, 1, some 3, 0⟩) := rfl
/-- R165. -/
theorem test_decode_compressSs : decode 0x42C1043400000000 = .ok (.compressSs ⟨.i128, 2, 1, 1, some 5, 0⟩) := rfl
/-- Part 2. R166. -/
theorem test_decode_compressUs : decode 0x4311043C00000000 = .ok (.compressUs ⟨.i16, 2, 1, 1, none, 0⟩) := rfl
/-- R168. -/
theorem test_decode_expandU : decode 0x4451043C00000000 = .ok (.expandU ⟨.f32, 2, 1, 1, none, 0⟩) := rfl
/-- Part 2. R169. -/
theorem test_decode_expandS : decode 0x4491043C00000000 = .ok (.expandS ⟨.i16, 2, 1, 1, none, 0⟩) := rfl
/-- Part 2. R170. -/
theorem test_decode_compressSparse : decode 0x4512044C00000000 = .ok (.compressSparse ⟨.i16, 4, 1, 2, some 3, 0⟩) := rfl
/-- R171. -/
theorem test_decode_expandSparse : decode 0x4592848C00000000 = .ok (.expandSparse ⟨.i16, 5, 1, 4, some 3, 0⟩) := rfl
/-- Part 2. R181. -/
theorem test_decode_extract : decode 0x4633047C00000000 = .ok (.extract ⟨.i64, 6, 1, 3, none, 0⟩) := rfl
/-- R183. -/
theorem test_decode_insert : decode 0x4690887C00000000 = .ok (.insert ⟨.i16, 1, 2, 3, none, 0⟩) := rfl
/-- Part 2. R184. -/
theorem test_decode_broadcast : decode 0x4720887C00000000 = .ok (.broadcast ⟨.i32, 1, 2, 3, none, 0⟩) := rfl
/-- Part 2. R191. -/
theorem test_decode_bits2bool : decode 0x4810886000000000 = .ok (.bits2bool ⟨.i16, 1, 2, 3, some 0, 0⟩) := rfl
/-- R195. -/
theorem test_decode_bool2bits : decode 0x4880887C00000000 = .ok (.bool2bits ⟨.i8, 1, 2, 3, none, 0⟩) := rfl
/-- Part 2. R200. -/
theorem test_decode_boolReduce : decode 0x4900887C00000000 = .ok (.boolReduce ⟨.i8, 1, 2, 3, none, 0⟩) := rfl
/-- Part 2. R202. -/
theorem test_decode_categoryReduce : decode 0x49D0887C00000000 = .ok (.categoryReduce ⟨.f32, 1, 2, 3, none, 0⟩) := rfl
/-- R211. -/
theorem test_decode_shiftExpand : decode 0x4A44431C00000000 = .ok (.shiftExpand ⟨.i128, 8, 16, 24, none, 0⟩) := rfl
/-- R212. -/
theorem test_decode_shiftReduce : decode 0x4AE0887C00000000 = .ok (.shiftReduce ⟨.f64, 1, 2, 3, none, 0⟩) := rfl
/-- Part 2. R213. -/
theorem test_decode_shiftUp : decode 0x4B30887C00000000 = .ok (.shiftUp ⟨.i64, 1, 2, 3, none, 0⟩) := rfl
/-- R214. -/
theorem test_decode_shiftDown : decode 0x4BB0887C00000000 = .ok (.shiftDown ⟨.i64, 1, 2, 3, none, 0⟩) := rfl
/-- Part 2. R215. -/
theorem test_decode_rotateUp : decode 0x4C10887C00000000 = .ok (.rotateUp ⟨.i16, 1, 2, 3, none, 0⟩) := rfl
/-- Part 2. R216. -/
theorem test_decode_rotateDown : decode 0x4C90887C00000000 = .ok (.rotateDown ⟨.i16, 1, 2, 3, none, 0⟩) := rfl
/-- Part 2. R221. -/
theorem test_decode_addCarry : decode 0x4E31845C00000000 = .ok (.addCarry ⟨.i64, 3, 1, 2, none, 0⟩) := rfl
/-- Part 2. R222. -/
theorem test_decode_subBorrow : decode 0x4E81845C00000000 = .ok (.subBorrow ⟨.i8, 3, 1, 2, none, 0⟩) := rfl
/-- Part 2. R226. -/
theorem test_decode_divEx : decode 0x4F01845C00000000 = .ok (.divEx ⟨.i8, 3, 1, 2, none, 0⟩) := rfl
/-- Part 2. R227. -/
theorem test_decode_divExU : decode 0x4F81845C00000000 = .ok (.divExU ⟨.i8, 3, 1, 2, none, 0⟩) := rfl
/-- Part 2. R241. -/
theorem test_decode_addSs : decode 0x5000887C00000000 = .ok (.addSs ⟨.i8, 1, 2, 3, none, 0⟩) := rfl
/-- R242. -/
theorem test_decode_subSs : decode 0x5090887C00000000 = .ok (.subSs ⟨.i16, 1, 2, 3, none, 0⟩) := rfl
/-- R243. -/
theorem test_decode_addUs : decode 0x5120887C00000000 = .ok (.addUs ⟨.i32, 1, 2, 3, none, 0⟩) := rfl
/-- R244. -/
theorem test_decode_subUs : decode 0x51B0887C00000000 = .ok (.subUs ⟨.i64, 1, 2, 3, none, 0⟩) := rfl
/-- R245. -/
theorem test_decode_mulSs : decode 0x5230887C00000000 = .ok (.mulSs ⟨.i64, 1, 2, 3, none, 0⟩) := rfl
/-- Part 2. R246. -/
theorem test_decode_mulUs : decode 0x52AFFBBC00000000 = .ok (.mulUs ⟨.i32, 31, 30, 29, none, 0⟩) := rfl
/-- Part 2. R251. -/
theorem test_decode_addOc : decode 0x5401845C00000000 = .ok (.addOc ⟨.i8, 3, 1, 2, none, 0⟩) := rfl
/-- R252. -/
theorem test_decode_subOc : decode 0x54A1845C00000000 = .ok (.subOc ⟨.i32, 3, 1, 2, none, 0⟩) := rfl
/-- R253. -/
theorem test_decode_mulOc : decode 0x5531845C00000000 = .ok (.mulOc ⟨.i64, 3, 1, 2, none, 0⟩) := rfl
/-- Part 2. R254. -/
theorem test_decode_divOc : decode 0x5591845C00000000 = .ok (.divOc ⟨.i16, 3, 1, 2, none, 0⟩) := rfl
/-- Part 2. R271. -/
theorem test_decode_sqrt : decode 0x5860805800000000 = .ok (.sqrt ⟨.f64, 1, 0, 2, some 6, 0⟩) := rfl
/-- Part 2. R118. -/
theorem test_decode_absolute : decode 0x6003809C00000005 = .ok (.absolute ⟨.i8, 7, 0, 4, none, 0x00000005⟩) := rfl
/-- Part 2. R120. -/
theorem test_decode_shiftAdd : decode 0x6081845C00000002 = .ok (.shiftAdd ⟨.i8, 3, 1, 2, none, 0x00000002⟩) := rfl
/-- Part 2. R131. -/
theorem test_decode_moveHi32 : decode 0x8030801C12345678 = .ok (.moveHi32 ⟨.i64, 1, 0, 0, none, 0x12345678⟩) := rfl
/-- R132. -/
theorem test_decode_insertHi32 : decode 0x80B0805C12345678 = .ok (.insertHi32 ⟨.i64, 1, 0, 2, none, 0x12345678⟩) := rfl
/-- R133. -/
theorem test_decode_add32u : decode 0x8130805CFFFFFFFF = .ok (.add32u ⟨.i64, 1, 0, 2, none, 0xFFFFFFFF⟩) := rfl
/-- R134. -/
theorem test_decode_sub32u : decode 0x81B0805C00000001 = .ok (.sub32u ⟨.i64, 1, 0, 2, none, 0x00000001⟩) := rfl
/-- R135. -/
theorem test_decode_addHi32 : decode 0x8230805C80000000 = .ok (.addHi32 ⟨.i64, 1, 0, 2, none, 0x80000000⟩) := rfl
/-- R136. -/
theorem test_decode_andHi32 : decode 0x828F003C0F0F0F0F = .ok (.andHi32 ⟨.i8, 30, 0, 1, none, 0x0F0F0F0F⟩) := rfl
/-- R137. -/
theorem test_decode_orHi32 : decode 0x8330805C80000000 = .ok (.orHi32 ⟨.i64, 1, 0, 2, none, 0x80000000⟩) := rfl
/-- R138. -/
theorem test_decode_xorHi32 : decode 0x83B0805CFFFFFFFF = .ok (.xorHi32 ⟨.i64, 1, 0, 2, none, 0xFFFFFFFF⟩) := rfl
/-- Part 2. R140. -/
theorem test_decode_replaceBits : decode 0x843300BC081000A5 = .ok (.replaceBits ⟨.i64, 6, 0, 5, none, 0x081000A5⟩) := rfl
/-- Part 2. R141. -/
theorem test_decode_addressForm : decode 0x84B1003CFFFFFFF0 = .ok (.addressForm ⟨.i64, 2, 0, 1, none, 0xFFFFFFF0⟩) := rfl

/-! Illegal command words (95_test_vectors.md Part 2). -/

theorem test_decode_table_1 : decode 0x2030805C00000000 = .error .nullSlot := rfl
theorem test_decode_table_5 : decode 0xA030001C00000000 = .error .reservedTable := rfl
theorem test_decode_null_slot : decode 0x4380887C00000000 = .error .nullSlot := rfl
theorem test_decode_null_slot_table_0 : decode 0x0230805C00000000 = .error .nullSlot := rfl
theorem test_decode_zero_field : decode 0x5000887D00000000 = .error .nonzeroReservedField := rfl
theorem test_decode_type_7 : decode 0x5070887C00000000 = .error .reservedOperandType := rfl
/-- An illegal word raises and writes nothing (R76). -/
theorem test_step_illegal_word : raisedAfter (run 0x4380887C00000000 (start [] [])) = some [(.instIllegal, 0)]
    ∧ vecAfter 1 (run 0x4380887C00000000 (start [] [(1, [5])])) = some [5] := by decide +kernel
/-- `compress_sparse` without a mask register (Part 2; R170). -/
theorem test_step_sparse_without_mask :
    raisedAfter (run 0x4512045C00000000 (start [(1, 8)] [])) = some [(.instIllegal, 0)] := by decide +kernel

/-! ## One step of every instruction

The expected values are those of the spec's examples; each comment names where. -/

/-- E1. -/
theorem test_bitscan_forward_zero :
    gprAfter 1 (run 0x0020805C00000000 (start [(2, 0x0)] [])) = some 0xFFFFFFFFFFFFFFFF := by decide +kernel
/-- Part 3, R111. -/
theorem test_bitscan_forward :
    gprAfter 3 (run 0x0001845C00000000 (start [(2, 0x50)] [])) = some 0x4 := by decide +kernel
/-- Part 3, R112. -/
theorem test_bitscan_reverse :
    gprAfter 3 (run 0x0081845C00000000 (start [(2, 0x50)] [])) = some 0x6 := by decide +kernel
/-- Part 3, R112. -/
theorem test_bitscan_reverse_masks :
    gprAfter 3 (run 0x00A1845C00000000 (start [(2, 0x100000001)] [])) = some 0x0 := by decide +kernel
/-- Part 3, R113. -/
theorem test_round_down_pow2 :
    gprAfter 3 (run 0x0101845C00000000 (start [(2, 0xFF)] [])) = some 0x80 := by decide +kernel
/-- E2. -/
theorem test_round_up_pow2_overflow :
    let s := start [(1, 0x8000000000000001)] [] 0x2
    gprAfter 2 (run 0x01B1003C00000000 s) = some 0xFFFFFFFFFFFFFFFF ∧ raisedAfter (run 0x01B1003C00000000 s) = some [(.overflUnsign, 0)] := by decide +kernel
/-- Part 3, R114. -/
theorem test_round_up_pow2_both_enabled :
    let s := start [(2, 0x81)] [] 0x6
    gprAfter 3 (run 0x0181845C00000000 s) = some 0xFFFFFFFFFFFFFFFF ∧ raisedAfter (run 0x0181845C00000000 s) = some [(.overflSign, 0)] := by decide +kernel
/-- Part 3, R118: imm = 5. -/
theorem test_absolute_saturates :
    let s := start [(2, 0x80)] []
    gprAfter 3 (run 0x6001845C00000005 s) = some 0x7F ∧ raisedAfter (run 0x6001845C00000005 s) = some [(.overflSign, 0)] := by decide +kernel
/-- Part 3, R118. -/
theorem test_absolute :
    gprAfter 3 (run 0x6001845C00000000 (start [(2, 0xFB)] [])) = some 0x5 := by decide +kernel
/-- Part 3, R120. -/
theorem test_shift_add_loss :
    let s := start [(2, 0x10)] [] 0x6
    gprAfter 3 (run 0x6081845C00000004 s) = some 0x0 ∧ raisedAfter (run 0x6081845C00000004 s) = some [(.overflSign, 0), (.overflUnsign, 0)] := by decide +kernel
/-- Part 3, R120. -/
theorem test_shift_add_wide_shift :
    gprAfter 3 (run 0x6081845C00000008 (start [(1, 0x5), (2, 0xFF)] [])) = some 0x5 := by decide +kernel
/-- Part 3, R131. -/
theorem test_move_hi32 :
    gprAfter 3 (run 0x8031845C12345678 (start [(2, 0x0)] [])) = some 0x1234567800000000 := by decide +kernel
/-- Part 3, R132. -/
theorem test_insert_hi32 :
    gprAfter 3 (run 0x80B1845C12345678 (start [(2, 0xAAAABBBBCCCCDDDD)] [])) = some 0x12345678CCCCDDDD := by decide +kernel
/-- Part 3, R133. -/
theorem test_add_32u :
    gprAfter 3 (run 0x8131845CFFFFFFFF (start [(2, 0xFFFFFFFF)] [])) = some 0x1FFFFFFFE := by decide +kernel
/-- Part 3, R134. -/
theorem test_sub_32u :
    gprAfter 3 (run 0x81B1845C00000001 (start [(2, 0x0)] [])) = some 0xFFFFFFFFFFFFFFFF := by decide +kernel
/-- Part 3, R135. -/
theorem test_add_hi32 :
    gprAfter 3 (run 0x8231845CFFFFFFFF (start [(2, 0x100000007)] [])) = some 0x7 := by decide +kernel
/-- Part 3, R136. -/
theorem test_and_hi32 :
    gprAfter 3 (run 0x82B1845C0F0F0F0F (start [(2, 0xFFFFFFFFFFFFFFFF)] [])) = some 0xF0F0F0F00000000 := by decide +kernel
/-- Part 3, R137. -/
theorem test_or_hi32 :
    gprAfter 3 (run 0x8331845C80000000 (start [(2, 0xFF)] [])) = some 0x80000000000000FF := by decide +kernel
/-- Part 3, R138. -/
theorem test_xor_hi32 :
    gprAfter 3 (run 0x83B1845CFFFFFFFF (start [(2, 0xFFFF000012345678)] [])) = some 0xFFFF12345678 := by decide +kernel
/-- Part 3, R140. -/
theorem test_replace_bits :
    gprAfter 3 (run 0x8431845C080800AB (start [(2, 0xDEADBEEF000000C0)] [])) = some 0xDEADBEEF0000ABC0 := by decide +kernel
/-- Part 3, R140: start 64, count 0. -/
theorem test_replace_bits_empty_window :
    gprAfter 3 (run 0x8431845C0040FFFF (start [(2, 0x1)] [])) = some 0x1 := by decide +kernel
/-- Part 3, R141. -/
theorem test_address_form :
    gprAfter 2 (run 0x84B1003CFFFFFFF0 (start [(1, 0x1000)] [])) = some 0xFF0 := by decide +kernel
/-- Part 3, R141: the tag. -/
theorem test_address_form_tag : after (·.returnType) (run 0x84B1003CFFFFFFF0 (start [(1, 0x1000)] [])) = some 0x13 := by
  decide +kernel
/-- Part 3, R151. -/
theorem test_set_len_extends :
    vecAfter 3 (run 0x4031845C00000000 (start [(1, 0x6)] [(2, [0x11, 0x22, 0x33, 0x44])])) = some [0x11, 0x22, 0x33, 0x44, 0x00, 0x00] := by decide +kernel
/-- Part 3, R151. -/
theorem test_set_len_cuts :
    vecAfter 3 (run 0x4031845C00000000 (start [(1, 0x2)] [(2, [0x11, 0x22, 0x33, 0x44])])) = some [0x11, 0x22] := by decide +kernel
/-- Part 3, R152. -/
theorem test_set_num :
    vecAfter 3 (run 0x4121845C00000000 (start [(1, 0x3)] [(2, [0x11, 0x22, 0x33, 0x44])])) = some [0x11, 0x22, 0x33, 0x44, 0x00, 0x00, 0x00, 0x00, 0x00, 0x00, 0x00, 0x00] := by decide +kernel
/-- Part 3, R153. -/
theorem test_get_len :
    gprAfter 4 (run 0x40B2005C00000000 (start [] [(2, [0x11, 0x22, 0x33, 0x44, 0x00, 0x00])])) = some 0x6 := by decide +kernel
/-- Part 3, R154. -/
theorem test_get_num :
    gprAfter 4 (run 0x41A2005C00000000 (start [] [(2, [0x11, 0x22, 0x33, 0x44, 0x00, 0x00])])) = some 0x1 := by decide +kernel
/-- E5. -/
theorem test_compress :
    let s := start [(1, 0x8)] [(2, [0x00, 0x01, 0xFF, 0x00, 0x80, 0xFF, 0x7F, 0x00])] 0x6
    vecAfter 3 (run 0x4211845C00000000 s) = some [0x00, 0xFF, 0x80, 0x7F] ∧ raisedAfter (run 0x4211845C00000000 s) = some [(.overflSign, 0), (.overflUnsign, 0)] := by decide +kernel
/-- Part 3, R164: ot = 0. -/
theorem test_compress_nibbles :
    vecAfter 3 (run 0x4201845C00000000 (start [(1, 0x5)] [(2, [0x01, 0x0F, 0xF8, 0x10, 0x07])])) = some [0xF1, 0x08] := by decide +kernel
/-- E6. -/
theorem test_compress_ss :
    vecAfter 3 (run 0x4291845C00000000 (start [(1, 0x8)] [(2, [0x00, 0x01, 0xFF, 0x00, 0x80, 0xFF, 0x7F, 0x00])])) = some [0x7F, 0x7F, 0x80, 0x7F] := by decide +kernel
/-- Part 3, R165. -/
theorem test_compress_ss_nibbles :
    vecAfter 3 (run 0x4281845C00000000 (start [(1, 0x5)] [(2, [0x01, 0x0F, 0xF8, 0x10, 0x07])])) = some [0x71, 0x78] := by decide +kernel
/-- Part 3, R166. -/
theorem test_compress_us :
    vecAfter 3 (run 0x4311845C00000000 (start [(1, 0x8)] [(2, [0x00, 0x01, 0xFF, 0x00, 0x80, 0xFF, 0x7F, 0x00])])) = some [0xFF, 0xFF, 0x00, 0x7F] := by decide +kernel
/-- Part 3, R166: compressUsSourceSigned = false. -/
theorem test_compress_us_unsigned_source :
    vecAfter 3 (run 0x4311845C00000000 (start [(1, 0x8)] [(2, [0x00, 0x01, 0xFF, 0x00, 0x80, 0xFF, 0x7F, 0x00])] 0x0 { Config.default with compressUsSourceSigned := false })) = some [0xFF, 0xFF, 0xFF, 0x7F] := by decide +kernel
/-- Part 3, R168. -/
theorem test_expand_u :
    vecAfter 3 (run 0x4401845C00000000 (start [(1, 0x4)] [(2, [0x8F, 0x21])])) = some [0x0F, 0x08, 0x01, 0x02] := by decide +kernel
/-- Part 3, R167. -/
theorem test_expand_u_float :
    vecAfter 3 (run 0x4451845C00000000 (start [(1, 0x10)] [(2, [0x00, 0x3C, 0x00, 0xC0, 0x00, 0x7C, 0x01, 0x00])])) = some [0x00, 0x00, 0x80, 0x3F, 0x00, 0x00, 0x00, 0xC0, 0x00, 0x00, 0x80, 0x7F, 0x00, 0x00, 0x80, 0x33] := by decide +kernel
/-- Part 3, R169. -/
theorem test_expand_s :
    vecAfter 3 (run 0x4491845C00000000 (start [(1, 0x8)] [(2, [0x80, 0x7F])])) = some [0x80, 0xFF, 0x7F, 0x00, 0x00, 0x00, 0x00, 0x00] := by decide +kernel
/-- Part 3, R170. -/
theorem test_compress_sparse :
    vecAfter 3 (run 0x4511845000000000 (start [(1, 0x8)] [(2, [0x11, 0x11, 0x22, 0x22, 0x33, 0x33, 0x44, 0x44]), (4, [0x01, 0x00, 0x00, 0x00, 0x01, 0x00, 0x01, 0x00])])) = some [0x11, 0x11, 0x33, 0x33, 0x44, 0x44] := by decide +kernel
/-- Part 3, R171. -/
theorem test_expand_sparse :
    vecAfter 3 (run 0x4591845000000000 (start [(1, 0x8)] [(2, [0x11, 0x11, 0x33, 0x33, 0x44, 0x44]), (4, [0x01, 0x00, 0x00, 0x00, 0x01, 0x00, 0x01, 0x00])])) = some [0x11, 0x11, 0x00, 0x00, 0x33, 0x33, 0x44, 0x44] := by decide +kernel
/-- Part 3, R181. -/
theorem test_extract :
    vecAfter 3 (run 0x4611845C00000000 (start [(1, 0x2)] [(2, [0x11, 0x11, 0x22, 0x22, 0x33, 0x33])])) = some [0x33, 0x33] := by decide +kernel
/-- Part 3, R181. -/
theorem test_extract_i128 :
    vecAfter 3 (run 0x4641845C00000000 (start [(1, 0x1)] [(2, [0x00, 0x01, 0x02, 0x03, 0x04, 0x05, 0x06, 0x07, 0x08, 0x09, 0x0A, 0x0B, 0x0C, 0x0D, 0x0E, 0x0F, 0x10, 0x11, 0x12, 0x13, 0x14, 0x15, 0x16, 0x17, 0x18, 0x19, 0x1A, 0x1B, 0x1C, 0x1D, 0x1E, 0x1F])])) = some [0x10, 0x11, 0x12, 0x13, 0x14, 0x15, 0x16, 0x17, 0x18, 0x19, 0x1A, 0x1B, 0x1C, 0x1D, 0x1E, 0x1F] := by decide +kernel
/-- Part 3, R183. -/
theorem test_insert :
    vecAfter 1 (run 0x4690887C00000000 (start [(2, 0x1)] [(1, [0x11, 0x11, 0x22, 0x22, 0x33, 0x33]), (3, [0xAA, 0xAA, 0xBB, 0xBB])])) = some [0x11, 0x11, 0xAA, 0xAA, 0x33, 0x33] := by decide +kernel
/-- Part 3, R184. -/
theorem test_broadcast :
    vecAfter 3 (run 0x4721845C00000000 (start [(1, 0xC)] [(2, [0xEF, 0xBE, 0xAD, 0xDE, 0x01, 0x00, 0x00, 0x00])])) = some [0xEF, 0xBE, 0xAD, 0xDE, 0xEF, 0xBE, 0xAD, 0xDE, 0xEF, 0xBE, 0xAD, 0xDE] := by decide +kernel
/-- Part 3, R191: mask lane 7. -/
theorem test_bits2bool_options :
    vecAfter 3 (run 0x4811845000000000 (start [(1, 0x8)] [(2, [0x05]), (4, [0x07, 0x00])])) = some [0x07, 0x00, 0x06, 0x00, 0x07, 0x00, 0x06, 0x00] := by decide +kernel
/-- Part 3, R191. -/
theorem test_bits2bool_tail :
    vecAfter 3 (run 0x4811845C00000000 (start [(1, 0x7)] [(2, [0x05])])) = some [0x01, 0x00, 0x00, 0x00, 0x01, 0x00, 0x00] := by decide +kernel
/-- Part 3, R195. -/
theorem test_bool2bits :
    vecAfter 3 (run 0x4891845C00000000 (start [(1, 0x8)] [(2, [0x01, 0x00, 0x00, 0x00, 0x07, 0x00, 0x06, 0x00])])) = some [0x05, 0x00, 0x00, 0x00] := by decide +kernel
/-- Part 3, R200. -/
theorem test_bool_reduce :
    vecAfter 3 (run 0x4901845C00000000 (start [(1, 0x3)] [(2, [0x01, 0x03, 0x05])])) = some [0x03, 0x00, 0x00, 0x00, 0x00, 0x00, 0x00, 0x00] := by decide +kernel
/-- Part 3, R200. -/
theorem test_bool_reduce_past_the_end :
    vecAfter 3 (run 0x4901845C00000000 (start [(1, 0x4)] [(2, [0x01, 0x03, 0x05])])) = some [0x02, 0x00, 0x00, 0x00, 0x00, 0x00, 0x00, 0x00] := by decide +kernel
/-- E8. -/
theorem test_category_reduce :
    vecAfter 3 (run 0x49D1845C00000000 (start [(1, 0x10)] [(2, [0x00, 0x00, 0xC0, 0x7F, 0x00, 0x00, 0x00, 0x00, 0x00, 0x00, 0x80, 0xFF, 0x00, 0x00, 0xC0, 0x3F])])) = some [0x63, 0x00, 0x00, 0x00, 0x00, 0x00, 0x00, 0x00] := by decide +kernel
/-- Part 3, R202. -/
theorem test_category_reduce_f64 :
    vecAfter 3 (run 0x49E1845C00000000 (start [(1, 0x18)] [(2, [0x01, 0x00, 0x00, 0x00, 0x00, 0x00, 0x00, 0x00, 0x00, 0x00, 0x00, 0x00, 0x00, 0x00, 0x10, 0x80, 0x00, 0x00, 0x00, 0x00, 0x00, 0x00, 0xF0, 0x7F])])) = some [0x98, 0x00, 0x00, 0x00, 0x00, 0x00, 0x00, 0x00] := by decide +kernel
/-- Part 3, R211. -/
theorem test_shift_expand :
    vecAfter 3 (run 0x4A31845C00000000 (start [(1, 0x2)] [(2, [0x11, 0x22, 0x33])])) = some [0x00, 0x00, 0x11, 0x22, 0x33] := by decide +kernel
/-- Part 3, R212. -/
theorem test_shift_reduce :
    vecAfter 3 (run 0x4AB1845C00000000 (start [(1, 0x2)] [(2, [0x11, 0x22, 0x33, 0x44, 0x55])])) = some [0x33, 0x44, 0x55] := by decide +kernel
/-- Part 3, R213. -/
theorem test_shift_up :
    vecAfter 3 (run 0x4B31845C00000000 (start [(1, 0x1)] [(2, [0x11, 0x22, 0x33, 0x44])])) = some [0x00, 0x11, 0x22, 0x33] := by decide +kernel
/-- Part 3, R214. -/
theorem test_shift_down :
    vecAfter 3 (run 0x4BB1845C00000000 (start [(1, 0x1)] [(2, [0x11, 0x22, 0x33, 0x44])])) = some [0x22, 0x33, 0x44, 0x00] := by decide +kernel
/-- Part 3, R215: longer than the source. -/
theorem test_rotate_up :
    vecAfter 3 (run 0x4C11845C00000000 (start [(1, 0x8)] [(2, [0x11, 0x11, 0x22, 0x22, 0x33, 0x33])])) = some [0x00, 0x00, 0x11, 0x11, 0x22, 0x22, 0x33, 0x33] := by decide +kernel
/-- Part 3, R216. -/
theorem test_rotate_down :
    vecAfter 3 (run 0x4C91845C00000000 (start [(1, 0x6)] [(2, [0x11, 0x11, 0x22, 0x22, 0x33, 0x33])])) = some [0x22, 0x22, 0x33, 0x33, 0x11, 0x11] := by decide +kernel
/-- E7, step 1. -/
theorem test_add_carry :
    vecAfter 3 (run 0x4E31845C00000000 (start [] [(1, [0xFF, 0xFF, 0xFF, 0xFF, 0xFF, 0xFF, 0xFF, 0xFF, 0x00, 0x00, 0x00, 0x00, 0x00, 0x00, 0x00, 0x00]), (2, [0x01, 0x00, 0x00, 0x00, 0x00, 0x00, 0x00, 0x00, 0x00, 0x00, 0x00, 0x00, 0x00, 0x00, 0x00, 0x00])])) = some [0x00, 0x00, 0x00, 0x00, 0x00, 0x00, 0x00, 0x00, 0x01, 0x00, 0x00, 0x00, 0x00, 0x00, 0x00, 0x00] := by decide +kernel
/-- Part 3, R220. -/
theorem test_add_carry_pairs :
    vecAfter 3 (run 0x4E01845C00000000 (start [] [(1, [0xFF, 0x00, 0xFF, 0x01]), (2, [0x01, 0x00, 0x00, 0x00])])) = some [0x00, 0x01, 0x00, 0x01] := by decide +kernel
/-- Part 3, R222. -/
theorem test_sub_borrow :
    vecAfter 3 (run 0x4E81845C00000000 (start [] [(1, [0x00, 0x01]), (2, [0xFF, 0x00])])) = some [0x00, 0x01] := by decide +kernel
/-- Part 3, R222. -/
theorem test_sub_borrow_equal :
    vecAfter 3 (run 0x4E81845C00000000 (start [] [(1, [0x05, 0x01]), (2, [0x05, 0x00])])) = some [0xFF, 0x01] := by decide +kernel
/-- Part 3, R226: -1000 / 9. -/
theorem test_div_ex :
    vecAfter 3 (run 0x4F01845C00000000 (start [] [(1, [0x18, 0xFC]), (2, [0x09, 0x00])])) = some [0x91, 0xFF] := by decide +kernel
/-- Part 3, R226: -16384 / -128. -/
theorem test_div_ex_overflow :
    let s := start [] [(1, [0x00, 0xC0]), (2, [0x80, 0x00])] 0x4
    vecAfter 3 (run 0x4F01845C00000000 s) = some [0x80, 0x00] ∧ raisedAfter (run 0x4F01845C00000000 s) = some [(.overflSign, 0)] := by decide +kernel
/-- Part 3, R227. -/
theorem test_div_ex_u :
    vecAfter 3 (run 0x4F81845C00000000 (start [] [(1, [0xFF, 0xFE]), (2, [0xFF, 0x00])])) = some [0xFF, 0xFE] := by decide +kernel
/-- Part 3, R227. -/
theorem test_div_ex_u_overflow :
    let s := start [] [(1, [0x34, 0x20]), (2, [0x20, 0x00])] 0x2
    vecAfter 3 (run 0x4F81845C00000000 s) = some [0xFF, 0x00] ∧ raisedAfter (run 0x4F81845C00000000 s) = some [(.overflUnsign, 0)] := by decide +kernel
/-- E3. -/
theorem test_add_ss :
    vecAfter 3 (run 0x5001845C00000000 (start [] [(1, [0x7F]), (2, [0x01])])) = some [0x7F] := by decide +kernel
/-- Part 3: the length is that of v[rs]. -/
theorem test_add_ss_length :
    vecAfter 3 (run 0x5001845C00000000 (start [] [(1, [0x7F, 0x7F]), (2, [0x01])])) = some [0x7F, 0x7F] := by decide +kernel
/-- Part 3, R242. -/
theorem test_sub_ss :
    vecAfter 3 (run 0x5081845C00000000 (start [] [(1, [0x00]), (2, [0x80])])) = some [0x7F] := by decide +kernel
/-- Part 3, R243. -/
theorem test_add_us :
    vecAfter 3 (run 0x5101845C00000000 (start [] [(1, [0xF0]), (2, [0x20])])) = some [0xFF] := by decide +kernel
/-- E4. -/
theorem test_sub_us :
    vecAfter 3 (run 0x5181845C00000000 (start [] [(1, [0x03]), (2, [0x05])])) = some [0x00] := by decide +kernel
/-- Part 3, R245. -/
theorem test_mul_ss :
    vecAfter 3 (run 0x5201845C00000000 (start [] [(1, [0xF5]), (2, [0x0C])])) = some [0x80] := by decide +kernel
/-- Part 3, R245, R247. -/
theorem test_mul_ss_i64_exact :
    vecAfter 3 (run 0x5231845C00000000 (start [] [(1, [0x33, 0xF3, 0x04, 0xB5, 0x00, 0x00, 0x00, 0x00]), (2, [0x33, 0xF3, 0x04, 0xB5, 0x00, 0x00, 0x00, 0x00])])) = some [0x29, 0xDC, 0xA1, 0x9E, 0xFE, 0xFF, 0xFF, 0x7F] := by decide +kernel
/-- Part 3, R246. -/
theorem test_mul_us :
    vecAfter 3 (run 0x5281845C00000000 (start [] [(1, [0x0F]), (2, [0x11])])) = some [0xFF] := by decide +kernel
/-- Part 3, R246, R247. -/
theorem test_mul_us_i64 :
    vecAfter 3 (run 0x52B1845C00000000 (start [] [(1, [0x00, 0x00, 0x00, 0x00, 0x01, 0x00, 0x00, 0x00]), (2, [0x00, 0x00, 0x00, 0x00, 0x01, 0x00, 0x00, 0x00])])) = some [0xFF, 0xFF, 0xFF, 0xFF, 0xFF, 0xFF, 0xFF, 0xFF] := by decide +kernel
/-- Part 3, R250, R251. -/
theorem test_add_oc :
    vecAfter 3 (run 0x5401845C00000000 (start [] [(1, [0xFF, 0x00, 0x7F, 0x02]), (2, [0x01, 0x00, 0x01, 0x00])])) = some [0x00, 0x01, 0x80, 0x02] := by decide +kernel
/-- Part 3, R252. -/
theorem test_sub_oc :
    vecAfter 3 (run 0x5481845C00000000 (start [] [(1, [0x7F, 0x00]), (2, [0xFF, 0x00])])) = some [0x80, 0x03] := by decide +kernel
/-- Part 3, R253. -/
theorem test_mul_oc :
    vecAfter 3 (run 0x5501845C00000000 (start [] [(1, [0x80, 0x00]), (2, [0xFF, 0x00])])) = some [0x80, 0x03] := by decide +kernel
/-- Part 3, R254. -/
theorem test_div_oc :
    vecAfter 3 (run 0x5581845C00000000 (start [] [(1, [0x07, 0x00]), (2, [0xFE, 0x00])])) = some [0xFD, 0x00] := by decide +kernel
/-- Part 3, R254. -/
theorem test_div_oc_corner :
    vecAfter 3 (run 0x5581845C00000000 (start [] [(1, [0x80, 0x00]), (2, [0xFF, 0x00])])) = some [0x80, 0x02] := by decide +kernel
/-- Part 3, R273. -/
theorem test_sqrt_i16 :
    let s := start [] [(2, [0x10, 0x00, 0x11, 0x00, 0xFF, 0xFF])] 0x6
    vecAfter 3 (run 0x5811845C00000000 s) = some [0x04, 0x00, 0x04, 0x00, 0x00, 0x00] ∧ raisedAfter (run 0x5811845C00000000 s) = some [(.overflSign, 0)] := by decide +kernel
/-- Part 3, R274. -/
theorem test_sqrt_f32 :
    vecAfter 3 (run 0x5851845C00000000 (start [] [(2, [0x00, 0x00, 0x00, 0x40, 0x00, 0x00, 0x00, 0x80, 0x00, 0x00, 0x80, 0x7F])])) = some [0xF3, 0x04, 0xB5, 0x3F, 0x00, 0x00, 0x00, 0x80, 0x00, 0x00, 0x80, 0x7F] := by decide +kernel

/-! ## Witnesses: for each statement with hypotheses, a state and operands that meet them

Each theorem names the statement; where a statement has several clauses, each clause has its part, at a boundary value. -/

/-- A state with registers, vector registers and a command list, ready to step: `v1` and `v2` hold 16 bytes each. -/
def busy : State :=
  { start [(1, 8), (2, 0x80), (5, 3)]
      [(1, [0x00, 0x01, 0xFF, 0x00, 0x80, 0xFF, 0x7F, 0x00, 0, 0, 0, 0, 0, 0, 0, 0x80]),
       (2, [0x05, 0x00, 0x00, 0x00, 0, 0, 0, 0, 0, 0, 0, 0, 0, 0, 0, 0x40]), (4, [1, 0, 0, 0, 1, 0, 1, 0])] 6 with
    cmds := [0x4211043C00000000, 0x4380887C00000000] }

/-- `busy` where nothing is committed by a command that raises. -/
def strict : State := { busy with cfg := { busy.cfg with commitOnInterrupt := false } }

/-- A machine of the smallest legal vector length. -/
def smallest : Config := { Config.default with maxVectorLength := 16 }

/-- Operands used below: `rd = 3`, `rs = 1`, `rt = 2`. -/
def ops (ot : OpType) (imm : BitVec 32 := 0) (rm : Option (Fin 7) := none) : Fields := ⟨ot, 3, 1, 2, rm, imm⟩

theorem committed_busy (ks : List IntKind) : Committed busy ks := .inr rfl

theorem lengthsOk_busy : LengthsOk busy := by
  have h : ∀ r : RegIx, busy.len r ≤ busy.cfg.maxVectorLength := by decide +kernel
  exact h

theorem inv_busy : busy.Inv where
  config := by decide +kernel
  store := by decide +kernel
  lengths := lengthsOk_busy
  tail := by decide +kernel
  vect := by decide +kernel
  running := by decide +kernel
  inProgram := by decide +kernel
  precise := by decide +kernel

theorem ready_busy : Ready busy := ⟨by decide +kernel, rfl, by decide +kernel⟩

theorem witness_EncodeOfDecode : decode 0x5000887C00000000 = .ok (.addSs ⟨.i8, 1, 2, 3, none, 0⟩) := rfl

theorem witness_FetchedWordRuns : busy.cfg.wf ∧ busy.intRaised = []
    ∧ ∃ t, exec (.addSs (ops .i8)) (busy.withFetchWord 64 (encode (.addSs (ops .i8))).toNat) = .next t :=
  ⟨by decide +kernel, rfl, _, rfl⟩

theorem witness_StepRunsDecodedInstruction : Ready busy ∧ busy.cmds[busy.pc]? = some 0x4211043C00000000
    ∧ decode 0x4211043C00000000 = .ok (.compress ⟨.i16, 2, 1, 1, none, 0⟩) := ⟨ready_busy, rfl, rfl⟩

theorem witness_StepOnIllegalWord : Ready { busy with pc := 1 } ∧ ({ busy with pc := 1 } : State).cmds[1]? = some 0x4380887C00000000
    ∧ decode 0x4380887C00000000 = .error .nullSlot := ⟨⟨by decide +kernel, rfl, by decide +kernel⟩, rfl, rfl⟩

theorem witness_StepStopsWhereNoStepIsPossible :
    (busy.cfg.wf ∧ ({ busy with intRaised := [(.overflSign, 0)] } : State).intRaised ≠ [])
    ∧ (busy.cfg.wf ∧ busy.intRaised = [] ∧ ({ busy with pc := 2 } : State).pc = busy.cmds.length)
    ∧ (busy.cfg.wf ∧ busy.intRaised = [] ∧ busy.cmds.length < ({ busy with pc := 3 } : State).pc)
    ∧ ¬ ({ Config.default with maxVectorLength := 15 } : Config).wf := by decide +kernel

theorem witness_StepKeepsInvariant : busy.Inv ∧ ∃ t, step busy = .next t := ⟨inv_busy, _, rfl⟩

theorem witness_ResetMeetsInvariant : smallest.wf := by decide

theorem witness_NotWellFormedIsIllegal :
    (Instr.addSs (ops .f32)).wf = false ∧ (Instr.absolute (ops .i8 3)).wf = false
    ∧ (Instr.replaceBits (ops .i64 0x21000000)).wf = false ∧ (Instr.expandSparse (ops .i8)).wf = false
    ∧ ({ busy with cfg := { busy.cfg with divEx64 := .illegal } } : State).cfg.divEx64 = .illegal ∧ (ops .i64).ot = .i64 := by
  decide +kernel

theorem witness_WellFormedCompletes :
    ((Instr.divEx (ops .i64)).wf = true ∧ busy.cfg.divEx64 = .exact) ∧ ((Instr.sqrt (ops .f64)).wf = true ∧ (ops .f64).ot ≠ .i64)
    ∧ ((Instr.addSs (ops .i64)).wf = true ∧ opcodeOf (.addSs (ops .i64)) ≠ (2, 30) ∧ opcodeOf (.addSs (ops .i64)) ≠ (2, 31)) := by
  decide +kernel

theorem witness_RunKeepsConfiguration :
    ∃ t, Sys2Proof.core.run 2 { busy with numContr := 0, cmds := [0x5000887C00000000, 0x5000887C00000000] } = .next t := ⟨_, rfl⟩

theorem witness_InterruptsArePrecise : (∃ t, step busy = .next t) ∧ ∃ t, exec (.compress (ops .i16)) busy = .next t :=
  ⟨⟨_, rfl⟩, _, rfl⟩

theorem witness_NothingCommittedWithoutCommitOnInterrupt : strict.cfg.commitOnInterrupt = false
    ∧ ∃ t, exec (.roundUpPow2 (ops .i8)) { strict with x := strict.x.set 2 0x81 } = .next t ∧ t.intRaised ≠ strict.intRaised := by
  refine ⟨by decide +kernel, _, rfl, by decide +kernel⟩

theorem witness_TrapEnablesChangeNoValue : (∀ c, Instr.compress (ops .i16) ≠ .bits2bool c) ∧ busy.cfg.commitOnInterrupt = true
    ∧ (∃ t, exec (.compress (ops .i16)) busy = .next t) ∧ ∃ u, exec (.compress (ops .i16)) { busy with numContr := 0 } = .next u :=
  ⟨fun _ h => (nomatch h), by decide +kernel, ⟨_, rfl⟩, _, rfl⟩

theorem witness_SilentOperations :
    ((∃ t, exec (.roundDownPow2 (ops .i8)) busy = .next t) ∧ (opcodeOf (.roundDownPow2 (ops .i8))).1 = 0
        ∧ (opcodeOf (.roundDownPow2 (ops .i8))).2 ≤ 2)
    ∧ ((∃ t, exec (.addressForm (ops .i8)) busy = .next t) ∧ (opcodeOf (.addressForm (ops .i8))).1 = 4)
    ∧ ((∃ t, exec (.getNum (ops .i8)) busy = .next t) ∧ (opcodeOf (.getNum (ops .i8))).1 = 2 ∧ (opcodeOf (.getNum (ops .i8))).2 ≤ 3)
    ∧ ((∃ t, exec (.subBorrow (ops .i8)) busy = .next t) ∧ 8 ≤ (opcodeOf (.subBorrow (ops .i8))).2
        ∧ (opcodeOf (.subBorrow (ops .i8))).2 ≤ 29)
    ∧ ((∃ t, exec (.divOc (ops .i8)) busy = .next t) ∧ 40 ≤ (opcodeOf (.divOc (ops .i8))).2 ∧ (opcodeOf (.divOc (ops .i8))).2 ≤ 43)
    ∧ ((∃ t, exec (.mulUs (ops .i8)) busy = .next t) ∧ busy.cfg.satTraps = false ∧ 32 ≤ (opcodeOf (.mulUs (ops .i8))).2
        ∧ (opcodeOf (.mulUs (ops .i8))).2 ≤ 37) :=
  ⟨⟨⟨_, rfl⟩, by decide⟩, ⟨⟨_, rfl⟩, by decide⟩, ⟨⟨_, rfl⟩, by decide⟩, ⟨⟨_, rfl⟩, by decide⟩, ⟨⟨_, rfl⟩, by decide⟩,
    ⟨_, rfl⟩, by decide +kernel⟩

theorem witness_ClassFrames :
    ((∃ t, exec (.getLen (ops .i8)) busy = .next t) ∧ opClass (.getLen (ops .i8)) = .getter)
    ∧ ((∃ t, exec (.addCarry (ops .i8)) busy = .next t) ∧ opClass (.addCarry (ops .i8)) ≠ .scalar
        ∧ opClass (.addCarry (ops .i8)) ≠ .getter ∧ ∀ c, Instr.addCarry (ops .i8) ≠ .addressForm c) :=
  ⟨⟨⟨_, rfl⟩, rfl⟩, ⟨_, rfl⟩, by decide, by decide, fun _ h => nomatch h⟩

/-- In the loop classes one invocation: 16 bytes of `v1` are one pair of 64-bit lanes, `x1 = 8` bytes one lane, and the 16 bytes
of `v1` one lane of 128 bits. `add_ss.i64` is not one of the two divisions that `divEx64 = illegal` forbids. -/
theorem witness_DecoderFillsSlots :
    ((Instr.absolute (ops .i8 2)).wf = true ∧ opClass (.absolute (ops .i8 2)) = .scalar ∧ (ops .i8 2).ot ≠ .i64)
    ∧ ((Instr.getNum (ops .f64)).wf = true ∧ opClass (.getNum (ops .f64)) = .getter)
    ∧ ((Instr.compress (ops .i64 0 (some 6))).wf = true ∧ opClass (.compress (ops .i64 0 (some 6))) = .whole
        ∧ busy.cfg.divEx64 = .exact)
    ∧ ((Instr.extract (ops .i128)).wf = true ∧ opClass (.extract (ops .i128)) = .extract ∧ (ops .i128).ot = .i128 ∧ busy.cfg.wf)
    ∧ ((Instr.extract (ops .f64)).wf = true ∧ opClass (.extract (ops .f64)) = .extract ∧ (ops .f64).ot ≠ .i128)
    ∧ ((Instr.broadcast (ops .i64)).wf = true ∧ opClass (.broadcast (ops .i64)) = .lane
        ∧ dataSize .i64 ≤ loopLength (.broadcast (ops .i64)) busy ∧ (ops .i64).ot ≠ .i128)
    ∧ ((Instr.insert { ops .i128 with rd := 1 }).wf = true ∧ opClass (.insert { ops .i128 with rd := 1 }) = .lane
        ∧ dataSize .i128 ≤ loopLength (.insert { ops .i128 with rd := 1 }) busy)
    ∧ ((Instr.addSs (ops .i64)).wf = true ∧ opClass (.addSs (ops .i64)) = .lane ∧ dataSize .i64 ≤ loopLength (.addSs (ops .i64)) busy
        ∧ opcodeOf (.addSs (ops .i64)) ≠ (2, 30) ∧ opcodeOf (.addSs (ops .i64)) ≠ (2, 31))
    ∧ ((Instr.divEx (ops .i64)).wf = true ∧ opClass (.divEx (ops .i64)) = .pair
        ∧ 2 * dataSize .i64 ≤ loopLength (.divEx (ops .i64)) busy)
    ∧ LengthsOk busy :=
  ⟨by decide, by decide, by decide +kernel, by decide +kernel, by decide, by decide +kernel, by decide +kernel, by decide +kernel,
    by decide +kernel, lengthsOk_busy⟩

theorem witness_CommandSlotsCarryNothing : (∃ t, exec (.insert (ops .i16)) busy = .next t)
    ∧ ∃ u, exec (.insert (ops .i16)) { busy with slots := { Slots.reset with vect := 4 }, returnType := 7 } = .next u :=
  ⟨⟨_, rfl⟩, _, rfl⟩

theorem witness_FreeValuesReachOnlyNaNs :
    ((∃ t, exec (.sqrt (ops .f32)) busy = .next t) ∧ ∃ u, exec (.sqrt (ops .f32)) { busy with draws := 9 } = .next u)
    ∧ ((ops .i16).ot ∉ OpType.floats ∧ ({ Config.default with nanPayload := .defaultQuiet } : Config).nanPayload = .defaultQuiet
        ∧ producesNaN (.extract (ops .f32)) = false)
    ∧ ((ops .f32).ot ∈ OpType.floats ∧ producesNaN (.sqrt (ops .f32)) = true ∧ LengthsOk busy) :=
  ⟨⟨⟨_, rfl⟩, _, rfl⟩, by decide, by decide, by decide, lengthsOk_busy⟩

/-- `x2` is `0x80` in `busy` and `0x100`, which is 0 at 8 bits, in the second state. -/
theorem witness_BitscanResults :
    ((ops .i8).ot ≠ .i128 ∧ uns (dataBits .i8) (busy.gpr 2).toNat ≠ 0)
    ∧ ((ops .i8).ot ≠ .i128 ∧ uns (dataBits .i8) ((busy.setGpr 2 0x100).gpr 2).toNat = 0) ∧ (ops .i128).ot = .i128 := by
  decide +kernel

/-- At 8 bits: 0, `2 ^ 7` (the greatest operand without overflow), `0x81` (the least with). -/
theorem witness_RoundPow2Results :
    ((ops .i8).ot ≠ .i128 ∧ Committed busy [.overflSign])
    ∧ uns 8 ((busy.setGpr 2 0).gpr 2).toNat = 0 ∧ (uns 8 (busy.gpr 2).toNat ≠ 0 ∧ uns 8 (busy.gpr 2).toNat ≤ 2 ^ 7)
    ∧ 2 ^ 7 < uns 8 ((busy.setGpr 2 0x81).gpr 2).toNat ∧ (ops .i128).ot = .i128 :=
  ⟨⟨by decide, committed_busy _⟩, by decide +kernel⟩

/-- `x2` is the least signed value of 8 bits in `busy`, and one more in the second state. -/
theorem witness_AbsoluteResult :
    ((ops .i8 3).imm.toNat % 4 = 3 ∧ (ops .f32).ot ∉ OpType.integersUpTo64)
    ∧ ((ops .i8 2).imm.toNat % 4 ≠ 3 ∧ (ops .i8).ot ∈ OpType.integersUpTo64)
    ∧ sgn 8 ((busy.setGpr 2 0x81).gpr 2).toNat ≠ minSigned 8
    ∧ (sgn 8 (busy.gpr 2).toNat = minSigned 8 ∧ (ops .i8 0).imm.toNat % 4 = 0 ∧ (ops .i8 5).imm.toNat % 4 = 1
        ∧ (ops .i8 2).imm.toNat % 4 = 2) := by decide +kernel

theorem witness_ShiftAddResult : (ops .i128).ot ∉ OpType.integersUpTo64 ∧ (ops .i64).ot ∈ OpType.integersUpTo64
    ∧ Committed busy [.overflSign, .overflUnsign] := ⟨by decide, by decide, committed_busy _⟩

/-- `count` 33; `start + count` 65; `count` 32 and `start + count` 64. -/
theorem witness_ReplaceBitsResult :
    32 < (ops .i64 0x21000000).imm.toNat / 2 ^ 24
    ∧ 64 < (ops .i64 0x20210000).imm.toNat / 2 ^ 16 % 2 ^ 8 + (ops .i64 0x20210000).imm.toNat / 2 ^ 24
    ∧ ((ops .i64 0x20200000).imm.toNat / 2 ^ 24 ≤ 32
        ∧ (ops .i64 0x20200000).imm.toNat / 2 ^ 16 % 2 ^ 8 + (ops .i64 0x20200000).imm.toNat / 2 ^ 24 ≤ 64) := by decide +kernel

theorem witness_GetLengthResults : busy.len 2 < 2 ^ 64 ∧ busy.len 2 / dataSize .i16 < 2 ^ 64 := by decide +kernel

theorem witness_CompressIntegerResults : (ops .i128).ot ∈ OpType.integers ∧ (ops .i8).ot ∈ OpType.integers
    ∧ Committed busy [.overflSign, .overflUnsign] ∧ Committed strict [] := ⟨by decide, by decide, committed_busy _, .inl rfl⟩

/-- Float lanes of `v2` for the clauses of the conversions: 1.0, infinity, a NaN (float32). -/
def floats : State := start [(1, 12)] [(2, [0, 0, 0x80, 0x3F, 0, 0, 0x80, 0x7F, 0, 0, 0xC0, 0x7F])] 8

theorem witness_CompressFloatResults : (ops .f32).ot ∈ OpType.floats ∧ floats.cfg.commitOnInterrupt = true
    ∧ (maskedOptions (ops .f32) { strict with numContr := 0 } 0).getLsbD 3 = false
    ∧ float32.isFinite (floats.velem 2 0 4) = true ∧ float32.isInf (floats.velem 2 4 4) = true
    ∧ float32.isNaN (floats.velem 2 8 4) = true ∧ floats.cfg.roundingMode = .nearestEven := by decide +kernel

theorem witness_ExpandIntegerResults : (ops .i8).ot ∈ OpType.integers ∧ (ops .i128).ot ∈ OpType.integers := by decide

/-- float16 elements 1.0, infinity, a NaN. -/
theorem witness_ExpandFloatResults : (ops .f32).ot ∈ OpType.floats ∧ (ops .f64).ot ∈ OpType.floats
    ∧ float16.isFinite ((start [] [(2, [0, 0x3C, 0, 0x7C, 0, 0x7E])]).velem 2 0 2) = true
    ∧ float16.isInf ((start [] [(2, [0, 0x3C, 0, 0x7C, 0, 0x7E])]).velem 2 2 2) = true
    ∧ float16.isNaN ((start [] [(2, [0, 0x3C, 0, 0x7C, 0, 0x7E])]).velem 2 4 2) = true := by decide +kernel

theorem witness_SparseResults : (ops .i16).rm = none ∧ (ops .i16 0 (some 4)).rm = some 4
    ∧ Selected 4 (ops .i16 0 (some 4)) busy 3 = true ∧ Selected 4 (ops .i16 0 (some 4)) busy 1 = false := by decide +kernel

theorem witness_ExtractResult : busy.cfg.wf ∧ (State.resetWith smallest).cfg.wf := by decide +kernel

theorem witness_InsertBroadcastResults : LengthsOk busy := lengthsOk_busy

theorem witness_BitPackResults : (State.resetWith smallest).cfg.wf := by decide +kernel

theorem witness_BoolReduceResult : (ops .f32).ot ∉ OpType.integers ∧ (ops .i128).ot ∈ OpType.integers ∧ busy.cfg.wf := by
  decide +kernel

theorem witness_CategoryReduceResult : (ops .i32).ot ∉ OpType.floats ∧ (ops .f64).ot ∈ OpType.floats ∧ busy.cfg.wf := by
  decide +kernel

theorem witness_ShiftResults : LengthsOk busy := lengthsOk_busy

theorem witness_CarryChainResults : (ops .i128).ot ∉ OpType.integersUpTo64 ∧ (ops .i64).ot ∈ OpType.integersUpTo64
    ∧ LengthsOk busy := ⟨by decide, by decide, lengthsOk_busy⟩

/-- Two steps of a chain: the carry of the first (1) is the odd lane of the second's first source. -/
def chain1 : State := start [] [(1, [0xFF, 0x00]), (2, [0x01, 0x00])]
def chain2 : State := start [] [(1, [0x00, 0x01]), (2, [0x00, 0x00])]

theorem witness_AddCarryChainIsExact : (ops .i8).ot ∈ OpType.integersUpTo64 ∧ LengthsOk chain1 ∧ LengthsOk chain2
    ∧ 2 * dataSize .i8 ≤ chain1.len 1 ∧ 2 * dataSize .i8 ≤ chain2.len 1
    ∧ ∃ t, exec (.addCarry (ops .i8)) chain1 = .next t
      ∧ chain2.velem 1 (dataSize .i8) (dataSize .i8) = t.velem 3 (dataSize .i8) (dataSize .i8)
      ∧ ∃ t', exec (.addCarry (ops .i8)) chain2 = .next t' := by
  have h1 : ∀ r : RegIx, chain1.len r ≤ chain1.cfg.maxVectorLength := by decide +kernel
  have h2 : ∀ r : RegIx, chain2.len r ≤ chain2.cfg.maxVectorLength := by decide +kernel
  exact ⟨by decide, h1, h2, by decide +kernel, by decide +kernel, _, rfl, by decide +kernel, _, rfl⟩

theorem witness_DivExResult : (ops .f64).ot ∉ OpType.integersUpTo64 ∧ (ops .i64).ot ∈ OpType.integersUpTo64
    ∧ busy.cfg.divEx64 = .exact ∧ LengthsOk busy ∧ Committed busy [.overflSign] :=
  ⟨by decide, by decide, by decide +kernel, lengthsOk_busy, committed_busy _⟩

/-- The dividend of pair 0 is `hi = 1`; the divisors 1 (overflow) and 2 (none) are the two sides of the bound `hi < d`. -/
theorem witness_DivExUResult : (ops .f64).ot ∉ OpType.integersUpTo64 ∧ (ops .i8).ot ∈ OpType.integersUpTo64
    ∧ busy.cfg.divEx64 = .exact ∧ LengthsOk busy ∧ Committed busy [.overflUnsign]
    ∧ (start [] [(1, [0, 1]), (2, [1])]).velem 2 0 1 ≤ (start [] [(1, [0, 1]), (2, [1])]).velem 1 1 1
    ∧ (start [] [(1, [0, 1]), (2, [2])]).velem 1 1 1 < (start [] [(1, [0, 1]), (2, [2])]).velem 2 0 1 :=
  ⟨by decide, by decide, by decide +kernel, lengthsOk_busy, committed_busy _, by decide +kernel, by decide +kernel⟩

theorem witness_SaturatingAddSubResults : (ops .f32).ot ∉ OpType.integersUpTo64 ∧ (ops .i64).ot ∈ OpType.integersUpTo64
    ∧ LengthsOk busy ∧ Committed busy [.overflSign] := ⟨by decide, by decide, lengthsOk_busy, committed_busy _⟩

theorem witness_SaturatingMulResults : (ops .i128).ot ∉ OpType.integersUpTo64 ∧ (ops .i64).ot ∈ OpType.integersUpTo64
    ∧ LengthsOk busy ∧ busy.cfg.mul64OverflowExact = true ∧ Committed busy [.overflUnsign] :=
  ⟨by decide, by decide, lengthsOk_busy, by decide +kernel, committed_busy _⟩

/-- The operands at the top of both ranges, and an instruction under both settings of the parameter. -/
theorem witness_HeuristicMultiplyAgrees : (2 ^ 64 - 1 < 2 ^ 64) ∧ (∃ t, exec (.mulOc (ops .i64)) busy = .next t)
    ∧ ∃ u, exec (.mulOc (ops .i64)) { busy with cfg := { busy.cfg with mul64OverflowExact := false } } = .next u :=
  ⟨by decide, ⟨_, rfl⟩, _, rfl⟩

theorem witness_CheckedArithmeticResults : (ops .f32).ot ∉ OpType.integersUpTo64 ∧ (ops .i64).ot ∈ OpType.integersUpTo64
    ∧ LengthsOk busy ∧ busy.cfg.mul64OverflowExact = true := ⟨by decide, by decide, lengthsOk_busy, by decide +kernel⟩

/-- Divisor 0; `MIN_SIGNED / -1`; one less. -/
theorem witness_CheckedDivisionResult : (ops .f32).ot ∉ OpType.integersUpTo64 ∧ (ops .i8).ot ∈ OpType.integersUpTo64
    ∧ LengthsOk busy ∧ (start [] [(2, [0])]).velem 2 0 1 = 0
    ∧ (sgn 8 ((start [] [(1, [0x80]), (2, [0xFF])]).velem 1 0 1) = minSigned 8
        ∧ sgn 8 ((start [] [(1, [0x80]), (2, [0xFF])]).velem 2 0 1) = -1)
    ∧ (start [] [(1, [0x81]), (2, [0xFF])]).velem 2 0 1 ≠ 0
    ∧ ¬ sgn 8 ((start [] [(1, [0x81]), (2, [0xFF])]).velem 1 0 1) = minSigned 8 :=
  ⟨by decide, by decide, lengthsOk_busy, by decide +kernel⟩

/-- Operands 0 and -1. -/
theorem witness_IntegerSqrtResult : (ops .i128).ot = .i128 ∧ (ops .i8).ot ∈ OpType.integersUpTo64 ∧ LengthsOk busy
    ∧ Committed busy [.overflSign] ∧ 0 ≤ sgn 8 ((start [] [(2, [0])]).velem 2 0 1) ∧ sgn 8 ((start [] [(2, [0xFF])]).velem 2 0 1) < 0 :=
  ⟨by decide, by decide, lengthsOk_busy, committed_busy _, by decide +kernel, by decide +kernel⟩

/-- Lanes of `v2`, float32: -1.0, -0.0, +infinity, a NaN, the least subnormal. -/
def roots : State :=
  start [] [(2, [0, 0, 0x80, 0xBF, 0, 0, 0, 0x80, 0, 0, 0x80, 0x7F, 0, 0, 0xC0, 0x7F, 1, 0, 0, 0])] 0x10

theorem witness_FloatSqrtResult : (ops .f32).ot ∈ OpType.floats ∧ LengthsOk roots ∧ Committed roots [.floatInvalid]
    ∧ (float32.isNaN (roots.velem 2 0 4) = false ∧ float32.isZero (roots.velem 2 0 4) = false ∧ float32.sign (roots.velem 2 0 4) = true)
    ∧ float32.isZero (roots.velem 2 4 4) = true
    ∧ (float32.isInf (roots.velem 2 8 4) = true ∧ float32.sign (roots.velem 2 8 4) = false)
    ∧ float32.isNaN (roots.velem 2 12 4) = true
    ∧ (float32.isFinite (roots.velem 2 16 4) = true ∧ float32.isZero (roots.velem 2 16 4) = false
        ∧ float32.sign (roots.velem 2 16 4) = false ∧ roots.cfg.roundingMode = .nearestEven) := by
  have h : ∀ r : RegIx, roots.len r ≤ roots.cfg.maxVectorLength := by decide +kernel
  exact ⟨by decide, h, .inr rfl, by decide +kernel⟩

/-! The laws: two commands in a row, the second on the first one's result. -/

theorem witness_CompressUndoesExpandS : ∃ t u, (ops .i16).ot ∈ OpType.integers ∧ busy.cfg.commitOnInterrupt = true
    ∧ exec (.expandS (ops .i16)) busy = .next t
    ∧ (exec (.compress ⟨.i16, 6, 1, 3, none, 0⟩) t = .next u ∨ exec (.compressSs ⟨.i16, 6, 1, 3, none, 0⟩) t = .next u) :=
  ⟨_, _, by decide, by decide +kernel, rfl, .inl rfl⟩

theorem witness_Bool2bitsUndoesBits2bool : ∃ t u, busy.cfg.wf ∧ exec (.bits2bool (ops .i16)) busy = .next t
    ∧ exec (.bool2bits ⟨.i16, 6, 1, 3, none, 0⟩) t = .next u := ⟨_, _, by decide +kernel, rfl, rfl⟩

theorem witness_ShiftUpAfterShiftDown : ∃ t u, LengthsOk busy ∧ exec (.shiftDown (ops .i8)) busy = .next t
    ∧ exec (.shiftUp ⟨.i8, 6, 1, 3, none, 0⟩) t = .next u := ⟨_, _, lengthsOk_busy, rfl, rfl⟩

theorem witness_RotateUpAfterRotateDown : ∃ t u, exec (.rotateDown (ops .i16)) busy = .next t
    ∧ exec (.rotateUp ⟨.i16, 6, 1, 3, none, 0⟩) t = .next u := ⟨_, _, rfl, rfl⟩

theorem witness_ExpandSparseRestores : ∃ t u, LengthsOk busy ∧ (ops .i16 0 (some 4)).rm = some 4 ∧ (3 : RegIx).val ≠ 4
    ∧ exec (.compressSparse (ops .i16 0 (some 4))) busy = .next t
    ∧ exec (.expandSparse ⟨.i16, 6, 1, 3, some 4, 0⟩) t = .next u := ⟨_, _, lengthsOk_busy, rfl, by decide, rfl, rfl⟩

end Sys2Proof.Tests
end

section
/-! SUPPORT. What every instruction and every step keeps: the frame of `exec`, the vector store's part of the invariant, and the
statements about runs and reset that rest on them. -/

namespace Sys2Proof.Machine

open Sys2Proof

/-! ## What an instruction leaves -/

/-- `exec_cases` for a next state, both kinds of destination together. -/
theorem exec_next_cases {i : Instr} {s t : State} (h : exec i s = .next t) :
    t = illegal s
    ∨ (∃ slots v tag ks, SlotsAfter i s slots
        ∧ t = finishState s (({ s with slots := slots } : State).setGpr i.fields.rd v) tag ks)
    ∨ ∃ slots bs ks, SlotsAfter i s slots
        ∧ t = finishState s (({ s with slots := slots } : State).setVec i.fields.rd bs) none ks := by
  obtain ⟨hgpr, hvec⟩ := exec_cases i s
  rw [h] at hgpr hvec
  by_cases hclass : opClass i = .scalar ∨ opClass i = .getter
  · rcases hgpr hclass with ht | ⟨slots, v, tag, ks, hslots, ht, -⟩
    · exact .inl (Host.Outcome.next.inj ht)
    · exact .inr (.inl ⟨slots, v, tag, ks, hslots, Host.Outcome.next.inj ht⟩)
  · obtain ⟨hs, hg⟩ := not_or.mp hclass
    rcases hvec hs hg with ht | ⟨slots, bs, ks, hslots, ht, -⟩
    · exact .inl (Host.Outcome.next.inj ht)
    · exact .inr (.inr ⟨slots, bs, ks, hslots, Host.Outcome.next.inj ht⟩)

/-- No instruction writes the configuration, `numContr`, the command list or `pc`. -/
theorem exec_kept {i : Instr} {s t : State} (h : exec i s = .next t) : Kept s t := by
  rcases exec_next_cases h with rfl | ⟨slots, v, tag, ks, -, rfl⟩ | ⟨slots, bs, ks, -, rfl⟩
  · exact ⟨rfl, rfl, rfl, rfl⟩
  · simp [Kept]
  · simp [Kept]

/-- R284: an instruction only appends interrupts, each with the index of its own command. -/
theorem exec_raised {i : Instr} {s t : State} (h : exec i s = .next t) : ∃ ks, Raised s t ks := by
  rcases exec_next_cases h with rfl | ⟨slots, v, tag, ks, -, rfl⟩ | ⟨slots, bs, ks, -, rfl⟩
  · exact ⟨[.instIllegal], rfl⟩
  · exact ⟨ks, by simp [Raised]⟩
  · exact ⟨ks, by simp [Raised]⟩

/-- The loop controls of R35 and R36 after an instruction: a legal value, or the one before it. -/
theorem exec_loop_controls {i : Instr} {s t : State} (h : exec i s = .next t) :
    (t.slots.vect = 0 ∨ t.slots.vect = 1 ∨ t.slots.vect = 4 ∨ t.slots.vect = s.slots.vect)
    ∧ (t.slots.running = 1 ∨ t.slots.running = 2 ∨ t.slots.running = s.slots.running) := by
  rcases exec_next_cases h with rfl | ⟨slots, v, tag, ks, hslots, rfl⟩ | ⟨slots, bs, ks, hslots, rfl⟩
  · simp
  · simpa using ⟨hslots.vect, hslots.running⟩
  · simpa using ⟨hslots.vect, hslots.running⟩

/-! ## The vector store's part of the invariant -/

/-- The clauses of `State.Inv` about the vector store: they depend on the bytes, the lengths and the configuration only. -/
structure VectorsOk (s : State) : Prop where
  store : s.mem.wf
  lengths : LengthsOk s
  tail : ∀ p ∈ s.mem, ∃ r : RegIx, s.vbase r ≤ p.1 ∧ p.1 < s.vbase r + s.len r

theorem State.Inv.vectorsOk {s : State} (h : s.Inv) : VectorsOk s := ⟨h.store, h.lengths, h.tail⟩

theorem VectorsOk.congr {s t : State} (h : VectorsOk s) (hcfg : t.cfg = s.cfg) (hmem : t.mem = s.mem)
    (hvlen : t.vlen = s.vlen) : VectorsOk t := by
  obtain ⟨hstore, hlengths, htail⟩ := h
  constructor <;> simpa only [LengthsOk, State.vbase, State.len, hcfg, hmem, hvlen]

/-- Writing a vector register keeps every stored byte below the length of its register: the old bytes of the window go, and
the new ones lie below the new length. -/
theorem vectorsOk_setVec {s : State} (h : VectorsOk s) (rd : RegIx) (bs : List Byte) : VectorsOk (s.setVec rd bs) where
  store := Memory.wf_splice _ _ _ _ h.store
  lengths := by
    intro r
    rw [len_setVec, setVec_cfg]
    split
    · exact min_le_right _ _
    · exact h.lengths r
  tail := by
    intro p hp
    rcases Memory.mem_splice hp with ⟨hold, hout⟩ | ⟨hlow, hhigh⟩
    · obtain ⟨r, hr⟩ := h.tail p hold
      have hlen := h.lengths r
      have hne : r ≠ rd := by rintro rfl; exact hout ⟨hr.1, by omega⟩
      exact ⟨r, by rwa [vbase_setVec, len_setVec, if_neg hne]⟩
    · exact ⟨rd, by rw [vbase_setVec, len_setVec, if_pos rfl]; omega⟩

/-- R287: whether a command commits or not, the store is the one before it or the one it wrote. -/
theorem vectorsOk_finishState {s t : State} (hs : VectorsOk s) (ht : VectorsOk t) (hcfg : t.cfg = s.cfg)
    (tag : Option (BitVec 16)) (ks : List IntKind) : VectorsOk (finishState s t tag ks) := by
  by_cases hc : commits s ks
  · exact ht.congr (by simp) (by simp [hc]) (by simp [hc])
  · exact hs.congr (by simp [hcfg]) (by simp [hc]) (by simp [hc])

theorem vectorsOk_exec {i : Instr} {s t : State} (hs : VectorsOk s) (h : exec i s = .next t) : VectorsOk t := by
  rcases exec_next_cases h with rfl | ⟨slots, v, tag, ks, -, rfl⟩ | ⟨slots, bs, ks, -, rfl⟩
  · exact hs.congr rfl rfl rfl
  · have hwrite : VectorsOk (({ s with slots := slots } : State).setGpr i.fields.rd v) := hs.congr rfl rfl rfl
    exact vectorsOk_finishState hs hwrite rfl _ _
  · have hslots : VectorsOk { s with slots := slots } := hs.congr rfl rfl rfl
    exact vectorsOk_finishState hs (vectorsOk_setVec hslots _ _) rfl _ _

/-! ## A step -/

/-- `Kept` for a step: `pc` advances by 1. -/
theorem step_kept {s t : State} (h : step s = .next t) :
    t.cfg = s.cfg ∧ t.numContr = s.numContr ∧ t.cmds = s.cmds ∧ t.pc = s.pc + 1 := by
  obtain ⟨-, cw, -, ⟨e, -, rfl⟩ | ⟨i, u, -, hu, rfl⟩⟩ := step_cases h
  · simp
  · obtain ⟨hcfg, hnum, hcmds, hpc⟩ := exec_kept hu
    simp [hcfg, hnum, hcmds, hpc]

/-- R285, R286: a step starts without interrupts on record, so those it leaves are its own. -/
theorem step_raised {s t : State} (h : step s = .next t) : ∃ ks : List IntKind, t.intRaised = ks.map fun k => (k, s.pc) := by
  obtain ⟨⟨-, hnone, -⟩, cw, -, ⟨e, -, rfl⟩ | ⟨i, u, -, hu, rfl⟩⟩ := step_cases h
  · exact ⟨[.instIllegal], by simp [hnone]⟩
  · obtain ⟨ks, hks⟩ := exec_raised hu
    exact ⟨ks, by simpa [Raised, hnone] using hks⟩

theorem vectorsOk_step {s t : State} (hs : VectorsOk s) (h : step s = .next t) : VectorsOk t := by
  obtain ⟨-, cw, -, ⟨e, -, rfl⟩ | ⟨i, u, -, hu, rfl⟩⟩ := step_cases h
  · exact hs.congr rfl rfl rfl
  · exact (vectorsOk_exec hs hu).congr rfl rfl rfl

/-- The loop controls after a step: a legal value, or the one before it. -/
theorem step_loop_controls {s t : State} (h : step s = .next t) :
    (t.slots.vect = 0 ∨ t.slots.vect = 1 ∨ t.slots.vect = 4 ∨ t.slots.vect = s.slots.vect)
    ∧ (t.slots.running = 1 ∨ t.slots.running = 2 ∨ t.slots.running = s.slots.running) := by
  obtain ⟨-, cw, -, ⟨e, -, rfl⟩ | ⟨i, u, -, hu, rfl⟩⟩ := step_cases h
  · simp
  · simpa using exec_loop_controls hu

/-- Settles O9, clause by clause of the invariant. -/
theorem stepKeepsInvariant : Obligations.StepKeepsInvariant := by
  intro s t hs h
  obtain ⟨hcfg, -, hcmds, hpc⟩ := step_kept h
  obtain ⟨hvect, hrunning⟩ := step_loop_controls h
  have hvectors := vectorsOk_step hs.vectorsOk h
  refine
    { config := hcfg ▸ hs.config
      store := hvectors.store
      lengths := hvectors.lengths
      tail := hvectors.tail
      vect := ?_
      running := ?_
      inProgram := ?_
      precise := ?_ }
  · rcases hvect with h0 | h1 | h4 | hold
    · exact .inl h0
    · exact .inr (.inl h1)
    · exact .inr (.inr h4)
    · exact hold ▸ hs.vect
  · rcases hrunning with h1 | h2 | hold
    · exact .inl h1
    · exact .inr h2
    · exact hold ▸ hs.running
  · obtain ⟨⟨-, -, hlt⟩, -⟩ := step_cases h
    rw [hpc, hcmds]
    exact hlt
  · obtain ⟨ks, hks⟩ := step_raised h
    intro e he
    rw [hks] at he
    obtain ⟨k, -, rfl⟩ := List.mem_map.mp he
    exact hpc.symm

/-! ## Runs -/

/-- A run of `k + 1` steps is a step and a run of `k`. -/
theorem run_succ_eq_next {M : Host.Core} {k : Nat} {s t : M.State} (h : M.run (k + 1) s = .next t) :
    ∃ u, M.step s = .next u ∧ M.run k u = .next t := by
  rw [Host.Core.run] at h
  split at h
  · exact ⟨_, ‹_›, h⟩
  · cases h
  · cases h

/-- Settles O14, by induction on the number of steps. -/
theorem runKeepsConfiguration : Obligations.RunKeepsConfiguration := by
  intro k
  induction k with
  | zero =>
    intro s t h
    obtain rfl : s = t := Host.Outcome.next.inj h
    simp
  | succ k ih =>
    intro s t h
    obtain ⟨u, hstep, hrun⟩ := run_succ_eq_next h
    obtain ⟨hcfg, hnum, hcmds, hpc⟩ := step_kept hstep
    obtain ⟨hcfg', hnum', hcmds', hpc'⟩ := ih u t hrun
    exact ⟨hcfg'.trans hcfg, hnum'.trans hnum, hcmds'.trans hcmds, by omega⟩

/-- Settles O15. -/
theorem interruptsArePrecise : Obligations.InterruptsArePrecise :=
  ⟨fun _ _ h => step_raised h, fun _ _ _ h => exec_raised h⟩

/-! ## Reset -/

@[simp] theorem len_resetWith (cfg : Config) (r : RegIx) : (State.resetWith cfg).len r = 0 := by
  simp [State.len, State.resetWith]

/-- R40: the invariant at reset; no byte is stored and every length is 0. -/
theorem inv_resetWith {cfg : Config} (h : cfg.wf) : (State.resetWith cfg).Inv where
  config := h
  store := reset_mem_wf cfg
  lengths := fun r => by simp
  tail := fun _ hp => nomatch hp
  vect := .inl rfl
  running := .inl rfl
  inProgram := Nat.le_refl 0
  precise := fun _ he => nomatch he

/-- Settles O10. -/
theorem resetMeetsInvariant : Obligations.ResetMeetsInvariant :=
  ⟨fun _ => inv_resetWith, inv_resetWith (by decide)⟩

/-- Settles O11. -/
theorem resetValues : Obligations.ResetValues := fun cfg r =>
  ⟨len_resetWith cfg r, fun i => by simp [State.vb], rfl, rfl, rfl⟩

end Sys2Proof.Machine
end

section
/-! SUPPORT. Every instruction as an operation of its execution class (`classForm`): from that, what the command slots hold after
a command, and that what they held before it reaches nothing. -/

namespace Sys2Proof.Machine

open Sys2Proof

/-! ## The fields no operation reads -/

/-- `s` with the command slots, the debug tag and the commit parameter replaced: the state as the end of a command or the commit
parameter may leave it otherwise, with all that an operation reads unchanged. -/
def State.withUnread (s : State) (slots : Slots) (tag : BitVec 16) (commit : Bool) : State :=
  { s with slots := slots, returnType := tag, cfg := { s.cfg with commitOnInterrupt := commit } }

/-- `f` reads none of the fields that `State.withUnread` replaces. -/
def IgnoresUnread {α : Type} (f : State → α) : Prop :=
  ∀ s slots tag commit, f (s.withUnread slots tag commit) = f s

theorem loopLength_ignoresUnread (i : Instr) : IgnoresUnread (loopLength i) := by
  intro s slots tag commit
  cases i <;> rfl

/-! ## The classes of operand types -/

theorem typesTo64_eq (ot : OpType) : typesTo64 ot = OpType.upTo64Bits.contains ot := by cases ot <;> rfl
theorem typesAll_eq (ot : OpType) : typesAll ot = OpType.allTypes.contains ot := by cases ot <;> rfl
theorem typesInt_eq (ot : OpType) : typesInt ot = OpType.integers.contains ot := by cases ot <;> rfl
theorem typesFloat_eq (ot : OpType) : typesFloat ot = OpType.floats.contains ot := by cases ot <;> rfl
theorem typesInt64_eq (ot : OpType) : typesInt64 ot = OpType.integersUpTo64.contains ot := by cases ot <;> rfl

theorem typeOk_of_wf {i : Instr} (h : i.wf = true) : i.typeOk = true := by
  simp only [Instr.wf, Bool.and_eq_true] at h
  exact h.1.1

/-- R226: the configuration does not forbid the double-width division at 64 bits, or `i` is none. -/
abbrev DivisionAllowed (i : Instr) (s : State) : Prop :=
  s.cfg.divEx64 = .exact ∨ i.fields.ot ≠ .i64 ∨ opcodeOf i ≠ (2, 30) ∧ opcodeOf i ≠ (2, 31)

/-- The dividers at a supported operand type that the configuration does not forbid. -/
theorem divExTypes_of_allowed {cfg : Config} {ot : OpType} (ht : OpType.integersUpTo64.contains ot = true)
    (hd : cfg.divEx64 = .exact ∨ ot ≠ .i64) : divExTypes cfg ot = true := by
  rw [divExTypes, typesInt64_eq, ht, Bool.true_and]
  rcases hd with h | h <;> simp [h]

/-! ## Every instruction as an operation of its class -/

/-- The minor opcode of R74, as the slot `op` holds it. -/
def minorOp (i : Instr) : BitVec 6 := BitVec.ofNat 6 (opcodeOf i).2

/-- What `exec i` is, as a function of the state: an operation of the class R74 names, whose handler reads neither the slots nor
the debug tag nor the commit parameter (`hr`). `ht` is R74's column "ot" and `hv` says which operations name a general-purpose
register as `rs`. With the classes that can leave a value in `parm[5]` stands what it is (`haux`), and where they raise nothing
(`hquiet`). -/
inductive ClassForm (i : Instr) : Prop where
  | malformed (hw : i.wf = false) (he : ∀ s, exec i s = .next (illegal s))
  | scalar {types : OpType → Bool} {handler : Parms → Ret} (hc : opClass i = .scalar)
      (he : ∀ s, exec i s = scalarOp (minorOp i) types i.fields s handler) (ht : types i.fields.ot = i.typeOk)
  | address {c : Fields} (hi : i = .addressForm c)
  | getter {result : State → Word} (hc : opClass i = .getter)
      (he : ∀ s, exec i s = getterOp (minorOp i) typesAll i.fields s (result s))
      (hr : IgnoresUnread result) (hm : showsMask i = false)
  | whole {types : OpType → Bool} {handler : State → Parms → List Byte × List IntKind} (hc : opClass i = .whole)
      (he : ∀ s, exec i s = wholeOp (minorOp i) types (showsMask i) i.fields s (handler s))
      (hr : IgnoresUnread handler) (ht : types i.fields.ot = i.typeOk)
  | extract {handler : State → Parms → Ret} (hc : opClass i = .extract)
      (he : ∀ s, exec i s = extractOp (minorOp i) typesAll i.fields s (handler s))
      (hr : IgnoresUnread handler) (hm : showsMask i = false)
      (haux : ∀ s p, i.fields.ot ≠ .i128 → (handler s p).aux = 0)
      (hquiet : ∀ s p, (handler s p).raised = [])
  | lane {types : OpType → Bool} {vectorRs : Bool} {handler : State → Nat → Parms → Ret} (hc : opClass i = .lane)
      (he : ∀ s, exec i s
        = laneOp (minorOp i) types (showsMask i) vectorRs i.fields s (loopLength i s) (handler s))
      (hr : IgnoresUnread handler) (ht : types i.fields.ot = i.typeOk)
      (hv : vectorRs = true ↔ ¬ (opcodeOf i = (2, 13) ∨ opcodeOf i = (2, 14)))
      (haux : ∀ s off p, p.aux = 0 → i.fields.ot ≠ .i128 → (handler s off p).aux = 0)
      (hquiet : ∀ s off p, i.fields.ot = .i128 → i.typeOk = true → (handler s off p).raised = [])
  | pair {types : State → OpType → Bool} {handler : State → Nat → Parms → Ret} (hc : opClass i = .pair)
      (he : ∀ s, exec i s = pairOp (minorOp i) (types s) (showsMask i) i.fields s (handler s))
      (hr : IgnoresUnread handler) (hrt : IgnoresUnread types)
      (ht : ∀ s, i.typeOk = true → DivisionAllowed i s → types s i.fields.ot = true)
      (hv : ¬ (opcodeOf i = (2, 13) ∨ opcodeOf i = (2, 14)))
      (haux : ∀ s off p, (handler s off p).aux.toNat < 256 ^ dataSize i.fields.ot)

/-! ### What the handlers leave in `parm[5]` -/

theorem floatSqrt_aux (f : FloatFormat) (mode : RoundingMode) (nan b : Nat) (opts : Word) :
    (floatSqrt f mode nan b opts).aux = 0 := by
  unfold floatSqrt
  split_ifs <;> rfl

theorem intSqrt_aux (w b : Nat) (opts : Word) : (intSqrt w b opts).aux = 0 := by
  unfold intSqrt
  split_ifs <;> rfl

theorem firstElementHigh_of_ne {c : Fields} (s : State) (h : c.ot ≠ .i128) : firstElementHigh c s = 0 := if_neg h

theorem two_pow_dataBits (ot : OpType) : 2 ^ dataBits ot = 256 ^ dataSize ot := by
  rw [dataBits, pow_mul]
  rfl

/-- A number of an element's width, as the 64-bit slot holds it, still has that width. -/
theorem ofNat_toNat_lt {ot : OpType} {v : Nat} (h : v < 2 ^ dataBits ot) : (BitVec.ofNat 64 v).toNat < 256 ^ dataSize ot := by
  rw [BitVec.toNat_ofNat, ← two_pow_dataBits]
  exact (Nat.mod_le _ _).trans_lt h

theorem one_lt_two_pow_dataBits (ot : OpType) : 1 < 2 ^ dataBits ot := by cases ot <;> decide

/-- R221, R222: a carry or a borrow fits every lane. -/
theorem carry_toNat_lt (ot : OpType) (b : Bool) : (if b then 1 else 0 : Word).toNat < 256 ^ dataSize ot := by
  have h := one_lt_two_pow_dataBits ot
  rw [two_pow_dataBits] at h
  cases b
  · exact Nat.zero_lt_of_lt h
  · exact h

/-- R225: a remainder fits its lane. -/
theorem divExUnsigned_aux_lt (ot : OpType) (lo hi d : Nat) (opts : Word) (hd : d < 2 ^ dataBits ot) :
    (divExUnsigned (dataBits ot) lo hi d opts).aux.toNat < 256 ^ dataSize ot := by
  unfold divExUnsigned
  dsimp only
  split
  · exact carry_toNat_lt ot false
  · rename_i h
    have hpos : 0 < d := Nat.pos_of_ne_zero fun h0 => h (.inl h0)
    exact ofNat_toNat_lt ((Nat.mod_lt _ hpos).trans hd)

theorem divExSigned_aux_lt (ot : OpType) (lo hi d : Nat) (opts : Word) :
    (divExSigned (dataBits ot) lo hi d opts).aux.toNat < 256 ^ dataSize ot := by
  unfold divExSigned
  dsimp only
  split
  · exact carry_toNat_lt ot false
  · exact ofNat_toNat_lt (pat_lt _ _)

/-- R250: the incoming flag bytes and the new flags are one byte, which fits every lane. -/
theorem flags_toNat_lt (ot : OpType) (a b : Byte) (ovU ovS : Bool) :
    (BitVec.ofNat 64 ((a.toNat ||| b.toNat) ||| flagByte ovU ovS)).toNat < 256 ^ dataSize ot := by
  have hflags : flagByte ovU ovS < 2 ^ 8 := by cases ovU <;> cases ovS <;> decide
  have hbyte : (a.toNat ||| b.toNat) ||| flagByte ovU ovS < 2 ^ 8 :=
    Nat.or_lt_two_pow (Nat.or_lt_two_pow a.isLt b.isLt) hflags
  refine ofNat_toNat_lt (hbyte.trans_le (Nat.pow_le_pow_right (by decide) ?_))
  cases ot <;> decide

/-! ### The operations with a malformed shape -/

theorem execCompressSparse_unmasked {c : Fields} (s : State) (h : c.rm = none) :
    execCompressSparse c s = .next (illegal s) := by rw [execCompressSparse, h]

theorem execExpandSparse_unmasked {c : Fields} (s : State) (h : c.rm = none) :
    execExpandSparse c s = .next (illegal s) := by rw [execExpandSparse, h]

theorem execCompressSparse_masked {c : Fields} {m : Fin 7} (s : State) (h : c.rm = some m) :
    execCompressSparse c s = wholeOp 10 typesAll true c s fun p =>
      (sparseCompressed m c s (elementCount c.ot (s.clampL p.a.toNat)), []) := by rw [execCompressSparse, h]

theorem execExpandSparse_masked {c : Fields} {m : Fin 7} (s : State) (h : c.rm = some m) :
    execExpandSparse c s = wholeOp 11 typesAll true c s fun p =>
      (sparseExpanded m c s (elementCount c.ot (s.clampL p.a.toNat)), []) := by rw [execExpandSparse, h]

/-- R140: the two readings of the packed immediate agree on what is legal. -/
theorem immOk_replaceBits (c : Fields) : (Instr.replaceBits c).immOk = replaceBitsLegal c.imm := by
  have hcount : c.imm.toNat / 2 ^ 24 % 2 ^ 8 = c.imm.toNat / 2 ^ 24 := Nat.mod_eq_of_lt (by have := c.imm.isLt; omega)
  simp only [Instr.immOk, replaceBitsLegal, BitVec.extractLsb'_toNat, Nat.shiftRight_eq_div_pow, hcount]

/-! ### The forms of the families -/

section

variable {i : Instr} {c : Fields}

/-- R241 to R246: the saturating operations. -/
theorem classForm_saturating {lane : State → Nat → Nat → Nat → Ret} (hf : i.fields = c) (hc : opClass i = .lane)
    (hlen : ∀ s, loopLength i s = s.len c.rs) (hm : showsMask i = false)
    (he : ∀ s, exec i s = saturatingOp (minorOp i) c s (lane s)) (hr : IgnoresUnread lane)
    (ht : i.typeOk = OpType.integersUpTo64.contains c.ot)
    (hv : ¬ (opcodeOf i = (2, 13) ∨ opcodeOf i = (2, 14)))
    (haux : ∀ s w a b, (lane s w a b).aux = 0) : ClassForm i := by
  subst hf
  refine .lane (types := typesInt64) (vectorRs := true)
    (handler := fun s _ p => lane s (dataBits i.fields.ot) p.a.toNat p.b.toNat) hc ?_ ?_ ?_ (by simp [hv]) ?_ ?_
  · intro s
    rw [he, hlen, hm, saturatingOp]
  · intro s slots tag commit
    simp only [hr s slots tag commit]
  · rw [ht, typesInt64_eq]
  · exact fun s off p _ _ => haux _ _ _ _
  · intro s off p h128 hty
    rw [ht, h128] at hty
    exact absurd hty (by decide)

/-- R251 to R254: the overflow-checked operations. -/
theorem classForm_checked {pair : State → Nat → Nat → Nat → Checked} (hf : i.fields = c) (hc : opClass i = .pair)
    (hm : showsMask i = false) (he : ∀ s, exec i s = checkedOp (minorOp i) c s (pair s)) (hr : IgnoresUnread pair)
    (ht : i.typeOk = OpType.integersUpTo64.contains c.ot)
    (hv : ¬ (opcodeOf i = (2, 13) ∨ opcodeOf i = (2, 14))) : ClassForm i := by
  subst hf
  refine .pair (types := fun _ => typesInt64) (handler := fun s off p =>
    let r := pair s (dataBits i.fields.ot) p.a.toNat p.b.toNat
    let fin := (s.vb i.fields.rs (off + dataSize i.fields.ot)).toNat
      ||| (s.vb i.fields.rt (off + dataSize i.fields.ot)).toNat
    { result := BitVec.ofNat 64 r.value, aux := BitVec.ofNat 64 (fin ||| flagByte r.ovU r.ovS) }) hc ?_ ?_ ?_ ?_ hv ?_
  · intro s
    rw [he, hm, checkedOp]
  · intro s slots tag commit
    simp only [hr s slots tag commit]
    rfl
  · exact fun _ _ _ _ => rfl
  · intro s hty _
    rw [typesInt64_eq, ← ht, hty]
  · exact fun s off p => flags_toNat_lt _ _ _ _ _

end

/-- R74: every instruction is an operation of its class, or malformed. -/
theorem classForm (i : Instr) : ClassForm i := by
  cases i with
  | bitscanForward c => exact .scalar rfl (fun s => show execBitscanForward c s = _ from rfl) (typesTo64_eq _)
  | bitscanReverse c => exact .scalar rfl (fun s => show execBitscanReverse c s = _ from rfl) (typesTo64_eq _)
  | roundDownPow2 c => exact .scalar rfl (fun s => show execRoundDownPow2 c s = _ from rfl) (typesTo64_eq _)
  | roundUpPow2 c => exact .scalar rfl (fun s => show execRoundUpPow2 c s = _ from rfl) (typesTo64_eq _)
  | setLen c => exact .whole rfl (fun s => show execSetLen c s = _ from rfl) (fun _ _ _ _ => rfl) (typesAll_eq _)
  | getLen c => exact .getter rfl (fun s => show execGetLen c s = _ from rfl) (fun _ _ _ _ => rfl) rfl
  | setNum c => exact .whole rfl (fun s => show execSetNum c s = _ from rfl) (fun _ _ _ _ => rfl) (typesAll_eq _)
  | getNum c => exact .getter rfl (fun s => show execGetNum c s = _ from rfl) (fun _ _ _ _ => rfl) rfl
  | compress c => exact .whole rfl (fun s => show compressOp 4 .wrap c s = _ from rfl) (fun _ _ _ _ => rfl) (typesAll_eq _)
  | compressSs c => exact .whole rfl (fun s => show compressOp 5 .signedSat c s = _ from rfl) (fun _ _ _ _ => rfl) (typesAll_eq _)
  | compressUs c => exact .whole rfl (fun s => show compressOp 6 .unsignedSat c s = _ from rfl) (fun _ _ _ _ => rfl) (typesAll_eq _)
  | expandU c => exact .whole rfl (fun s => show expandOp 8 false c s = _ from rfl) (fun _ _ _ _ => rfl) (typesAll_eq _)
  | expandS c => exact .whole rfl (fun s => show expandOp 9 true c s = _ from rfl) (fun _ _ _ _ => rfl) (typesAll_eq _)
  | compressSparse c =>
    cases hm : c.rm with
    | none => exact .malformed (by simp [Instr.wf, Instr.maskOk, hm]) (fun s => execCompressSparse_unmasked s hm)
    | some m => exact .whole rfl (fun s => execCompressSparse_masked s hm) (fun _ _ _ _ => rfl) (typesAll_eq _)
  | expandSparse c =>
    cases hm : c.rm with
    | none => exact .malformed (by simp [Instr.wf, Instr.maskOk, hm]) (fun s => execExpandSparse_unmasked s hm)
    | some m => exact .whole rfl (fun s => execExpandSparse_masked s hm) (fun _ _ _ _ => rfl) (typesAll_eq _)
  | extract c =>
    refine .extract rfl (fun s => show execExtract c s = _ from rfl) (fun _ _ _ _ => rfl) rfl (fun s p hot => ?_) (fun s p => ?_)
    · dsimp only
      split
      · rfl
      · exact if_neg hot
    · dsimp only
      split <;> rfl
  | insert c =>
    refine .lane (vectorRs := false) rfl (fun s => show execInsert c s = _ from rfl) (fun _ _ _ _ => rfl) (typesAll_eq _)
      (by simp [opcodeOf]) (fun s off p hp hot => ?_) (fun s off p _ _ => ?_)
    · split
      · exact firstElementHigh_of_ne s hot
      · exact hp
    · split <;> rfl
  | broadcast c =>
    exact .lane (vectorRs := false) rfl (fun s => show execBroadcast c s = _ from rfl) (fun _ _ _ _ => rfl) (typesAll_eq _)
      (by simp [opcodeOf]) (fun s _ _ _ hot => firstElementHigh_of_ne s hot) (fun _ _ _ _ _ => rfl)
  | bits2bool c => exact .whole rfl (fun s => show execBits2bool c s = _ from rfl) (fun _ _ _ _ => rfl) (typesAll_eq _)
  | bool2bits c => exact .whole rfl (fun s => show execBool2bits c s = _ from rfl) (fun _ _ _ _ => rfl) (typesAll_eq _)
  | boolReduce c => exact .whole rfl (fun s => show execBoolReduce c s = _ from rfl) (fun _ _ _ _ => rfl) (typesInt_eq _)
  | categoryReduce c => exact .whole rfl (fun s => show execCategoryReduce c s = _ from rfl) (fun _ _ _ _ => rfl) (typesFloat_eq _)
  | shiftExpand c => exact .whole rfl (fun s => show execShiftExpand c s = _ from rfl) (fun _ _ _ _ => rfl) (typesAll_eq _)
  | shiftReduce c => exact .whole rfl (fun s => show execShiftReduce c s = _ from rfl) (fun _ _ _ _ => rfl) (typesAll_eq _)
  | shiftUp c => exact .whole rfl (fun s => show execShiftUp c s = _ from rfl) (fun _ _ _ _ => rfl) (typesAll_eq _)
  | shiftDown c => exact .whole rfl (fun s => show execShiftDown c s = _ from rfl) (fun _ _ _ _ => rfl) (typesAll_eq _)
  | rotateUp c => exact .whole rfl (fun s => show execRotateUp c s = _ from rfl) (fun _ _ _ _ => rfl) (typesAll_eq _)
  | rotateDown c => exact .whole rfl (fun s => show execRotateDown c s = _ from rfl) (fun _ _ _ _ => rfl) (typesAll_eq _)
  | addCarry c =>
    exact .pair (types := fun _ => typesInt64) rfl (fun s => show execAddCarry c s = _ from rfl) (fun _ _ _ _ => rfl)
      (fun _ _ _ _ => rfl) (fun _ hty _ => (typesInt64_eq _).trans hty) (by simp [opcodeOf]) (fun _ _ _ => carry_toNat_lt _ _)
  | subBorrow c =>
    exact .pair (types := fun _ => typesInt64) rfl (fun s => show execSubBorrow c s = _ from rfl) (fun _ _ _ _ => rfl)
      (fun _ _ _ _ => rfl) (fun _ hty _ => (typesInt64_eq _).trans hty) (by simp [opcodeOf]) (fun _ _ _ => carry_toNat_lt _ _)
  | divEx c =>
    exact .pair (types := fun s => divExTypes s.cfg) rfl (fun s => show execDivEx c s = _ from rfl) (fun _ _ _ _ => rfl)
      (fun _ _ _ _ => rfl) (fun _ hty hd => divExTypes_of_allowed hty (by simpa [DivisionAllowed, opcodeOf] using hd)) (by simp [opcodeOf])
      (fun _ _ _ => divExSigned_aux_lt _ _ _ _ _)
  | divExU c =>
    exact .pair (types := fun s => divExTypes s.cfg) rfl (fun s => show execDivExU c s = _ from rfl) (fun _ _ _ _ => rfl)
      (fun _ _ _ _ => rfl) (fun _ hty hd => divExTypes_of_allowed hty (by simpa [DivisionAllowed, opcodeOf] using hd)) (by simp [opcodeOf])
      (fun _ _ _ => divExUnsigned_aux_lt _ _ _ _ _ (uns_lt _ _))
  | addSs c =>
    exact classForm_saturating rfl rfl (fun _ => rfl) rfl (fun s => show execAddSs c s = _ from rfl) (fun _ _ _ _ => rfl) rfl
      (by simp [opcodeOf]) (fun _ _ _ _ => rfl)
  | subSs c =>
    exact classForm_saturating rfl rfl (fun _ => rfl) rfl (fun s => show execSubSs c s = _ from rfl) (fun _ _ _ _ => rfl) rfl
      (by simp [opcodeOf]) (fun _ _ _ _ => rfl)
  | addUs c =>
    exact classForm_saturating rfl rfl (fun _ => rfl) rfl (fun s => show execAddUs c s = _ from rfl) (fun _ _ _ _ => rfl) rfl
      (by simp [opcodeOf]) (fun _ _ _ _ => rfl)
  | subUs c =>
    exact classForm_saturating rfl rfl (fun _ => rfl) rfl (fun s => show execSubUs c s = _ from rfl) (fun _ _ _ _ => rfl) rfl
      (by simp [opcodeOf]) (fun _ _ _ _ => rfl)
  | mulSs c =>
    exact classForm_saturating rfl rfl (fun _ => rfl) rfl (fun s => show execMulSs c s = _ from rfl) (fun _ _ _ _ => rfl) rfl
      (by simp [opcodeOf]) (fun _ _ _ _ => rfl)
  | mulUs c =>
    exact classForm_saturating rfl rfl (fun _ => rfl) rfl (fun s => show execMulUs c s = _ from rfl) (fun _ _ _ _ => rfl) rfl
      (by simp [opcodeOf]) (fun _ _ _ _ => rfl)
  | addOc c =>
    exact classForm_checked rfl rfl rfl (fun s => show execAddOc c s = _ from rfl) (fun _ _ _ _ => rfl) rfl (by simp [opcodeOf])
  | subOc c =>
    exact classForm_checked rfl rfl rfl (fun s => show execSubOc c s = _ from rfl) (fun _ _ _ _ => rfl) rfl (by simp [opcodeOf])
  | mulOc c =>
    exact classForm_checked rfl rfl rfl (fun s => show execMulOc c s = _ from rfl) (fun _ _ _ _ => rfl) rfl (by simp [opcodeOf])
  | divOc c =>
    exact classForm_checked rfl rfl rfl (fun s => show execDivOc c s = _ from rfl) (fun _ _ _ _ => rfl) rfl (by simp [opcodeOf])
  | sqrt c =>
    refine .lane (vectorRs := true) rfl (fun s => show execSqrt c s = _ from rfl) (fun _ _ _ _ => rfl) (typesTo64_eq _)
      (by simp [opcodeOf]) (fun s off p _ _ => ?_) (fun s off p h128 hty => ?_)
    · dsimp only
      split
      · exact floatSqrt_aux _ _ _ _ _
      · exact intSqrt_aux _ _ _
    · have hty : OpType.upTo64Bits.contains c.ot = true := hty
      rw [show c.ot = .i128 from h128] at hty
      exact absurd hty (by decide)
  | absolute c =>
    by_cases himm : c.imm.toNat % 4 = 3
    · exact .malformed (by simp [Instr.wf, Instr.immOk, himm]) (fun s => if_pos himm)
    · exact .scalar rfl (fun s => if_neg himm) (typesInt64_eq _)
  | shiftAdd c => exact .scalar rfl (fun s => show execShiftAdd c s = _ from rfl) (typesInt64_eq _)
  | moveHi32 c => exact .scalar rfl (fun s => show execMoveHi32 c s = _ from rfl) (typesAll_eq _)
  | insertHi32 c => exact .scalar rfl (fun s => show execInsertHi32 c s = _ from rfl) (typesAll_eq _)
  | add32u c => exact .scalar rfl (fun s => show execAdd32u c s = _ from rfl) (typesAll_eq _)
  | sub32u c => exact .scalar rfl (fun s => show execSub32u c s = _ from rfl) (typesAll_eq _)
  | addHi32 c => exact .scalar rfl (fun s => show execAddHi32 c s = _ from rfl) (typesAll_eq _)
  | andHi32 c => exact .scalar rfl (fun s => show execAndHi32 c s = _ from rfl) (typesAll_eq _)
  | orHi32 c => exact .scalar rfl (fun s => show execOrHi32 c s = _ from rfl) (typesAll_eq _)
  | xorHi32 c => exact .scalar rfl (fun s => show execXorHi32 c s = _ from rfl) (typesAll_eq _)
  | replaceBits c =>
    cases himm : replaceBitsLegal c.imm with
    | false => exact .malformed (by simp [Instr.wf, immOk_replaceBits, himm]) (fun s => if_neg (by simp [himm]))
    | true => exact .scalar rfl (fun s => if_pos himm) (typesAll_eq _)
  | addressForm c => exact .address rfl

end Sys2Proof.Machine
end

section
/-! SUPPORT. What the command slots and the debug tag held before a command reaches nothing (R20, R32). -/

namespace Sys2Proof.Machine

open Sys2Proof

/-! ## Two runs that differ in the slots and the tag -/

/-- The same general-purpose registers, vector bytes, lengths and interrupts. -/
structure SameData (t u : State) : Prop where
  x : u.x = t.x
  mem : u.mem = t.mem
  vlen : u.vlen = t.vlen
  intRaised : u.intRaised = t.intRaised

/-- Both commands complete, with the same data. -/
def SameOutcome (o o' : StepOutcome) : Prop := ∃ t u, o = .next t ∧ o' = .next u ∧ SameData t u

/-- `s` with other command slots and another debug tag. -/
abbrev State.withSlots (s : State) (slots : Slots) (tag : BitVec 16) : State :=
  s.withUnread slots tag s.cfg.commitOnInterrupt

/-- The end of a command adds no difference. -/
theorem sameData_finishState {s s' t t' : State} (hs : SameData s s') (ht : SameData t t')
    (hcommit : s'.cfg.commitOnInterrupt = s.cfg.commitOnInterrupt) (hpc : t'.pc = t.pc)
    (tag : Option (BitVec 16)) (ks : List IntKind) : SameData (finishState s t tag ks) (finishState s' t' tag ks) := by
  constructor <;>
    simp [commits, hs.x, hs.mem, hs.vlen, ht.x, ht.mem, ht.vlen, ht.intRaised, hcommit, hpc]

theorem sameOutcome_illegal (s : State) (slots : Slots) (tag : BitVec 16) :
    SameOutcome (.next (illegal s)) (.next (illegal (s.withSlots slots tag))) :=
  ⟨_, _, rfl, rfl, rfl, rfl, rfl, rfl⟩

/-- A command that writes a general-purpose register writes the same value whatever slots stood before it. -/
theorem sameOutcome_setGpr (s : State) (slots a b : Slots) (tag : BitVec 16) (rd : RegIx) (v : Word)
    (tag' : Option (BitVec 16)) (ks : List IntKind) :
    SameOutcome (.next (finishState s (({ s with slots := a } : State).setGpr rd v) tag' ks))
      (.next (finishState (s.withSlots slots tag) (({ s.withSlots slots tag with slots := b } : State).setGpr rd v) tag' ks)) := by
  refine ⟨_, _, rfl, rfl, sameData_finishState ?_ ?_ ?_ ?_ _ _⟩
  · exact ⟨rfl, rfl, rfl, rfl⟩
  · exact ⟨rfl, rfl, rfl, rfl⟩
  · rfl
  · rfl

/-- The same for a vector register. -/
theorem sameOutcome_setVec (s : State) (slots a b : Slots) (tag : BitVec 16) (rd : RegIx) (bs : List Byte)
    (tag' : Option (BitVec 16)) (ks : List IntKind) :
    SameOutcome (.next (finishState s (({ s with slots := a } : State).setVec rd bs) tag' ks))
      (.next (finishState (s.withSlots slots tag) (({ s.withSlots slots tag with slots := b } : State).setVec rd bs) tag' ks)) := by
  refine ⟨_, _, rfl, rfl, sameData_finishState ?_ ?_ ?_ ?_ _ _⟩
  · exact ⟨rfl, rfl, rfl, rfl⟩
  · exact ⟨rfl, rfl, rfl, rfl⟩
  · rfl
  · rfl

section

variable (op : BitVec 6) (types : OpType → Bool) (masked vectorRs : Bool) (c : Fields) (s : State) (slots : Slots)
  (tag : BitVec 16)

theorem scalarOp_sameOutcome (handler : Parms → Ret) :
    SameOutcome (scalarOp op types c s handler) (scalarOp op types c (s.withSlots slots tag) handler) := by
  cases h : types c.ot with
  | false => rw [scalarOp_illegal h, scalarOp_illegal h]; exact sameOutcome_illegal ..
  | true => rw [scalarOp_eq h, scalarOp_eq h]; exact sameOutcome_setGpr ..

theorem getterOp_sameOutcome (result : Word) :
    SameOutcome (getterOp op types c s result) (getterOp op types c (s.withSlots slots tag) result) := by
  cases h : types c.ot with
  | false => rw [getterOp_illegal h, getterOp_illegal h]; exact sameOutcome_illegal ..
  | true => rw [getterOp_eq h, getterOp_eq h]; exact sameOutcome_setGpr ..

theorem wholeOp_sameOutcome (handler : Parms → List Byte × List IntKind) :
    SameOutcome (wholeOp op types masked c s handler) (wholeOp op types masked c (s.withSlots slots tag) handler) := by
  cases h : types c.ot with
  | false => rw [wholeOp_illegal h, wholeOp_illegal h]; exact sameOutcome_illegal ..
  | true => rw [wholeOp_eq h, wholeOp_eq h]; exact sameOutcome_setVec ..

theorem extractOp_sameOutcome (handler : Parms → Ret) :
    SameOutcome (extractOp op types c s handler) (extractOp op types c (s.withSlots slots tag) handler) := by
  cases h : types c.ot with
  | false => rw [extractOp_illegal h, extractOp_illegal h]; exact sameOutcome_illegal ..
  | true => rw [extractOp_eq h, extractOp_eq h]; exact sameOutcome_setVec ..

theorem loopOp_sameOutcome (lengthR stride : Nat) (fill : Nat → Parms) (handler : Nat → Parms → Ret)
    (bytes : Ret → List Byte) :
    SameOutcome (loopOp op c s lengthR stride fill handler bytes)
      (loopOp op c (s.withSlots slots tag) lengthR stride fill handler bytes) :=
  sameOutcome_setVec ..

theorem laneOp_sameOutcome (lengthR : Nat) (handler : Nat → Parms → Ret) :
    SameOutcome (laneOp op types masked vectorRs c s lengthR handler)
      (laneOp op types masked vectorRs c (s.withSlots slots tag) lengthR handler) := by
  cases h : types c.ot with
  | false => rw [laneOp_illegal h, laneOp_illegal h]; exact sameOutcome_illegal ..
  | true => rw [laneOp_eq h, laneOp_eq h]; exact loopOp_sameOutcome ..

theorem pairOp_sameOutcome (handler : Nat → Parms → Ret) :
    SameOutcome (pairOp op types masked c s handler) (pairOp op types masked c (s.withSlots slots tag) handler) := by
  cases h : types c.ot with
  | false => rw [pairOp_illegal h, pairOp_illegal h]; exact sameOutcome_illegal ..
  | true => rw [pairOp_eq h, pairOp_eq h]; exact loopOp_sameOutcome ..

end

/-- R20, R32: an instruction's data does not depend on the slots and the tag before it. -/
theorem exec_withSlots (i : Instr) (s : State) (slots : Slots) (tag : BitVec 16) :
    SameOutcome (exec i s) (exec i (s.withSlots slots tag)) := by
  cases classForm i with
  | malformed _ he => rw [he, he]; exact sameOutcome_illegal ..
  | scalar _ he => rw [he, he]; exact scalarOp_sameOutcome ..
  | address hi => subst hi; exact sameOutcome_setGpr ..
  | getter _ he hr => rw [he, he, hr]; exact getterOp_sameOutcome ..
  | whole _ he hr => rw [he, he, hr]; exact wholeOp_sameOutcome ..
  | extract _ he hr => rw [he, he, hr]; exact extractOp_sameOutcome ..
  | lane _ he hr => rw [he, he, hr, loopLength_ignoresUnread]; exact laneOp_sameOutcome ..
  | pair _ he hr hrt => rw [he, he, hr, hrt]; exact pairOp_sameOutcome ..

/-- Settles O21. -/
theorem commandSlotsCarryNothing : Obligations.CommandSlotsCarryNothing := by
  intro i s t u slots tag ht hu
  obtain ⟨t', u', ht', hu', hx, hmem, hvlen, hint⟩ := exec_withSlots i s slots tag
  obtain rfl : t' = t := Host.Outcome.next.inj (ht'.symm.trans ht)
  obtain rfl : u' = u := Host.Outcome.next.inj (hu'.symm.trans hu)
  exact ⟨hx, hmem, hvlen, hint⟩

end Sys2Proof.Machine
end

section
/-! SUPPORT. What the command slots hold after a command, per execution class (R24 to R28, R84). -/

namespace Sys2Proof.Machine

open Sys2Proof

/-! ## The parameter slots in the terms of a claim -/

theorem options_eq (masked : Bool) (c : Fields) (s : State) (off : Nat) :
    options masked c s off = if masked = true then maskedOptions c s off else s.numContr := by
  cases masked
  · rfl
  · cases hm : c.rm <;> simp [options, maskedOptions, hm, maskReg]

/-- R84, column "classes G, W, X", with the value a handler leaves in slot 5. -/
theorem wholeParms_set_aux (masked : Bool) (c : Fields) (s : State) (aux : Word) :
    (wholeParms masked c s).set 5 aux
      = #v[0, s.gpr c.rs, 0, if masked = true then maskedOptions c s 0 else s.numContr, c.imm.setWidth 64, aux] := by
  rw [wholeParms, options_eq]
  rfl

/-- R84, column "class L and P", with the value a handler leaves in slot 5; `g` says that `rs` is a general-purpose register. -/
theorem laneParms_set_aux {masked vectorRs : Bool} {g : Prop} [Decidable g] (hv : vectorRs = true ↔ ¬ g) (c : Fields)
    (s : State) (off : Nat) (aux : Word) :
    (laneParms masked vectorRs c s off).set 5 aux
      = #v[BitVec.ofNat 64 (s.velem c.rd off (min (dataSize c.ot) 8)),
          if g then s.gpr c.rs else BitVec.ofNat 64 (s.velem c.rs off (min (dataSize c.ot) 8)),
          BitVec.ofNat 64 (s.velem c.rt (if g then 0 else off) (min (dataSize c.ot) 8)),
          if masked = true then maskedOptions c s off else s.numContr, c.imm.setWidth 64, aux] := by
  rw [← options_eq]
  by_cases h : g
  · obtain rfl : vectorRs = false := by simpa [h] using hv
    simp only [if_pos h]
    rfl
  · obtain rfl : vectorRs = true := hv.mpr h
    simp only [if_neg h]
    rfl

/-- The decoder leaves slot 5 of a lane 0 but at 128 bits. -/
theorem laneParms_aux (masked vectorRs : Bool) {c : Fields} (s : State) (off : Nat) (h : c.ot ≠ .i128) :
    (laneParms masked vectorRs c s off).aux = 0 := if_neg h

/-! ## The upper half of an element -/

/-- Of elements that are pairs of equally long halves, the upper half of element `k`: what the handler left in `parm[5]`. -/
theorem Holds.velem_upper {s t : State} {rd : RegIx} {n size : Nat} {ret : Nat → Ret}
    (h : Holds s t rd ((List.range n).flatMap fun k => pairBytes size (ret k)))
    (hfit : n * (2 * size) ≤ s.cfg.maxVectorLength) {k : Nat} (hk : k < n) (hsize : (ret k).aux.toNat < 256 ^ size) :
    BitVec.ofNat 64 (t.velem rd (k * (2 * size) + size) size) = (ret k).aux := by
  have hbytes : ∀ j < size, t.vb rd (k * (2 * size) + size + j) = (leBytes size (ret k).aux.toNat).getD j 0 := by
    intro j hj
    rw [Nat.add_assoc, h.vb_elements (fun _ _ => length_pairBytes _ _) hfit k (size + j) hk (by omega), pairBytes,
      List.getD_append_right _ _ _ _ (by simp), length_leBytes, Nat.add_sub_cancel_left]
  rw [velem_of_getD (length_leBytes _ _) hbytes, leNat_leBytes, Nat.mod_eq_of_lt hsize, BitVec.ofNat_toNat,
    BitVec.setWidth_eq]

/-! ## The slots per class -/

section

variable {op : BitVec 6} {types : OpType → Bool} {masked vectorRs : Bool} {c : Fields} {s : State}

theorem scalarOp_slots (h : types c.ot = true) (handler : Parms → Ret) :
    ∃ t, scalarOp op types c s handler = .next t
      ∧ t.slots = { decodedSlots op c s with parm := scalarParms c s, vect := 0, running := 1 } :=
  ⟨_, scalarOp_eq h, by simp⟩

theorem getterOp_slots (h : types c.ot = true) (result : Word) :
    ∃ t, getterOp op types c s result = .next t
      ∧ t.slots = { decodedSlots op c s with parm := wholeParms false c s, vect := 0, running := 1 } :=
  ⟨_, getterOp_eq h, by simp⟩

theorem wholeOp_slots (h : types c.ot = true) (handler : Parms → List Byte × List IntKind) :
    ∃ t, wholeOp op types masked c s handler = .next t
      ∧ t.slots = { decodedSlots op c s with vectorOffset := 0, parm := wholeParms masked c s, vect := 4, running := 2 } :=
  ⟨_, wholeOp_eq h, by simp⟩

/-- `address_form` is a command of class S whose decoder also fills `memAddress` (R141). -/
theorem addressForm_slots (c : Fields) (s : State) :
    ∃ t, exec (.addressForm c) s = .next t
      ∧ t.slots = { decodedSlots 9 c s with
          parm := scalarParms c s, memAddress := s.gpr c.rt + c.imm.signExtend 64, vect := 0, running := 1 } :=
  ⟨_, rfl, by simp⟩

/-- Class X, with the bytes that go with what the handler left in slot 5. -/
theorem extractOp_slots (h : types c.ot = true) {handler : Parms → Ret} (hq : ∀ p, (handler p).raised = []) :
    ∃ t aux, extractOp op types c s handler = .next t ∧ aux = (handler (wholeParms false c s)).aux
      ∧ t.slots = { decodedSlots op c s with
          vectorOffset := 0, parm := (wholeParms false c s).set 5 aux, vect := 1, running := 1 }
      ∧ (c.ot = .i128 → 16 ≤ s.cfg.maxVectorLength → aux = BitVec.ofNat 64 (t.velem c.rd 8 8)) := by
  refine ⟨_, _, extractOp_eq h, rfl, by simp, fun h128 hmax => ?_⟩
  have hholds := holds_finish (s := s) (s' := { s with slots := { decodedSlots op c s with
      vectorOffset := 0
      parm := (wholeParms false c s).set 5 (handler (wholeParms false c s)).aux
      vect := 1
      running := 1 } }) (tag := none) (.inl (hq (wholeParms false c s))) c.rd
    ((List.range 1).flatMap fun _ => pairBytes 8 (handler (wholeParms false c s))) rfl
  have hbytes : (List.range 1).flatMap (fun _ => pairBytes 8 (handler (wholeParms false c s)))
      = (leBytes 8 (handler (wholeParms false c s)).result.toNat
          ++ leBytes 8 (handler (wholeParms false c s)).aux.toNat).take (dataSize c.ot) := by
    simp [h128, dataSize, pairBytes]
  have hupper := hholds.velem_upper (by omega) Nat.zero_lt_one (BitVec.isLt _)
  rw [hbytes] at hupper
  exact hupper.symm

/-! ### The loops -/

/-- R24, R25, R35, R36: the slots a loop leaves. -/
def loopSlots (op : BitVec 6) (c : Fields) (s : State) (lengthR stride : Nat) (fill : Nat → Parms)
    (handler : Nat → Parms → Ret) : Slots :=
  let base := { decodedSlots op c s with vectorLengthR := BitVec.ofNat 64 lengthR }
  match lengthR / stride with
  | 0 => base
  | k + 1 =>
    { base with
      vectorOffset := BitVec.ofNat 64 (k * stride)
      parm := (fill (k * stride)).set 5 (handler (k * stride) (fill (k * stride))).aux
      vect := 1
      running := 1 }

variable {lengthR stride : Nat} {fill : Nat → Parms} {handler : Nat → Parms → Ret} {bytes : Ret → List Byte}

theorem loopOp_eq : loopOp op c s lengthR stride fill handler bytes
    = .next (finishState s
        (({ s with slots := loopSlots op c s lengthR stride fill handler } : State).setVec c.rd
          ((List.range (lengthR / stride)).flatMap fun k => bytes (handler (k * stride) (fill (k * stride))))) none
        (loopRaised (lengthR / stride) fun k => handler (k * stride) (fill (k * stride)))) := by
  simp only [loopOp, finish_eq, loopRaised, List.flatMap_map]
  rfl

theorem loopOp_slots : ∃ t, loopOp op c s lengthR stride fill handler bytes = .next t
    ∧ t.slots = loopSlots op c s lengthR stride fill handler :=
  ⟨_, loopOp_eq, by simp⟩

/-- With or without an invocation the decoder's fields and the length stand. -/
theorem loopSlots_decoded (op : BitVec 6) (c : Fields) (s : State) (lengthR stride : Nat) (fill : Nat → Parms)
    (handler : Nat → Parms → Ret) :
    (loopSlots op c s lengthR stride fill handler).operandType = c.ot
    ∧ (loopSlots op c s lengthR stride fill handler).op = op
    ∧ (loopSlots op c s lengthR stride fill handler).operands = (decodedSlots op c s).operands
    ∧ (loopSlots op c s lengthR stride fill handler).vectorLengthR = BitVec.ofNat 64 lengthR := by
  unfold loopSlots
  dsimp only
  split <;> exact ⟨rfl, rfl, rfl, rfl⟩

/-- The slots of the last invocation, where there is one. -/
theorem loopSlots_last (hpos : 0 < stride) (h : stride ≤ lengthR) (op : BitVec 6) (c : Fields) (s : State)
    (fill : Nat → Parms) (handler : Nat → Parms → Ret) {last : Nat} (hlast : last = (lengthR / stride - 1) * stride) :
    loopSlots op c s lengthR stride fill handler = { decodedSlots op c s with
      vectorLengthR := BitVec.ofNat 64 lengthR
      vectorOffset := BitVec.ofNat 64 last
      parm := (fill last).set 5 (handler last (fill last)).aux
      vect := 1
      running := 1 } := by
  obtain ⟨k, hk⟩ := Nat.exists_eq_succ_of_ne_zero (Nat.div_pos h hpos).ne'
  subst hlast
  rw [loopSlots, hk]
  rfl

/-- A loop that commits over elements that are pairs of halves: the upper half of its last element. -/
theorem loopOp_upper {size : Nat} (hpos : 0 < size) (h : 2 * size ≤ lengthR)
    (hc : Committed s (loopRaised (lengthR / (2 * size)) fun k => handler (k * (2 * size)) (fill (k * (2 * size)))))
    (hfit : lengthR ≤ s.cfg.maxVectorLength) (haux : ∀ off p, (handler off p).aux.toNat < 256 ^ size) {last : Nat}
    (hlast : last = (lengthR / (2 * size) - 1) * (2 * size)) {t : State}
    (ht : loopOp op c s lengthR (2 * size) fill handler (pairBytes size) = .next t) :
    BitVec.ofNat 64 (t.velem c.rd (last + size) size) = (handler last (fill last)).aux := by
  rw [loopOp_eq] at ht
  obtain rfl := Host.Outcome.next.inj ht
  have hn : 0 < lengthR / (2 * size) := Nat.div_pos h (by omega)
  have hholds := holds_finish (s := s) (s' := { s with slots := loopSlots op c s lengthR (2 * size) fill handler })
    (tag := none) hc c.rd ((List.range (lengthR / (2 * size))).flatMap fun k =>
      pairBytes size (handler (k * (2 * size)) (fill (k * (2 * size))))) rfl
  subst hlast
  exact hholds.velem_upper ((Nat.div_mul_le_self _ _).trans hfit) (Nat.sub_one_lt hn.ne') (haux _ _)

end

end Sys2Proof.Machine
end

section
/-! SUPPORT. The statement about the command slots, assembled from what each class leaves in them. -/

namespace Sys2Proof.Machine

open Sys2Proof

/-- R27: the operand fields as a claim writes them. -/
theorem decodedSlots_operands (op : BitVec 6) (c : Fields) (s : State) :
    (decodedSlots op c s).operands
      = #v[c.rd, (match c.rm with | some m => ⟨m.val, by omega⟩ | none => 7), 0, 0, c.rs, c.rt] := by
  cases h : c.rm <;> simp [decodedSlots, maskField, maskReg, h]

/-- R24 to R28 for the loops: the decoder's fields and the length, and with an invocation the slots of the last one; `g` says
that `rs` is a general-purpose register. -/
theorem loopOp_filled {masked vectorRs : Bool} {g : Prop} [Decidable g] (hv : vectorRs = true ↔ ¬ g) (op : BitVec 6)
    (c : Fields) (s : State) (lengthR : Nat) {stride last : Nat} (hpos : 0 < stride)
    (hlast : last = (lengthR / stride - 1) * stride) (handler : Nat → Parms → Ret) (bytes : Ret → List Byte) :
    ∃ t, loopOp op c s lengthR stride (laneParms masked vectorRs c s) handler bytes = .next t
      ∧ t.slots.operandType = c.ot ∧ t.slots.op = op
      ∧ t.slots.operands = #v[c.rd, (match c.rm with | some m => ⟨m.val, by omega⟩ | none => 7), 0, 0, c.rs, c.rt]
      ∧ t.slots.vectorLengthR = BitVec.ofNat 64 lengthR
      ∧ (stride ≤ lengthR → t.slots.vectorOffset = BitVec.ofNat 64 last ∧ t.slots.vect = 1 ∧ t.slots.running = 1
        ∧ t.slots.parm = #v[BitVec.ofNat 64 (s.velem c.rd last (min (dataSize c.ot) 8)),
            if g then s.gpr c.rs else BitVec.ofNat 64 (s.velem c.rs last (min (dataSize c.ot) 8)),
            BitVec.ofNat 64 (s.velem c.rt (if g then 0 else last) (min (dataSize c.ot) 8)),
            if masked = true then maskedOptions c s last else s.numContr, c.imm.setWidth 64,
            (handler last (laneParms masked vectorRs c s last)).aux]) := by
  obtain ⟨t, hexec, hslots⟩ := loopOp_slots (op := op) (c := c) (s := s) (lengthR := lengthR) (stride := stride)
    (fill := laneParms masked vectorRs c s) (handler := handler) (bytes := bytes)
  obtain ⟨hot, hop, hoperands, hlength⟩ := loopSlots_decoded op c s lengthR stride (laneParms masked vectorRs c s) handler
  refine ⟨t, hexec, hslots ▸ hot, hslots ▸ hop, hslots ▸ hoperands.trans (decodedSlots_operands op c s), hslots ▸ hlength,
    fun hfirst => ?_⟩
  have hfilled := hslots.trans (loopSlots_last hpos hfirst op c s _ handler hlast)
  exact ⟨congrArg Slots.vectorOffset hfilled, congrArg Slots.vect hfilled, congrArg Slots.running hfilled,
    (congrArg Slots.parm hfilled).trans (laneParms_set_aux hv c s last _)⟩

/-- R33, R89: under legal lengths no loop runs past `MaxVectorLength`. -/
theorem loopLength_le {i : Instr} {s : State} (h : LengthsOk s) : loopLength i s ≤ s.cfg.maxVectorLength := by
  unfold loopLength
  split
  · exact h _
  · exact min_le_right _ _
  · exact h _
  · exact h _

/-- The loops of class P run over the first source. -/
theorem loopLength_pair {i : Instr} (h : opClass i = .pair) (s : State) : loopLength i s = s.len i.fields.rs := by
  unfold loopLength
  split
  · cases h
  · cases h
  · cases h
  · rfl

theorem dataSize_pos (ot : OpType) : 0 < dataSize ot := by cases ot <;> decide

/-- Settles O20, class by class. -/
theorem decoderFillsSlots : Obligations.DecoderFillsSlots := by
  intro i s hwf hdiv c opts gprSource length stride last lane
  have hty := typeOk_of_wf hwf
  cases classForm i with
  | malformed hw => exact absurd (hw.symm.trans hwf) Bool.false_ne_true
  | scalar hc he ht =>
    obtain ⟨t, hexec, hslots⟩ := scalarOp_slots (ht.trans hty) _
    exact ⟨t, (he s).trans hexec, congrArg Slots.operandType hslots, congrArg Slots.op hslots,
      (congrArg Slots.operands hslots).trans (decodedSlots_operands (minorOp i) c s),
      fun _ => congrArg Slots.parm hslots, fun _ => ⟨congrArg Slots.vect hslots, congrArg Slots.running hslots⟩,
      by simp [hc], by simp [hc], by simp [hc], by simp [hc]⟩
  | address hi =>
    subst hi
    obtain ⟨t, hexec, hslots⟩ := addressForm_slots c s
    exact ⟨t, hexec, congrArg Slots.operandType hslots, congrArg Slots.op hslots,
      (congrArg Slots.operands hslots).trans (decodedSlots_operands 9 c s),
      fun _ => congrArg Slots.parm hslots, fun _ => ⟨congrArg Slots.vect hslots, congrArg Slots.running hslots⟩,
      by simp [opClass], by simp [opClass], by simp [opClass], by simp [opClass]⟩
  | getter hc he hr hm =>
    obtain ⟨t, hexec, hslots⟩ := getterOp_slots (types := typesAll) rfl _
    rw [← hm] at hslots
    exact ⟨t, (he s).trans hexec, congrArg Slots.operandType hslots, congrArg Slots.op hslots,
      (congrArg Slots.operands hslots).trans (decodedSlots_operands (minorOp i) c s),
      by simp [hc], fun _ => ⟨congrArg Slots.vect hslots, congrArg Slots.running hslots⟩,
      fun _ => (congrArg Slots.parm hslots).trans (wholeParms_set_aux (showsMask i) c s 0),
      by simp [hc], by simp [hc], by simp [hc]⟩
  | whole hc he hr ht =>
    obtain ⟨t, hexec, hslots⟩ := wholeOp_slots (ht.trans hty) _
    exact ⟨t, (he s).trans hexec, congrArg Slots.operandType hslots, congrArg Slots.op hslots,
      (congrArg Slots.operands hslots).trans (decodedSlots_operands (minorOp i) c s),
      by simp [hc], by simp [hc], fun _ => (congrArg Slots.parm hslots).trans (wholeParms_set_aux (showsMask i) c s 0),
      fun _ => ⟨congrArg Slots.vectorOffset hslots, congrArg Slots.vect hslots, congrArg Slots.running hslots⟩,
      by simp [hc], by simp [hc]⟩
  | extract hc he hr hm haux hquiet =>
    obtain ⟨t, aux, hexec, rfl, hslots, hupper⟩ := extractOp_slots (types := typesAll) rfl (hquiet s)
    exact ⟨t, (he s).trans hexec, congrArg Slots.operandType hslots, congrArg Slots.op hslots,
      (congrArg Slots.operands hslots).trans (decodedSlots_operands (minorOp i) c s),
      by simp [hc], by simp [hc], by simp [hc], by simp [hc],
      fun _ => ⟨congrArg Slots.vectorOffset hslots, congrArg Slots.vect hslots, congrArg Slots.running hslots, _,
        (congrArg Slots.parm hslots).trans (hm ▸ wholeParms_set_aux (showsMask i) c s _), haux s _,
        fun h128 hcfg => hupper h128 hcfg.2⟩,
      by simp [hc]⟩
  | lane hc he hr ht hv haux hquiet =>
    have hstride : stride = dataSize c.ot := if_neg (by simp [hc])
    have hlast : last = (length / dataSize c.ot - 1) * dataSize c.ot := hstride ▸ rfl
    obtain ⟨t, hexec, hot, hop, hoperands, hlength, hfilled⟩ :=
      loopOp_filled hv (minorOp i) c s length (dataSize_pos _) hlast _ (laneBytes (dataSize c.ot))
    refine ⟨t, (he s).trans ((laneOp_eq (ht.trans hty)).trans hexec), hot, hop, hoperands,
      by simp [hc], by simp [hc], by simp [hc], by simp [hc], by simp [hc], fun _ => ⟨hlength, fun hfirst => ?_⟩⟩
    rw [hstride] at hfirst
    obtain ⟨hoffset, hvect, hrunning, hparm⟩ := hfilled hfirst
    refine ⟨hoffset, hvect, hrunning, _, hparm, fun _ hne => haux s last _ (laneParms_aux _ _ s last hne) hne,
      fun _ h128 hok => ?_, by simp [hc]⟩
    -- a 128-bit lane is a pair of 64-bit halves, and no handler of that width raises
    have hsize : dataSize c.ot = 2 * 8 := by rw [h128]; rfl
    rw [hsize] at hexec hfirst hlast
    exact (loopOp_upper (by decide) hfirst (.inl (by simp [loopRaised, hquiet s _ _ h128 hty])) (loopLength_le hok)
      (fun _ _ => BitVec.isLt _) hlast hexec).symm
  | pair hc he hr hrt ht hv haux =>
    have hstride : stride = 2 * dataSize c.ot := if_pos hc
    have hlen : length = s.len c.rs := loopLength_pair hc s
    have hlast : last = (s.len c.rs / (2 * dataSize c.ot) - 1) * (2 * dataSize c.ot) := hlen ▸ hstride ▸ rfl
    have hallowed := ht s hty hdiv
    obtain ⟨t, hexec, hot, hop, hoperands, hlength, hfilled⟩ :=
      loopOp_filled (iff_of_true rfl hv) (minorOp i) c s (s.len c.rs) (Nat.mul_pos Nat.two_pos (dataSize_pos _)) hlast _
        (pairBytes (dataSize c.ot))
    refine ⟨t, (he s).trans ((pairOp_eq hallowed).trans hexec), hot, hop, hoperands,
      by simp [hc], by simp [hc], by simp [hc], by simp [hc], by simp [hc], fun _ => ⟨hlen ▸ hlength, fun hfirst => ?_⟩⟩
    rw [hstride, hlen] at hfirst
    obtain ⟨hoffset, hvect, hrunning, hparm⟩ := hfilled hfirst
    refine ⟨hoffset, hvect, hrunning, _, hparm, by simp [hc], by simp [hc], fun _ hok => ?_⟩
    -- the run that commits whatever it raises has the same handler
    have hcommitting := he (s.withUnread s.slots s.returnType true)
    rw [hr, hrt, pairOp_eq hallowed, loopOp_eq] at hcommitting
    exact ⟨_, hcommitting, (loopOp_upper (s := s.withUnread s.slots s.returnType true) (dataSize_pos _) hfirst (.inr rfl)
      (hok _) (haux s) hlast loopOp_eq).symm⟩

end Sys2Proof.Machine
end

section
/-! SUPPORT. The command word and its fields (R70): a word carries an instruction when each of its fields is the instruction's
(`Carries`). Encoding gives the one word that carries it, and the decoder answers it for that word only. -/

namespace Sys2Proof

/-! ## The codes of the fields -/

theorem opTypeOfCode_eq_some_iff {n : Nat} {ot : OpType} : opTypeOfCode n = some ot ↔ n = opTypeCode ot := by
  constructor
  · intro h
    unfold opTypeOfCode at h
    split at h <;> cases h <;> rfl
  · rintro rfl
    cases ot <;> rfl

theorem opTypeOfCode_eq_none_iff {n : Nat} (h : n < 8) : opTypeOfCode n = none ↔ n = 7 := by
  interval_cases n <;> decide

theorem maskOfCode_maskCode (rm : Option (Fin 7)) : maskOfCode (maskCode rm) = rm := by
  cases rm with
  | none => rfl
  | some m => exact dif_pos m.isLt

theorem maskCode_maskOfCode {n : Nat} (h : n < 8) : maskCode (maskOfCode n) = n := by
  unfold maskOfCode
  split
  · rfl
  · exact (by omega : 7 = n)

theorem regOfField_val {n : Nat} (h : n < 32) : (regOfField n).val = n := Nat.mod_eq_of_lt h

theorem regOfField_coe (r : RegIx) : regOfField r.val = r := Fin.ext (regOfField_val r.isLt)

/-! ## The opcode map (R74) -/

/-- Every operation lies in table 0, 2, 3 or 4, in a slot of 6 bits. -/
theorem opcodeOf_bounds (i : Instr) : (opcodeOf i).1 < 5 ∧ (opcodeOf i).1 ≠ 1 ∧ (opcodeOf i).2 < 64 := by
  cases i <;> simp [opcodeOf]

/-- The slot of an operation holds an operation for whatever fields. -/
theorem operationAt_isSome (i : Instr) (c : Fields) : ∃ j, operationAt (opcodeOf i).1 (opcodeOf i).2 c = some j := by
  cases i <;> exact ⟨_, rfl⟩

theorem operationAt_opcodeOf (i : Instr) : operationAt (opcodeOf i).1 (opcodeOf i).2 i.fields = some i := by
  cases i <;> rfl

/-- A slot holds the operation whose opcode it is. -/
theorem opcodeOf_of_operationAt {tab op : Nat} {c : Fields} {i : Instr} (h : operationAt tab op c = some i) :
    opcodeOf i = (tab, op) ∧ i.fields = c := by
  unfold operationAt at h
  split at h <;> cases h <;> exact ⟨rfl, rfl⟩

/-! ## The word that carries an instruction -/

theorem cwField_lt (cw : Word) (lo n : Nat) : cwField cw lo n < 2 ^ n := Nat.mod_lt _ (Nat.two_pow_pos n)

theorem cwField_eq_extractLsb' (cw : Word) (lo n : Nat) : (cw.extractLsb' lo n).toNat = cwField cw lo n := by
  rw [BitVec.extractLsb'_toNat, Nat.shiftRight_eq_div_pow, cwField]

/-- R70: each field of `cw` is that of `i`, and the `zero` field is 0. -/
structure Carries (cw : Word) (i : Instr) : Prop where
  tab : cwField cw 61 3 = (opcodeOf i).1
  op : cwField cw 55 6 = (opcodeOf i).2
  ot : cwField cw 52 3 = opTypeCode i.fields.ot
  rd : cwField cw 47 5 = i.fields.rd.val
  rs : cwField cw 42 5 = i.fields.rs.val
  rt : cwField cw 37 5 = i.fields.rt.val
  rm : cwField cw 34 3 = maskCode i.fields.rm
  zero : cwField cw 32 2 = 0
  imm : cwField cw 0 32 = i.fields.imm.toNat

/-- No two fields of the layout overlap. -/
theorem carries_encode (i : Instr) : Carries (encode i) i := by
  obtain ⟨htab, -, hop⟩ := opcodeOf_bounds i
  have hot := Laws.OpcodeRow.opTypeCode_lt i.fields.ot
  have hrm := Laws.OpcodeRow.maskCode_lt i.fields.rm
  have hrd := i.fields.rd.isLt
  have hrs := i.fields.rs.isLt
  have hrt := i.fields.rt.isLt
  have himm := i.fields.imm.isLt
  constructor <;> simp only [cwField, encode, encodeNat, BitVec.toNat_ofNat] <;> omega

/-- The fields fill the 64 bits of the word. -/
theorem Carries.encode_eq {cw : Word} {i : Instr} (h : Carries cw i) : encode i = cw := by
  have hcw := cw.isLt
  obtain ⟨htab, hop, hot, hrd, hrs, hrt, hrm, hzero, himm⟩ := h
  apply BitVec.eq_of_toNat_eq
  rw [encode, BitVec.toNat_ofNat, encodeNat, ← htab, ← hop, ← hot, ← hrd, ← hrs, ← hrt, ← hrm, ← himm]
  simp only [cwField] at hzero ⊢
  omega

/-! ## The decoder -/

/-- The fields `decode` reads besides `tab`, `op` and `zero`, at an operand type. -/
def readFields (cw : Word) (ot : OpType) : Fields where
  ot := ot
  rd := regOfField (cwField cw 47 5)
  rs := regOfField (cwField cw 42 5)
  rt := regOfField (cwField cw 37 5)
  rm := maskOfCode (cwField cw 34 3)
  imm := BitVec.ofNat 32 (cwField cw 0 32)

/-- R70, R76: what the decoder accepts. -/
theorem decode_eq_ok_iff_operationAt {cw : Word} {i : Instr} :
    decode cw = .ok i ↔ cwField cw 61 3 < 5 ∧ cwField cw 32 2 = 0 ∧ ∃ ot, cwField cw 52 3 = opTypeCode ot
      ∧ operationAt (cwField cw 61 3) (cwField cw 55 6) (readFields cw ot) = some i := by
  simp only [← opTypeOfCode_eq_some_iff, readFields]
  unfold decode
  split_ifs with htab hzero
  · exact ⟨nofun, fun h => absurd h.1 htab.not_gt⟩
  · exact ⟨nofun, fun h => absurd h.2.1 hzero⟩
  · push Not at hzero
    cases hot : opTypeOfCode (cwField cw 52 3) with
    | none => simp
    | some ot =>
      dsimp only
      split <;> simp_all

theorem Carries.readFields_eq {cw : Word} {i : Instr} (h : Carries cw i) : readFields cw i.fields.ot = i.fields := by
  rw [readFields, h.rd, h.rs, h.rt, h.rm, h.imm]
  simp [regOfField_coe, maskOfCode_maskCode]

/-- The decoder answers `i` for the words that carry `i`, and for no other. -/
theorem decode_eq_ok_iff {cw : Word} {i : Instr} : decode cw = .ok i ↔ Carries cw i := by
  rw [decode_eq_ok_iff_operationAt]
  constructor
  · rintro ⟨-, hzero, ot, hot, hi⟩
    obtain ⟨hcode, hfields⟩ := opcodeOf_of_operationAt hi
    refine ⟨by rw [hcode], by rw [hcode], ?_, ?_, ?_, ?_, ?_, hzero, ?_⟩ <;> rw [hfields, readFields]
    · exact hot
    · exact (regOfField_val (cwField_lt cw 47 5)).symm
    · exact (regOfField_val (cwField_lt cw 42 5)).symm
    · exact (regOfField_val (cwField_lt cw 37 5)).symm
    · exact (maskCode_maskOfCode (cwField_lt cw 34 3)).symm
    · exact ((BitVec.toNat_ofNat _ _).trans (Nat.mod_eq_of_lt (cwField_lt cw 0 32))).symm
  · intro h
    refine ⟨h.tab ▸ (opcodeOf_bounds i).1, h.zero, i.fields.ot, h.ot, ?_⟩
    rw [h.readFields_eq, h.tab, h.op]
    exact operationAt_opcodeOf i

/-- Settles O1. -/
theorem decodeOfEncode : Obligations.DecodeOfEncode := fun i => decode_eq_ok_iff.mpr (carries_encode i)

/-- Settles O2. -/
theorem encodeOfDecode : Obligations.EncodeOfDecode := fun _ _ h => (decode_eq_ok_iff.mp h).encode_eq

/-- R76: a word is accepted when some operation has its opcode, its `zero` field is 0 and its `ot` is a type. -/
theorem exists_decode_eq_ok_iff {cw : Word} :
    (∃ i, decode cw = .ok i) ↔ (∃ i, opcodeOf i = (cwField cw 61 3, cwField cw 55 6))
      ∧ cwField cw 32 2 = 0 ∧ cwField cw 52 3 ≠ 7 := by
  constructor
  · rintro ⟨i, hi⟩
    have h := decode_eq_ok_iff.mp hi
    refine ⟨⟨i, by rw [h.tab, h.op]⟩, h.zero, ?_⟩
    rw [h.ot]
    exact (Laws.OpcodeRow.opTypeCode_lt _).ne
  · rintro ⟨⟨i, hi⟩, hzero, hot⟩
    obtain ⟨ot, hot⟩ := Option.ne_none_iff_exists'.mp (mt (opTypeOfCode_eq_none_iff (cwField_lt cw 52 3)).mp hot)
    obtain ⟨htab, -⟩ := opcodeOf_bounds i
    obtain ⟨j, hj⟩ := operationAt_isSome i (readFields cw ot)
    rw [hi] at htab hj
    exact ⟨j, decode_eq_ok_iff_operationAt.mpr ⟨htab, hzero, ot, opTypeOfCode_eq_some_iff.mp hot, hj⟩⟩

theorem exists_decode_eq_error_iff {cw : Word} : (∃ e, decode cw = .error e) ↔ ¬ ∃ i, decode cw = .ok i := by
  cases decode cw <;> simp

/-- Settles O3. The first two conditions say which tables have no operation, so the third covers them. -/
theorem illegalWordsAreExactlyThose : Obligations.IllegalWordsAreExactlyThose := by
  intro cw
  simp only [cwField_eq_extractLsb']
  rw [exists_decode_eq_error_iff, exists_decode_eq_ok_iff, not_and_or, not_and_or, not_exists, not_not]
  refine ⟨fun h => .inr (.inr h), ?_⟩
  rintro (htab | htab | h)
  · exact .inl fun i hi => (opcodeOf_bounds i).2.1 (hi ▸ htab)
  · exact .inl fun i hi => (hi ▸ (opcodeOf_bounds i).1).not_ge htab
  · exact h

end Sys2Proof
end

section
/-! SUPPORT. The step of the sequencer (R100): where it can be made it runs the word at `pc`, and an instruction completes. -/

namespace Sys2Proof.Machine

open Sys2Proof

/-! ## Where a step is possible -/

/-- R100: in a ready state the step runs the word at `pc`. -/
theorem step_eq_runWord {s : State} {cw : Word} (h : Ready s) (hcw : s.cmds[s.pc]? = some cw) : step s = runWord cw s := by
  obtain ⟨hcfg, hraised, hpc⟩ := h
  rw [step, if_neg (not_not.mpr hcfg), if_neg (not_not.mpr hraised), if_neg hpc.ne]
  simp only [State.fetch, hcw]

theorem runWord_of_error {cw : Word} {e : DecodeError} (h : decode cw = .error e) (s : State) :
    runWord cw s = .next (illegal s).advance := by
  rw [runWord, h]

theorem runWord_of_ok {cw : Word} {i : Instr} {s t : State} (h : decode cw = .ok i) (ht : exec i s = .next t) :
    runWord cw s = .next { t with pc := s.pc + 1 } := by
  obtain ⟨-, -, -, hpc⟩ := exec_kept ht
  rw [runWord, h, ← hpc]
  exact congrArg advanced ht

/-- No instruction stops. -/
theorem exec_completes (i : Instr) (s : State) : ∃ t, exec i s = .next t := by
  obtain ⟨hgpr, hvec⟩ := exec_cases i s
  by_cases hclass : opClass i = .scalar ∨ opClass i = .getter
  · rcases hgpr hclass with ht | ⟨_, _, _, _, -, ht, -⟩
    · exact ⟨_, ht⟩
    · exact ⟨_, ht⟩
  · obtain ⟨hs, hg⟩ := not_or.mp hclass
    rcases hvec hs hg with ht | ⟨_, _, _, -, ht, -⟩
    · exact ⟨_, ht⟩
    · exact ⟨_, ht⟩

/-- Settles O6. -/
theorem stepRunsDecodedInstruction : Obligations.StepRunsDecodedInstruction := by
  intro s cw i hs hcw hi
  obtain ⟨t, ht⟩ := exec_completes i s
  exact ⟨t, ht, (step_eq_runWord hs hcw).trans (runWord_of_ok hi ht)⟩

/-- Settles O7. -/
theorem stepOnIllegalWord : Obligations.StepOnIllegalWord := fun s _ _ hs hcw he =>
  (step_eq_runWord hs hcw).trans (runWord_of_error he s)

/-- Settles O8: the checks of `step` in their order. -/
theorem stepStopsWhereNoStepIsPossible : Obligations.StepStopsWhereNoStepIsPossible := by
  intro s
  refine ⟨fun hcfg hraised => ?_, fun hcfg hraised hend => ?_, fun hcfg hraised hpast => ?_, fun hcfg => ?_⟩
  · rw [step, if_neg (not_not.mpr hcfg), if_pos hraised]
  · rw [step, if_neg (not_not.mpr hcfg), if_neg (not_not.mpr hraised), if_pos hend]
  · rw [step, if_neg (not_not.mpr hcfg), if_neg (not_not.mpr hraised), if_neg hpast.ne']
    simp only [State.fetch, List.getElem?_eq_none hpast.le]
  · rw [step, if_pos hcfg]

/-! ## The host's load of a word (R102) -/

/-- The word placed at index `n` is the one there, whether the list reached to `n` or was lengthened. -/
theorem getElem?_placeCommand (cmds : List Word) (n : Nat) (w : Word) : (placeCommand cmds n w)[n]? = some w := by
  have hlen : (cmds.take n ++ List.replicate (n - cmds.length) 0).length = n := by
    rw [List.length_append, List.length_take, List.length_replicate]
    omega
  rw [placeCommand, List.getElem?_append_right hlen.le, hlen, Nat.sub_self]
  rfl

/-- `withFetchWord` places every bit of a 64-bit word where `step` fetches next. -/
theorem cmds_withFetchWord_pc (s : State) (w : Word) :
    (s.withFetchWord 64 w.toNat).cmds[(s.withFetchWord 64 w.toNat).pc]? = some w := by
  rw [withFetchWord_cmds, withFetchWord_pc, getElem?_placeCommand, Nat.mod_eq_of_lt w.isLt, BitVec.ofNat_toNat,
    BitVec.setWidth_eq]

theorem ready_withFetchWord {s : State} (hcfg : s.cfg.wf) (hraised : s.intRaised = []) (w : Word) :
    Ready (s.withFetchWord 64 w.toNat) :=
  ⟨hcfg, hraised, (List.getElem?_eq_some_iff.mp (cmds_withFetchWord_pc s w)).1⟩

/-- Settles O5: the word placed decodes to its instruction by O1. -/
theorem fetchedWordRuns : Obligations.FetchedWordRuns := fun s _ i hcfg hraised ht =>
  (step_eq_runWord (ready_withFetchWord hcfg hraised _) (cmds_withFetchWord_pc s _)).trans
    (runWord_of_ok (decodeOfEncode i) ht)

end Sys2Proof.Machine
end

section
/-! SUPPORT. What an instruction changes: its own destination register, and for an instruction that is not well formed
nothing but the interrupt record. -/

namespace Sys2Proof.Machine

open Sys2Proof

/-! ## The frame of each kind of destination (R92 to R94) -/

section

variable {s t u : State} {rd : RegIx}

/-- A state with the general-purpose registers, the bytes and the lengths of `t` has the frame of `t`. -/
theorem OnlyGpr.congr (h : OnlyGpr rd s t) (hx : u.x = t.x) (hmem : u.mem = t.mem) (hvlen : u.vlen = t.vlen) :
    OnlyGpr rd s u := by
  simpa only [OnlyGpr, State.gpr, State.len, hx, hmem, hvlen] using h

theorem OnlyVector.congr (h : OnlyVector rd s t) (hx : u.x = t.x) (hmem : u.mem = t.mem) (hvlen : u.vlen = t.vlen) :
    OnlyVector rd s u := by
  simpa only [OnlyVector, State.gpr, State.len, hx, hmem, hvlen] using h

theorem OnlyGpr.refl (rd : RegIx) (s : State) : OnlyGpr rd s s := ⟨fun _ _ => rfl, fun _ => rfl, fun _ => rfl⟩

theorem OnlyVector.refl (rd : RegIx) (s : State) : OnlyVector rd s s := ⟨fun _ => rfl, fun _ _ => rfl, fun _ _ => rfl⟩

/-- R287: the end of a command commits what the command wrote, or nothing; either way the frame is kept. -/
theorem onlyGpr_finishState (h : OnlyGpr rd s t) (tag : Option (BitVec 16)) (ks : List IntKind) :
    OnlyGpr rd s (finishState s t tag ks) := by
  by_cases hc : commits s ks
  · exact h.congr (by simp [hc]) (by simp [hc]) (by simp [hc])
  · exact (OnlyGpr.refl rd s).congr (by simp [hc]) (by simp [hc]) (by simp [hc])

theorem onlyVector_finishState (h : OnlyVector rd s t) (tag : Option (BitVec 16)) (ks : List IntKind) :
    OnlyVector rd s (finishState s t tag ks) := by
  by_cases hc : commits s ks
  · exact h.congr (by simp [hc]) (by simp [hc]) (by simp [hc])
  · exact (OnlyVector.refl rd s).congr (by simp [hc]) (by simp [hc]) (by simp [hc])

end

theorem WritesGpr.onlyGpr {i : Instr} {s t : State} (h : WritesGpr i s (.next t)) : OnlyGpr i.fields.rd s t := by
  rcases h with ht | ⟨slots, v, tag, ks, -, ht, -⟩
  · cases ht
    exact OnlyGpr.refl _ _
  · cases ht
    exact onlyGpr_finishState (onlyGpr_setGpr { s with slots := slots } _ v) tag ks

theorem WritesVector.onlyVector {i : Instr} {s t : State} (h : WritesVector i s (.next t)) :
    OnlyVector i.fields.rd s t := by
  rcases h with ht | ⟨slots, bs, ks, -, ht, -⟩
  · cases ht
    exact OnlyVector.refl _ _
  · cases ht
    exact onlyVector_finishState (onlyVector_setVec { s with slots := slots } _ bs) none ks

/-- R34: only `address_form` writes the slot `memAddress`. -/
theorem exec_memAddress {i : Instr} {s t : State} (h : exec i s = .next t) (hi : ∀ c, i ≠ .addressForm c) :
    t.slots.memAddress = s.slots.memAddress := by
  rcases exec_next_cases h with rfl | ⟨slots, v, tag, ks, hslots, rfl⟩ | ⟨slots, bs, ks, hslots, rfl⟩
  · rfl
  · simpa using hslots.memAddress hi
  · simpa using hslots.memAddress hi

/-- Settles O19. -/
theorem classFrames : Obligations.ClassFrames := by
  intro i s t h
  obtain ⟨hgpr, hvec⟩ := exec_cases i s
  rw [h] at hgpr hvec
  exact ⟨fun hclass => (hgpr hclass).onlyGpr, fun hs hg => (hvec hs hg).onlyVector, exec_kept h, exec_memAddress h⟩

/-! ## Instructions that are not well formed (R78) -/

theorem typeOk_of_opClass_getter {i : Instr} (h : opClass i = .getter) : i.typeOk = true := by
  cases i with
  | getLen c => exact (typesAll_eq c.ot).symm
  | getNum c => exact (typesAll_eq c.ot).symm
  | _ => cases h

theorem typeOk_of_opClass_extract {i : Instr} (h : opClass i = .extract) : i.typeOk = true := by
  cases i with
  | extract c => exact (typesAll_eq c.ot).symm
  | _ => cases h

theorem divExTypes_of_unsupported (cfg : Config) {ot : OpType} (h : OpType.integersUpTo64.contains ot = false) :
    divExTypes cfg ot = false := by
  rw [divExTypes, typesInt64_eq, h, Bool.false_and]

/-- R226: at 64 bits the parameter forbids the dividers. -/
theorem divExTypes_of_forbidden {cfg : Config} (h : cfg.divEx64 = .illegal) : divExTypes cfg .i64 = false := by
  simp [divExTypes, h]

/-- The pair operations at an operand type that is not in their set. -/
theorem exec_illegal_of_pair {i : Instr} (hclass : opClass i = .pair) (h : i.typeOk = false) (s : State) :
    exec i s = .next (illegal s) := by
  cases i with
  | addCarry c => exact pairOp_illegal ((typesInt64_eq c.ot).trans h)
  | subBorrow c => exact pairOp_illegal ((typesInt64_eq c.ot).trans h)
  | divEx c => exact pairOp_illegal (divExTypes_of_unsupported s.cfg h)
  | divExU c => exact pairOp_illegal (divExTypes_of_unsupported s.cfg h)
  | addOc c => exact pairOp_illegal ((typesInt64_eq c.ot).trans h)
  | subOc c => exact pairOp_illegal ((typesInt64_eq c.ot).trans h)
  | mulOc c => exact pairOp_illegal ((typesInt64_eq c.ot).trans h)
  | divOc c => exact pairOp_illegal ((typesInt64_eq c.ot).trans h)
  | _ => cases hclass

/-- R78: an operand type that is not in the operation's set; the classes differ in where they check it. -/
theorem exec_illegal_of_typeOk {i : Instr} (h : i.typeOk = false) (s : State) : exec i s = .next (illegal s) := by
  cases classForm i with
  | malformed _ he => exact he s
  | scalar _ he ht => exact (he s).trans (scalarOp_illegal (ht.trans h))
  | @address c hi =>
    have hok : (Instr.addressForm c).typeOk = true := (typesAll_eq c.ot).symm
    exact absurd hok (by simp [← hi, h])
  | getter hc _ _ _ => exact absurd (typeOk_of_opClass_getter hc) (by simp [h])
  | whole _ he _ ht => exact (he s).trans (wholeOp_illegal (ht.trans h))
  | extract hc _ _ _ _ _ => exact absurd (typeOk_of_opClass_extract hc) (by simp [h])
  | lane _ he _ ht _ _ _ => exact (he s).trans (laneOp_illegal (ht.trans h))
  | pair hc _ _ _ _ _ _ => exact exec_illegal_of_pair hc h s

/-- R118, R140: an immediate of a malformed shape. -/
theorem exec_illegal_of_immOk {i : Instr} (h : i.immOk = false) (s : State) : exec i s = .next (illegal s) := by
  cases i with
  | absolute c => exact if_pos (by simpa [Instr.immOk] using h)
  | replaceBits c => exact if_neg (by rw [← immOk_replaceBits, h]; exact Bool.false_ne_true)
  | _ => cases h

/-- R170, R171: a sparse operation without a mask register. -/
theorem exec_illegal_of_maskOk {i : Instr} (h : i.maskOk = false) (s : State) : exec i s = .next (illegal s) := by
  cases i with
  | compressSparse c => exact execCompressSparse_unmasked s (by simpa [Instr.maskOk] using h)
  | expandSparse c => exact execExpandSparse_unmasked s (by simpa [Instr.maskOk] using h)
  | _ => cases h

/-- Settles O12, by which of the three checks fails. -/
theorem notWellFormedIsIllegal : Obligations.NotWellFormedIsIllegal := by
  refine fun i s => ⟨fun hwf => ?_, fun hcfg c hot => ⟨?_, ?_⟩⟩
  · rw [Instr.wf, Bool.and_eq_false_iff, Bool.and_eq_false_iff] at hwf
    rcases hwf with (htype | himm) | hmask
    · exact exec_illegal_of_typeOk htype s
    · exact exec_illegal_of_immOk himm s
    · exact exec_illegal_of_maskOk hmask s
  · exact pairOp_illegal (hot ▸ divExTypes_of_forbidden hcfg)
  · exact pairOp_illegal (hot ▸ divExTypes_of_forbidden hcfg)

end Sys2Proof.Machine
end

section
/-! SUPPORT. The scalar bit and numeric helpers (R111 to R120): the values of their handlers in exact arithmetic, and from
these the effects of the six instructions. -/

namespace Sys2Proof.Machine

open Sys2Proof

/-! ## Operands of at most 64 bits -/

theorem typesTo64_of_ne {ot : OpType} (h : ot ≠ .i128) : typesTo64 ot = true := bne_iff_ne.mpr h

theorem typesTo64_of_eq {ot : OpType} (h : ot = .i128) : typesTo64 ot = false := h ▸ rfl

theorem typesInt64_of_mem {ot : OpType} (h : ot ∈ OpType.integersUpTo64) : typesInt64 ot = true :=
  (typesInt64_eq ot).trans (List.contains_iff_mem.mpr h)

theorem typeOk_eq_false {i : Instr} (h : i.fields.ot ∉ i.supportedTypes) : i.typeOk = false := by
  simpa [Instr.typeOk] using h

theorem ne_i128_of_mem {ot : OpType} (h : ot ∈ OpType.integersUpTo64) : ot ≠ .i128 := by
  rintro rfl
  exact absurd h (by decide)

theorem dataBits_pos (ot : OpType) : 0 < dataBits ot := Nat.mul_pos (by decide) (dataSize_pos ot)

theorem dataBits_le {ot : OpType} (h : ot ≠ .i128) : dataBits ot ≤ 64 := by
  cases ot with
  | i128 => exact absurd rfl h
  | _ => decide

/-- A general-purpose register holds every number of an operand type of at most 64 bits. -/
theorem toNat_ofNat_of_fits {ot : OpType} (h : ot ≠ .i128) {v : Nat} (hv : v < 2 ^ dataBits ot) :
    (BitVec.ofNat 64 v).toNat = v := by
  rw [BitVec.toNat_ofNat, Nat.mod_eq_of_lt (hv.trans_le (Nat.pow_le_pow_right (by decide) (dataBits_le h)))]

theorem masked_lt (ot : OpType) (v : Word) : masked ot v < 2 ^ dataBits ot := uns_lt _ _

/-- Masking an operand first does not change its signed reading. -/
theorem sgn_masked (ot : OpType) (v : Word) : sgn (dataBits ot) (masked ot v) = sgn (dataBits ot) v.toNat := by
  rw [sgn, uns_of_lt (masked_lt ot v), sgn, masked]

/-! ## The interrupts -/

theorem and_twoPow_bne_zero {k : Nat} (hk : k < 64) (o : Word) : (o &&& BitVec.twoPow 64 k != 0) = o.getLsbD k := by
  rw [BitVec.and_twoPow]
  cases o.getLsbD k with
  | false => rfl
  | true =>
    rw [if_pos rfl, bne_iff_ne]
    exact fun h => by simpa [hk] using congrArg (fun v : Word => v.getLsbD k) h

/-- R283: bit 2 of the options word enables the signed trap. -/
theorem trapS_eq (o : Word) : trapS o = o.getLsbD 2 := and_twoPow_bne_zero (k := 2) (by decide) o

/-- R283: bit 1 of the options word enables the unsigned trap. -/
theorem trapU_eq (o : Word) : trapU o = o.getLsbD 1 := and_twoPow_bne_zero (k := 1) (by decide) o

theorem raiseIf_eq_ite {cond : Bool} {P : Prop} [Decidable P] (h : cond = true ↔ P) (k : IntKind) :
    raiseIf cond k = if P then [k] else [] := if_congr h rfl rfl

theorem signedElseUnsigned_eq (opts : Word) : signedElseUnsigned opts =
    if opts.getLsbD 2 then [.overflSign] else if opts.getLsbD 1 then [.overflUnsign] else [] := by
  rw [signedElseUnsigned, trapS_eq, trapU_eq, raiseIf]

/-! ## The six instructions as operations of class S -/

section

variable (c : Fields) (s : State)

theorem exec_bitscanForward : exec (.bitscanForward c) s
    = scalarOp 0 typesTo64 c s fun p => { result := bitscanForward c.ot p.b } := rfl

theorem exec_bitscanReverse : exec (.bitscanReverse c) s
    = scalarOp 1 typesTo64 c s fun p => { result := bitscanReverse c.ot p.b } := rfl

theorem exec_roundDownPow2 : exec (.roundDownPow2 c) s
    = scalarOp 2 typesTo64 c s fun p => { result := roundDownPow2 c.ot p.b } := rfl

theorem exec_roundUpPow2 : exec (.roundUpPow2 c) s
    = scalarOp 3 typesTo64 c s fun p => roundUpPow2 c.ot p.b p.opts := rfl

theorem exec_absolute (h : c.imm.toNat % 4 ≠ 3) : exec (.absolute c) s
    = scalarOp 0 typesInt64 c s fun p => absolute c.ot p.b c.imm := if_neg h

theorem exec_shiftAdd : exec (.shiftAdd c) s
    = scalarOp 1 typesInt64 c s fun p => shiftAdd c.ot p.a p.b c.imm p.opts := rfl

end

/-- R88, R92: `scalarOp_effect` for a handler whose return on this state is known. -/
theorem scalarOp_effect_of_eq {i : Instr} {op : BitVec 6} {types : OpType → Bool} {c : Fields} {s : State}
    {handler : Parms → Ret} {r : Ret} {ks : List IntKind} {P : State → Prop} (hr : handler (scalarParms c s) = r)
    (hks : r.raised = ks) (he : exec i s = scalarOp op types c s handler) (hf : i.fields = c) (h : types c.ot = true)
    (hc : Committed s ks) (hP : ∀ t : State, t.gpr c.rd = r.result → P t) : GprEffect i s ks P := by
  subst hr hks
  exact scalarOp_effect he hf h hc hP

/-! ## The bit scans (R111, R112) -/

theorem testBit_of_width_le {w v j : Nat} (hv : v < 2 ^ w) (hj : w ≤ j) : v.testBit j = false :=
  Nat.testBit_lt_two_pow (hv.trans_le (Nat.pow_le_pow_right (by decide) hj))

/-- A pattern of `w` bits is 0 when none of them is set. -/
theorem eq_zero_of_testBit {w v : Nat} (hv : v < 2 ^ w) (h : ∀ j < w, v.testBit j = false) : v = 0 :=
  Nat.zero_of_testBit_eq_false fun j => (lt_or_ge j w).elim (h j) (testBit_of_width_le hv)

/-- The scan from below finds nothing exactly in 0. -/
theorem lowestBit_cases {w v : Nat} (hv : v < 2 ^ w) :
    (v = 0 ∧ lowestBit w v = none) ∨
      ∃ i < w, v ≠ 0 ∧ lowestBit w v = some i ∧ v.testBit i = true ∧ ∀ j < i, v.testBit j = false := by
  cases h : lowestBit w v with
  | none => exact .inl ⟨eq_zero_of_testBit hv (lowestBit_eq_none h), rfl⟩
  | some i =>
    obtain ⟨hi, hbit, hbelow⟩ := lowestBit_eq_some h
    exact .inr ⟨i, hi, fun hz => by simp [hz] at hbit, rfl, hbit, hbelow⟩

/-- The scan from above finds nothing exactly in 0, and else the exponent of the power of two below the pattern. -/
theorem highestBit_cases {w v : Nat} (hv : v < 2 ^ w) :
    (v = 0 ∧ highestBit w v = none) ∨ ∃ i < w, highestBit w v = some i ∧ 2 ^ i ≤ v ∧ v < 2 ^ (i + 1) := by
  cases h : highestBit w v with
  | none => exact .inl ⟨eq_zero_of_testBit hv (highestBit_eq_none h), rfl⟩
  | some i =>
    obtain ⟨hi, hbit, habove⟩ := highestBit_eq_some h
    refine .inr ⟨i, hi, rfl, Nat.ge_two_pow_of_testBit hbit, Nat.lt_pow_two_of_testBit v fun j hj => ?_⟩
    exact (lt_or_ge j w).elim (habove j hj) (testBit_of_width_le hv)

/-- R111. -/
theorem bitscanForward_spec {ot : OpType} (hot : ot ≠ .i128) (a : Word) :
    (masked ot a = 0 → bitscanForward ot a = BitVec.allOnes 64)
      ∧ (masked ot a ≠ 0 → (masked ot a).testBit (bitscanForward ot a).toNat = true
        ∧ ∀ j < (bitscanForward ot a).toNat, (masked ot a).testBit j = false) := by
  rcases lowestBit_cases (masked_lt ot a) with ⟨hz, h⟩ | ⟨i, hi, hz, h, hbit, hbelow⟩
  · rw [bitscanForward, h]
    exact ⟨fun _ => rfl, fun hne => absurd hz hne⟩
  · rw [bitscanForward, h]
    dsimp only
    rw [toNat_ofNat_of_fits hot (hi.trans Nat.lt_two_pow_self)]
    exact ⟨fun hz' => absurd hz' hz, fun _ => ⟨hbit, hbelow⟩⟩

/-- R112. -/
theorem bitscanReverse_spec {ot : OpType} (hot : ot ≠ .i128) (a : Word) :
    (masked ot a = 0 → bitscanReverse ot a = BitVec.allOnes 64)
      ∧ (masked ot a ≠ 0 → (masked ot a).testBit (bitscanReverse ot a).toNat = true
        ∧ ∀ j, (bitscanReverse ot a).toNat < j → (masked ot a).testBit j = false) := by
  rcases highestBit_cases (masked_lt ot a) with ⟨hz, h⟩ | ⟨i, hi, h, hle, hlt⟩
  · rw [bitscanReverse, h]
    exact ⟨fun _ => rfl, fun hne => absurd hz hne⟩
  · rw [bitscanReverse, h]
    dsimp only
    rw [toNat_ofNat_of_fits hot (hi.trans Nat.lt_two_pow_self)]
    exact ⟨fun hz => absurd hz (Nat.two_pow_pos i |>.trans_le hle).ne',
      fun _ => ⟨Nat.testBit_of_two_pow_le_and_two_pow_add_one_gt hle hlt, fun _ => testBit_of_width_le hlt⟩⟩

/-- Settles O23, by what each scan finds. -/
theorem bitscanResults : Obligations.BitscanResults := by
  refine fun c s => ⟨⟨rfl, rfl⟩, fun hot => ⟨?_, ?_⟩, fun hot => ⟨?_, ?_⟩⟩
  · refine scalarOp_effect_of_eq rfl rfl (exec_bitscanForward c s) rfl (typesTo64_of_ne hot) (.inl rfl) fun t ht => ?_
    rw [ht]
    exact bitscanForward_spec hot (s.gpr c.rt)
  · refine scalarOp_effect_of_eq rfl rfl (exec_bitscanReverse c s) rfl (typesTo64_of_ne hot) (.inl rfl) fun t ht => ?_
    rw [ht]
    exact bitscanReverse_spec hot (s.gpr c.rt)
  · exact (exec_bitscanForward c s).trans (scalarOp_illegal (typesTo64_of_eq hot))
  · exact (exec_bitscanReverse c s).trans (scalarOp_illegal (typesTo64_of_eq hot))

/-! ## The powers of two (R113, R114) -/

/-- R113. -/
theorem roundDownPow2_spec {ot : OpType} (hot : ot ≠ .i128) (a : Word) :
    (masked ot a = 0 → roundDownPow2 ot a = 0)
      ∧ (masked ot a ≠ 0 → (∃ k, (roundDownPow2 ot a).toNat = 2 ^ k) ∧ (roundDownPow2 ot a).toNat ≤ masked ot a
        ∧ masked ot a < 2 * (roundDownPow2 ot a).toNat) := by
  rcases highestBit_cases (masked_lt ot a) with ⟨hz, h⟩ | ⟨i, hi, h, hle, hlt⟩
  · rw [roundDownPow2, h]
    exact ⟨fun _ => rfl, fun hne => absurd hz hne⟩
  · rw [roundDownPow2, h]
    dsimp only
    rw [toNat_ofNat_of_fits hot (Nat.pow_lt_pow_right (by decide) hi), ← pow_succ']
    exact ⟨fun hz => absurd hz (Nat.two_pow_pos i |>.trans_le hle).ne', fun _ => ⟨⟨i, rfl⟩, hle, hlt⟩⟩

/-- The test of R114 for a power of two, at a number whose greatest set bit is bit `i`. -/
theorem and_sub_one_eq_zero_iff {m i : Nat} (hle : 2 ^ i ≤ m) (hlt : m < 2 ^ (i + 1)) :
    m &&& (m - 1) = 0 ↔ m = 2 ^ i := by
  rw [Nat.and_sub_one_eq_zero_iff_isPowerOfTwo (Nat.two_pow_pos i |>.trans_le hle).ne']
  constructor
  · rintro ⟨k, rfl⟩
    have hik : i ≤ k := (Nat.pow_le_pow_iff_right (by decide)).mp hle
    have hki : k < i + 1 := (Nat.pow_lt_pow_iff_right (by decide)).mp hlt
    rw [Nat.le_antisymm (Nat.lt_succ_iff.mp hki) hik]
  · exact fun h => ⟨i, h⟩

/-- R114: zero, a power of two that the width still holds, or the overflow. -/
theorem roundUpPow2_cases (ot : OpType) (a opts : Word) :
    (masked ot a = 0 ∧ roundUpPow2 ot a opts = { result := 0 })
      ∨ (∃ k < dataBits ot, masked ot a ≤ 2 ^ k ∧ 2 ^ k < 2 * masked ot a
          ∧ roundUpPow2 ot a opts = { result := BitVec.ofNat 64 (2 ^ k) })
      ∨ (2 ^ (dataBits ot - 1) < masked ot a
          ∧ roundUpPow2 ot a opts = { result := allOnes, raised := signedElseUnsigned opts }) := by
  rcases highestBit_cases (masked_lt ot a) with ⟨hz, h⟩ | ⟨i, hi, h, hle, hlt⟩
  · exact .inl ⟨hz, by simp only [roundUpPow2, h]⟩
  · have hpos := Nat.two_pow_pos i
    simp only [roundUpPow2, h, and_sub_one_eq_zero_iff hle hlt]
    split
    · rename_i heq
      exact .inr (.inl ⟨i, hi, heq.le, by omega, by rw [heq]⟩)
    · rename_i hne
      split
      · rename_i hfit
        exact .inr (.inl ⟨i + 1, hfit, hlt.le, by omega, rfl⟩)
      · obtain rfl : i = dataBits ot - 1 := by omega
        exact .inr (.inr ⟨by omega, rfl⟩)

/-- Settles O24, by where the operand lies among the powers of two. -/
theorem roundPow2Results : Obligations.RoundPow2Results := by
  refine fun c s => ⟨⟨rfl, rfl⟩, fun hot => ?_, fun hot => ⟨?_, ?_⟩⟩
  · intro w a ks
    refine ⟨?_, fun hc => ?_⟩
    · refine scalarOp_effect_of_eq rfl rfl (exec_roundDownPow2 c s) rfl (typesTo64_of_ne hot) (.inl rfl) fun t ht => ?_
      rw [ht]
      exact roundDownPow2_spec hot (s.gpr c.rt)
    · have hpos : 0 < 2 ^ (w - 1) := Nat.two_pow_pos _
      rcases roundUpPow2_cases c.ot (s.gpr c.rt) s.numContr with ⟨hz, h⟩ | ⟨k, hk, hle, hlt, h⟩ | ⟨hover, h⟩
      · change a = 0 at hz
        have hks : [] = ks := (if_pos (by omega)).symm
        refine scalarOp_effect_of_eq h hks (exec_roundUpPow2 c s) rfl (typesTo64_of_ne hot) hc fun t ht => ?_
        exact ⟨fun _ => ht, fun hne => absurd hz hne, fun h => by omega⟩
      · change a ≤ 2 ^ k at hle
        change 2 ^ k < 2 * a at hlt
        have hkw : 2 ^ k ≤ 2 ^ (w - 1) := Nat.pow_le_pow_right (by decide) (Nat.le_sub_one_of_lt hk)
        have hks : [] = ks := (if_pos (by omega)).symm
        refine scalarOp_effect_of_eq h hks (exec_roundUpPow2 c s) rfl (typesTo64_of_ne hot) hc fun t ht => ?_
        rw [ht, toNat_ofNat_of_fits hot (Nat.pow_lt_pow_right (by decide) hk)]
        exact ⟨fun hz => by omega, fun _ _ => ⟨⟨k, rfl⟩, hle, hlt⟩, fun h => by omega⟩
      · change 2 ^ (w - 1) < a at hover
        have hks : signedElseUnsigned s.numContr = ks :=
          (signedElseUnsigned_eq s.numContr).trans (if_neg hover.not_ge).symm
        refine scalarOp_effect_of_eq h hks (exec_roundUpPow2 c s) rfl (typesTo64_of_ne hot) hc fun t ht => ?_
        exact ⟨fun hz => by omega, fun _ h => by omega, fun _ => ht⟩
  · exact (exec_roundDownPow2 c s).trans (scalarOp_illegal (typesTo64_of_eq hot))
  · exact (exec_roundUpPow2 c s).trans (scalarOp_illegal (typesTo64_of_eq hot))

/-! ## The magnitude (R118) -/

theorem two_pow_pred_int {w : Nat} (hw : 0 < w) : (2 : Int) ^ w = 2 * 2 ^ (w - 1) :=
  mod_cast two_pow_pred hw

/-- A pattern of nonnegative signed reading is that reading. -/
theorem sgn_of_nonneg {w v : Nat} (h : 0 ≤ sgn w v) : (uns w v : Int) = sgn w v := by
  have hlt : ((uns w v : Nat) : Int) < 2 ^ w := by exact_mod_cast uns_lt w v
  unfold sgn at h ⊢
  split <;> omega

/-- R118: the magnitude where the type holds it, else the policy's value and the interrupt of `imm[2]`. -/
theorem absolute_cases (ot : OpType) (a : Word) (imm : BitVec 32) :
    (sgn (dataBits ot) a.toNat ≠ minSigned (dataBits ot) ∧ ∃ v : Nat, (v : Int) = |sgn (dataBits ot) a.toNat|
        ∧ v < 2 ^ dataBits ot ∧ absolute ot a imm = { result := BitVec.ofNat 64 v })
      ∨ (sgn (dataBits ot) a.toNat = minSigned (dataBits ot) ∧ absolute ot a imm =
        { result := BitVec.ofNat 64 (absoluteOverflow (dataBits ot) (imm.toNat % 4))
          raised := raiseIf (imm.getLsbD 2) .overflSign }) := by
  have hmin : minSigned (dataBits ot) < 0 := neg_lt_zero.mpr (by positivity)
  have hlow := (sgn_range (dataBits_pos ot) a.toNat).1
  simp only [absolute, sgn_masked]
  split
  · rename_i h
    exact .inl ⟨(hmin.trans_le h).ne', masked ot a, (sgn_of_nonneg h).trans (abs_of_nonneg h).symm, masked_lt ot a, rfl⟩
  · rename_i hneg
    split
    · rename_i h
      have hv : ((-sgn (dataBits ot) a.toNat).toNat : Int) = -sgn (dataBits ot) a.toNat := Int.toNat_of_nonneg (by omega)
      refine .inl ⟨h.ne', _, hv.trans (abs_of_neg (not_le.mp hneg)).symm, ?_, rfl⟩
      have hw := two_pow_pred_int (dataBits_pos ot)
      unfold minSigned at h hmin
      zify
      omega
    · exact .inr ⟨by omega, rfl⟩

theorem absoluteOverflow_lt (ot : OpType) (policy : Nat) : absoluteOverflow (dataBits ot) policy < 2 ^ dataBits ot := by
  have hw := two_pow_pred (dataBits_pos ot)
  have hpos := Nat.two_pow_pos (dataBits ot - 1)
  unfold absoluteOverflow signBit
  split <;> omega

/-- Settles O25, by whether the operand is the least signed value. -/
theorem absoluteResult : Obligations.AbsoluteResult := by
  refine fun c s => ⟨rfl, ?_, fun himm hot => ?_⟩
  · rintro (himm | hot)
    · exact exec_illegal_of_immOk (by simp [Instr.immOk, himm]) s
    · exact exec_illegal_of_typeOk (i := .absolute c) (typeOk_eq_false hot) s
  · intro w a ks hc
    rcases absolute_cases c.ot (s.gpr c.rt) c.imm with ⟨hne, v, hv, hlt, h⟩ | ⟨heq, h⟩
    · change a ≠ minSigned w at hne
      have hks : [] = ks := (if_neg fun hand => hne hand.1).symm
      refine scalarOp_effect_of_eq h hks (exec_absolute c s himm) rfl (typesInt64_of_mem hot) hc fun t ht => ?_
      rw [ht, toNat_ofNat_of_fits (ne_i128_of_mem hot) hlt]
      exact ⟨fun _ => hv, fun h => absurd h hne, fun h => absurd h hne, fun h => absurd h hne⟩
    · change a = minSigned w at heq
      have hks : raiseIf (c.imm.getLsbD 2) .overflSign = ks := raiseIf_eq_ite (and_iff_right heq).symm _
      refine scalarOp_effect_of_eq h hks (exec_absolute c s himm) rfl (typesInt64_of_mem hot) hc fun t ht => ?_
      rw [ht, toNat_ofNat_of_fits (ne_i128_of_mem hot) (absoluteOverflow_lt _ _)]
      exact ⟨fun hne => absurd heq hne, fun _ h => by rw [h]; rfl, fun _ h => by rw [h]; rfl, fun _ h => by rw [h]; rfl⟩

/-! ## Shift and add (R120) -/

theorem overS_iff (w : Nat) (t : Int) : overS w t = true ↔ t < minSigned w ∨ maxSigned w < t := by
  rw [overS, decide_eq_true_iff, gt_iff_lt, or_comm]

theorem overU_natCast_iff (w t : Nat) : overU w t = true ↔ 2 ^ w ≤ t := by
  have hpos := Nat.two_pow_pos w
  rw [overU, decide_eq_true_iff, maxUnsigned]
  omega

theorem sgn_eq_zero_iff {w v : Nat} (hv : v < 2 ^ w) : sgn w v = 0 ↔ v = 0 := by
  have hlt : (v : Int) < 2 ^ w := by exact_mod_cast hv
  have hpos := Nat.two_pow_pos (w - 1)
  rw [sgn, uns_of_lt hv]
  split <;> omega

/-- R120: the shifted operand modulo the width, for every shift count. -/
theorem shifted_eq_mod (w b n : Nat) : (if n < w then uns w (b * 2 ^ n) else 0) = b * 2 ^ n % 2 ^ w := by
  split
  · rfl
  · exact (Nat.mod_eq_zero_of_dvd (Dvd.dvd.mul_left (pow_dvd_pow 2 (by omega)) b)).symm

/-- R120: bits are lost exactly when the product does not fit, also for counts of the width or more. -/
theorem shiftLosesU_iff (w b n : Nat) : shiftLosesU w b n = true ↔ 2 ^ w ≤ b * 2 ^ n := by
  unfold shiftLosesU
  split
  · exact overU_natCast_iff w _
  · rename_i hn
    have hle : 2 ^ w ≤ 2 ^ n := Nat.pow_le_pow_right (by decide) (not_lt.mp hn)
    rw [bne_iff_ne]
    constructor
    · exact fun hb => hle.trans (Nat.le_mul_of_pos_left _ (Nat.pos_of_ne_zero hb))
    · rintro h rfl
      have hpos := Nat.two_pow_pos w
      omega

/-- A nonzero multiple of `2 ^ n` with `w ≤ n` does not fit the signed `w`-bit type. -/
theorem mul_two_pow_not_fits {w n : Nat} (hw : 0 < w) (hn : w ≤ n) {t : Int} (ht : t ≠ 0) :
    t * 2 ^ n < minSigned w ∨ maxSigned w < t * 2 ^ n := by
  have hle : (2 : Int) ^ w ≤ 2 ^ n := pow_le_pow_right₀ (by decide) hn
  have hdouble := two_pow_pred_int hw
  have hpos : (0 : Int) < 2 ^ (w - 1) := by positivity
  unfold minSigned maxSigned
  rcases lt_or_gt_of_ne ht with h | h
  · have : t * 2 ^ n ≤ -1 * 2 ^ n := Int.mul_le_mul_of_nonneg_right (by omega) (by positivity)
    exact .inl (by omega)
  · have : 1 * 2 ^ n ≤ t * 2 ^ n := Int.mul_le_mul_of_nonneg_right (by omega) (by positivity)
    exact .inr (by omega)

theorem shiftLosesS_iff {w b : Nat} (hw : 0 < w) (hb : b < 2 ^ w) (n : Nat) :
    shiftLosesS w b n = true ↔ sgn w b * 2 ^ n < minSigned w ∨ maxSigned w < sgn w b * 2 ^ n := by
  unfold shiftLosesS
  split
  · exact overS_iff w _
  · rename_i hn
    rw [bne_iff_ne]
    constructor
    · exact fun h => mul_two_pow_not_fits hw (not_lt.mp hn) ((sgn_eq_zero_iff hb).not.mpr h)
    · rintro h rfl
      have hpos : (0 : Int) < 2 ^ (w - 1) := by positivity
      rw [(sgn_eq_zero_iff hb).mpr rfl, zero_mul, minSigned, maxSigned] at h
      omega

/-- R120, the shift count compared with the width nowhere but in the loss conditions. -/
theorem shiftAdd_eq (ot : OpType) (a b : Word) (imm : BitVec 32) (opts : Word) :
    let w := dataBits ot
    let r1 := masked ot b * 2 ^ imm.toNat % 2 ^ w
    shiftAdd ot a b imm opts =
      { result := BitVec.ofNat 64 ((masked ot a + masked ot b * 2 ^ imm.toNat) % 2 ^ w)
        raised :=
          raiseIf (trapS opts && (shiftLosesS w (masked ot b) imm.toNat || overS w (sgn w (masked ot a) + sgn w r1)))
            .overflSign
          ++ raiseIf (trapU opts && (shiftLosesU w (masked ot b) imm.toNat || overU w (masked ot a + r1 : Nat)))
            .overflUnsign } := by
  simp only [shiftAdd, shifted_eq_mod]
  rw [uns, Nat.add_mod_mod]

/-- Settles O26, from the loss conditions as bounds on the exact products and sums. -/
theorem shiftAddResult : Obligations.ShiftAddResult := by
  refine fun c s => ⟨rfl, fun hot => exec_illegal_of_typeOk (i := .shiftAdd c) (typeOk_eq_false hot) s, fun hot => ?_⟩
  intro w a b r1 outS ks hc
  have hb : b < 2 ^ w := uns_lt w _
  have hS : (trapS s.numContr && (shiftLosesS w b c.imm.toNat || overS w (sgn w a + sgn w r1))) = true
      ↔ s.numContr.getLsbD 2 = true ∧ (outS (sgn w b * 2 ^ c.imm.toNat) ∨ outS (sgn w a + sgn w r1)) := by
    rw [Bool.and_eq_true, Bool.or_eq_true, trapS_eq, shiftLosesS_iff (dataBits_pos c.ot) hb, overS_iff]
  have hU : (trapU s.numContr && (shiftLosesU w b c.imm.toNat || overU w (a + r1 : Nat))) = true
      ↔ s.numContr.getLsbD 1 = true ∧ (2 ^ w ≤ b * 2 ^ c.imm.toNat ∨ 2 ^ w ≤ a + r1) := by
    rw [Bool.and_eq_true, Bool.or_eq_true, trapU_eq, shiftLosesU_iff, overU_natCast_iff]
  refine scalarOp_effect_of_eq (shiftAdd_eq c.ot (s.gpr c.rs) (s.gpr c.rt) c.imm s.numContr)
    (congrArg₂ (· ++ ·) (raiseIf_eq_ite hS _) (raiseIf_eq_ite hU _)) (exec_shiftAdd c s) rfl (typesInt64_of_mem hot) hc
    fun t ht => ?_
  rw [ht]
  exact toNat_ofNat_of_fits (ne_i128_of_mem hot) (Nat.mod_lt _ (Nat.two_pow_pos _))

end Sys2Proof.Machine
end

section
/-! SUPPORT. The wide-immediate operations (R131 to R141): their values in exact arithmetic and bit by bit, and from these the
effects of the ten instructions. -/

namespace Sys2Proof.Machine

open Sys2Proof

/-! ## The high-shifted immediate (R130) -/

theorem toNat_imm_setWidth (imm : BitVec 32) : (imm.setWidth 64).toNat = imm.toNat :=
  BitVec.toNat_setWidth_of_le (by decide)

/-- R130: the immediate has 32 bits, so the shift loses none. -/
theorem toNat_hi32 (imm : BitVec 32) : (hi32 (imm.setWidth 64)).toNat = imm.toNat * 2 ^ 32 := by
  have hlt := imm.isLt
  rw [hi32, BitVec.toNat_shiftLeft, toNat_imm_setWidth, Nat.shiftLeft_eq]
  exact Nat.mod_eq_of_lt (by omega)

theorem hi32_eq_ofNat (imm : BitVec 32) : hi32 (imm.setWidth 64) = BitVec.ofNat 64 (imm.toNat * 2 ^ 32) := by
  rw [← toNat_hi32, BitVec.ofNat_toNat, BitVec.setWidth_eq]

/-! ## The eight operations with a plain immediate (R131 to R138) -/

/-- R132: the two halves do not overlap, so their disjunction is their sum. -/
theorem toNat_insertHi32 (a : Word) (imm : BitVec 32) :
    (hi32 (imm.setWidth 64) ||| (a &&& 0xFFFFFFFF)).toNat = imm.toNat * 2 ^ 32 + a.toNat % 2 ^ 32 := by
  have hlow : (a &&& 0xFFFFFFFF).toNat = a.toNat % 2 ^ 32 := Nat.and_two_pow_sub_one_eq_mod a.toNat 32
  have hlt : a.toNat % 2 ^ 32 < 2 ^ 32 := Nat.mod_lt _ (by decide)
  rw [BitVec.toNat_or, toNat_hi32, hlow, Nat.mul_comm, Nat.two_pow_add_eq_or_of_lt hlt]

/-- R134: subtraction wraps at 64 bits. -/
theorem toNat_sub32u (a : Word) (imm : BitVec 32) :
    ((a - imm.setWidth 64).toNat : Int) = ((a.toNat : Int) - imm.toNat) % 2 ^ 64 := by
  have hlt := imm.isLt
  rw [BitVec.toNat_sub, toNat_imm_setWidth]
  omega

/-- R88, R92: a command of class S that accepts every operand type, reads `x[rt]` and the immediate, and raises nothing. -/
theorem wideImmediate_effect {i : Instr} {op : BitVec 6} {c : Fields} {s : State} {P : State → Prop}
    (f : Word → Word → Word) (he : exec i s = scalarOp op typesAll c s fun p => { result := f p.b p.imm })
    (hf : i.fields = c) (hP : ∀ t : State, t.gpr c.rd = f (s.gpr c.rt) (c.imm.setWidth 64) → P t) :
    GprEffect i s [] P :=
  scalarOp_effect he hf rfl (.inl rfl) hP

/-- Settles O27, one operation after the other. -/
theorem wideImmediateResults : Obligations.WideImmediateResults := by
  intro c s a imm hi
  have hhi : hi32 (c.imm.setWidth 64) = hi := hi32_eq_ofNat c.imm
  refine ⟨⟨rfl, rfl, rfl, rfl, rfl, rfl, rfl, rfl⟩, ?_, ?_, ?_, ?_, ?_, ?_, ?_, ?_⟩
  · exact wideImmediate_effect (fun _ v => hi32 v) rfl rfl fun t ht => by rw [ht, toNat_hi32]
  · exact wideImmediate_effect (fun b v => hi32 v ||| (b &&& 0xFFFFFFFF)) rfl rfl fun t ht => by
      rw [ht, toNat_insertHi32]
  · exact wideImmediate_effect (fun b v => b + v) rfl rfl fun t ht => by rw [ht, BitVec.toNat_add, toNat_imm_setWidth]
  · exact wideImmediate_effect (fun b v => b - v) rfl rfl fun t ht => by rw [ht, toNat_sub32u]
  · exact wideImmediate_effect (fun b v => b + hi32 v) rfl rfl fun t ht => by rw [ht, BitVec.toNat_add, toNat_hi32]
  · exact wideImmediate_effect (fun b v => b &&& hi32 v) rfl rfl fun t ht => by rw [ht, hhi]
  · exact wideImmediate_effect (fun b v => b ||| hi32 v) rfl rfl fun t ht => by rw [ht, hhi]
  · exact wideImmediate_effect (fun b v => b ^^^ hi32 v) rfl rfl fun t ht => by rw [ht, hhi]

/-! ## Replacing a window of bits (R140) -/

/-- R140: the mask of the `n` lowest bits. -/
theorem getLsbD_ofNat_two_pow_sub_one (n : Nat) {j : Nat} (hj : j < 64) :
    (BitVec.ofNat 64 (2 ^ n - 1)).getLsbD j = decide (j < n) := by
  rw [BitVec.getLsbD_ofNat, Nat.testBit_two_pow_sub_one, decide_eq_true hj, Bool.true_and]

/-- R140: masking moves `v` into the window and leaves `a` around it. -/
theorem getLsbD_window (a v : Word) (start count : Nat) {j : Nat} (hj : j < 64) :
    let mask : Word := BitVec.ofNat 64 (2 ^ count - 1)
    ((a &&& ~~~(mask <<< start)) ||| ((v &&& mask) <<< start)).getLsbD j =
      if start ≤ j ∧ j < start + count then v.getLsbD (j - start) else a.getLsbD j := by
  intro mask
  have hmask : mask.getLsbD (j - start) = decide (j - start < count) :=
    getLsbD_ofNat_two_pow_sub_one count ((Nat.sub_le j start).trans_lt hj)
  simp only [BitVec.getLsbD_or, BitVec.getLsbD_and, BitVec.getLsbD_not, BitVec.getLsbD_shiftLeft, hmask]
  rcases Nat.lt_or_ge j start with hbelow | hge
  · have hout : ¬ start ≤ j := by omega
    simp [hj, hbelow, hout]
  · have habove : ¬ j < start := by omega
    by_cases hin : j - start < count
    · have hwindow : j < start + count := by omega
      simp [hj, hge, habove, hin, hwindow]
    · have hout : ¬ j < start + count := by omega
      simp [hj, hin, hout]

/-- R140: the byte of the packed immediate that holds the start of the window. -/
theorem toNat_windowStart (imm : BitVec 32) : (imm.extractLsb' 16 8).toNat = imm.toNat / 2 ^ 16 % 2 ^ 8 := by
  rw [BitVec.extractLsb'_toNat, Nat.shiftRight_eq_div_pow]

/-- R140: the top byte of the packed immediate, the width of the window. -/
theorem toNat_windowCount (imm : BitVec 32) : (imm.extractLsb' 24 8).toNat = imm.toNat / 2 ^ 24 := by
  have hlt := imm.isLt
  rw [BitVec.extractLsb'_toNat, Nat.shiftRight_eq_div_pow]
  exact Nat.mod_eq_of_lt (by omega)

/-- R140: the value, zero-extended. -/
theorem getLsbD_windowValue (imm : BitVec 32) {j : Nat} (hj : j < 64) :
    ((imm.extractLsb' 0 16).setWidth 64).getLsbD j = (imm.toNat % 2 ^ 16).testBit j := by
  rw [BitVec.getLsbD_setWidth, decide_eq_true hj, Bool.true_and, BitVec.getLsbD, BitVec.extractLsb'_toNat,
    Nat.shiftRight_zero]

/-- R140: inside the window the value, outside it the operand. -/
theorem getLsbD_replaceBits (a : Word) (imm : BitVec 32) {j : Nat} (hj : j < 64) :
    let start := imm.toNat / 2 ^ 16 % 2 ^ 8
    let count := imm.toNat / 2 ^ 24
    (replaceBits a imm).getLsbD j =
      if start ≤ j ∧ j < start + count then (imm.toNat % 2 ^ 16).testBit (j - start) else a.getLsbD j := by
  intro start count
  rw [replaceBits, toNat_windowStart, toNat_windowCount, getLsbD_window _ _ _ _ hj,
    getLsbD_windowValue imm ((Nat.sub_le j start).trans_lt hj)]

/-- R140: the legal windows. -/
theorem immOk_replaceBits_iff (c : Fields) : (Instr.replaceBits c).immOk = true ↔
    c.imm.toNat / 2 ^ 24 ≤ 32 ∧ c.imm.toNat / 2 ^ 16 % 2 ^ 8 + c.imm.toNat / 2 ^ 24 ≤ 64 := decide_eq_true_iff

theorem exec_replaceBits {c : Fields} (h : (Instr.replaceBits c).immOk = true) (s : State) :
    exec (.replaceBits c) s = scalarOp 8 typesAll c s fun p => { result := replaceBits p.b c.imm } :=
  if_pos ((immOk_replaceBits c).symm.trans h)

/-- Settles O28, bit by bit; a malformed packed immediate is illegal. -/
theorem replaceBitsResult : Obligations.ReplaceBitsResult := by
  refine fun c s => ⟨rfl, fun hbad => ?_, fun hcount hend => ?_⟩
  · refine exec_illegal_of_immOk (Bool.eq_false_iff.mpr fun hok => ?_) s
    obtain ⟨hcount, hend⟩ := (immOk_replaceBits_iff c).mp hok
    omega
  · have hok : (Instr.replaceBits c).immOk = true := (immOk_replaceBits_iff c).mpr ⟨hcount, hend⟩
    refine scalarOp_effect_of_eq rfl rfl (exec_replaceBits hok s) rfl rfl (.inl rfl) fun t ht j hj => ?_
    rw [ht]
    exact getLsbD_replaceBits (s.gpr c.rt) c.imm hj

/-! ## The address (R141) -/

/-- R141: the sum wraps at 64 bits. -/
theorem toNat_add_signExtend (a : Word) (imm : BitVec 32) :
    ((a + imm.signExtend 64).toNat : Int) = ((a.toNat : Int) + imm.toInt) % 2 ^ 64 := by
  have hmod : ((imm.signExtend 64).toNat : Int) % 2 ^ 64 = imm.toInt % 2 ^ 64 := by
    rw [← BitVec.toInt_signExtend_of_le (show 32 ≤ 64 by decide), BitVec.toInt_eq_toNat_bmod]
    exact Int.bmod_emod.symm
  rw [BitVec.toNat_add]
  omega

theorem exec_addressForm (c : Fields) (s : State) : exec (.addressForm c) s = .next (finishState s
    (({ s with slots := { decodedSlots 9 c s with
          parm := scalarParms c s, memAddress := s.gpr c.rt + c.imm.signExtend 64, vect := 0, running := 1 } } :
      State).setGpr c.rd (s.gpr c.rt + c.imm.signExtend 64)) (some 0x13) []) := rfl

/-- Settles O29, from the state in which the command ends. -/
theorem addressFormResult : Obligations.AddressFormResult := by
  intro c s
  have hexec := exec_addressForm c s
  set address := s.gpr c.rt + c.imm.signExtend 64
  refine ⟨rfl, _, hexec, onlyGpr_finishState (onlyGpr_setGpr _ _ _) _ _, exec_kept hexec, by simp [Raised], ?_⟩
  rw [finishState_gpr (.inl rfl), gpr_setGpr_same]
  exact ⟨toNat_add_signExtend _ _, by simp, by simp⟩

end Sys2Proof.Machine
end

section
/-! SUPPORT. Vector length management (R151 to R154): the setters as a whole-vector copy of a clamped prefix, the getters as
a byte length and its quotient by the element size. -/

namespace Sys2Proof.Machine

open Sys2Proof

/-! ## The setters (R151, R152) -/

/-- R88, R93: `wholeOp_effect` with the loop controls it leaves (R35, R36). -/
theorem wholeOp_effect_controls {i : Instr} {op : BitVec 6} {types : OpType → Bool} {masked : Bool} {c : Fields}
    {s : State} {handler : Parms → List Byte × List IntKind} {P : State → Prop}
    (he : exec i s = wholeOp op types masked c s handler) (hf : i.fields = c) (h : types c.ot = true)
    (hc : Committed s (handler (wholeParms masked c s)).2)
    (hP : ∀ t : State, Holds s t c.rd (handler (wholeParms masked c s)).1 → t.slots.vect = 4 → t.slots.running = 2 →
      P t) :
    VectorEffect i s (handler (wholeParms masked c s)).2 P := by
  obtain ⟨t, hexec, hholds, hframe⟩ := wholeOp_effect he hf h hc fun _ ht => ht
  obtain ⟨u, hexec', hslots⟩ := wholeOp_slots (op := op) (masked := masked) (s := s) h handler
  obtain rfl : t = u := Host.Outcome.next.inj (hexec.symm.trans (he.trans hexec'))
  exact ⟨t, hexec, hP t hholds (congrArg Slots.vect hslots) (congrArg Slots.running hslots), hframe⟩

theorem getD_vbytes (s : State) (r : RegIx) {n k : Nat} (h : k < n) : (s.vbytes r n).getD k 0 = s.vb r k := by
  rw [State.vbytes, getD_vslice s r 0 n k h, Nat.zero_add]

/-- R151, R152: a command of class W that copies `v[rt]`, cut or padded with its zero tail to the clamp of a length computed
from `x[rs]`. -/
theorem resize_effect {i : Instr} {op : BitVec 6} {c : Fields} {s : State} (newLen : Word → Nat)
    (he : exec i s = wholeOp op typesAll false c s fun p => (s.vbytes c.rt (s.clampL (newLen p.a)), []))
    (hf : i.fields = c) :
    let n := min (newLen (s.gpr c.rs)) s.cfg.maxVectorLength
    VectorEffect i s [] fun t => t.len c.rd = n ∧ (∀ k < n, t.vb c.rd k = s.vb c.rt k)
      ∧ t.slots.vect = 4 ∧ t.slots.running = 2 := by
  intro n
  refine wholeOp_effect_controls he hf rfl (.inl rfl)
    fun t (hholds : Holds s t c.rd (s.vbytes c.rt n)) hvect hrunning => ?_
  have hfit : (s.vbytes c.rt n).length ≤ s.cfg.maxVectorLength := (length_vbytes s c.rt n).trans_le (min_le_right _ _)
  refine ⟨(hholds.len_of_fit hfit).trans (length_vbytes s c.rt n), fun k hk => ?_, hvect, hrunning⟩
  rw [hholds.vb_of_fit hfit, getD_vbytes s c.rt hk]

/-- Settles O30: both commands are a resize, to `x[rs]` bytes and to `x[rs]` elements. -/
theorem setLengthResults : Obligations.SetLengthResults := fun c _ =>
  ⟨rfl, rfl, resize_effect (fun a => a.toNat) rfl rfl, resize_effect (fun a => a.toNat * dataSize c.ot) rfl rfl⟩

/-! ## The getters (R153, R154) -/

theorem two_pow_dataSizeLog (ot : OpType) : 2 ^ dataSizeLog ot = dataSize ot := by cases ot <;> rfl

/-- R154: the shift of the byte length is the division by the element size. -/
theorem shiftRight_dataSizeLog (n : Nat) (ot : OpType) : n >>> dataSizeLog ot = n / dataSize ot := by
  rw [Nat.shiftRight_eq_div_pow, two_pow_dataSizeLog]

/-- R153, R154: a command of class G that accepts every operand type and gives a count. -/
theorem count_effect {i : Instr} {op : BitVec 6} {c : Fields} {s : State} {n : Nat}
    (he : exec i s = getterOp op typesAll c s (BitVec.ofNat 64 n)) (hf : i.fields = c) :
    GprEffect i s [] fun t => (n < 2 ^ 64 → (t.gpr c.rd).toNat = n) ∧ t.returnType = 0x12 :=
  getterOp_effect he hf rfl fun t hresult htag =>
    ⟨fun hn => by rw [hresult, BitVec.toNat_ofNat, Nat.mod_eq_of_lt hn], htag⟩

theorem exec_getNum (c : Fields) (s : State) :
    exec (.getNum c) s = getterOp 3 typesAll c s (BitVec.ofNat 64 (s.len c.rt / dataSize c.ot)) := by
  rw [← shiftRight_dataSizeLog]
  rfl

/-- Settles O31: both commands give a count, of the bytes and of the elements. -/
theorem getLengthResults : Obligations.GetLengthResults := fun c s =>
  ⟨rfl, rfl, count_effect rfl rfl, count_effect (exec_getNum c s) rfl⟩

end Sys2Proof.Machine
end

section
/-! SUPPORT. Elements of half the width (R161, R167): what `compress` writes and `expand` reads, at every operand type, and the
integer narrowing and widening between the two widths. -/

namespace Sys2Proof.Machine

open Sys2Proof

/-! ## A width and its half -/

theorem dataBits_half_pos (ot : OpType) : 0 < dataBits ot / 2 := by cases ot <;> decide

theorem dataSize_half {ot : OpType} (h : ot ≠ .i8) : dataSize ot = 2 * (dataSize ot / 2) := by
  cases ot with
  | i8 => exact absurd rfl h
  | _ => rfl

theorem mul_dataSize_half {ot : OpType} (h : ot ≠ .i8) (n : Nat) : n * dataSize ot / 2 = n * (dataSize ot / 2) := by
  conv_lhs => rw [dataSize_half h, Nat.mul_left_comm, Nat.mul_div_cancel_left _ (by decide)]

/-- The bytes of half an element hold the numbers of half its width. -/
theorem two_pow_dataBits_half {ot : OpType} (h : ot ≠ .i8) : 2 ^ (dataBits ot / 2) = 256 ^ (dataSize ot / 2) := by
  cases ot with
  | i8 => exact absurd rfl h
  | _ => rfl

/-- R160: the elements of a clamped length fit a vector register. -/
theorem elements_fit (ot : OpType) (s : State) (x : Nat) :
    min x s.cfg.maxVectorLength / dataSize ot * dataSize ot ≤ s.cfg.maxVectorLength :=
  (Nat.div_mul_le_self _ _).trans (min_le_right _ _)

theorem isFloatType_of_mem_integers {ot : OpType} (h : ot ∈ OpType.integers) : isFloatType ot = false := by
  cases ot with
  | f32 => exact absurd h (by decide)
  | f64 => exact absurd h (by decide)
  | _ => rfl

theorem velem_lt_dataBits (s : State) (r : RegIx) (off : Nat) (ot : OpType) :
    s.velem r off (dataSize ot) < 2 ^ dataBits ot :=
  (velem_lt s r off (dataSize ot)).trans_eq (two_pow_dataBits ot).symm

/-! ## Half elements -/

theorem halfElement_i8 (s : State) (r : RegIx) (k : Nat) :
    halfElement .i8 s r k = (s.vb r (k / 2)).toNat / 16 ^ (k % 2) % 16 := rfl

theorem halfElement_of_ne {ot : OpType} (h : ot ≠ .i8) (s : State) (r : RegIx) (k : Nat) :
    halfElement ot s r k = s.velem r (k * (dataSize ot / 2)) (dataSize ot / 2) := if_neg h

theorem halfElement_lt (ot : OpType) (s : State) (r : RegIx) (k : Nat) :
    halfElement ot s r k < 2 ^ (dataBits ot / 2) := by
  by_cases h : ot = .i8
  · subst h
    exact Nat.mod_lt _ (by decide)
  · rw [halfElement_of_ne h, two_pow_dataBits_half h]
    exact velem_lt _ _ _ _

/-- R164: how many half elements `n` narrowed elements give; at `ot = 0` an unpaired last one is dropped. -/
def halfCount (ot : OpType) (n : Nat) : Nat := if ot = .i8 then 2 * (n / 2) else n

theorem halfElement_i8_even (s : State) (r : RegIx) (j : Nat) :
    halfElement .i8 s r (2 * j) = (s.vb r j).toNat % 16 := by
  simp [halfElement_i8]

theorem halfElement_i8_odd (s : State) (r : RegIx) (j : Nat) :
    halfElement .i8 s r (2 * j + 1) = (s.vb r j).toNat / 16 := by
  have hb := (s.vb r j).isLt
  have hj : (2 * j + 1) / 2 = j ∧ (2 * j + 1) % 2 = 1 := by omega
  rw [halfElement_i8, hj.1, hj.2]
  omega

/-- A byte is its two half elements. -/
theorem toNat_vb_eq_halfElements (s : State) (r : RegIx) (j : Nat) :
    (s.vb r j).toNat = halfElement .i8 s r (2 * j) + 16 * halfElement .i8 s r (2 * j + 1) := by
  rw [halfElement_i8_even, halfElement_i8_odd, Nat.mod_add_div]

/-- Elements are equal when their bytes are. -/
theorem vb_eq_of_velem_eq {s t : State} {r q : RegIx} {off off' n : Nat} (h : t.velem r off n = s.velem q off' n)
    {j : Nat} (hj : j < n) : t.vb r (off + j) = s.vb q (off' + j) := by
  rw [← getD_vslice t r off n j hj, ← getD_vslice s q off' n j hj, ← leBytes_velem, ← leBytes_velem, h]

/-- Half elements are all of the bytes they lie in. -/
theorem vb_eq_of_halfElement_eq {ot : OpType} {s t : State} {r q : RegIx} {n : Nat}
    (h : ∀ k < halfCount ot n, halfElement ot t r k = halfElement ot s q k) {j : Nat} (hj : j < n * dataSize ot / 2) :
    t.vb r j = s.vb q j := by
  by_cases hot : ot = .i8
  · subst hot
    have hj' : j < n / 2 := by simpa [dataSize] using hj
    have hcount : halfCount .i8 n = 2 * (n / 2) := rfl
    apply BitVec.eq_of_toNat_eq
    rw [toNat_vb_eq_halfElements, toNat_vb_eq_halfElements, h _ (by omega), h _ (by omega)]
  · simp only [halfCount, if_neg hot, halfElement_of_ne hot] at h
    rw [mul_dataSize_half hot] at hj
    have hsize : 0 < dataSize ot / 2 := Nat.pos_of_mul_pos_left (Nat.zero_lt_of_lt hj)
    have hk : j / (dataSize ot / 2) < n := Nat.div_lt_of_lt_mul (by rwa [Nat.mul_comm])
    have hbyte := vb_eq_of_velem_eq (h _ hk) (Nat.mod_lt j hsize)
    rwa [Nat.div_add_mod'] at hbyte

/-! ## Packing (R164) -/

theorem packNibbles_spec : ∀ ys : List Nat, (packNibbles ys).length = ys.length / 2
    ∧ ∀ j < ys.length / 2, (packNibbles ys).getD j 0 = BitVec.ofNat 8 (ys.getD (2 * j + 1) 0 * 16 + ys.getD (2 * j) 0)
  | [] => by simp [packNibbles]
  | [_] => by simp [packNibbles]
  | a :: b :: ys => by
    obtain ⟨hlen, hget⟩ := packNibbles_spec ys
    have hhalf : (ys.length + 1 + 1) / 2 = ys.length / 2 + 1 := by omega
    simp only [packNibbles, List.length_cons, hlen, hhalf, true_and]
    intro j hj
    cases j with
    | zero => simp
    | succ j =>
      simp only [show 2 * (j + 1) = 2 * j + 1 + 1 by omega, List.getD_cons_succ]
      exact hget j (by omega)

theorem packNibbles_range (n : Nat) (y : Nat → Nat) {j : Nat} (hj : j < n / 2) :
    (packNibbles ((List.range n).map y)).getD j 0 = BitVec.ofNat 8 (y (2 * j + 1) * 16 + y (2 * j)) := by
  have h1 : 2 * j + 1 < n := by omega
  have h0 : 2 * j < n := by omega
  rw [(packNibbles_spec _).2 j (by simpa using hj)]
  simp [List.getD_eq_getElem?_getD, h0, h1]

theorem compressedBytes_i8 (ys : List Nat) : compressedBytes .i8 ys = packNibbles ys := rfl

theorem compressedBytes_of_ne {ot : OpType} (h : ot ≠ .i8) (n : Nat) (y : Nat → Nat) :
    compressedBytes ot ((List.range n).map y) = (List.range n).flatMap fun k => leBytes (dataSize ot / 2) (y k) := by
  rw [← List.flatMap_map]
  cases ot with
  | i8 => exact absurd rfl h
  | _ => rfl

theorem length_compressedBytes (ot : OpType) (n : Nat) (y : Nat → Nat) :
    (compressedBytes ot ((List.range n).map y)).length = n * dataSize ot / 2 := by
  by_cases h : ot = .i8
  · subst h
    simp [compressedBytes_i8, packNibbles_spec, dataSize]
  · rw [compressedBytes_of_ne h, length_flatMap_range n (dataSize ot / 2) _ (fun _ _ => length_leBytes _ _),
      mul_dataSize_half h]

/-- R164: what `v[rd]` holds after narrowed elements that fit the narrow width are written. -/
theorem Holds.compressed {ot : OpType} {s t : State} {rd : RegIx} {n : Nat} {y : Nat → Nat}
    (h : Holds s t rd (compressedBytes ot ((List.range n).map y))) (hfit : n * dataSize ot ≤ s.cfg.maxVectorLength)
    (hy : ∀ k < n, y k < 2 ^ (dataBits ot / 2)) :
    t.len rd = n * dataSize ot / 2 ∧ ∀ k < halfCount ot n, halfElement ot t rd k = y k := by
  have hlen := length_compressedBytes ot n y
  have hfit' : (compressedBytes ot ((List.range n).map y)).length ≤ s.cfg.maxVectorLength := by omega
  refine ⟨(h.len_of_fit hfit').trans hlen, fun k hk => ?_⟩
  by_cases hot : ot = .i8
  · subst hot
    have hk : k < 2 * (n / 2) := hk
    have h16 : ∀ k < n, y k < 16 := hy
    have hbyte : ∀ j < n / 2, (t.vb rd j).toNat = y (2 * j + 1) * 16 + y (2 * j) := by
      intro j hj
      have hlow := h16 (2 * j) (by omega)
      have hhigh := h16 (2 * j + 1) (by omega)
      rw [h.vb_of_fit hfit', compressedBytes_i8, packNibbles_range n y hj, BitVec.toNat_ofNat]
      omega
    obtain ⟨j, rfl | rfl⟩ := Nat.even_or_odd' k
    · rw [halfElement_i8_even, hbyte j (by omega)]
      have := h16 (2 * j) (by omega)
      omega
    · rw [halfElement_i8_odd, hbyte j (by omega)]
      have := h16 (2 * j) (by omega)
      omega
  · have hk : k < n := by simpa only [halfCount, if_neg hot] using hk
    rw [compressedBytes_of_ne hot] at h
    have hsize := Nat.mul_le_mul_left n (Nat.div_le_self (dataSize ot) 2)
    rw [halfElement_of_ne hot, h.velem_elements (fun _ _ => length_leBytes _ _) (hsize.trans hfit) k hk, leNat_leBytes,
      ← two_pow_dataBits_half hot, Nat.mod_eq_of_lt (hy k hk)]

end Sys2Proof.Machine
end

section
/-! SUPPORT. Compress and expand on integers (R161 to R169): the narrowed and the widened element in exact arithmetic, the effect
of the two operations, and that one undoes the other. -/

namespace Sys2Proof.Machine

open Sys2Proof

/-! ## Narrowing in exact arithmetic (R161) -/

/-- The low bits of a pattern are those of its signed reading. -/
theorem pat_sgn_of_le {h w : Nat} (hle : h ≤ w) (v : Nat) : pat h (sgn w v) = uns h v := by
  have hdvd : (2 : Int) ^ h ∣ 2 ^ w := pow_dvd_pow 2 hle
  have hmod : (sgn w v : Int) % 2 ^ h = (v : Int) % 2 ^ h := by
    have hwide : (sgn w v : Int) % 2 ^ w = (v : Int) % 2 ^ w := by
      rw [← cast_pat, pat_sgn, uns]
      push_cast
      rfl
    rw [← Int.emod_emod_of_dvd _ hdvd, hwide, Int.emod_emod_of_dvd _ hdvd]
  zify
  rw [cast_pat, hmod, uns]
  push_cast
  rfl

/-- R161, `compress_ss`: the saturation of R241 applied to the signed reading. -/
theorem narrowInt_signedSat (cfg : Config) (w e : Nat) :
    (narrowInt cfg .signedSat w e).value = (satS (w / 2) (sgn w e)).1 := by
  rw [satS, pat_sgn_of_le (Nat.div_le_self w 2)]
  simp only [narrowInt]
  split_ifs <;> rfl

/-- R161, `compress_us`: the reading the configuration chooses, brought into the unsigned range. -/
theorem narrowInt_unsignedSat (cfg : Config) {w e : Nat} (he : e < 2 ^ w) :
    ((narrowInt cfg .unsignedSat w e).value : Int)
      = clampTo 0 (maxUnsigned (w / 2)) (if cfg.compressUsSourceSigned then sgn w e else (e : Int)) := by
  have hpos := Nat.two_pow_pos (w / 2)
  by_cases hneg : cfg.compressUsSourceSigned = true ∧ sgn w e < 0
  · obtain ⟨hsigned, hlt⟩ := hneg
    have hvalue : (narrowInt cfg .unsignedSat w e).value = 0 := by simp [narrowInt, hsigned, hlt]
    rw [hvalue, if_pos hsigned, clampTo]
    omega
  · have hread : (if cfg.compressUsSourceSigned then sgn w e else (e : Int)) = e := by
      split
      · rename_i hsigned
        rw [← sgn_of_nonneg (not_lt.mp fun hlt => hneg ⟨hsigned, hlt⟩), uns_of_lt he]
      · rfl
    have hvalue : (narrowInt cfg .unsignedSat w e).value
        = if e > maxUnsigned (w / 2) then maxUnsigned (w / 2) else uns (w / 2) e := by
      simp only [narrowInt, uns_of_lt he, Bool.and_eq_true, decide_eq_true_eq, if_neg hneg]
    rw [hvalue, hread, clampTo]
    split
    · omega
    · rename_i hfits
      rw [uns_of_lt (by unfold maxUnsigned at hfits; omega)]
      omega

/-- R161: a narrowed element has the narrow width. -/
theorem narrowInt_lt (cfg : Config) (sel : Narrowing) {w : Nat} (hw : 0 < w / 2) (e : Nat) :
    (narrowInt cfg sel w e).value < 2 ^ (w / 2) := by
  have hlow := uns_lt (w / 2) e
  have hsplit := two_pow_pred hw
  have hpos := Nat.two_pow_pos (w / 2 - 1)
  cases sel with
  | wrap => exact hlow
  | signedSat =>
    simp only [narrowInt, signBit]
    split_ifs <;> omega
  | unsignedSat =>
    have hmax : maxUnsigned (w / 2) = 2 ^ (w / 2) - 1 := rfl
    simp only [narrowInt]
    split_ifs <;> omega

/-! ## The effect of a compression (R163, R164) -/

/-- R164: the narrowed elements of `v[rt]` at an integer type, one after the other. -/
theorem narrowedElements_int {c : Fields} (h : isFloatType c.ot = false) (sel : Narrowing) (s : State) (length : Nat) :
    narrowedElements sel c s length = (List.range (length / dataSize c.ot)).map fun k =>
      narrowInt s.cfg sel (dataBits c.ot) (s.velem c.rt (k * dataSize c.ot) (dataSize c.ot)) := by
  simp [narrowedElements, elementCount, h]

/-- R88, R93: `wholeOp_effect` for a handler whose return on this state is known. -/
theorem wholeOp_effect_of_eq {i : Instr} {op : BitVec 6} {types : OpType → Bool} {masked : Bool} {c : Fields}
    {s : State} {handler : Parms → List Byte × List IntKind} {bytes : List Byte} {ks : List IntKind} {P : State → Prop}
    (hr : handler (wholeParms masked c s) = (bytes, ks)) (he : exec i s = wholeOp op types masked c s handler)
    (hf : i.fields = c) (h : types c.ot = true) (hc : Committed s ks) (hP : ∀ t : State, Holds s t c.rd bytes → P t) :
    VectorEffect i s ks P := by
  obtain ⟨rfl, rfl⟩ := Prod.mk.inj hr
  exact wholeOp_effect he hf h hc hP

/-- R84, R86: the options word of a whole-vector operation that takes a mask. -/
theorem wholeParms_opts (c : Fields) (s : State) : (wholeParms true c s).opts = maskedOptions c s 0 :=
  (options_eq true c s 0).trans (if_pos rfl)

/-- R88, R164: everything a compression does, from its narrowed elements `y`. -/
theorem compressOp_effect {i : Instr} {op : BitVec 6} {sel : Narrowing} {c : Fields} {s : State} {y : Nat → Narrowed}
    {ks : List IntKind} {P : State → Prop} (he : exec i s = compressOp op sel c s) (hf : i.fields = c)
    (hy : ∀ length, narrowedElements sel c s length = (List.range (length / dataSize c.ot)).map y)
    (hlt : ∀ k, (y k).value < 2 ^ (dataBits c.ot / 2)) :
    let n := min (s.gpr c.rs).toNat s.cfg.maxVectorLength / dataSize c.ot
    compressTraps (maskedOptions c s 0) ((List.range n).map y) = ks → Committed s ks →
    (∀ t : State, t.len c.rd = n * dataSize c.ot / 2 →
      (∀ k < halfCount c.ot n, halfElement c.ot t c.rd k = (y k).value) → P t) → VectorEffect i s ks P := by
  intro n hks hc hP
  refine wholeOp_effect_of_eq (bytes := compressedBytes c.ot ((List.range n).map fun k => (y k).value)) ?_ he hf rfl hc
    fun t hholds => ?_
  · dsimp only
    rw [hy, List.map_map, wholeParms_opts, ← hks]
    rfl
  · obtain ⟨hlen, hhalf⟩ := hholds.compressed (elements_fit _ _ _) fun k _ => hlt k
    exact hP t hlen hhalf

/-! ### The traps (R163) -/

theorem raiseIf_false (k : IntKind) : raiseIf false k = [] := rfl

theorem any_map_range {α : Type} {n : Nat} {y : Nat → α} {p : α → Bool} :
    ((List.range n).map y).any p = true ↔ ∃ k < n, p (y k) = true := by simp

/-- R163 at an integer type: the conditions of R161 as bounds on the two readings, and no float condition. -/
theorem compressTraps_int (opts : Word) (cfg : Config) (sel : Narrowing) {w n : Nat} {e : Nat → Nat}
    (he : ∀ k, e k < 2 ^ w) :
    compressTraps opts ((List.range n).map fun k => narrowInt cfg sel w (e k)) =
      (if opts.getLsbD 2 = true ∧ ∃ k < n, sgn w (e k) < minSigned (w / 2) ∨ maxSigned (w / 2) < sgn w (e k)
        then [IntKind.overflSign] else [])
      ++ (if opts.getLsbD 1 = true ∧ ∃ k < n, maxUnsigned (w / 2) < e k then [.overflUnsign] else []) := by
  have hfloat : ((List.range n).map fun k => narrowInt cfg sel w (e k)).any (·.ovF) = false := by simp [narrowInt]
  rw [compressTraps, hfloat, Bool.false_and, raiseIf_false, List.append_nil]
  refine congrArg₂ (· ++ ·) (raiseIf_eq_ite ?_ _) (raiseIf_eq_ite ?_ _)
  · rw [Bool.and_eq_true, and_comm, trapS_eq, any_map_range]
    simp only [narrowInt, overS_iff]
  · rw [Bool.and_eq_true, and_comm, trapU_eq, any_map_range]
    simp only [narrowInt, decide_eq_true_eq, gt_iff_lt, uns_of_lt (he _)]

/-- Settles O32: the three selectors give the same effect but for the value of an element. -/
theorem compressIntegerResults : Obligations.CompressIntegerResults := by
  intro c s hot w h n e opts ks count
  have hlt : ∀ k, e k < 2 ^ w := fun k => velem_lt_dataBits s c.rt _ c.ot
  have heffect : ∀ {i : Instr} {op : BitVec 6} {sel : Narrowing} {P : State → Prop}, exec i s = compressOp op sel c s →
      i.fields = c → Committed s ks →
      (∀ t : State, t.len c.rd = n * dataSize c.ot / 2 →
        (∀ k < count, halfElement c.ot t c.rd k = (narrowInt s.cfg sel w (e k)).value) → P t) → VectorEffect i s ks P :=
    fun he hf hc hP => compressOp_effect he hf (narrowedElements_int (isFloatType_of_mem_integers hot) _ s)
      (fun k => narrowInt_lt s.cfg _ (dataBits_half_pos c.ot) (e k)) (compressTraps_int opts s.cfg _ hlt) hc hP
  refine ⟨⟨rfl, rfl, rfl⟩, fun hc => ⟨?_, ?_, ?_⟩⟩
  · exact heffect rfl rfl hc fun t hlen hhalf => ⟨hlen, hhalf⟩
  · refine heffect rfl rfl hc fun t hlen hhalf => ⟨hlen, fun k hk => ?_⟩
    rw [hhalf k hk, narrowInt_signedSat]
    exact (satS_spec (dataBits_half_pos c.ot) _).1
  · refine heffect rfl rfl hc fun t hlen hhalf => ⟨hlen, fun k hk => ?_⟩
    rw [hhalf k hk]
    exact narrowInt_unsignedSat s.cfg (hlt k)

/-! ## Expansion (R167, R168) -/

/-- R167: the source element of an expansion is the half element a claim speaks of. -/
theorem narrowElement_eq (c : Fields) (s : State) (i : Nat) : narrowElement c s i = halfElement c.ot s c.rt i := by
  by_cases h : c.ot = .i8
  · rw [h]
    obtain ⟨j, rfl | rfl⟩ := Nat.even_or_odd' i
    · rw [halfElement_i8_even]
      simp [narrowElement, h]
    · rw [halfElement_i8_odd, narrowElement, h]
      have hj : (2 * j + 1) / 2 = j := by omega
      simp [hj]
  · rw [halfElement_of_ne h]
    unfold narrowElement
    split
    · exact absurd ‹_› h
    · rfl

/-- R88, R168: everything an expansion does, from its widened elements `y`. -/
theorem expandOp_effect {i : Instr} {op : BitVec 6} {signed : Bool} {c : Fields} {s : State} {y : Nat → Nat}
    {P : State → Prop} (he : exec i s = expandOp op signed c s) (hf : i.fields = c)
    (hy : ∀ k, (if isFloatType c.ot then widenFloat s.cfg s.draws k c.ot (halfElement c.ot s c.rt k)
      else widenInt signed (dataBits c.ot) (halfElement c.ot s c.rt k)) = y k) (hlt : ∀ k, y k < 2 ^ dataBits c.ot) :
    let n := min (s.gpr c.rs).toNat s.cfg.maxVectorLength / dataSize c.ot
    (∀ t : State, t.len c.rd = n * dataSize c.ot →
      (∀ k < n, t.velem c.rd (k * dataSize c.ot) (dataSize c.ot) = y k) → P t) → VectorEffect i s [] P := by
  intro n hP
  refine wholeOp_effect_of_eq (bytes := (List.range n).flatMap fun k => leBytes (dataSize c.ot) (y k)) ?_ he hf rfl
    (.inl rfl) fun t hholds => ?_
  · simp only [narrowElement_eq, hy]
    rfl
  · have hbytes : ∀ k < n, (leBytes (dataSize c.ot) (y k)).length = dataSize c.ot := fun _ _ => length_leBytes _ _
    refine hP t (hholds.len_elements hbytes (elements_fit _ _ _)) fun k hk => ?_
    rw [hholds.velem_elements hbytes (elements_fit _ _ _) k hk, leNat_leBytes, ← two_pow_dataBits,
      Nat.mod_eq_of_lt (hlt k)]

/-- R167: a widened element has the wide width. -/
theorem widenInt_lt (signed : Bool) (w e : Nat) : widenInt signed w e < 2 ^ w := by
  cases signed with
  | false => exact (uns_lt (w / 2) e).trans_le (Nat.pow_le_pow_right (by decide) (Nat.div_le_self w 2))
  | true => exact pat_lt w _

/-- R167: sign extension keeps the signed reading. -/
theorem sgn_widenInt {w : Nat} (hw : 0 < w / 2) (e : Nat) : sgn w (widenInt true w e) = sgn (w / 2) e := by
  obtain ⟨hlow, hhigh⟩ := sgn_range hw e
  have hle : (2 : Int) ^ (w / 2 - 1) ≤ 2 ^ (w - 1) := pow_le_pow_right₀ (by decide) (by omega)
  unfold minSigned at hlow
  unfold maxSigned at hhigh
  exact sgn_pat (by omega) (by unfold minSigned; omega) (by unfold maxSigned; omega)

/-- Settles O34. -/
theorem expandIntegerResults : Obligations.ExpandIntegerResults := by
  intro c s hot w n
  have heffect : ∀ {i : Instr} {op : BitVec 6} {signed : Bool} {P : State → Prop}, exec i s = expandOp op signed c s →
      i.fields = c → (∀ t : State, t.len c.rd = n * dataSize c.ot →
        (∀ k < n, t.velem c.rd (k * dataSize c.ot) (dataSize c.ot) = widenInt signed w (halfElement c.ot s c.rt k)) →
        P t) → VectorEffect i s [] P :=
    fun he hf hP => expandOp_effect he hf (fun k => if_neg (by simp [isFloatType_of_mem_integers hot]))
      (fun k => widenInt_lt _ w _) hP
  refine ⟨⟨rfl, rfl⟩, ?_, ?_⟩
  · refine heffect rfl rfl fun t hlen helem => ⟨hlen, fun k hk => ?_⟩
    rw [helem k hk]
    exact uns_of_lt (halfElement_lt c.ot s c.rt k)
  · refine heffect rfl rfl fun t hlen helem => ⟨hlen, fun k hk => ?_⟩
    rw [helem k hk]
    exact sgn_widenInt (dataBits_half_pos c.ot) _

/-! ## Compressing an expansion (R169) -/

/-- The effect of a command, at the state it ends in. -/
theorem VectorEffect.of_exec {i : Instr} {s t : State} {ks : List IntKind} {P : State → Prop}
    (h : VectorEffect i s ks P) (ht : exec i s = .next t) : P t ∧ OnlyVector i.fields.rd s t ∧ Kept s t := by
  obtain ⟨t', ht', hP, honly, hkept, -⟩ := h
  obtain rfl : t' = t := Host.Outcome.next.inj (ht'.symm.trans ht)
  exact ⟨hP, honly, hkept⟩

/-- A pattern is determined by its signed reading. -/
theorem eq_of_sgn_eq {w a b : Nat} (ha : a < 2 ^ w) (hb : b < 2 ^ w) (h : sgn w a = sgn w b) : a = b := by
  rw [← uns_of_lt ha, ← uns_of_lt hb, ← pat_sgn, ← pat_sgn, h]

/-- The low half of a pattern whose signed reading fits it. -/
theorem mod_eq_of_sgn_eq {w a b : Nat} (hb : b < 2 ^ (w / 2)) (h : sgn w a = sgn (w / 2) b) : a % 2 ^ (w / 2) = b := by
  rw [← uns_of_lt hb, ← pat_sgn, ← h, pat_sgn_of_le (Nat.div_le_self w 2)]
  rfl

/-- Bounds that a value meets do not move it. -/
theorem clampTo_of_mem {lo hi t : Int} (h : lo ≤ t ∧ t ≤ hi) : clampTo lo hi t = t := by
  unfold clampTo
  omega

/-- Settles O55: an element that was sign-extended fits the narrow width, so neither selector changes it. -/
theorem compressUndoesExpandS : Obligations.CompressUndoesExpandS := by
  intro c d s t u hot hdot hdrt hdrs hcommit ht hu n
  obtain ⟨-, -, hexpand⟩ := expandIntegerResults c s hot
  obtain ⟨⟨-, helem⟩, ⟨hgpr, -⟩, hcfg, -⟩ := hexpand.of_exec ht
  have hn : min (t.gpr d.rs).toNat t.cfg.maxVectorLength / dataSize d.ot = n := by rw [hgpr, hcfg, hdot, hdrs]
  have hu' : u.len d.rd = n * dataSize c.ot / 2
      ∧ ∀ k < halfCount c.ot n, halfElement c.ot u d.rd k = halfElement c.ot s c.rt k := by
    obtain ⟨-, hcompress⟩ := compressIntegerResults d t (hdot ▸ hot)
    obtain ⟨hwrap, hsat, -⟩ := hcompress (.inr (hcfg ▸ hcommit))
    rw [hn, hdot, hdrt] at hwrap hsat
    have hk : ∀ k < halfCount c.ot n, k < n := by intro k; unfold halfCount; split <;> omega
    rcases hu with hu | hu
    · obtain ⟨⟨hlen, hhalf⟩, -⟩ := hwrap.of_exec hu
      refine ⟨hlen, fun k hk' => ?_⟩
      rw [hhalf k hk']
      exact mod_eq_of_sgn_eq (halfElement_lt _ _ _ _) (helem k (hk k hk'))
    · obtain ⟨⟨hlen, hhalf⟩, -⟩ := hsat.of_exec hu
      refine ⟨hlen, fun k hk' => eq_of_sgn_eq (halfElement_lt _ _ _ _) (halfElement_lt _ _ _ _) ?_⟩
      rw [hhalf k hk', helem k (hk k hk')]
      exact clampTo_of_mem (sgn_range (dataBits_half_pos c.ot) _)
  obtain ⟨hlen, hhalf⟩ := hu'
  exact ⟨hlen, fun k hk => vb_eq_of_halfElement_eq hhalf (hlen ▸ hk)⟩

end Sys2Proof.Machine
end

section
/-! SUPPORT. The sparse networks (R170, R171): where `compress_sparse` puts a selected lane and from where `expand_sparse` takes
it, and that the one undoes the other. -/

namespace Sys2Proof.Machine

open Sys2Proof

/-! ## Packing the selected elements -/

section

variable (sel : Nat → Bool) (size : Nat) (f : Nat → List Byte) (hf : ∀ k, (f k).length = size)

include hf

/-- The selected elements of one size, one after the other. -/
theorem length_flatMap_selected (n : Nat) :
    ((List.range n).flatMap fun k => if sel k then f k else []).length = (List.range n).countP sel * size := by
  induction n with
  | zero => simp
  | succ n ih =>
    rw [List.range_succ, List.flatMap_append, List.length_append, ih, List.countP_append, Nat.add_mul]
    cases h : sel n <;> simp [h, hf]

/-- A selected element stands behind the selected ones before it. -/
theorem getD_flatMap_selected {n k j : Nat} (hk : k < n) (hsel : sel k = true) (hj : j < size) :
    ((List.range n).flatMap fun i => if sel i then f i else []).getD ((List.range k).countP sel * size + j) 0
      = (f k).getD j 0 := by
  induction n with
  | zero => omega
  | succ n ih =>
    have hlen := length_flatMap_selected sel size f hf n
    rw [List.range_succ, List.flatMap_append]
    rcases Nat.lt_succ_iff_lt_or_eq.mp hk with hlt | rfl
    · rw [List.getD_append _ _ _ _ ?_, ih hlt]
      have hcount : (List.range (k + 1)).countP sel ≤ (List.range n).countP sel :=
        (List.range_sublist.mpr hlt).countP_le
      rw [List.range_succ, List.countP_append, List.countP_singleton, if_pos hsel] at hcount
      rw [hlen]
      nlinarith
    · rw [List.getD_append_right _ _ _ _ (by omega), hlen, Nat.add_sub_cancel_left]
      simp [hsel]

end

/-! ## The two operations -/

theorem laneSelected_eq (m : Fin 7) (c : Fields) (s : State) (k : Nat) : laneSelected m c s k = Selected m c s k := rfl

/-- R170, R171: how many lanes before lane `k` are selected, as a claim counts them. -/
theorem countP_selected (m : Fin 7) (c : Fields) (s : State) (k : Nat) :
    (List.range k).countP (laneSelected m c s) = ((List.range k).filter fun i => Selected m c s i).length :=
  List.countP_eq_length_filter

theorem selectedBefore_eq (m : Fin 7) (c : Fields) (s : State) (k : Nat) :
    selectedBefore m c s k = ((List.range k).filter fun i => Selected m c s i).length := countP_selected m c s k

/-- R170 where a mask register is named. -/
theorem compressSparse_effect {c : Fields} {s : State} {m : Fin 7} (hm : c.rm = some m) :
    let size := dataSize c.ot
    let n := min (s.gpr c.rs).toNat s.cfg.maxVectorLength / size
    let before := fun k => ((List.range k).filter fun i => Selected m c s i).length
    VectorEffect (.compressSparse c) s [] fun t => t.len c.rd = before n * size
      ∧ ∀ k < n, Selected m c s k = true → ∀ j < size, t.vb c.rd (before k * size + j) = s.vb c.rt (k * size + j) := by
  intro size n before
  refine wholeOp_effect_of_eq rfl (execCompressSparse_masked s hm) rfl rfl (.inl rfl)
    fun t (hholds : Holds s t c.rd (sparseCompressed m c s n)) => ?_
  have hlane : ∀ k, (s.vslice c.rt (k * size) size).length = size := fun _ => length_vslice _ _ _ _
  have hbefore : ∀ k, before k = (List.range k).countP (laneSelected m c s) := fun k => (countP_selected m c s k).symm
  have hlen : (sparseCompressed m c s n).length = before n * size := by
    rw [hbefore]
    exact length_flatMap_selected _ size _ hlane n
  have hfit : (sparseCompressed m c s n).length ≤ s.cfg.maxVectorLength := by
    have hle : before n ≤ n := (List.length_filter_le _ _).trans_eq List.length_range
    exact hlen.trans_le ((Nat.mul_le_mul_right size hle).trans (elements_fit c.ot s _))
  refine ⟨(hholds.len_of_fit hfit).trans hlen, fun k hk hsel j hj => ?_⟩
  rw [hholds.vb_of_fit hfit, ← getD_vslice s c.rt (k * size) size j hj, hbefore]
  exact getD_flatMap_selected _ size _ hlane hk hsel hj

/-- R171 where a mask register is named. -/
theorem expandSparse_effect {c : Fields} {s : State} {m : Fin 7} (hm : c.rm = some m) :
    let size := dataSize c.ot
    let n := min (s.gpr c.rs).toNat s.cfg.maxVectorLength / size
    let before := fun k => ((List.range k).filter fun i => Selected m c s i).length
    VectorEffect (.expandSparse c) s [] fun t => t.len c.rd = n * size
      ∧ ∀ k < n, ∀ j < size,
          t.vb c.rd (k * size + j) = if Selected m c s k then s.vb c.rt (before k * size + j) else 0 := by
  intro size n before
  refine wholeOp_effect_of_eq rfl (execExpandSparse_masked s hm) rfl rfl (.inl rfl)
    fun t (hholds : Holds s t c.rd (sparseExpanded m c s n)) => ?_
  have hlane : ∀ k < n, (if laneSelected m c s k then s.vslice c.rt (selectedBefore m c s k * size) size
      else List.replicate size 0).length = size := by
    intro k _
    split <;> simp
  refine ⟨hholds.len_elements hlane (elements_fit _ _ _), fun k hk j hj => ?_⟩
  rw [hholds.vb_elements hlane (elements_fit _ _ _) k j hk hj, laneSelected_eq, selectedBefore_eq]
  split
  · exact getD_vslice s c.rt _ size j hj
  · exact List.getD_replicate _ hj

/-- Settles O36. -/
theorem sparseResults : Obligations.SparseResults := fun _ s =>
  ⟨⟨rfl, rfl⟩, fun hm => ⟨execCompressSparse_unmasked s hm, execExpandSparse_unmasked s hm⟩,
    fun _ hm => ⟨compressSparse_effect hm, expandSparse_effect hm⟩⟩

/-! ## Expanding a compression (R171, corner cases) -/

/-- The bytes of a register that a command does not write. -/
theorem OnlyVector.vb_of_ne {rd q : RegIx} {s t : State} (h : OnlyVector rd s t) (hcfg : t.cfg = s.cfg) (hq : q ≠ rd)
    (hlen : s.len q ≤ s.cfg.maxVectorLength) (i : Nat) : t.vb q i = s.vb q i := by
  obtain ⟨-, hbytes, hlens⟩ := h
  rw [State.vb, State.vb, hlens q hq, State.vbase, State.vbase, hcfg]
  split
  · have hout := window_disjoint s hq (i := i) (by omega)
    exact hbytes _ (by unfold State.vbase at hout ⊢; omega)
  · rfl

/-- Settles O59: the second command reads the same mask, and takes each selected lane from where the first one put it. -/
theorem expandSparseRestores : Obligations.ExpandSparseRestores := by
  intro c d s t u m hok hcm hdm hdot hdrt hdrs hrd ht hu size n
  obtain ⟨⟨-, hpacked⟩, honly, hkept⟩ := (compressSparse_effect hcm).of_exec ht
  obtain ⟨⟨hlen, hlanes⟩, -⟩ := (expandSparse_effect hdm).of_exec hu
  obtain ⟨hcfg, -⟩ := hkept
  have hmask : ∀ k, Selected m d t k = Selected m c s k := by
    intro k
    have hne : (⟨m.val, by omega⟩ : RegIx) ≠ c.rd := fun h => hrd (congrArg Fin.val h).symm
    rw [Selected, Selected, hdot, honly.vb_of_ne hcfg hne (hok _)]
  have hgpr : t.gpr c.rs = s.gpr c.rs := honly.1 c.rs
  simp only [hmask, hdot, hdrs, hdrt, hgpr, hcfg] at hlen hlanes
  refine ⟨hlen, fun k hk j hj => ?_⟩
  rw [hlanes k hk j hj]
  split
  · rename_i hsel
    exact hpacked k hk hsel j hj
  · rfl

end Sys2Proof.Machine
end

section
/-! SUPPORT. The float formats (R272): the fields of a pattern that was packed, the value of a magnitude on the grid of its
exponent, and the produced NaN. -/

namespace Sys2Proof.Machine

open Sys2Proof

/-- A format with room for the special exponents 0 and `emax` and for a mantissa. -/
structure FloatFormat.Proper (f : FloatFormat) : Prop where
  exp : 2 ≤ f.expBits
  man : 1 ≤ f.manBits

theorem wideFormat_proper (ot : OpType) : (wideFormat ot).Proper := by cases ot <;> exact ⟨by decide, by decide⟩

theorem narrowFormat_proper (ot : OpType) : (narrowFormat ot).Proper := by cases ot <;> exact ⟨by decide, by decide⟩

section

variable {f : FloatFormat}

/-! ## Fields -/

theorem FloatFormat.emax_lt (f : FloatFormat) : f.emax < 2 ^ f.expBits := Nat.sub_one_lt (Nat.two_pow_pos _).ne'

/-- The magnitudes of a format. -/
theorem FloatFormat.two_pow_mag (f : FloatFormat) : 2 ^ (f.expBits + f.manBits) = 2 ^ f.expBits * 2 ^ f.manBits :=
  pow_add _ _ _

theorem FloatFormat.man_lt (f : FloatFormat) (v : Nat) : f.man v < 2 ^ f.manBits := Nat.mod_lt _ (Nat.two_pow_pos _)

theorem FloatFormat.exp_lt (f : FloatFormat) (v : Nat) : f.exp v < 2 ^ f.expBits := Nat.mod_lt _ (Nat.two_pow_pos _)

/-- Infinity is the magnitude with the greatest exponent and no mantissa; with a mantissa it is still a magnitude. -/
theorem FloatFormat.infMag_add_lt {m : Nat} (hm : m < 2 ^ f.manBits) : f.infMag + m < 2 ^ (f.expBits + f.manBits) := by
  have hle := Nat.mul_le_mul_right (2 ^ f.manBits) (Nat.succ_le_of_lt f.emax_lt)
  rw [f.two_pow_mag, infMag]
  rw [Nat.succ_mul] at hle
  omega

theorem FloatFormat.infMag_lt (f : FloatFormat) : f.infMag < 2 ^ (f.expBits + f.manBits) :=
  infMag_add_lt (Nat.two_pow_pos _)

theorem FloatFormat.exp_mag (f : FloatFormat) (v : Nat) : f.exp (f.mag v) = f.exp v := by
  rw [exp, exp, mag, Nat.add_comm, pow_add, Nat.mod_mul_right_div_self, Nat.mod_mod]

theorem FloatFormat.man_mag (f : FloatFormat) (v : Nat) : f.man (f.mag v) = f.man v :=
  Nat.mod_mod_of_dvd _ (pow_dvd_pow 2 (Nat.le_add_left _ _))

/-- Packing a sign and a magnitude: both can be read back. -/
theorem FloatFormat.mag_pack {m : Nat} (neg : Bool) (hm : m < 2 ^ (f.expBits + f.manBits)) : f.mag (f.pack neg m) = m := by
  cases neg <;> simp [mag, pack, Nat.mod_eq_of_lt hm]

theorem FloatFormat.sign_pack {m : Nat} (neg : Bool) (hm : m < 2 ^ (f.expBits + f.manBits)) :
    f.sign (f.pack neg m) = neg := by
  cases neg with
  | false => simpa [sign, pack] using Nat.testBit_lt_two_pow hm
  | true => simp [sign, pack, Nat.testBit_two_pow_add_eq, Nat.testBit_lt_two_pow hm]

theorem FloatFormat.pack_lt {m : Nat} (neg : Bool) (hm : m < 2 ^ (f.expBits + f.manBits)) : f.pack neg m < 2 ^ f.width := by
  have hwidth : 2 ^ f.width = 2 * 2 ^ (f.expBits + f.manBits) := by rw [width, Nat.add_assoc, pow_add, pow_one]
  rw [hwidth, pack]
  split <;> omega

theorem FloatFormat.exp_pack {m : Nat} (neg : Bool) (hm : m < 2 ^ (f.expBits + f.manBits)) :
    f.exp (f.pack neg m) = f.exp m := by rw [← f.exp_mag, mag_pack neg hm]

theorem FloatFormat.man_pack {m : Nat} (neg : Bool) (hm : m < 2 ^ (f.expBits + f.manBits)) :
    f.man (f.pack neg m) = f.man m := by rw [← f.man_mag, mag_pack neg hm]

/-- A magnitude from its two fields. -/
theorem FloatFormat.exp_fields {e m : Nat} (he : e < 2 ^ f.expBits) (hm : m < 2 ^ f.manBits) :
    f.exp (e * 2 ^ f.manBits + m) = e := by
  rw [exp, Nat.mul_comm, Nat.mul_add_div (Nat.two_pow_pos _), Nat.div_eq_of_lt hm, Nat.add_zero, Nat.mod_eq_of_lt he]

theorem FloatFormat.man_fields (e : Nat) {m : Nat} (hm : m < 2 ^ f.manBits) : f.man (e * 2 ^ f.manBits + m) = m := by
  rw [man, Nat.mul_comm, Nat.mul_add_mod, Nat.mod_eq_of_lt hm]

/-- A magnitude below infinity is finite. -/
theorem FloatFormat.isFinite_pack {m : Nat} (neg : Bool) (hm : m < f.infMag) : f.isFinite (f.pack neg m) = true := by
  rw [isFinite, exp_pack neg (hm.trans f.infMag_lt), bne_iff_ne, exp]
  have hdiv : m / 2 ^ f.manBits < f.emax := Nat.div_lt_of_lt_mul (by rwa [Nat.mul_comm])
  exact ((Nat.mod_le _ _).trans_lt hdiv).ne

/-! ## The produced NaN (U4) -/

theorem FloatFormat.isNaN_pack (neg : Bool) {m : Nat} (hpos : 0 < m) (hm : m < 2 ^ f.manBits) :
    f.isNaN (f.pack neg (f.infMag + m)) = true := by
  have hlt := infMag_add_lt hm
  rw [isNaN, exp_pack neg hlt, man_pack neg hlt, infMag, exp_fields f.emax_lt hm, man_fields _ hm]
  simpa using hpos.ne'

/-- However it is drawn, a produced NaN is some NaN encoding of the format. -/
theorem FloatFormat.Proper.producedNaN_eq (hf : f.Proper) (cfg : Config) (draw lane : Nat) :
    ∃ neg m, 0 < m ∧ m < 2 ^ f.manBits ∧ f.producedNaN cfg draw lane = f.pack neg (f.infMag + m) := by
  have hquiet : 0 < 2 ^ (f.manBits - 1) ∧ 2 ^ (f.manBits - 1) < 2 ^ f.manBits :=
    ⟨Nat.two_pow_pos _, Nat.pow_lt_pow_right (by decide) (Nat.sub_one_lt_of_le hf.man le_rfl)⟩
  cases h : cfg.nanPayload with
  | defaultQuiet => exact ⟨false, _, hquiet.1, hquiet.2, by simp [producedNaN, h, quietNaN, pack]⟩
  | unspecified =>
    simp only [producedNaN, h, nanOfBits]
    split
    · exact ⟨_, _, hquiet.1, hquiet.2, rfl⟩
    · rename_i hne
      exact ⟨_, _, Nat.pos_of_ne_zero hne, Nat.mod_lt _ (Nat.two_pow_pos _), rfl⟩

theorem FloatFormat.Proper.isNaN_producedNaN (hf : f.Proper) (cfg : Config) (draw lane : Nat) :
    f.isNaN (f.producedNaN cfg draw lane) = true := by
  obtain ⟨neg, m, hpos, hm, h⟩ := hf.producedNaN_eq cfg draw lane
  rw [h]
  exact isNaN_pack neg hpos hm

theorem FloatFormat.Proper.producedNaN_lt (hf : f.Proper) (cfg : Config) (draw lane : Nat) :
    f.producedNaN cfg draw lane < 2 ^ f.width := by
  obtain ⟨neg, m, -, hm, h⟩ := hf.producedNaN_eq cfg draw lane
  rw [h]
  exact pack_lt neg (infMag_add_lt hm)

/-! ## Values -/

/-- The distance of neighbouring numbers `t` exponents above the least. -/
def FloatFormat.spacing (f : FloatFormat) (t : Nat) : ℚ := 2 ^ (f.emin - f.manBits + t)

theorem FloatFormat.spacing_pos (f : FloatFormat) (t : Nat) : 0 < f.spacing t := by unfold spacing; positivity

theorem FloatFormat.spacing_succ (f : FloatFormat) (t : Nat) : f.spacing (t + 1) = 2 * f.spacing t := by
  rw [spacing, spacing, Nat.cast_add_one, ← add_assoc, zpow_add_one₀ (by norm_num), mul_comm]

theorem FloatFormat.spacing_le {t t' : Nat} (h : t ≤ t') : f.spacing t ≤ f.spacing t' :=
  zpow_le_zpow_right₀ (by norm_num) (by omega)

/-- The value of a magnitude, as a multiple of the spacing at its exponent. -/
theorem FloatFormat.value_eq (f : FloatFormat) (mag : Nat) : f.value mag =
    if f.exp mag = 0 then f.man mag * f.spacing 0 else (2 ^ f.manBits + f.man mag) * f.spacing (f.exp mag - 1) := by
  have hman : (2 : ℚ) ^ f.manBits ≠ 0 := by positivity
  have hsub : ∀ a : ℤ, (2 : ℚ) ^ a = 2 ^ (a - f.manBits) * 2 ^ f.manBits := fun a => by
    rw [← zpow_natCast, ← zpow_add₀ (by norm_num), sub_add_cancel]
  unfold value spacing emin
  split
  · rw [hsub (1 - f.bias), Nat.cast_zero, add_zero]
    field_simp
  · have he : (1 - (f.bias : ℤ) - f.manBits + (f.exp mag - 1 : ℕ)) = (f.exp mag : ℤ) - f.bias - f.manBits := by omega
    rw [hsub (f.exp mag - f.bias), he]
    field_simp

/-- The value of a magnitude `n` spacings of the exponent `t` from zero; `n` may reach the next exponent. -/
theorem FloatFormat.value_grid {t n : Nat} (hn : n ≤ 2 * 2 ^ f.manBits) (ht : t = 0 ∨ 2 ^ f.manBits ≤ n)
    (hmag : t * 2 ^ f.manBits + n < 2 ^ (f.expBits + f.manBits)) :
    f.value (t * 2 ^ f.manBits + n) = n * f.spacing t := by
  have hexp : ∀ e m, m < 2 ^ f.manBits → t * 2 ^ f.manBits + n = (e + 1) * 2 ^ f.manBits + m →
      f.value (t * 2 ^ f.manBits + n) = (2 ^ f.manBits + m : ℕ) * f.spacing e := by
    intro e m hm heq
    have he : e + 1 < 2 ^ f.expBits := by
      rw [f.two_pow_mag] at hmag
      exact Nat.lt_of_mul_lt_mul_right (by omega : (e + 1) * 2 ^ f.manBits < 2 ^ f.expBits * 2 ^ f.manBits)
    rw [heq, value_eq, exp_fields he hm, man_fields _ hm, if_neg (Nat.succ_ne_zero e), Nat.add_sub_cancel]
    push_cast
    rfl
  rcases Nat.lt_or_ge n (2 ^ f.manBits) with hlow | hge
  · obtain rfl : t = 0 := ht.resolve_right hlow.not_ge
    have hexp0 := exp_fields (f := f) (Nat.two_pow_pos _) hlow
    rw [value_eq, if_pos hexp0, man_fields _ hlow]
  · rcases Nat.lt_or_ge n (2 * 2 ^ f.manBits) with hlt | htop
    · rw [hexp t (n - 2 ^ f.manBits) (by omega) (by rw [Nat.succ_mul]; omega), Nat.add_sub_cancel' hge]
    · obtain rfl : n = 2 * 2 ^ f.manBits := le_antisymm hn htop
      rw [hexp (t + 1) 0 (Nat.two_pow_pos _) (by ring), spacing_succ]
      push_cast
      ring

/-- Every magnitude lies on the grid of its exponent, below the next one. -/
theorem FloatFormat.exists_grid (f : FloatFormat) (mag : Nat) :
    ∃ t n, mag = t * 2 ^ f.manBits + n ∧ n < 2 * 2 ^ f.manBits ∧ (t = 0 ∨ 2 ^ f.manBits ≤ n) := by
  have hlt := Nat.mod_lt mag (Nat.two_pow_pos f.manBits)
  have hdiv := Nat.div_add_mod' mag (2 ^ f.manBits)
  cases h : mag / 2 ^ f.manBits with
  | zero =>
    rw [h] at hdiv
    exact ⟨0, mag % 2 ^ f.manBits, hdiv.symm, by omega, .inl rfl⟩
  | succ e =>
    rw [h, Nat.succ_mul] at hdiv
    exact ⟨e, 2 ^ f.manBits + mag % 2 ^ f.manBits, by omega, by omega, .inr (by omega)⟩

/-- The greater magnitude has the greater value. -/
theorem FloatFormat.value_lt_succ {mag : Nat} (hmag : mag + 1 < 2 ^ (f.expBits + f.manBits)) :
    f.value mag < f.value (mag + 1) := by
  obtain ⟨t, n, rfl, hn, ht⟩ := f.exists_grid mag
  rw [value_grid hn.le ht (by omega), Nat.add_assoc, value_grid hn (ht.imp_right (by omega)) (by omega)]
  push_cast
  linarith [f.spacing_pos t]

/-- R272: the number a finite pattern unpacks to is its value. -/
theorem FloatFormat.value_mag (f : FloatFormat) (v : Nat) :
    f.value (f.mag v) = (f.unpack v).1 * 2 ^ (f.unpack v).2 := by
  rw [value_eq, f.exp_mag, f.man_mag, unpack]
  split
  · simp [spacing]
  · rename_i hexp
    have he : f.emin - f.manBits + (f.exp v - 1 : ℕ) = (f.exp v : ℤ) - f.bias - f.manBits := by
      unfold emin
      omega
    simp only [spacing, he]
    push_cast
    ring

end

end Sys2Proof.Machine
end

section
/-! SUPPORT. Rounding a dyadic number to a float format (R162, R167): in the units of the spacing at its exponent it is the
rounding of a rational number to an integer. -/

namespace Sys2Proof.Machine

open Sys2Proof

/-! ## Rounding to an integer -/

/-- `n` is `x` rounded to the nearest integer, ties to even. -/
structure NearestInt (x : ℚ) (n : Nat) : Prop where
  lower : 2 * (n : ℚ) - 1 ≤ 2 * x
  lower_tie : 2 * (n : ℚ) - 1 = 2 * x → n % 2 = 0
  upper : 2 * x ≤ 2 * n + 1
  upper_tie : 2 * x = 2 * n + 1 → n % 2 = 0

theorem nearestInt_natCast (n : Nat) : NearestInt n n :=
  ⟨by linarith, fun h => by linarith, by linarith, fun h => by linarith⟩

theorem roundShift_nearestEven (neg : Bool) (m k : Nat) : roundShift .nearestEven neg m k =
    if 2 * (m % 2 ^ k) > 2 ^ k ∨ 2 * (m % 2 ^ k) = 2 ^ k ∧ m / 2 ^ k % 2 = 1 then m / 2 ^ k + 1 else m / 2 ^ k := by
  simp only [roundShift, Bool.or_eq_true, Bool.and_eq_true, decide_eq_true_eq]

/-- Rounding does not pass an integer. -/
theorem NearestInt.le {x : ℚ} {n b : Nat} (h : NearestInt x n) (hx : x < b) : n ≤ b := by
  have hlt : (n : ℚ) < b + 1 := by linarith [h.lower]
  exact Nat.lt_succ_iff.mp (by exact_mod_cast hlt)

theorem NearestInt.ge {x : ℚ} {n b : Nat} (h : NearestInt x n) (hx : b ≤ x) : b ≤ n := by
  have hlt : (b : ℚ) < n + 1 := by linarith [h.upper]
  exact Nat.lt_succ_iff.mp (by exact_mod_cast hlt)

/-- Multiplied out, the conditions of `NearestInt` on `m / 2 ^ k`. -/
theorem roundShift_nearestEven_bounds (neg : Bool) (m k : Nat) :
    let n := roundShift .nearestEven neg m k
    2 * n * 2 ^ k ≤ 2 * m + 2 ^ k ∧ (2 * n * 2 ^ k = 2 * m + 2 ^ k → n % 2 = 0)
      ∧ 2 * m ≤ 2 * n * 2 ^ k + 2 ^ k ∧ (2 * m = 2 * n * 2 ^ k + 2 ^ k → n % 2 = 0) := by
  have hdiv := Nat.div_add_mod' m (2 ^ k)
  have hlt := Nat.mod_lt m (Nat.two_pow_pos k)
  intro n
  by_cases hup : 2 * (m % 2 ^ k) > 2 ^ k ∨ 2 * (m % 2 ^ k) = 2 ^ k ∧ m / 2 ^ k % 2 = 1
  · have hn : n = m / 2 ^ k + 1 := (roundShift_nearestEven neg m k).trans (if_pos hup)
    rw [hn, Nat.mul_assoc, Nat.add_mul]
    omega
  · have hn : n = m / 2 ^ k := (roundShift_nearestEven neg m k).trans (if_neg hup)
    rw [hn, Nat.mul_assoc]
    omega

theorem nearestInt_roundShift (neg : Bool) (m k : Nat) :
    NearestInt (m / 2 ^ k) (roundShift .nearestEven neg m k) := by
  obtain ⟨hlow, hlowTie, hup, hupTie⟩ := roundShift_nearestEven_bounds neg m k
  set n := roundShift .nearestEven neg m k
  have hpos : (0 : ℚ) < 2 ^ k := by positivity
  have hlow' : 2 * (n : ℚ) * 2 ^ k ≤ 2 * m + 2 ^ k := by exact_mod_cast hlow
  have hup' : 2 * (m : ℚ) ≤ 2 * n * 2 ^ k + 2 ^ k := by exact_mod_cast hup
  constructor
  · rw [← mul_div_assoc, le_div_iff₀ hpos]
    linarith
  · intro h
    rw [← mul_div_assoc, eq_div_iff hpos.ne'] at h
    exact hlowTie (by exact_mod_cast (by linarith : 2 * (n : ℚ) * 2 ^ k = 2 * m + 2 ^ k))
  · rw [← mul_div_assoc, div_le_iff₀ hpos]
    linarith
  · intro h
    rw [← mul_div_assoc, div_eq_iff hpos.ne'] at h
    exact hupTie (by exact_mod_cast (by linarith : 2 * (m : ℚ) = 2 * n * 2 ^ k + 2 ^ k))

section

variable {f : FloatFormat}

/-! ## Rounding on the grid -/

theorem FloatFormat.Proper.two_le_emax (hf : f.Proper) : 2 ≤ f.emax := by
  have h : 2 ^ 2 ≤ 2 ^ f.expBits := Nat.pow_le_pow_right (by decide) hf.exp
  unfold emax
  omega

theorem FloatFormat.Proper.infMag_pos (hf : f.Proper) : 0 < f.infMag :=
  Nat.mul_pos (Nat.zero_lt_of_lt hf.two_le_emax) (Nat.two_pow_pos _)

/-- The greatest exponents are those of infinity. -/
theorem FloatFormat.infMag_eq_grid (hf : f.Proper) : f.infMag = (f.emax - 1) * 2 ^ f.manBits + 2 ^ f.manBits := by
  rw [← Nat.succ_mul, infMag, Nat.succ_eq_add_one, Nat.sub_add_cancel (Nat.le_of_lt hf.two_le_emax)]

/-- A number at least as great as the value of infinity rounds to infinity. -/
theorem FloatFormat.nearest_infMag (hf : f.Proper) {q : ℚ} (h : f.value f.infMag ≤ q) : f.Nearest q f.infMag := by
  have hpos := hf.infMag_pos
  have hlt := value_lt_succ (f := f) (mag := f.infMag - 1) (by rw [Nat.sub_add_cancel hpos]; exact f.infMag_lt)
  rw [Nat.sub_add_cancel hpos] at hlt
  exact ⟨le_rfl, fun _ => ⟨by linarith, fun h => by linarith⟩, fun h => absurd h (lt_irrefl _)⟩

section

variable {t n : Nat} {x : ℚ} (hx : NearestInt x n) (hn : n ≤ 2 * 2 ^ f.manBits) (ht : t = 0 ∨ 2 ^ f.manBits ≤ n)
  (hmag : t * 2 ^ f.manBits + n ≤ f.infMag)

include hx hn ht hmag

/-- The magnitude below is one spacing away, or nearer below a power of two. -/
theorem FloatFormat.nearest_grid_lower (hge : t ≠ 0 → 2 ^ f.manBits ≤ x) (hne : t * 2 ^ f.manBits + n ≠ 0) :
    f.value (t * 2 ^ f.manBits + n - 1) + f.value (t * 2 ^ f.manBits + n) ≤ 2 * (x * f.spacing t)
      ∧ (f.value (t * 2 ^ f.manBits + n - 1) + f.value (t * 2 ^ f.manBits + n) = 2 * (x * f.spacing t) → n % 2 = 0) := by
  have hspacing := f.spacing_pos t
  have hinf := f.infMag_lt
  have hvalue := value_grid hn ht (by omega)
  rw [hvalue]
  by_cases hbelow : t = 0 ∨ 2 ^ f.manBits < n
  · have hpos : 0 < n := by
      rcases hbelow with rfl | h
      · omega
      · omega
    have hprev : f.value (t * 2 ^ f.manBits + n - 1) = (n - 1) * f.spacing t := by
      rw [Nat.add_sub_assoc hpos, value_grid (by omega) (hbelow.imp_right (by omega)) (by omega), Nat.cast_sub hpos,
        Nat.cast_one]
    have hsum : (n - 1) * f.spacing t + n * f.spacing t = (2 * n - 1) * f.spacing t := by ring
    rw [hprev, hsum, ← mul_assoc]
    exact ⟨mul_le_mul_of_nonneg_right hx.lower hspacing.le,
      fun h => hx.lower_tie (mul_right_cancel₀ hspacing.ne' h)⟩
  · obtain ⟨h0, hle⟩ := not_or.mp hbelow
    obtain rfl : n = 2 ^ f.manBits := le_antisymm (not_lt.mp hle) (ht.resolve_left h0)
    have hprev := value_lt_succ (f := f) (mag := t * 2 ^ f.manBits + 2 ^ f.manBits - 1) (by omega)
    rw [Nat.sub_add_cancel (by omega), hvalue] at hprev
    have hxge := mul_le_mul_of_nonneg_right (hge h0) hspacing.le
    push_cast at hprev ⊢
    exact ⟨by linarith, fun h => by linarith⟩

/-- The magnitude above is one spacing away, or further above a power of two. -/
theorem FloatFormat.nearest_grid_upper (hlt : x < 2 * 2 ^ f.manBits) (hfin : t * 2 ^ f.manBits + n < f.infMag) :
    2 * (x * f.spacing t) ≤ f.value (t * 2 ^ f.manBits + n) + f.value (t * 2 ^ f.manBits + n + 1)
      ∧ (2 * (x * f.spacing t) = f.value (t * 2 ^ f.manBits + n) + f.value (t * 2 ^ f.manBits + n + 1) → n % 2 = 0) := by
  have hspacing := f.spacing_pos t
  have hinf := f.infMag_lt
  have hvalue := value_grid hn ht (by omega)
  rw [hvalue]
  rcases Nat.lt_or_ge n (2 * 2 ^ f.manBits) with htop | htop
  · have hnext : f.value (t * 2 ^ f.manBits + n + 1) = (n + 1) * f.spacing t := by
      rw [Nat.add_assoc, value_grid (by omega) (ht.imp_right (by omega)) (by omega), Nat.cast_add, Nat.cast_one]
    have hsum : n * f.spacing t + (n + 1) * f.spacing t = (2 * n + 1) * f.spacing t := by ring
    rw [hnext, hsum, ← mul_assoc]
    exact ⟨mul_le_mul_of_nonneg_right hx.upper hspacing.le,
      fun h => hx.upper_tie (mul_right_cancel₀ hspacing.ne' h)⟩
  · obtain rfl : n = 2 * 2 ^ f.manBits := le_antisymm hn htop
    have hnext := value_lt_succ (f := f) (mag := t * 2 ^ f.manBits + 2 * 2 ^ f.manBits) (by omega)
    rw [hvalue] at hnext
    have hxlt := mul_lt_mul_of_pos_right hlt hspacing
    push_cast at hnext ⊢
    exact ⟨by linarith, fun h => by linarith⟩

end

/-- A number of `x` spacings at the exponent `t`, `x` rounded to `n`, has the magnitude `n` spacings up as its nearest. -/
theorem FloatFormat.nearest_grid (hf : f.Proper) {t n : Nat} {x : ℚ} (hx : NearestInt x n) (hlt : x < 2 * 2 ^ f.manBits)
    (hge : t ≠ 0 → 2 ^ f.manBits ≤ x) (hmag : t * 2 ^ f.manBits + n ≤ f.infMag) :
    f.Nearest (x * f.spacing t) (t * 2 ^ f.manBits + n) := by
  have hn : n ≤ 2 * 2 ^ f.manBits := hx.le (by exact_mod_cast hlt)
  have ht : t = 0 ∨ 2 ^ f.manBits ≤ n := or_iff_not_imp_left.mpr fun h0 => hx.ge (by exact_mod_cast hge h0)
  have hparity : n % 2 = 0 → (t * 2 ^ f.manBits + n) % 2 = 0 := by
    rw [two_pow_pred hf.man, Nat.mul_left_comm]
    omega
  exact ⟨hmag, fun hne => (nearest_grid_lower hx hn ht hmag hge hne).imp_right (hparity ∘ ·),
    fun hfin => (nearest_grid_upper hx hn ht hmag hlt hfin).imp_right (hparity ∘ ·)⟩

/-! ## The rounding of `m * 2 ^ e` -/

/-- How many exponents above the least the number `m * 2 ^ e` lies. -/
def FloatFormat.scaleOf (f : FloatFormat) (m : Nat) (e : Int) : Nat := ((Nat.log2 m : Int) + e - f.emin).toNat

/-- `m * 2 ^ e` rounded, in spacings at its exponent. -/
def FloatFormat.scaled (f : FloatFormat) (mode : RoundingMode) (neg : Bool) (m : Nat) (e : Int) : Nat :=
  let q : Int := f.emin - f.manBits + f.scaleOf m e
  if e ≤ q then roundShift mode neg m (q - e).toNat else m * 2 ^ (e - q).toNat

/-- The magnitude `roundDyadic` gives, before the test for overflow. -/
def FloatFormat.roundedMag (f : FloatFormat) (mode : RoundingMode) (neg : Bool) (m : Nat) (e : Int) : Nat :=
  f.scaleOf m e * 2 ^ f.manBits + f.scaled mode neg m e

theorem FloatFormat.roundDyadic_zero (f : FloatFormat) (mode : RoundingMode) (neg : Bool) (e : Int) :
    f.roundDyadic mode neg 0 e = f.pack neg 0 := if_pos rfl

theorem FloatFormat.roundDyadic_eq {m : Nat} (hm : m ≠ 0) (mode : RoundingMode) (neg : Bool) (e : Int) :
    f.roundDyadic mode neg m e = f.pack neg
      (if f.roundedMag mode neg m e ≥ f.infMag then f.overflowMag mode neg else f.roundedMag mode neg m e) := if_neg hm

/-- The spacing at an exponent is the power of two there, less the mantissa bits. -/
theorem FloatFormat.spacing_top (f : FloatFormat) (t : Nat) : 2 ^ f.manBits * f.spacing t = (2 : ℚ) ^ (f.emin + t) := by
  rw [spacing, ← zpow_natCast, ← zpow_add₀ (by norm_num)]
  congr 1
  ring

/-- In spacings at its exponent a number has at most one bit more than the mantissa, and but for the least exponent no fewer. -/
theorem FloatFormat.bounds_of_eq_mul_spacing {m : Nat} {e : Int} {x : ℚ} (hm : m ≠ 0)
    (hx : (m : ℚ) * 2 ^ e = x * f.spacing (f.scaleOf m e)) :
    x < 2 * 2 ^ f.manBits ∧ (f.scaleOf m e ≠ 0 → 2 ^ f.manBits ≤ x) := by
  have hspacing := f.spacing_pos (f.scaleOf m e)
  have hlow : (2 : ℚ) ^ (Nat.log2 m : ℤ) ≤ m := by
    rw [zpow_natCast]
    exact_mod_cast Nat.log2_self_le hm
  have hhigh : (m : ℚ) < 2 ^ ((Nat.log2 m : ℤ) + 1) := by
    rw [zpow_add_one₀ (by norm_num), zpow_natCast, ← pow_succ]
    exact_mod_cast Nat.lt_log2_self (n := m)
  constructor
  · rw [← mul_lt_mul_iff_left₀ hspacing, ← hx, mul_assoc, f.spacing_top, ← zpow_one_add₀ (by norm_num)]
    have hexp : (Nat.log2 m : ℤ) + 1 + e ≤ 1 + (f.emin + f.scaleOf m e) := by unfold scaleOf; omega
    calc (m : ℚ) * 2 ^ e < 2 ^ ((Nat.log2 m : ℤ) + 1) * 2 ^ e := mul_lt_mul_of_pos_right hhigh (by positivity)
      _ = 2 ^ ((Nat.log2 m : ℤ) + 1 + e) := (zpow_add₀ (by norm_num) _ _).symm
      _ ≤ _ := zpow_le_zpow_right₀ (by norm_num) hexp
  · intro hscale
    have hexp : f.emin + f.scaleOf m e = (Nat.log2 m : ℤ) + e := by unfold scaleOf at hscale ⊢; omega
    rw [← mul_le_mul_iff_left₀ hspacing, ← hx, f.spacing_top, hexp, zpow_add₀ (by norm_num)]
    exact mul_le_mul_of_nonneg_right hlow (by positivity)

/-- Where `m * 2 ^ e` is a multiple of the spacing it is not rounded. -/
theorem FloatFormat.scaled_of_lt {m : Nat} {e : Int} (h : f.emin - f.manBits + f.scaleOf m e < e) (mode : RoundingMode)
    (neg : Bool) : (m : ℚ) * 2 ^ e = f.scaled mode neg m e * f.spacing (f.scaleOf m e) := by
  have he : e = ((e - (f.emin - f.manBits + f.scaleOf m e)).toNat : ℤ) + (f.emin - f.manBits + f.scaleOf m e) := by omega
  rw [scaled, if_neg h.not_ge, spacing, Nat.cast_mul, Nat.cast_pow, Nat.cast_ofNat, mul_assoc, ← zpow_natCast,
    ← zpow_add₀ (by norm_num), ← he]

/-- To nearest even, `scaled` is the nearest integer. -/
theorem FloatFormat.exists_nearestInt_scaled (f : FloatFormat) (neg : Bool) (m : Nat) (e : Int) :
    ∃ x, (m : ℚ) * 2 ^ e = x * f.spacing (f.scaleOf m e) ∧ NearestInt x (f.scaled .nearestEven neg m e) := by
  by_cases h : e ≤ f.emin - f.manBits + f.scaleOf m e
  · refine ⟨m / 2 ^ (f.emin - f.manBits + f.scaleOf m e - e).toNat, ?_, ?_⟩
    · have he : f.emin - f.manBits + f.scaleOf m e = ((f.emin - f.manBits + f.scaleOf m e - e).toNat : ℤ) + e := by omega
      rw [spacing, div_mul_eq_mul_div, eq_div_iff (by positivity), mul_assoc, ← zpow_natCast, ← zpow_add₀ (by norm_num),
        add_comm e, ← he]
    · rw [scaled, if_pos h]
      exact nearestInt_roundShift neg m _
  · exact ⟨_, scaled_of_lt (not_le.mp h) .nearestEven neg, nearestInt_natCast _⟩

theorem FloatFormat.overflowMag_le (f : FloatFormat) (mode : RoundingMode) (neg : Bool) :
    f.overflowMag mode neg ≤ f.infMag := by
  unfold overflowMag
  split <;> omega

/-- R162: whatever the mode, rounding keeps the sign and gives at most infinity. -/
theorem FloatFormat.exists_roundDyadic_eq_pack (f : FloatFormat) (mode : RoundingMode) (neg : Bool) (m : Nat) (e : Int) :
    ∃ mag ≤ f.infMag, f.roundDyadic mode neg m e = f.pack neg mag := by
  by_cases hm : m = 0
  · exact ⟨0, Nat.zero_le _, by rw [hm, roundDyadic_zero]⟩
  · refine ⟨_, ?_, roundDyadic_eq hm mode neg e⟩
    split
    · exact f.overflowMag_le mode neg
    · omega

/-- A magnitude two exponents below infinity does not overflow. -/
theorem FloatFormat.grid_le_infMag {t n : Nat} (ht : t + 2 ≤ f.emax) (hn : n ≤ 2 * 2 ^ f.manBits) :
    t * 2 ^ f.manBits + n ≤ f.infMag := by
  have hle := Nat.mul_le_mul_right (2 ^ f.manBits) ht
  rw [Nat.add_mul] at hle
  unfold infMag
  omega

/-- R162: to nearest even, the rounding of `m * 2 ^ e` is its nearest magnitude. -/
theorem FloatFormat.exists_roundDyadic_nearest (hf : f.Proper) (neg : Bool) (m : Nat) (e : Int) :
    ∃ mag ≤ f.infMag, f.roundDyadic .nearestEven neg m e = f.pack neg mag ∧ f.Nearest (m * 2 ^ e) mag := by
  by_cases hm : m = 0
  · have h := nearest_grid hf (t := 0) (nearestInt_natCast 0) (by positivity) (absurd rfl) (by simp)
    exact ⟨0, Nat.zero_le _, by rw [hm, roundDyadic_zero], by simpa [hm] using h⟩
  obtain ⟨x, hx, hnear⟩ := f.exists_nearestInt_scaled neg m e
  obtain ⟨hlt, hge⟩ := bounds_of_eq_mul_spacing hm hx
  have hround := roundDyadic_eq (f := f) hm .nearestEven neg e
  by_cases hover : f.emax - 1 ≤ f.scaleOf m e
  · -- the number itself is beyond the range
    have hscale : f.scaleOf m e ≠ 0 := by have := hf.two_le_emax; omega
    have hinf := infMag_eq_grid hf
    have hlarge : f.value f.infMag ≤ m * 2 ^ e := by
      rw [hinf, value_grid (by omega) (.inr le_rfl) (hinf ▸ f.infMag_lt), Nat.cast_pow, Nat.cast_ofNat, hx]
      exact mul_le_mul (hge hscale) (spacing_le hover) (f.spacing_pos _).le (le_trans (by positivity) (hge hscale))
    have hmag : f.roundedMag .nearestEven neg m e ≥ f.infMag := by
      rw [hinf]
      exact Nat.add_le_add (Nat.mul_le_mul_right _ hover) (hnear.ge (by exact_mod_cast hge hscale))
    rw [if_pos hmag] at hround
    exact ⟨_, le_rfl, hround, nearest_infMag hf hlarge⟩
  · have hmag : f.roundedMag .nearestEven neg m e ≤ f.infMag :=
      grid_le_infMag (by omega) (hnear.le (by exact_mod_cast hlt))
    refine ⟨f.roundedMag .nearestEven neg m e, hmag, hround.trans (congrArg _ ?_), hx ▸ nearest_grid hf hnear hlt hge hmag⟩
    split
    · exact le_antisymm ‹_› hmag
    · rfl

/-- R167: a number with fewer bits than the format's mantissa and an exponent in its range is not rounded. -/
theorem FloatFormat.exists_roundDyadic_exact {m : Nat} {e : Int} (hf : f.Proper) (hbits : Nat.log2 m < f.manBits)
    (hlow : f.emin ≤ e) (hhigh : (Nat.log2 m : ℤ) + e + 2 < f.emin + f.emax) (mode : RoundingMode) (neg : Bool) :
    ∃ mag < f.infMag, f.roundDyadic mode neg m e = f.pack neg mag ∧ f.value mag = m * 2 ^ e := by
  by_cases hm : m = 0
  · have hzero := value_grid (f := f) (t := 0) (n := 0) (by positivity) (.inl rfl) (by simp)
    exact ⟨0, hf.infMag_pos, by rw [hm, roundDyadic_zero], by simpa [hm] using hzero⟩
  have hexact := scaled_of_lt (f := f) (m := m) (e := e) (by unfold scaleOf; omega) mode neg
  obtain ⟨hlt, hge⟩ := bounds_of_eq_mul_spacing hm hexact
  have hscaled : f.scaled mode neg m e ≤ 2 * 2 ^ f.manBits := le_of_lt (by exact_mod_cast hlt)
  have hgrid : f.scaleOf m e = 0 ∨ 2 ^ f.manBits ≤ f.scaled mode neg m e :=
    or_iff_not_imp_left.mpr fun h0 => by exact_mod_cast hge h0
  have hmag : f.roundedMag mode neg m e < f.infMag := by
    have hle := grid_le_infMag (f := f) (t := f.scaleOf m e + 1) (by unfold scaleOf; omega) hscaled
    rw [Nat.succ_mul] at hle
    have hpos := Nat.two_pow_pos f.manBits
    unfold roundedMag
    omega
  refine ⟨f.roundedMag mode neg m e, hmag, ?_, ?_⟩
  · rw [roundDyadic_eq hm, if_neg hmag.not_ge]
  · rw [roundedMag, value_grid hscaled hgrid (hmag.trans f.infMag_lt), hexact]

end

end Sys2Proof.Machine
end

section
/-! SUPPORT. The conversions between the float formats (R162, R167) and, from these, compress and expand on floats. -/

namespace Sys2Proof.Machine

open Sys2Proof

/-! ## The operand of a conversion -/

section

variable {f : FloatFormat} {v : Nat}

/-- R203: the three kinds of patterns exclude each other. -/
theorem FloatFormat.isNaN_of_isInf (h : f.isInf v = true) : f.isNaN v = false := by
  simp only [isInf, Bool.and_eq_true, beq_iff_eq] at h
  simp [isNaN, h.2]

theorem FloatFormat.isNaN_of_isFinite (h : f.isFinite v = true) : f.isNaN v = false := by
  rw [isFinite, bne_iff_ne] at h
  simp [isNaN, h]

theorem FloatFormat.isInf_of_isFinite (h : f.isFinite v = true) : f.isInf v = false := by
  rw [isFinite, bne_iff_ne] at h
  simp [isInf, h]

/-- A pattern of none of the special kinds is finite. -/
theorem FloatFormat.isFinite_of_not (hnan : f.isNaN v = false) (hinf : f.isInf v = false) : f.isFinite v = true := by
  rw [isFinite, bne_iff_ne]
  intro h
  simp [isNaN, h] at hnan
  simp [isInf, h, hnan] at hinf

/-- The number a finite pattern unpacks to: its bits, the least exponent, and the greatest. -/
theorem FloatFormat.unpack_bounds (hf : f.Proper) (h : f.isFinite v = true) :
    Nat.log2 (f.unpack v).1 ≤ f.manBits ∧ f.emin - f.manBits ≤ (f.unpack v).2
      ∧ (f.unpack v).2 + f.manBits + f.bias < f.emax := by
  have hman := f.man_lt v
  have hexp := f.exp_lt v
  have hemax := hf.two_le_emax
  have hlog : ∀ m < 2 * 2 ^ f.manBits, Nat.log2 m ≤ f.manBits := by
    intro m hm
    by_cases h0 : m = 0
    · simp [h0]
    · rw [← Nat.lt_succ_iff, Nat.log2_lt h0, pow_succ']
      exact hm
  rw [isFinite, bne_iff_ne] at h
  have hlt : f.exp v < f.emax := by unfold emax at h ⊢; omega
  unfold unpack emin
  split
  · exact ⟨hlog _ (by omega), by omega, by omega⟩
  · exact ⟨hlog _ (by omega), by omega, by omega⟩

end

/-! ## Conversion -/

section

variable {src dst : FloatFormat} {mode : RoundingMode} {nan v : Nat}

theorem convertFloat_of_isNaN (h : src.isNaN v = true) : convertFloat src dst mode nan v = nan := if_pos h

theorem convertFloat_of_isInf (h : src.isInf v = true) :
    convertFloat src dst mode nan v = dst.pack (src.sign v) dst.infMag := by
  rw [convertFloat, FloatFormat.isNaN_of_isInf h, if_neg Bool.false_ne_true, if_pos h]

theorem convertFloat_of_isFinite (h : src.isFinite v = true) : convertFloat src dst mode nan v
    = dst.roundDyadic mode (src.sign v) (src.unpack v).1 (src.unpack v).2 := by
  rw [convertFloat, FloatFormat.isNaN_of_isFinite h, FloatFormat.isInf_of_isFinite h, if_neg Bool.false_ne_true,
    if_neg Bool.false_ne_true]

/-- U4: the NaN a conversion would draw shows only for a NaN. -/
theorem convertFloat_congr_nan (h : src.isNaN v = false) (nan nan' : Nat) :
    convertFloat src dst mode nan v = convertFloat src dst mode nan' v := by
  simp [convertFloat, h]

/-- R162: the narrower magnitude of a finite pattern; its sign is kept, and to nearest even its value is rounded. -/
theorem exists_convertFloat_finite (hdst : dst.Proper) (h : src.isFinite v = true) :
    ∃ m ≤ dst.infMag, convertFloat src dst mode nan v = dst.pack (src.sign v) m
      ∧ (mode = .nearestEven → dst.Nearest (src.value (src.mag v)) m) := by
  rw [convertFloat_of_isFinite h, src.value_mag]
  by_cases hmode : mode = .nearestEven
  · subst hmode
    obtain ⟨m, hm, hround, hnearest⟩ := FloatFormat.exists_roundDyadic_nearest hdst (src.sign v) (src.unpack v).1
      (src.unpack v).2
    exact ⟨m, hm, hround, fun _ => hnearest⟩
  · obtain ⟨m, hm, hround⟩ := dst.exists_roundDyadic_eq_pack mode (src.sign v) (src.unpack v).1 (src.unpack v).2
    exact ⟨m, hm, hround, fun h => absurd h hmode⟩

/-- A conversion gives a pattern of the destination format. -/
theorem convertFloat_lt (hdst : dst.Proper) (hnan : nan < 2 ^ dst.width) :
    convertFloat src dst mode nan v < 2 ^ dst.width := by
  cases h1 : src.isNaN v with
  | true => rwa [convertFloat_of_isNaN h1]
  | false =>
    cases h2 : src.isInf v with
    | true =>
      rw [convertFloat_of_isInf h2]
      exact FloatFormat.pack_lt _ dst.infMag_lt
    | false =>
      obtain ⟨m, hm, h, -⟩ := exists_convertFloat_finite (mode := mode) (nan := nan) hdst
        (FloatFormat.isFinite_of_not h1 h2)
      rw [h]
      exact FloatFormat.pack_lt _ (hm.trans_lt dst.infMag_lt)

/-- Every finite number of `src` is one of `dst`: more mantissa bits, and the exponents of `src` down to its least number. -/
structure FloatFormat.Embeds (src dst : FloatFormat) : Prop where
  man : src.manBits < dst.manBits
  low : dst.emin + src.manBits ≤ src.emin
  high : (src.emax : ℤ) - src.bias + 1 < dst.emin + dst.emax

theorem narrowFormat_embeds (ot : OpType) : (narrowFormat ot).Embeds (wideFormat ot) := by
  cases ot <;> exact ⟨by decide, by decide, by decide⟩

/-- R167: widening is exact. -/
theorem exists_convertFloat_exact (hsrc : src.Proper) (hdst : dst.Proper) (hembeds : src.Embeds dst)
    (h : src.isFinite v = true) : ∃ m < dst.infMag, convertFloat src dst mode nan v = dst.pack (src.sign v) m
      ∧ dst.value m = src.value (src.mag v) := by
  obtain ⟨hman, hlow, hhigh⟩ := hembeds
  obtain ⟨hbits, hleast, hgreatest⟩ := FloatFormat.unpack_bounds hsrc h
  rw [convertFloat_of_isFinite h, src.value_mag]
  exact FloatFormat.exists_roundDyadic_exact hdst (by omega) (by omega) (by omega) mode _

end

/-! ## Float operand types -/

theorem isFloatType_of_mem_floats {ot : OpType} (h : ot ∈ OpType.floats) : isFloatType ot = true :=
  (typesFloat_eq ot).trans (List.contains_iff_mem.mpr h)

theorem ne_i8_of_mem_floats {ot : OpType} (h : ot ∈ OpType.floats) : ot ≠ .i8 := by
  rintro rfl
  exact absurd h (by decide)

theorem width_wideFormat {ot : OpType} (h : ot ∈ OpType.floats) : (wideFormat ot).width = dataBits ot := by
  cases ot with
  | f32 => rfl
  | f64 => rfl
  | _ => exact absurd h (by decide)

theorem width_narrowFormat {ot : OpType} (h : ot ∈ OpType.floats) : (narrowFormat ot).width = dataBits ot / 2 := by
  cases ot with
  | f32 => rfl
  | f64 => rfl
  | _ => exact absurd h (by decide)

/-! ## Compression (R162, R164) -/

/-- R162: a narrowed float has the narrow width. -/
theorem narrowFloat_lt {ot : OpType} (h : ot ∈ OpType.floats) (cfg : Config) (draw lane e : Nat) :
    (narrowFloat cfg draw lane ot e).value < 2 ^ (dataBits ot / 2) := by
  rw [← width_narrowFormat h]
  exact convertFloat_lt (narrowFormat_proper ot) ((narrowFormat_proper ot).producedNaN_lt cfg draw lane)

/-- R164: the narrowed elements of `v[rt]` at a float type, whatever the selector. -/
theorem narrowedElements_float {c : Fields} (h : isFloatType c.ot = true) (sel : Narrowing) (s : State) (length : Nat) :
    narrowedElements sel c s length = (List.range (length / dataSize c.ot)).map fun k =>
      narrowFloat s.cfg s.draws k c.ot (s.velem c.rt (k * dataSize c.ot) (dataSize c.ot)) := by
  simp [narrowedElements, elementCount, h]

/-- R283: bit 3 of the options word enables the float trap. -/
theorem trapF_eq (o : Word) : trapF o = o.getLsbD 3 := and_twoPow_bne_zero (k := 3) (by decide) o

/-- R163 at a float type: only the float condition. -/
theorem compressTraps_float (opts : Word) (cfg : Config) (draw : Nat) (ot : OpType) (n : Nat) (e : Nat → Nat) :
    compressTraps opts ((List.range n).map fun k => narrowFloat cfg draw k ot (e k)) =
      if opts.getLsbD 3 = true ∧ ∃ k < n, (wideFormat ot).isFinite (e k) = true
          ∧ (narrowFormat ot).isInf (narrowFloat cfg draw k ot (e k)).value = true
        then [.overflFloat] else [] := by
  have hsigned : ((List.range n).map fun k => narrowFloat cfg draw k ot (e k)).any (·.ovS) = false := by simp [narrowFloat]
  have hunsigned : ((List.range n).map fun k => narrowFloat cfg draw k ot (e k)).any (·.ovU) = false := by
    simp [narrowFloat]
  rw [compressTraps, hsigned, hunsigned, Bool.false_and, Bool.false_and, raiseIf_false, raiseIf_false]
  refine raiseIf_eq_ite ?_ _
  rw [Bool.and_eq_true, and_comm, trapF_eq, any_map_range]
  simp only [narrowFloat, Bool.and_eq_true]

/-- Settles O33: the three selectors are one operation on floats, the conversion lane by lane. -/
theorem compressFloatResults : Obligations.CompressFloatResults := by
  intro c s hot f g half n e opts htrap i hi
  obtain ⟨op, sel, hexec, hfields⟩ : ∃ op sel, exec i s = compressOp op sel c s ∧ i.fields = c := by
    simp only [List.mem_cons, List.not_mem_nil, or_false] at hi
    rcases hi with rfl | rfl | rfl
    · exact ⟨4, .wrap, rfl, rfl⟩
    · exact ⟨5, .signedSat, rfl, rfl⟩
    · exact ⟨6, .unsignedSat, rfl, rfl⟩
  have hi8 := ne_i8_of_mem_floats hot
  have hks := compressTraps_float opts s.cfg s.draws c.ot n e
  refine ⟨_, compressOp_effect hexec hfields (narrowedElements_float (isFloatType_of_mem_floats hot) sel s)
    (fun k => narrowFloat_lt hot s.cfg s.draws k (e k)) hks ?_ fun t hlen hhalf => ?_⟩
  · refine htrap.symm.imp_left fun hoff => if_neg fun hand => ?_
    rw [hoff] at hand
    exact Bool.false_ne_true hand.1
  · have helem : ∀ k < n, t.velem c.rd (k * half) half = (narrowFloat s.cfg s.draws k c.ot (e k)).value := by
      intro k hk
      rw [← hhalf k (by rwa [halfCount, if_neg hi8]), halfElement_of_ne hi8]
    refine ⟨?_, ?_, fun k hk => ?_⟩
    · exact hlen.trans (mul_dataSize_half hi8 n)
    · refine if_congr (and_congr_right fun _ => exists_congr fun k => and_congr_right fun hk => ?_) rfl rfl
      rw [helem k hk]
    · rw [helem k hk]
      refine ⟨fun hnan => ?_, fun hinf => convertFloat_of_isInf hinf, fun hfin => ?_⟩
      · rw [narrowFloat, convertFloat_of_isNaN hnan]
        exact (narrowFormat_proper c.ot).isNaN_producedNaN _ _ _
      · obtain ⟨m, hm, hvalue, hnearest⟩ := exists_convertFloat_finite (narrowFormat_proper c.ot) hfin
        exact ⟨m, hvalue, hm, hnearest⟩

/-! ## Expansion (R167, R168) -/

/-- R167: a widened float has the wide width. -/
theorem widenFloat_lt {ot : OpType} (h : ot ∈ OpType.floats) (cfg : Config) (draw lane e : Nat) :
    widenFloat cfg draw lane ot e < 2 ^ dataBits ot := by
  rw [← width_wideFormat h]
  exact convertFloat_lt (wideFormat_proper ot) ((wideFormat_proper ot).producedNaN_lt cfg draw lane)

/-- Settles O35. -/
theorem expandFloatResults : Obligations.ExpandFloatResults := by
  intro c s hot f g size n e i hi
  obtain ⟨op, signed, hexec, hfields⟩ : ∃ op signed, exec i s = expandOp op signed c s ∧ i.fields = c := by
    simp only [List.mem_cons, List.not_mem_nil, or_false] at hi
    rcases hi with rfl | rfl
    · exact ⟨8, false, rfl, rfl⟩
    · exact ⟨9, true, rfl, rfl⟩
  have hsource : ∀ k, halfElement c.ot s c.rt k = e k := halfElement_of_ne (ne_i8_of_mem_floats hot) s c.rt
  refine expandOp_effect hexec hfields (y := fun k => widenFloat s.cfg s.draws k c.ot (e k))
    (fun k => by rw [if_pos (isFloatType_of_mem_floats hot), hsource]) (fun k => widenFloat_lt hot _ _ _ _)
    fun t hlen helem => ⟨hlen, fun k hk => ?_⟩
  rw [helem k hk]
  refine ⟨fun hnan => ?_, fun hinf => convertFloat_of_isInf hinf, fun hfin => ?_⟩
  · rw [widenFloat, convertFloat_of_isNaN hnan]
    exact (wideFormat_proper c.ot).isNaN_producedNaN _ _ _
  · obtain ⟨m, hm, hvalue, hexact⟩ := exists_convertFloat_exact (mode := .nearestEven)
      (nan := g.producedNaN s.cfg s.draws k) (narrowFormat_proper c.ot) (wideFormat_proper c.ot)
      (narrowFormat_embeds c.ot) hfin
    have hlt := hm.trans g.infMag_lt
    rw [widenFloat, hvalue]
    exact ⟨FloatFormat.isFinite_pack _ hm, FloatFormat.sign_pack _ hlt, by rw [FloatFormat.mag_pack _ hlt, hexact]⟩

end Sys2Proof.Machine
end

section
/-! SUPPORT. How far the number of the next draw reaches (U4, U6): two runs that differ in it only give the same data, but for
the lanes in which a NaN was produced. -/

namespace Sys2Proof.Machine

open Sys2Proof

/-- `s` before another draw. -/
abbrev State.withDraws (s : State) (d : Nat) : State := { s with draws := d }

/-! ## Operations that draw nothing -/

/-- The end of a command adds no difference. -/
theorem sameOutcome_finish (s : State) (d : Nat) {t t' : State} (tag : Option (BitVec 16)) (ks : List IntKind)
    (h : SameData t t' := by exact ⟨rfl, rfl, rfl, rfl⟩) (hpc : t'.pc = t.pc := by rfl) :
    SameOutcome (finish s t tag ks) (finish (s.withDraws d) t' tag ks) :=
  ⟨_, _, rfl, rfl, sameData_finishState ⟨rfl, rfl, rfl, rfl⟩ h rfl hpc tag ks⟩

theorem sameOutcome_illegal_withDraws (s : State) (d : Nat) :
    SameOutcome (.next (illegal s)) (.next (illegal (s.withDraws d))) :=
  ⟨_, _, rfl, rfl, rfl, rfl, rfl, rfl⟩

/-- The shape of every class operation: the check of the operand type, and a command that ends in `t` or `t'`. -/
theorem sameOutcome_checked (s : State) (d : Nat) (ok : Bool) {t t' : State} (tag : Option (BitVec 16))
    (ks : List IntKind) (h : SameData t t' := by exact ⟨rfl, rfl, rfl, rfl⟩) (hpc : t'.pc = t.pc := by rfl) :
    SameOutcome (if ok then finish s t tag ks else .next (illegal s))
      (if ok then finish (s.withDraws d) t' tag ks else .next (illegal (s.withDraws d))) := by
  cases ok with
  | false => exact sameOutcome_illegal_withDraws s d
  | true => exact sameOutcome_finish s d tag ks h hpc

/-- U6: an operation that produces no NaN draws nothing but the debug tag. -/
theorem exec_withDraws_of_noNaN {i : Instr} (h : producesNaN i = false) (s : State) (d : Nat) :
    SameOutcome (exec i s) (exec i (s.withDraws d)) := by
  by_cases himm : i.immOk = false
  · rw [exec_illegal_of_immOk himm, exec_illegal_of_immOk himm]
    exact sameOutcome_illegal_withDraws s d
  by_cases hmask : i.maskOk = false
  · rw [exec_illegal_of_maskOk hmask, exec_illegal_of_maskOk hmask]
    exact sameOutcome_illegal_withDraws s d
  cases i with
  | compress c | compressSs c | compressUs c | expandU c | expandS c | sqrt c => cases h
  | addressForm c => exact sameOutcome_finish s d _ _
  | absolute c =>
    have himm : c.imm.toNat % 4 ≠ 3 := by simpa [Instr.immOk] using himm
    rw [exec_absolute c s himm, exec_absolute c _ himm]
    exact sameOutcome_checked s d _ _ _
  | replaceBits c =>
    have himm : (Instr.replaceBits c).immOk = true := by simpa using himm
    rw [exec_replaceBits himm, exec_replaceBits himm]
    exact sameOutcome_checked s d _ _ _
  | compressSparse c =>
    obtain ⟨m, hm⟩ : ∃ m, c.rm = some m := Option.ne_none_iff_exists'.mp (by simpa [Instr.maskOk] using hmask)
    rw [exec, exec, execCompressSparse_masked s hm, execCompressSparse_masked _ hm]
    exact sameOutcome_checked s d _ _ _
  | expandSparse c =>
    obtain ⟨m, hm⟩ : ∃ m, c.rm = some m := Option.ne_none_iff_exists'.mp (by simpa [Instr.maskOk] using hmask)
    rw [exec, exec, execExpandSparse_masked s hm, execExpandSparse_masked _ hm]
    exact sameOutcome_checked s d _ _ _
  | setLen c | getLen c | setNum c | getNum c | extract c | insert c | broadcast c | bits2bool c | bool2bits c
  | shiftExpand c | shiftReduce c | shiftUp c | shiftDown c | rotateUp c | rotateDown c | moveHi32 c | insertHi32 c
  | add32u c | sub32u c | addHi32 c | andHi32 c | orHi32 c | xorHi32 c =>
    exact sameOutcome_finish s d _ _
  | bitscanForward c | bitscanReverse c | roundDownPow2 c | roundUpPow2 c | boolReduce c | categoryReduce c | addCarry c
  | subBorrow c | divEx c | divExU c | addSs c | subSs c | addUs c | subUs c | mulSs c | mulUs c | addOc c | subOc c
  | mulOc c | divOc c | shiftAdd c =>
    exact sameOutcome_checked s d _ _ _

/-! ## Produced NaNs that are fixed -/

theorem wholeOp_withDraws (op : BitVec 6) (types : OpType → Bool) (masked : Bool) (c : Fields) (s : State) (d : Nat)
    {handler handler' : Parms → List Byte × List IntKind} (h : ∀ p, handler' p = handler p) :
    SameOutcome (wholeOp op types masked c s handler) (wholeOp op types masked c (s.withDraws d) handler') := by
  obtain rfl : handler' = handler := funext h
  exact sameOutcome_checked s d _ _ _

theorem laneOp_withDraws (op : BitVec 6) (types : OpType → Bool) (masked vectorRs : Bool) (c : Fields) (s : State)
    (d lengthR : Nat) {handler handler' : Nat → Parms → Ret} (h : ∀ off p, handler' off p = handler off p) :
    SameOutcome (laneOp op types masked vectorRs c s lengthR handler)
      (laneOp op types masked vectorRs c (s.withDraws d) lengthR handler') := by
  obtain rfl : handler' = handler := funext fun off => funext (h off)
  exact sameOutcome_checked s d _ _ _

/-- No NaN is drawn: the type is not a float type, or the parameter fixes the NaN (R12). -/
abbrev NoDraw (c : Fields) (s : State) : Prop := isFloatType c.ot = false ∨ s.cfg.nanPayload = .defaultQuiet

section

variable {c : Fields} {s : State} (h : NoDraw c s) (d : Nat)

include h

theorem producedNaN_withDraws (f : FloatFormat) (lane : Nat) (hfloat : isFloatType c.ot = true) :
    f.producedNaN s.cfg d lane = f.producedNaN s.cfg s.draws lane := by
  have hquiet := h.resolve_left (by simp [hfloat])
  rw [FloatFormat.producedNaN, FloatFormat.producedNaN, hquiet]

theorem narrowedElements_withDraws (sel : Narrowing) (length : Nat) :
    narrowedElements sel c (s.withDraws d) length = narrowedElements sel c s length := by
  cases hfloat : isFloatType c.ot with
  | false =>
    exact (narrowedElements_int hfloat sel (s.withDraws d) length).trans (narrowedElements_int hfloat sel s length).symm
  | true =>
    rw [narrowedElements_float hfloat, narrowedElements_float hfloat]
    refine List.map_congr_left fun k _ => ?_
    rw [narrowFloat, narrowFloat, producedNaN_withDraws h d _ k hfloat]
    rfl

theorem compressOp_withDraws (op : BitVec 6) (sel : Narrowing) :
    SameOutcome (compressOp op sel c s) (compressOp op sel c (s.withDraws d)) := by
  refine wholeOp_withDraws op typesAll true c s d fun p => ?_
  rw [narrowedElements_withDraws h]
  rfl

theorem expandOp_withDraws (op : BitVec 6) (signed : Bool) :
    SameOutcome (expandOp op signed c s) (expandOp op signed c (s.withDraws d)) := by
  refine wholeOp_withDraws op typesAll false c s d fun p => ?_
  cases hfloat : isFloatType c.ot with
  | false => rfl
  | true =>
    simp only [widenFloat, producedNaN_withDraws h d _ _ hfloat]
    rfl

theorem execSqrt_withDraws : SameOutcome (execSqrt c s) (execSqrt c (s.withDraws d)) := by
  refine laneOp_withDraws 48 typesTo64 true true c s d _ fun off p => ?_
  cases hfloat : isFloatType c.ot with
  | false => rfl
  | true =>
    dsimp only
    rw [producedNaN_withDraws h d _ off hfloat]

end

/-- U4: where no NaN is drawn, the draw reaches nothing. -/
theorem exec_withDraws_of_noDraw (i : Instr) (s : State) (d : Nat) (h : NoDraw i.fields s) :
    SameOutcome (exec i s) (exec i (s.withDraws d)) := by
  cases i with
  | compress c | compressSs c | compressUs c => exact compressOp_withDraws h d _ _
  | expandU c | expandS c => exact expandOp_withDraws h d _ _
  | sqrt c => exact execSqrt_withDraws h d
  | _ => exact exec_withDraws_of_noNaN rfl s d

end Sys2Proof.Machine
end

section
/-! SUPPORT. The operations that produce NaNs, at the float types: lane by lane, two draws give the same pattern or two NaNs. -/

namespace Sys2Proof.Machine

open Sys2Proof

/-! ## Lanes with a produced NaN -/

/-- A command that writes `n` lanes of `size` bytes to `v[rd]`, lane `k` the low bytes of `y k`, and raises `ks`. -/
def WritesLanes (s : State) (rd : RegIx) (size n : Nat) (y : Nat → Nat) (ks : List IntKind) (o : StepOutcome) : Prop :=
  ∃ slots, o = .next (finishState s
    (({ s with slots := slots } : State).setVec rd ((List.range n).flatMap fun k => leBytes size (y k))) none ks)

/-- Two states after a command that wrote lanes of the format `g` to `v[rd]`: they differ at most in the produced NaNs. -/
structure SameButNaN (g : FloatFormat) (rd : RegIx) (s t u : State) : Prop where
  x : u.x = t.x
  vlen : u.vlen = t.vlen
  intRaised : u.intRaised = t.intRaised
  lanes : LengthsOk s → ∀ k, u.velem rd (k * (g.width / 8)) (g.width / 8) = t.velem rd (k * (g.width / 8)) (g.width / 8)
    ∨ g.isNaN (u.velem rd (k * (g.width / 8)) (g.width / 8)) = true
      ∧ g.isNaN (t.velem rd (k * (g.width / 8)) (g.width / 8)) = true

/-- Patterns as the lanes of the format `g` hold them: the same, or NaNs. -/
def SameOrNaN (g : FloatFormat) (a b : Nat) : Prop :=
  a = b ∨ g.isNaN (a % 256 ^ (g.width / 8)) = true ∧ g.isNaN (b % 256 ^ (g.width / 8)) = true

theorem sameButNaN_of_writesLanes {g : FloatFormat} {s t u : State} {d : Nat} {rd : RegIx} {n : Nat} {y y' : Nat → Nat}
    {ks : List IntKind} (h : WritesLanes s rd (g.width / 8) n y ks (.next t))
    (h' : WritesLanes (s.withDraws d) rd (g.width / 8) n y' ks (.next u))
    (hfit : LengthsOk s → n * (g.width / 8) ≤ s.cfg.maxVectorLength) (hy : ∀ k, SameOrNaN g (y' k) (y k)) :
    SameButNaN g rd s t u := by
  obtain ⟨slots, ht⟩ := h
  obtain ⟨slots', hu⟩ := h'
  obtain rfl := Host.Outcome.next.inj ht
  obtain rfl := Host.Outcome.next.inj hu
  have hsize : ∀ y : Nat → Nat, ∀ k < n, (leBytes (g.width / 8) (y k)).length = g.width / 8 :=
    fun y k _ => length_leBytes _ _
  have hlen : ∀ y : Nat → Nat, ((List.range n).flatMap fun k => leBytes (g.width / 8) (y k)).length = n * (g.width / 8) :=
    fun y => length_flatMap_range n _ _ (hsize y)
  refine ⟨by simp, by simp only [finishState_vlen, setVec_vlen, hlen], by simp, fun hok k => ?_⟩
  by_cases hc : Committed s ks
  · have hfit := hfit hok
    have hholds := holds_finish (s := s) (s' := { s with slots := slots }) (tag := none) hc rd
      ((List.range n).flatMap fun k => leBytes (g.width / 8) (y k)) rfl
    have hholds' := holds_finish (s := s.withDraws d) (s' := { s.withDraws d with slots := slots' }) (tag := none) hc rd
      ((List.range n).flatMap fun k => leBytes (g.width / 8) (y' k)) rfl
    rcases Nat.lt_or_ge k n with hk | hk
    · rw [hholds'.velem_elements (hsize y') hfit k hk, hholds.velem_elements (hsize y) hfit k hk, leNat_leBytes,
        leNat_leBytes]
      exact (hy k).imp_left fun heq => by rw [heq]
    · refine .inl (velem_congr fun j hj => ?_)
      have hpast := Nat.mul_le_mul_right (g.width / 8) hk
      rw [hholds'.vb_of_fit ((hlen y').trans_le hfit), hholds.vb_of_fit ((hlen y).trans_le hfit),
        List.getD_eq_default _ _ (by rw [hlen]; omega), List.getD_eq_default _ _ (by rw [hlen]; omega)]
  · have hc : ¬ commits s ks := hc
    refine .inl (velem_congr fun j _ => ?_)
    simp [State.vb, State.len, State.vbase, hc]

/-! ### The three kinds of operations -/

theorem wholeOp_writesLanes {op : BitVec 6} {masked : Bool} {c : Fields} {s : State}
    {handler : Parms → List Byte × List IntKind} {size n : Nat} {y : Nat → Nat} {ks : List IntKind}
    (hr : handler (wholeParms masked c s) = ((List.range n).flatMap fun k => leBytes size (y k), ks)) :
    WritesLanes s c.rd size n y ks (wholeOp op typesAll masked c s handler) :=
  ⟨_, by rw [wholeOp_eq rfl, hr]⟩

theorem two_pow_width_narrowFormat (ot : OpType) :
    2 ^ (narrowFormat ot).width = 256 ^ ((narrowFormat ot).width / 8) := by cases ot <;> rfl

theorem two_pow_width_wideFormat (ot : OpType) :
    2 ^ (wideFormat ot).width = 256 ^ ((wideFormat ot).width / 8) := by cases ot <;> rfl

/-- Two produced NaNs are patterns of the format, and NaNs. -/
theorem producedNaN_sameOrNaN {g : FloatFormat} (hg : g.Proper) (hwidth : 2 ^ g.width = 256 ^ (g.width / 8))
    (cfg : Config) (d d' lane : Nat) : SameOrNaN g (g.producedNaN cfg d lane) (g.producedNaN cfg d' lane) := by
  refine .inr ⟨?_, ?_⟩
  · rw [← hwidth, Nat.mod_eq_of_lt (hg.producedNaN_lt cfg d lane)]
    exact hg.isNaN_producedNaN cfg d lane
  · rw [← hwidth, Nat.mod_eq_of_lt (hg.producedNaN_lt cfg d' lane)]
    exact hg.isNaN_producedNaN cfg d' lane

/-- A conversion gives the same pattern whatever NaN it would draw, or it gives the NaN. -/
theorem convertFloat_sameOrNaN {src dst : FloatFormat} {mode : RoundingMode} {nan nan' : Nat} (h : SameOrNaN dst nan nan')
    (e : Nat) : SameOrNaN dst (convertFloat src dst mode nan e) (convertFloat src dst mode nan' e) := by
  cases hnan : src.isNaN e with
  | true => rwa [convertFloat_of_isNaN hnan, convertFloat_of_isNaN hnan]
  | false => exact .inl (convertFloat_congr_nan hnan _ _)

/-- The same for a square root, whose result the slot holds in 64 bits. -/
theorem floatSqrt_sameOrNaN {f : FloatFormat} {nan nan' : Nat} (h : SameOrNaN f nan nan') (hnan : nan < 2 ^ 64)
    (hnan' : nan' < 2 ^ 64) (mode : RoundingMode) (b : Nat) (opts : Word) :
    SameOrNaN f (floatSqrt f mode nan b opts).result.toNat (floatSqrt f mode nan' b opts).result.toNat := by
  have hslot : SameOrNaN f (BitVec.ofNat 64 nan).toNat (BitVec.ofNat 64 nan').toNat := by
    rwa [BitVec.toNat_ofNat, BitVec.toNat_ofNat, Nat.mod_eq_of_lt hnan, Nat.mod_eq_of_lt hnan']
  unfold floatSqrt
  split
  · exact hslot
  · split
    · exact .inl rfl
    · split
      · exact hslot
      · split <;> exact .inl rfl

/-- R274: no interrupt depends on the NaN. -/
theorem floatSqrt_raised_congr (f : FloatFormat) (mode : RoundingMode) (nan nan' b : Nat) (opts : Word) :
    (floatSqrt f mode nan b opts).raised = (floatSqrt f mode nan' b opts).raised := by
  unfold floatSqrt
  split_ifs <;> rfl

/-- R163: no interrupt depends on the NaN. -/
theorem compressTraps_congr_draw (opts : Word) (cfg : Config) (d d' : Nat) (ot : OpType) (n : Nat) (e : Nat → Nat) :
    compressTraps opts ((List.range n).map fun k => narrowFloat cfg d k ot (e k))
      = compressTraps opts ((List.range n).map fun k => narrowFloat cfg d' k ot (e k)) := by
  rw [compressTraps_float, compressTraps_float]
  refine if_congr (and_congr_right fun _ => exists_congr fun k => and_congr_right fun _ => and_congr_right fun hfin => ?_)
    rfl rfl
  have hvalue : (narrowFloat cfg d k ot (e k)).value = (narrowFloat cfg d' k ot (e k)).value :=
    convertFloat_congr_nan (FloatFormat.isNaN_of_isFinite hfin) _ _
  rw [hvalue]

/-- R274: what lane `k` of a square root returns at a float type. -/
def sqrtLane (c : Fields) (s : State) (k : Nat) : Ret :=
  let f := wideFormat c.ot
  let off := k * dataSize c.ot
  let p := laneParms true true c s off
  floatSqrt f s.cfg.roundingMode (f.producedNaN s.cfg s.draws off) p.b.toNat p.opts

section

variable {c : Fields} (hot : c.ot ∈ OpType.floats)

include hot

theorem width_narrowFormat_div : (narrowFormat c.ot).width / 8 = dataSize c.ot / 2 := by
  rw [width_narrowFormat hot, dataBits]
  omega

theorem width_wideFormat_div : (wideFormat c.ot).width / 8 = dataSize c.ot := by
  rw [width_wideFormat hot, dataBits]
  omega

/-- R164 at a float type, as lanes. -/
theorem compressOp_writesLanes (op : BitVec 6) (sel : Narrowing) (s : State) :
    let n := min (s.gpr c.rs).toNat s.cfg.maxVectorLength / dataSize c.ot
    let y := fun k => narrowFloat s.cfg s.draws k c.ot (s.velem c.rt (k * dataSize c.ot) (dataSize c.ot))
    WritesLanes s c.rd ((narrowFormat c.ot).width / 8) n (fun k => (y k).value)
      (compressTraps (maskedOptions c s 0) ((List.range n).map y)) (compressOp op sel c s) := by
  intro n y
  refine wholeOp_writesLanes ?_
  dsimp only
  rw [narrowedElements_float (isFloatType_of_mem_floats hot), List.map_map, wholeParms_opts, width_narrowFormat_div hot,
    ← compressedBytes_of_ne (ne_i8_of_mem_floats hot)]
  rfl

theorem compressOp_sameButNaN {op : BitVec 6} {sel : Narrowing} {s t u : State} {d : Nat}
    (ht : compressOp op sel c s = .next t) (hu : compressOp op sel c (s.withDraws d) = .next u) :
    SameButNaN (narrowFormat c.ot) c.rd s t u := by
  have hw := compressOp_writesLanes hot op sel s
  have hw' := compressOp_writesLanes hot op sel (s.withDraws d)
  dsimp only at hw hw'
  rw [ht, compressTraps_congr_draw _ _ _ d] at hw
  rw [hu] at hw'
  refine sameButNaN_of_writesLanes hw hw' (fun _ => ?_) fun k => ?_
  · rw [width_narrowFormat_div hot]
    exact (Nat.mul_le_mul_left _ (Nat.div_le_self _ 2)).trans (elements_fit c.ot s _)
  · exact convertFloat_sameOrNaN
      (producedNaN_sameOrNaN (narrowFormat_proper c.ot) (two_pow_width_narrowFormat c.ot) _ _ _ _) _

/-- R168 at a float type, as lanes. -/
theorem expandOp_writesLanes (op : BitVec 6) (signed : Bool) (s : State) :
    WritesLanes s c.rd ((wideFormat c.ot).width / 8) (min (s.gpr c.rs).toNat s.cfg.maxVectorLength / dataSize c.ot)
      (fun k => widenFloat s.cfg s.draws k c.ot (narrowElement c s k)) [] (expandOp op signed c s) := by
  refine wholeOp_writesLanes ?_
  simp only [isFloatType_of_mem_floats hot, if_true, width_wideFormat_div hot]
  rfl

theorem expandOp_sameButNaN {op : BitVec 6} {signed : Bool} {s t u : State} {d : Nat}
    (ht : expandOp op signed c s = .next t) (hu : expandOp op signed c (s.withDraws d) = .next u) :
    SameButNaN (wideFormat c.ot) c.rd s t u := by
  refine sameButNaN_of_writesLanes (ht ▸ expandOp_writesLanes hot op signed s)
    (hu ▸ expandOp_writesLanes hot op signed (s.withDraws d)) (fun _ => ?_) fun k => ?_
  · rw [width_wideFormat_div hot]
    exact elements_fit c.ot s _
  · exact convertFloat_sameOrNaN (producedNaN_sameOrNaN (wideFormat_proper c.ot) (two_pow_width_wideFormat c.ot) _ _ _ _) _

/-- R271 at a float type, as lanes. -/
theorem execSqrt_writesLanes (s : State) :
    WritesLanes s c.rd ((wideFormat c.ot).width / 8) (s.len c.rt / dataSize c.ot) (fun k => (sqrtLane c s k).result.toNat)
      (loopRaised (s.len c.rt / dataSize c.ot) (sqrtLane c s)) (execSqrt c s) := by
  have h128 : c.ot ≠ .i128 := by
    intro h
    rw [h] at hot
    exact absurd hot (by decide)
  have hsize : dataSize c.ot ≤ 8 := by
    have := dataBits_le h128
    unfold dataBits at this
    omega
  rw [execSqrt, laneOp_eq (typesTo64_of_ne h128), loopOp_eq, width_wideFormat_div hot]
  simp only [isFloatType_of_mem_floats hot, if_true, laneBytes, if_pos hsize]
  exact ⟨_, rfl⟩

theorem execSqrt_sameButNaN {s t u : State} {d : Nat} (ht : execSqrt c s = .next t)
    (hu : execSqrt c (s.withDraws d) = .next u) : SameButNaN (wideFormat c.ot) c.rd s t u := by
  have hf := wideFormat_proper c.ot
  have hw := execSqrt_writesLanes hot s
  have hw' := execSqrt_writesLanes hot (s.withDraws d)
  have hraised : loopRaised (s.len c.rt / dataSize c.ot) (sqrtLane c (s.withDraws d))
      = loopRaised (s.len c.rt / dataSize c.ot) (sqrtLane c s) :=
    List.flatMap_congr fun k _ => floatSqrt_raised_congr _ _ _ _ _ _
  have hslot : ∀ draw lane, (wideFormat c.ot).producedNaN s.cfg draw lane < 2 ^ 64 := fun draw lane =>
    (hf.producedNaN_lt s.cfg draw lane).trans_le (Nat.pow_le_pow_right (by decide) (by cases c.ot <;> decide))
  rw [ht] at hw
  rw [hu] at hw'
  refine sameButNaN_of_writesLanes hw (hraised ▸ hw') (fun hok => ?_) fun k => ?_
  · rw [width_wideFormat_div hot]
    exact (Nat.div_mul_le_self _ _).trans (hok c.rt)
  · exact floatSqrt_sameOrNaN (producedNaN_sameOrNaN hf (two_pow_width_wideFormat c.ot) _ _ _ _) (hslot _ _) (hslot _ _) _ _ _

end

/-! ## The statement -/

/-- U4: an operation that produces NaNs, at a float type. -/
theorem exec_sameButNaN {i : Instr} (hproduces : producesNaN i = true) (hot : i.fields.ot ∈ OpType.floats) {s t u : State}
    {d : Nat} (ht : exec i s = .next t) (hu : exec i (s.withDraws d) = .next u) :
    SameButNaN (resultFormat i) i.fields.rd s t u := by
  cases i with
  | compress c | compressSs c | compressUs c => exact compressOp_sameButNaN (c := c) hot ht hu
  | expandU c | expandS c => exact expandOp_sameButNaN (c := c) hot ht hu
  | sqrt c => exact execSqrt_sameButNaN (c := c) hot ht hu
  | _ => cases hproduces

/-- The bytes outside the window of the destination are those before the command. -/
theorem exec_read_outside {i : Instr} {s t : State} (h : exec i s = .next t) {a : Nat}
    (ha : a < s.vbase i.fields.rd ∨ s.vbase i.fields.rd + s.cfg.maxVectorLength ≤ a) : t.mem.read a = s.mem.read a := by
  obtain ⟨hgpr, hvec, -⟩ := classFrames i s t h
  by_cases hclass : opClass i = .scalar ∨ opClass i = .getter
  · exact (hgpr hclass).2.1 a
  · obtain ⟨hs, hg⟩ := not_or.mp hclass
    exact (hvec hs hg).2.1 a ha

/-- Settles O22, by whether a NaN can be drawn at all. -/
theorem freeValuesReachOnlyNaNs : Obligations.FreeValuesReachOnlyNaNs := by
  intro i s t u d ht hu c g size
  have houtside : ∀ a, a < s.vbase c.rd ∨ s.vbase c.rd + s.cfg.maxVectorLength ≤ a → u.mem.read a = t.mem.read a :=
    fun a ha => (exec_read_outside (s := s.withDraws d) hu ha).trans (exec_read_outside ht ha).symm
  have hsame : SameOutcome (exec i s) (exec i (s.withDraws d)) → SameData t u := by
    rintro ⟨t', u', ht', hu', h⟩
    obtain rfl : t' = t := Host.Outcome.next.inj (ht'.symm.trans ht)
    obtain rfl : u' = u := Host.Outcome.next.inj (hu'.symm.trans hu)
    exact h
  by_cases hdrawn : c.ot ∈ OpType.floats ∧ producesNaN i = true
  · obtain ⟨hx, hvlen, hint, hlanes⟩ := exec_sameButNaN hdrawn.2 hdrawn.1 ht hu
    refine ⟨hx, hvlen, hint, houtside, ?_, fun _ _ => hlanes⟩
    rintro (h | h | h)
    · exact absurd hdrawn.1 h
    · exact (hsame (exec_withDraws_of_noDraw i s d (.inr h))).mem
    · exact absurd hdrawn.2 (by simp [h])
  · have hdata : SameData t u := hsame <| by
      rcases not_and_or.mp hdrawn with h | h
      · refine exec_withDraws_of_noDraw i s d (.inl ?_)
        exact (typesFloat_eq _).trans (by simpa using h)
      · exact exec_withDraws_of_noNaN (Bool.eq_false_iff.mpr h) s d
    exact ⟨hdata.x, hdata.vlen, hdata.intRaised, houtside, fun _ => hdata.mem, fun h1 h2 => absurd ⟨h1, h2⟩ hdrawn⟩

end Sys2Proof.Machine
end

section
/-! SUPPORT. Elements that move as they are (R181, R183, R184): a lane whose slots carry an element of some register
holds that element's bytes, and a lane loop of such lanes copies elements. -/

namespace Sys2Proof.Machine

open Sys2Proof

/-! ## An element in `result` and `aux` (R84, R90, R94) -/

/-- The low bytes of a slot that was loaded with `n` bytes of a register are those bytes. -/
theorem getD_leBytes_ofNat_velem (s : State) (r : RegIx) (off : Nat) {m n j : Nat} (hn : n ≤ 8) (hm : j < m)
    (hj : j < n) :
    (leBytes m (BitVec.ofNat 64 (s.velem r off n)).toNat).getD j 0 = s.vb r (off + j) := by
  have hfits : s.velem r off n < 2 ^ 64 :=
    (velem_lt s r off n).trans_le (Nat.pow_le_pow_right (n := 256) (by decide) hn)
  rw [BitVec.toNat_ofNat, Nat.mod_eq_of_lt hfits, getD_leBytes m _ j hm, ← getD_leBytes n _ j hj, leBytes_velem,
    getD_vslice s r off n j hj]

/-- Class X gives `v[rd]` what a lane of class L receives (R90, R94). -/
theorem laneBytes_eq_take (ot : OpType) (ret : Ret) :
    laneBytes (dataSize ot) ret = (leBytes 8 ret.result.toNat ++ leBytes 8 ret.aux.toNat).take (dataSize ot) := by
  cases ot <;> rfl

theorem eq_i128_of_dataSize {ot : OpType} (h : 8 < dataSize ot) : ot = .i128 := by
  cases ot with
  | i128 => rfl
  | _ => exact absurd h (by decide)

/-- A return that carries the element of `v[r]` at an offset, its low bytes in `result` and at 128 bits its high half in
`aux`, gives a lane the bytes of that element. -/
theorem getD_laneBytes_of_element {ot : OpType} {ret : Ret} {s : State} {r : RegIx} {off n j : Nat}
    (hlow : min (dataSize ot) 8 ≤ n) (hn : n ≤ 8) (hresult : ret.result = BitVec.ofNat 64 (s.velem r off n))
    (haux : ot = .i128 → ret.aux = BitVec.ofNat 64 (s.velem r (off + 8) 8)) (hj : j < dataSize ot) :
    (laneBytes (dataSize ot) ret).getD j 0 = s.vb r (off + j) := by
  rw [laneBytes_eq_take, List.getD_eq_getElem?_getD, List.getElem?_take_of_lt hj, ← List.getD_eq_getElem?_getD]
  rcases Nat.lt_or_ge j 8 with hlt | hge
  · rw [List.getD_append _ _ _ _ (by simpa using hlt), hresult]
    exact getD_leBytes_ofNat_velem s r off hn hlt (by omega)
  · obtain rfl := eq_i128_of_dataSize (hge.trans_lt hj)
    have hhigh : j - 8 < 8 := by
      have : j < 16 := hj
      omega
    rw [List.getD_append_right _ _ _ _ (by simpa using hge), length_leBytes, haux rfl,
      getD_leBytes_ofNat_velem s r (off + 8) le_rfl hhigh hhigh]
    congr 1
    omega

/-! ## Bytes past the length (R31) -/

theorem vb_of_len_le {s : State} {r : RegIx} {i : Nat} (h : s.len r ≤ i) : s.vb r i = 0 := if_neg (by omega)

theorem leNat_replicate_zero (n : Nat) : leNat (List.replicate n 0) = 0 := by
  induction n with
  | zero => rfl
  | succ n ih => rw [List.replicate_succ, leNat, ih]; rfl

theorem velem_of_len_le {s : State} {r : RegIx} {off : Nat} (h : s.len r ≤ off) (n : Nat) : s.velem r off n = 0 := by
  rw [velem_of_getD (bs := List.replicate n 0) List.length_replicate fun j hj => ?_, leNat_replicate_zero]
  rw [vb_of_len_le (h.trans (Nat.le_add_right off j)), List.getD_replicate _ hj]

/-! ## Extraction (R181) -/

/-- R181: what `extract` returns for a position in `v[rt]`. -/
def extractRet (c : Fields) (s : State) (pos : Nat) : Ret :=
  if s.len c.rt ≤ pos then { result := 0 }
  else
    { result := BitVec.ofNat 64 (s.velem c.rt pos 8)
      aux := if c.ot = .i128 then BitVec.ofNat 64 (s.velem c.rt (pos + 8) 8) else 0 }

theorem exec_extract (c : Fields) (s : State) : exec (.extract c) s
    = extractOp 12 typesAll c s fun p => extractRet c s (p.a.toNat * dataSize c.ot) := rfl

theorem extractRet_raised (c : Fields) (s : State) (pos : Nat) : (extractRet c s pos).raised = [] := by
  unfold extractRet
  split <;> rfl

/-- Also past the length of `v[rt]`, where the bytes read as zero, the return carries the element at the position. -/
theorem extractRet_result (c : Fields) (s : State) (pos : Nat) :
    (extractRet c s pos).result = BitVec.ofNat 64 (s.velem c.rt pos 8) := by
  unfold extractRet
  split
  · rename_i hlen
    exact congrArg (BitVec.ofNat 64) (velem_of_len_le hlen 8).symm
  · rfl

theorem extractRet_aux {c : Fields} (h : c.ot = .i128) (s : State) (pos : Nat) :
    (extractRet c s pos).aux = BitVec.ofNat 64 (s.velem c.rt (pos + 8) 8) := by
  unfold extractRet
  split
  · rename_i hlen
    exact congrArg (BitVec.ofNat 64) (velem_of_len_le (hlen.trans (Nat.le_add_right pos 8)) 8).symm
  · rfl

theorem dataSize_le (ot : OpType) : dataSize ot ≤ 16 := by cases ot <;> decide

/-- Settles O37: `v[rd]` is one lane that received an element. -/
theorem extractResult : Obligations.ExtractResult := by
  intro c s ⟨_, hmax⟩
  refine ⟨rfl, ?_⟩
  have hraised := extractRet_raised c s ((s.gpr c.rs).toNat * dataSize c.ot)
  refine hraised ▸ extractOp_effect (exec_extract c s) rfl rfl (.inl hraised) fun t hholds => ?_
  rw [← laneBytes_eq_take] at hholds
  have hfit : ∀ ret, (laneBytes (dataSize c.ot) ret).length ≤ s.cfg.maxVectorLength := fun ret =>
    (length_laneBytes c.ot ret).trans_le ((dataSize_le c.ot).trans hmax)
  refine ⟨(hholds.len_of_fit (hfit _)).trans (length_laneBytes _ _), fun j hj => ?_⟩
  rw [hholds.vb_of_fit (hfit _), getD_laneBytes_of_element (min_le_right _ _) le_rfl (extractRet_result c s _)
    (fun h => extractRet_aux h s _) hj]
  split
  · rfl
  · rename_i hpast
    exact vb_of_len_le ((not_lt.mp hpast).trans (Nat.le_add_right _ j))

/-! ## Lane loops that copy elements (R183, R184) -/

/-- R88, R90: a command of class L that raises nothing and whose lanes fit, from the bytes its lanes receive. -/
theorem laneOp_quiet_effect {i : Instr} {op : BitVec 6} {types : OpType → Bool} {masked vectorRs : Bool} {c : Fields}
    {s : State} {lengthR : Nat} {handler : Nat → Parms → Ret} {byte : Nat → Nat → Byte}
    (he : exec i s = laneOp op types masked vectorRs c s lengthR handler) (hf : i.fields = c) (h : types c.ot = true)
    (hquiet : ∀ off p, (handler off p).raised = []) (hfit : lengthR ≤ s.cfg.maxVectorLength)
    (hbytes : ∀ k, ∀ j < dataSize c.ot, (laneBytes (dataSize c.ot) (handler (k * dataSize c.ot)
      (laneParms masked vectorRs c s (k * dataSize c.ot)))).getD j 0 = byte k j) :
    VectorEffect i s [] fun t => t.len c.rd = lengthR / dataSize c.ot * dataSize c.ot
      ∧ ∀ k < lengthR / dataSize c.ot, ∀ j < dataSize c.ot, t.vb c.rd (k * dataSize c.ot + j) = byte k j := by
  have hraised : (loopRaised (lengthR / dataSize c.ot) fun k => handler (k * dataSize c.ot)
      (laneParms masked vectorRs c s (k * dataSize c.ot))) = [] := by simp [loopRaised, hquiet]
  have hsize : lengthR / dataSize c.ot * dataSize c.ot ≤ s.cfg.maxVectorLength := (Nat.div_mul_le_self _ _).trans hfit
  refine hraised ▸ loopOp_effect (he.trans (laneOp_eq h)) hf (.inl hraised) fun t hholds => ?_
  refine ⟨hholds.len_elements (fun _ _ => length_laneBytes _ _) hsize, fun k hk j hj => ?_⟩
  rw [hholds.vb_elements (fun _ _ => length_laneBytes _ _) hsize k j hk hj, hbytes k j hj]

/-- A lane that returns the first element of `v[rt]` (R183, R184). -/
theorem getD_laneBytes_first (c : Fields) (s : State) (off : Nat) {j : Nat} (hj : j < dataSize c.ot) :
    (laneBytes (dataSize c.ot) { result := (laneParms false false c s off).b, aux := firstElementHigh c s }).getD j 0
      = s.vb c.rt j := by
  rw [getD_laneBytes_of_element (off := 0) le_rfl (min_le_right _ _) rfl (fun h => if_pos h) hj, Nat.zero_add]

/-- A lane that returns its old value (R84, R183). -/
theorem getD_laneBytes_old (c : Fields) (s : State) (off : Nat) {j : Nat} (hj : j < dataSize c.ot) :
    (laneBytes (dataSize c.ot)
      { result := (laneParms false false c s off).old, aux := (laneParms false false c s off).aux }).getD j 0
      = s.vb c.rd (off + j) :=
  getD_laneBytes_of_element le_rfl (min_le_right _ _) rfl (fun h => if_pos h) hj

theorem exec_insert (c : Fields) (s : State) : exec (.insert c) s
    = laneOp 13 typesAll false false c s (s.len c.rd) fun off p =>
        if off = p.a.toNat * dataSize c.ot then { result := p.b, aux := firstElementHigh c s }
        else { result := p.old, aux := p.aux } := rfl

theorem exec_broadcast (c : Fields) (s : State) : exec (.broadcast c) s
    = laneOp 14 typesAll false false c s (min (s.gpr c.rs).toNat s.cfg.maxVectorLength) fun _ p =>
        { result := p.b, aux := firstElementHigh c s } := rfl

/-- R183: the lane at `x[rs] * S` is lane `x[rs]`. -/
theorem insert_effect (c : Fields) {s : State} (hok : LengthsOk s) :
    VectorEffect (.insert c) s [] fun t => t.len c.rd = s.len c.rd / dataSize c.ot * dataSize c.ot
      ∧ ∀ k < s.len c.rd / dataSize c.ot, ∀ j < dataSize c.ot, t.vb c.rd (k * dataSize c.ot + j)
          = if k = (s.gpr c.rs).toNat then s.vb c.rt j else s.vb c.rd (k * dataSize c.ot + j) := by
  refine laneOp_quiet_effect (exec_insert c s) rfl rfl (fun off p => by split <;> rfl) (hok c.rd)
    fun k j hj => ?_
  have hlane : k * dataSize c.ot = (laneParms false false c s (k * dataSize c.ot)).a.toNat * dataSize c.ot
      ↔ k = (s.gpr c.rs).toNat := Nat.mul_left_inj (dataSize_pos c.ot).ne'
  simp only [hlane]
  split
  · exact getD_laneBytes_first c s _ hj
  · exact getD_laneBytes_old c s _ hj

/-- R184. -/
theorem broadcast_effect (c : Fields) (s : State) :
    VectorEffect (.broadcast c) s [] fun t =>
      t.len c.rd = min (s.gpr c.rs).toNat s.cfg.maxVectorLength / dataSize c.ot * dataSize c.ot
      ∧ ∀ k < min (s.gpr c.rs).toNat s.cfg.maxVectorLength / dataSize c.ot, ∀ j < dataSize c.ot,
          t.vb c.rd (k * dataSize c.ot + j) = s.vb c.rt j :=
  laneOp_quiet_effect (exec_broadcast c s) rfl rfl (fun _ _ => rfl) (min_le_right _ _)
    fun _ _ hj => getD_laneBytes_first c s _ hj

/-- Settles O38. -/
theorem insertBroadcastResults : Obligations.InsertBroadcastResults := fun c s hok =>
  ⟨⟨rfl, rfl⟩, insert_effect c hok, broadcast_effect c s⟩

end Sys2Proof.Machine
end

section
/-! SUPPORT. Bit streams and lanes (R53, R191, R195): the element that `bits2bool` makes of a stream bit, the bytes that `bool2bits`
packs, and that the second undoes the first. -/

namespace Sys2Proof.Machine

open Sys2Proof

/-! ## Spreading a stream (R191) -/

/-- R191: `(opts & ~1) | bit`, as the upper 63 bits with a new bit 0 below them. -/
theorem boolElement_eq_concat (opts : Word) (bit : Bool) : boolElement opts bit = (opts.extractLsb' 1 63).concat bit := by
  have hmask : ∀ j, mskBit0.getLsbD j = decide (j = 0) := fun j => by simp [mskBit0, BitVec.getLsbD_one]
  have hbit : ∀ j, (if bit then 1 else 0 : Word).getLsbD j = (decide (j = 0) && bit) := fun j => by
    cases bit <;> simp [BitVec.getLsbD_one]
  refine BitVec.eq_of_getLsbD_eq fun j hj => ?_
  rw [boolElement, BitVec.getLsbD_or, BitVec.getLsbD_and, BitVec.getLsbD_not, hmask, hbit, BitVec.getLsbD_concat,
    BitVec.getLsbD_extractLsb']
  cases j with
  | zero => simp
  | succ j =>
    have hj' : j < 63 := by omega
    simp [hj, hj', Nat.add_comm]

/-- R191: the element keeps the upper bits of the options word and replaces its bit 0. -/
theorem toNat_boolElement (opts : Word) (bit : Bool) :
    (boolElement opts bit).toNat = opts.toNat / 2 * 2 + bit.toNat := by
  have := opts.isLt
  rw [boolElement_eq_concat, BitVec.toNat_concat, BitVec.extractLsb'_toNat, Nat.shiftRight_eq_div_pow,
    Nat.mod_eq_of_lt (by omega)]

theorem getD_replicate_zero (n k : Nat) : (List.replicate n (0 : Byte)).getD k 0 = 0 := by
  rcases Nat.lt_or_ge k n with hin | hpast
  · exact List.getD_replicate _ hin
  · exact List.getD_eq_default _ _ (List.length_replicate.trans_le hpast)

section

variable (c : Fields) (s : State) (opts : Word) (length : Nat)

/-- R191: element `i` of the destination, as bytes. -/
def spreadElement (i : Nat) : List Byte := leBytes (dataSize c.ot) (boolElement opts (streamBit s c.rt i)).toNat

theorem length_spreadElement (i : Nat) : (spreadElement c s opts i).length = dataSize c.ot := length_leBytes _ _

theorem leNat_spreadElement (i : Nat) : leNat (spreadElement c s opts i)
    = (opts.toNat / 2 * 2 + (streamBit s c.rt i).toNat) % 256 ^ dataSize c.ot := by
  rw [spreadElement, leNat_leBytes, toNat_boolElement]

theorem bits2boolBytes_eq : bits2boolBytes c s opts length
    = (List.range (length / dataSize c.ot)).flatMap (spreadElement c s opts)
      ++ List.replicate (length - length / dataSize c.ot * dataSize c.ot) 0 := rfl

theorem length_spreadElements (n : Nat) : ((List.range n).flatMap (spreadElement c s opts)).length = n * dataSize c.ot :=
  length_flatMap_range n _ _ fun i _ => length_spreadElement c s opts i

theorem length_bits2boolBytes : (bits2boolBytes c s opts length).length = length := by
  rw [bits2boolBytes_eq, List.length_append, length_spreadElements, List.length_replicate,
    Nat.add_sub_cancel' (Nat.div_mul_le_self _ _)]

theorem getD_bits2boolBytes_element {i j : Nat} (hi : i < length / dataSize c.ot) (hj : j < dataSize c.ot) :
    (bits2boolBytes c s opts length).getD (i * dataSize c.ot + j) 0 = (spreadElement c s opts i).getD j 0 := by
  have hlt : i * dataSize c.ot + j < length / dataSize c.ot * dataSize c.ot := by nlinarith
  rw [bits2boolBytes_eq, List.getD_append _ _ _ _ (by rwa [length_spreadElements])]
  exact getD_flatMap_range _ _ _ (fun k _ => length_spreadElement c s opts k) i j hi hj

theorem getD_bits2boolBytes_tail {k : Nat} (hk : length / dataSize c.ot * dataSize c.ot ≤ k) :
    (bits2boolBytes c s opts length).getD k 0 = 0 := by
  rw [bits2boolBytes_eq, List.getD_append_right _ _ _ _ (by rwa [length_spreadElements])]
  exact getD_replicate_zero _ _

end

theorem exec_bits2bool (c : Fields) (s : State) : exec (.bits2bool c) s
    = wholeOp 16 typesAll true c s fun p => (bits2boolBytes c s p.opts (s.clampL p.a.toNat), []) := rfl

/-- R191. -/
theorem bits2bool_effect (c : Fields) (s : State) :
    let size := dataSize c.ot
    let len := min (s.gpr c.rs).toNat s.cfg.maxVectorLength
    VectorEffect (.bits2bool c) s [] fun t => t.len c.rd = len
      ∧ (∀ i < len / size, t.velem c.rd (i * size) size
          = ((maskedOptions c s 0).toNat / 2 * 2 + (streamBit s c.rt i).toNat) % 256 ^ size)
      ∧ ∀ k, len / size * size ≤ k → t.vb c.rd k = 0 := by
  intro size len
  refine wholeOp_effect_of_eq (bytes := bits2boolBytes c s (maskedOptions c s 0) len) ?_
    (exec_bits2bool c s) rfl rfl (.inl rfl) fun t hholds => ?_
  · rw [wholeParms_opts]
    rfl
  · have hlen := length_bits2boolBytes c s (maskedOptions c s 0) len
    have hfit := hlen.trans_le (min_le_right _ _)
    refine ⟨(hholds.len_of_fit hfit).trans hlen, fun i hi => ?_, fun k hk => ?_⟩
    · rw [← leNat_spreadElement]
      refine velem_of_getD (length_spreadElement c s _ i) fun j hj => ?_
      rw [hholds.vb_of_fit hfit, getD_bits2boolBytes_element c s _ len hi hj]
    · rw [hholds.vb_of_fit hfit, getD_bits2boolBytes_tail c s _ len hk]

/-! ## Packing lanes (R195) -/

/-- The number whose set bits below `n` are given. -/
def bitSum (bit : Nat → Bool) (n : Nat) : Nat := ((List.range n).map fun j => if bit j then 2 ^ j else 0).sum

theorem byteOfBits_eq (bit : Nat → Bool) : byteOfBits bit = BitVec.ofNat 8 (bitSum bit 8) := rfl

theorem bitSum_succ (bit : Nat → Bool) (n : Nat) : bitSum bit (n + 1) = 2 ^ n * (bit n).toNat + bitSum bit n := by
  cases hn : bit n <;> simp [bitSum, List.range_succ, hn, Nat.add_comm]

theorem bitSum_lt (bit : Nat → Bool) (n : Nat) : bitSum bit n < 2 ^ n := by
  induction n with
  | zero => exact Nat.zero_lt_one
  | succ n ih =>
    have hbit : 2 ^ n * (bit n).toNat ≤ 2 ^ n * 1 := Nat.mul_le_mul_left _ (Bool.toNat_le _)
    rw [bitSum_succ, pow_succ]
    omega

theorem testBit_bitSum (bit : Nat → Bool) {n j : Nat} (hj : j < n) : (bitSum bit n).testBit j = bit j := by
  induction n with
  | zero => exact absurd hj (Nat.not_lt_zero j)
  | succ n ih =>
    rw [bitSum_succ, Nat.testBit_two_pow_mul_add _ (bitSum_lt bit n)]
    split
    · exact ih ‹_›
    · obtain rfl : j = n := by omega
      cases bit j <;> simp

theorem getLsbD_byteOfBits (bit : Nat → Bool) {j : Nat} (hj : j < 8) : (byteOfBits bit).getLsbD j = bit j := by
  rw [byteOfBits_eq, BitVec.getLsbD_ofNat, testBit_bitSum bit hj, decide_eq_true hj, Bool.true_and]

theorem length_bool2bitsBytes (c : Fields) (s : State) (n : Nat) : (bool2bitsBytes c s n).length = 4 * ((n + 31) / 32) := by
  simp [bool2bitsBytes]

/-- R195: bit `i` of the packed stream. -/
theorem getLsbD_bool2bitsBytes (c : Fields) (s : State) (n : Nat) {i : Nat} (hi : i < 8 * (4 * ((n + 31) / 32))) :
    ((bool2bitsBytes c s n).getD (i / 8) 0).getLsbD (i % 8) = (decide (i < n) && s.bit0 c.rt (i * dataSize c.ot)) := by
  have hbyte : i / 8 < 4 * ((n + 31) / 32) := by omega
  rw [bool2bitsBytes, List.getD_eq_getElem?_getD, List.getElem?_map, List.getElem?_range hbyte]
  refine (getLsbD_byteOfBits _ (Nat.mod_lt i (by decide))).trans ?_
  rw [Nat.div_add_mod]

theorem exec_bool2bits (c : Fields) (s : State) : exec (.bool2bits c) s
    = wholeOp 17 typesAll false c s fun p => (bool2bitsBytes c s (elementCount c.ot (s.clampL p.a.toNat)), []) := rfl

/-- R195. The 4-byte blocks fit a vector register of legal capacity. -/
theorem bool2bits_effect (c : Fields) {s : State} (hwf : s.cfg.wf) :
    let n := min (s.gpr c.rs).toNat s.cfg.maxVectorLength / dataSize c.ot
    VectorEffect (.bool2bits c) s [] fun t => t.len c.rd = 4 * ((n + 31) / 32)
      ∧ ∀ i < 8 * t.len c.rd, (t.vb c.rd (i / 8)).getLsbD (i % 8)
          = (decide (i < n) && s.bit0 c.rt (i * dataSize c.ot)) := by
  intro n
  refine wholeOp_effect_of_eq rfl (exec_bool2bits c s) rfl rfl (.inl rfl)
    fun t (hholds : Holds s t c.rd (bool2bitsBytes c s n)) => ?_
  obtain ⟨-, hmax⟩ := hwf
  have hn : n ≤ s.cfg.maxVectorLength := (Nat.div_le_self _ _).trans (min_le_right _ _)
  have hlen := length_bool2bitsBytes c s n
  have hfit : (bool2bitsBytes c s n).length ≤ s.cfg.maxVectorLength := by omega
  have hlen' : t.len c.rd = 4 * ((n + 31) / 32) := (hholds.len_of_fit hfit).trans hlen
  refine ⟨hlen', fun i hi => ?_⟩
  rw [hholds.vb_of_fit hfit]
  exact getLsbD_bool2bitsBytes c s n (hlen' ▸ hi)

/-- Settles O39. -/
theorem bitPackResults : Obligations.BitPackResults := fun c s =>
  ⟨⟨rfl, rfl⟩, bits2bool_effect c s, bool2bits_effect c⟩

/-! ## Packing what was spread (R195, corner cases) -/

/-- Bit 0 of an element is bit 0 of its first byte (R52). -/
theorem testBit_zero_velem (s : State) (r : RegIx) (off : Nat) {n : Nat} (hn : 0 < n) :
    (s.velem r off n).testBit 0 = s.bit0 r off := by
  obtain ⟨m, rfl⟩ := Nat.exists_eq_succ_of_ne_zero hn.ne'
  rw [State.velem, State.vslice, List.range_succ_eq_map, List.map_cons, leNat, State.bit0, BitVec.getLsbD,
    Nat.testBit_zero, Nat.testBit_zero, Nat.add_zero, decide_eq_decide]
  omega

/-- Cutting an element to its size keeps bit 0, which `bits2bool` set to the stream bit. -/
theorem testBit_zero_spread (x : Nat) (bit : Bool) {n : Nat} (hn : 0 < n) :
    ((x / 2 * 2 + bit.toNat) % 256 ^ n).testBit 0 = bit := by
  have heven : 2 ∣ 256 ^ n := dvd_pow (by decide) hn.ne'
  rw [Nat.testBit_zero, Nat.mod_mod_of_dvd _ heven]
  cases bit <;> simp [Nat.add_mod]

/-- Settles O56: lane `i` of the spread stream has stream bit `i` as its bit 0, and that is what the second command packs. -/
theorem bool2bitsUndoesBits2bool : Obligations.Bool2bitsUndoesBits2bool := by
  intro c d s t u hwf hdot hdrt hdrs ht hu n
  obtain ⟨⟨-, helem, -⟩, ⟨hgpr, -⟩, hcfg, -⟩ := (bits2bool_effect c s).of_exec ht
  obtain ⟨⟨hlen, hbits⟩, -⟩ := (bool2bits_effect d (s := t) (hcfg ▸ hwf)).of_exec hu
  have hlane : ∀ i < n, t.bit0 c.rd (i * dataSize c.ot) = streamBit s c.rt i := fun i hi => by
    rw [← testBit_zero_velem t c.rd _ (dataSize_pos c.ot), helem i hi, testBit_zero_spread _ _ (dataSize_pos c.ot)]
  simp only [hgpr, hcfg, hdot, hdrs, hdrt] at hlen hbits
  refine ⟨hlen, fun i hi => (hbits i hi).trans ?_⟩
  by_cases hin : i < n
  · rw [hlane i hin]
    rfl
  · simp [n, hin]

end Sys2Proof.Machine
end

section
/-! SUPPORT. The reductions (R200, R202): a 64-bit result in a vector register, the AND and the OR over the lanes, and the one
category of a float (R203). -/

namespace Sys2Proof.Machine

open Sys2Proof

/-! ## A 64-bit result -/

/-- R88, R93: a command of class W that raises nothing and makes `v[rd]` one 64-bit number. -/
theorem wordResult_effect {i : Instr} {op : BitVec 6} {types : OpType → Bool} {masked : Bool} {c : Fields} {s : State}
    {value : Parms → Nat} {P : State → Prop}
    (he : exec i s = wholeOp op types masked c s fun p => (leBytes 8 (value p), [])) (hf : i.fields = c)
    (h : types c.ot = true) (hwf : s.cfg.wf) (hlt : value (wholeParms masked c s) < 2 ^ 64)
    (hP : ∀ t : State, t.len c.rd = 8 → t.velem c.rd 0 8 = value (wholeParms masked c s) → P t) :
    VectorEffect i s [] P := by
  refine wholeOp_effect_of_eq rfl he hf h (.inl rfl) fun t hholds => ?_
  obtain ⟨-, hmax⟩ := hwf
  have hlen : (leBytes 8 (value (wholeParms masked c s))).length = 8 := length_leBytes 8 _
  have hfit : (leBytes 8 (value (wholeParms masked c s))).length ≤ s.cfg.maxVectorLength := by omega
  refine hP t ((hholds.len_of_fit hfit).trans hlen) ?_
  rw [velem_of_getD hlen fun j _ => by rw [Nat.zero_add, hholds.vb_of_fit hfit], leNat_leBytes]
  exact Nat.mod_eq_of_lt hlt

/-! ## The AND and the OR of the lanes (R200) -/

theorem all_map_range {α : Type} {n : Nat} {y : Nat → α} {p : α → Bool} :
    ((List.range n).map y).all p = true ↔ ∀ k < n, p (y k) = true := by simp

/-- R200: the two bits. The request exceeds the scanned length exactly when it exceeds the length of the source. -/
theorem boolReduction_eq (c : Fields) (s : State) (req : Nat) :
    let n := min req (s.len c.rt) / dataSize c.ot
    let b := fun k => s.bit0 c.rt (k * dataSize c.ot)
    boolReduction c s req = (if (∀ k < n, b k = true) ∧ req ≤ s.len c.rt then 1 else 0)
      + 2 * (if ∃ k < n, b k = true then 1 else 0) := by
  intro n b
  have hpast : min req (s.len c.rt) < req ↔ ¬ req ≤ s.len c.rt := by omega
  refine congrArg₂ (· + ·) (if_congr ?_ rfl rfl) (congrArg (2 * ·) (if_congr any_map_range rfl rfl))
  rw [Bool.and_eq_true, all_map_range, Bool.not_eq_true', decide_eq_false_iff_not, hpast, not_not]
  rfl

theorem boolReduction_lt (c : Fields) (s : State) (req : Nat) : boolReduction c s req < 2 ^ 64 := by
  rw [boolReduction_eq]
  split <;> split <;> decide

theorem exec_boolReduce (c : Fields) (s : State) : exec (.boolReduce c) s
    = wholeOp 18 typesInt false c s fun p => (leBytes 8 (boolReduction c s p.a.toNat), []) := rfl

/-- Settles O40. -/
theorem boolReduceResult : Obligations.BoolReduceResult := by
  intro c s
  refine ⟨rfl, fun hot => exec_illegal_of_typeOk (i := .boolReduce c) (typeOk_eq_false hot) s, fun hot hwf => ?_⟩
  have htypes : typesInt c.ot = true := (typesInt_eq c.ot).trans (List.contains_iff_mem.mpr hot)
  exact wordResult_effect (exec_boolReduce c s) rfl htypes hwf (boolReduction_lt c s _) fun t hlen hvalue =>
    ⟨hlen, hvalue.trans (boolReduction_eq c s _)⟩

/-! ## The category of a float (R203) -/

section

variable {f : FloatFormat}

theorem FloatFormat.exists_inCategory (f : FloatFormat) (e : Nat) : ∃ j, InCategory f e j := by
  have hle : f.exp e ≤ f.emax := Nat.le_sub_one_of_lt (f.exp_lt e)
  rcases hle.eq_or_lt with htop | hlt
  · by_cases hman : f.man e = 0
    · cases hsign : f.sign e with
      | true => exact ⟨6, htop, hman, hsign⟩
      | false => exact ⟨7, htop, hman, hsign⟩
    · exact ⟨0, htop, hman⟩
  · rcases Nat.eq_zero_or_pos (f.exp e) with hzero | hpos
    · by_cases hman : f.man e = 0
      · exact ⟨1, hzero, hman⟩
      · cases hsign : f.sign e with
        | true => exact ⟨2, hzero, hman, hsign⟩
        | false => exact ⟨3, hzero, hman, hsign⟩
    · cases hsign : f.sign e with
      | true => exact ⟨4, hpos, hlt, hsign⟩
      | false => exact ⟨5, hpos, hlt, hsign⟩

theorem InCategory.lt {e j : Nat} (h : InCategory f e j) : j < 8 := by
  by_contra hj
  obtain ⟨k, rfl⟩ := Nat.exists_eq_add_of_le' (not_lt.mp hj)
  exact h

/-- R203: the mask is the bit of the category, so a pattern is in no second one. -/
theorem InCategory.classify_eq (hf : f.Proper) {e j : Nat} (h : InCategory f e j) : classify f e = 2 ^ j := by
  have hemax : 0 ≠ f.emax := (Nat.zero_lt_two.trans_le (FloatFormat.Proper.two_le_emax hf)).ne
  match j, h with
  | 0, ⟨hexp, hman⟩ => simp [classify, hexp, hman]
  | 1, ⟨hexp, hman⟩ => simp [classify, hexp, hman, hemax]
  | 2, ⟨hexp, hman, hsign⟩ => simp [classify, hexp, hman, hsign, hemax]
  | 3, ⟨hexp, hman, hsign⟩ => simp [classify, hexp, hman, hsign, hemax]
  | 4, ⟨hpos, hlt, hsign⟩ => simp [classify, hpos.ne', hlt.ne, hsign]
  | 5, ⟨hpos, hlt, hsign⟩ => simp [classify, hpos.ne', hlt.ne, hsign]
  | 6, ⟨hexp, hman, hsign⟩ => simp [classify, hexp, hman, hsign]
  | 7, ⟨hexp, hman, hsign⟩ => simp [classify, hexp, hman, hsign]

theorem testBit_classify (hf : f.Proper) (e j : Nat) : (classify f e).testBit j = true ↔ InCategory f e j := by
  obtain ⟨m, hm⟩ := f.exists_inCategory e
  rw [hm.classify_eq hf, Nat.testBit_two_pow, decide_eq_true_iff]
  refine ⟨fun hmj => hmj ▸ hm, fun hj => Nat.pow_right_injective le_rfl ?_⟩
  exact (hm.classify_eq hf).symm.trans (hj.classify_eq hf)

end

/-! ## The categories of the lanes (R202) -/

/-- A bit of a disjunction of numbers. -/
theorem testBit_foldl_or (l : List Nat) (a j : Nat) :
    (l.foldl (· ||| ·) a).testBit j = true ↔ a.testBit j = true ∨ ∃ x ∈ l, x.testBit j = true := by
  induction l generalizing a with
  | nil => simp
  | cons x l ih => simp [ih, or_assoc]

theorem testBit_categoryReduction (c : Fields) (s : State) (req j : Nat) :
    (categoryReduction c s req).testBit j = true ↔ ∃ k < min req (s.len c.rt) / dataSize c.ot,
      InCategory (wideFormat c.ot) (s.velem c.rt (k * dataSize c.ot) (dataSize c.ot)) j := by
  simp [categoryReduction, elementCount, testBit_foldl_or, testBit_classify (wideFormat_proper c.ot)]

/-- There are eight categories. -/
theorem categoryReduction_lt (c : Fields) (s : State) (req : Nat) : categoryReduction c s req < 2 ^ 8 := by
  refine Nat.lt_pow_two_of_testBit _ fun j hj => Bool.eq_false_iff.mpr fun hbit => ?_
  obtain ⟨k, -, hcat⟩ := (testBit_categoryReduction c s req j).mp hbit
  exact absurd hcat.lt (not_lt.mpr hj)

theorem exec_categoryReduce (c : Fields) (s : State) : exec (.categoryReduce c) s
    = wholeOp 19 typesFloat false c s fun p => (leBytes 8 (categoryReduction c s p.a.toNat), []) := rfl

/-- Settles O41. -/
theorem categoryReduceResult : Obligations.CategoryReduceResult := by
  intro c s
  refine ⟨rfl, fun hot => exec_illegal_of_typeOk (i := .categoryReduce c) (typeOk_eq_false hot) s, fun hot hwf => ?_⟩
  have hlt := categoryReduction_lt c s (s.gpr c.rs).toNat
  refine wordResult_effect (exec_categoryReduce c s) rfl (isFloatType_of_mem_floats hot) hwf (hlt.trans (by decide))
    fun t hlen (hvalue : _ = categoryReduction c s (s.gpr c.rs).toNat) => ?_
  rw [hvalue]
  exact ⟨hlen, hlt, fun j _ => testBit_categoryReduction c s _ j⟩

end Sys2Proof.Machine
end

section
/-! SUPPORT. Byte shifts and the element ring (R211 to R216): both copy the source by position, and the shift down and the
rotation down are undone by the one up as far as no byte is lost. -/

namespace Sys2Proof.Machine

open Sys2Proof

/-! ## Byte shifts (R211 to R214) -/

/-- R88, R93: a command of class W that raises nothing and gives byte `i` of `v[rd]` by a function of its position. -/
theorem bytewise_effect {i : Instr} {op : BitVec 6} {types : OpType → Bool} {masked : Bool} {c : Fields} {s : State}
    {handler : Parms → List Byte × List IntKind} {n : Nat} {y : Nat → Byte} {P : State → Prop}
    (he : exec i s = wholeOp op types masked c s handler)
    (hr : handler (wholeParms masked c s) = ((List.range n).map y, [])) (hf : i.fields = c) (h : types c.ot = true)
    (hfit : n ≤ s.cfg.maxVectorLength) (hP : ∀ t : State, t.len c.rd = n → (∀ k < n, t.vb c.rd k = y k) → P t) :
    VectorEffect i s [] P := by
  refine wholeOp_effect_of_eq hr he hf h (.inl rfl) fun t hholds => ?_
  have hlen : ((List.range n).map y).length = n := by simp
  have hfit' := hlen.trans_le hfit
  refine hP t ((hholds.len_of_fit hfit').trans hlen) fun k hk => ?_
  rw [hholds.vb_of_fit hfit', List.getD_eq_getElem?_getD, List.getElem?_map, List.getElem?_range hk]
  rfl

theorem exec_shiftExpand (c : Fields) (s : State) : exec (.shiftExpand c) s
    = wholeOp 20 typesAll false c s fun p =>
        (shiftedUp s c.rt p.a.toNat (s.clampL (s.len c.rt + p.a.toNat)), []) := rfl

theorem exec_shiftReduce (c : Fields) (s : State) : exec (.shiftReduce c) s
    = wholeOp 21 typesAll false c s fun p => (s.vslice c.rt p.a.toNat (s.len c.rt - p.a.toNat), []) := rfl

theorem exec_shiftUp (c : Fields) (s : State) : exec (.shiftUp c) s
    = wholeOp 22 typesAll false c s fun p => (shiftedUp s c.rt p.a.toNat (s.len c.rt), []) := rfl

theorem exec_shiftDown (c : Fields) (s : State) : exec (.shiftDown c) s
    = wholeOp 23 typesAll false c s fun p => (s.vslice c.rt p.a.toNat (s.len c.rt), []) := rfl

/-- R211: the new length is clamped, so no hypothesis on the lengths is needed. -/
theorem shiftExpand_effect (c : Fields) (s : State) :
    let k := (s.gpr c.rs).toNat
    VectorEffect (.shiftExpand c) s [] fun t => t.len c.rd = min (s.len c.rt + k) s.cfg.maxVectorLength
      ∧ ∀ i < t.len c.rd, t.vb c.rd i = if i < k then 0 else s.vb c.rt (i - k) := by
  intro k
  exact bytewise_effect (exec_shiftExpand c s) rfl rfl rfl (min_le_right _ _) fun t hlen hbytes =>
    ⟨hlen, fun i hi => hbytes i (hi.trans_eq hlen)⟩

section

variable (c : Fields) {s : State}

/-- R212. -/
theorem shiftReduce_effect (hok : s.len c.rt ≤ s.cfg.maxVectorLength) :
    let k := (s.gpr c.rs).toNat
    VectorEffect (.shiftReduce c) s [] fun t => t.len c.rd = s.len c.rt - k
      ∧ ∀ i < s.len c.rt - k, t.vb c.rd i = s.vb c.rt (i + k) := by
  intro k
  refine bytewise_effect (exec_shiftReduce c s) rfl rfl rfl ((Nat.sub_le _ _).trans hok) fun t hlen hbytes =>
    ⟨hlen, fun i hi => (hbytes i hi).trans ?_⟩
  rw [Nat.add_comm i]
  rfl

/-- R213. -/
theorem shiftUp_effect (hok : s.len c.rt ≤ s.cfg.maxVectorLength) :
    let k := (s.gpr c.rs).toNat
    VectorEffect (.shiftUp c) s [] fun t => t.len c.rd = s.len c.rt
      ∧ ∀ i < s.len c.rt, t.vb c.rd i = if i < k then 0 else s.vb c.rt (i - k) := by
  intro k
  exact bytewise_effect (exec_shiftUp c s) rfl rfl rfl hok fun t hlen hbytes => ⟨hlen, hbytes⟩

/-- R214: the zeros that enter are the bytes past the length of the source (R31). -/
theorem shiftDown_effect (hok : s.len c.rt ≤ s.cfg.maxVectorLength) :
    let k := (s.gpr c.rs).toNat
    VectorEffect (.shiftDown c) s [] fun t => t.len c.rd = s.len c.rt
      ∧ ∀ i < s.len c.rt, t.vb c.rd i = if i + k < s.len c.rt then s.vb c.rt (i + k) else 0 := by
  intro k
  refine bytewise_effect (exec_shiftDown c s) rfl rfl rfl hok fun t hlen hbytes =>
    ⟨hlen, fun i hi => (hbytes i hi).trans (?_ : s.vb c.rt (k + i) = _)⟩
  rw [Nat.add_comm k]
  split
  · rfl
  · exact vb_of_len_le (by omega)

end

/-- Settles O42. -/
theorem shiftResults : Obligations.ShiftResults := fun c s hok =>
  ⟨⟨rfl, rfl, rfl, rfl⟩, shiftExpand_effect c s, shiftReduce_effect c (hok _), shiftUp_effect c (hok _),
    shiftDown_effect c (hok _)⟩

/-- Settles O57: byte `i` from `k` on went down to `i - k` and comes back up; the bytes below `k` and past the length are
zero on both sides. -/
theorem shiftUpAfterShiftDown : Obligations.ShiftUpAfterShiftDown := by
  intro c d s t u hok hdrt hdrs ht hu
  obtain ⟨⟨htlen, hdown⟩, ⟨hgpr, -⟩, hcfg, -⟩ := (shiftDown_effect c (hok c.rt)).of_exec ht
  have hok' : t.len d.rt ≤ t.cfg.maxVectorLength := by
    rw [hdrt, hcfg]
    exact htlen.trans_le (hok c.rt)
  obtain ⟨⟨hulen, hup⟩, -⟩ := (shiftUp_effect d hok').of_exec hu
  simp only [hdrt, hdrs, hgpr, htlen] at hulen hup
  refine ⟨hulen, fun i => ?_⟩
  rcases Nat.lt_or_ge i (s.len c.rt) with hin | hpast
  · rw [hup i hin]
    split
    · rfl
    · have hback : i - (s.gpr c.rs).toNat + (s.gpr c.rs).toNat = i := by omega
      rw [hdown _ (by omega), hback, if_pos hin]
  · rw [vb_of_len_le (hulen.trans_le hpast), vb_of_len_le hpast, ite_self]

/-! ## Rotations (R215, R216) -/

/-- On a ring of `n` positions, the position before the one after `i` is `i`. -/
theorem pred_succ_mod {i n : Nat} (hi : i < n) : ((i + 1) % n + n - 1) % n = i := by
  rcases (Nat.succ_le_of_lt hi).eq_or_lt with hlast | hinner
  · obtain rfl : i + 1 = n := hlast
    simp
  · rw [Nat.mod_eq_of_lt hinner, show i + 1 + n - 1 = i + n by omega, Nat.add_mod_right, Nat.mod_eq_of_lt hi]

/-- Every position of a ring is the one after some position. -/
theorem exists_succ_mod {p n : Nat} (hp : p < n) : ∃ i < n, (i + 1) % n = p := by
  cases p with
  | zero => exact ⟨n - 1, by omega, by rw [Nat.sub_add_cancel hp, Nat.mod_self]⟩
  | succ i => exact ⟨i, by omega, Nat.mod_eq_of_lt hp⟩

/-- R215, R216: what the two rotations share. Position `i` of `v[rd]` receives element `source i` of the ring. -/
theorem ring_effect {i : Instr} {op : BitVec 6} {types : OpType → Bool} {masked : Bool} {c : Fields} {s : State}
    {handler : Parms → List Byte × List IntKind} {source : Nat → Nat} {P : State → Prop} :
    let size := dataSize c.ot
    let n := min (s.gpr c.rs).toNat s.cfg.maxVectorLength / size
    exec i s = wholeOp op types masked c s handler → handler (wholeParms masked c s) = (ring c s n source, []) →
    i.fields = c → types c.ot = true →
    (∀ t : State, t.len c.rd = n * size →
      (∀ p < n, ∀ j < size, t.vb c.rd (p * size + j) = s.vb c.rt (source p * size + j)) → P t) →
    VectorEffect i s [] P := by
  intro size n he hr hf h hP
  refine wholeOp_effect_of_eq hr he hf h (.inl rfl) fun t hholds => ?_
  have hsize : ∀ p < n, (s.vslice c.rt (source p * size) size).length = size := fun _ _ => length_vslice _ _ _ _
  refine hP t (hholds.len_elements hsize (elements_fit _ _ _)) fun p hp j hj => ?_
  rw [hholds.vb_elements hsize (elements_fit _ _ _) p j hp hj, getD_vslice s c.rt _ size j hj]

theorem exec_rotateUp (c : Fields) (s : State) : exec (.rotateUp c) s
    = wholeOp 24 typesAll false c s fun p =>
        let n := elementCount c.ot (s.clampL p.a.toNat)
        (ring c s n fun i => (i + n - 1) % n, []) := rfl

theorem exec_rotateDown (c : Fields) (s : State) : exec (.rotateDown c) s
    = wholeOp 25 typesAll false c s fun p =>
        let n := elementCount c.ot (s.clampL p.a.toNat)
        (ring c s n fun i => (i + 1) % n, []) := rfl

section

variable (c : Fields) (s : State)

/-- R215. -/
theorem rotateUp_effect :
    let size := dataSize c.ot
    let n := min (s.gpr c.rs).toNat s.cfg.maxVectorLength / size
    VectorEffect (.rotateUp c) s [] fun t => t.len c.rd = n * size
      ∧ ∀ i < n, ∀ j < size, t.vb c.rd ((i + 1) % n * size + j) = s.vb c.rt (i * size + j) := by
  intro size n
  refine ring_effect (source := fun i => (i + n - 1) % n) (exec_rotateUp c s) rfl rfl rfl fun t hlen helem =>
    ⟨hlen, fun i hi j hj => ?_⟩
  rw [helem _ (Nat.mod_lt _ (Nat.zero_lt_of_lt hi)) j hj, pred_succ_mod hi]

/-- R216. -/
theorem rotateDown_effect :
    let size := dataSize c.ot
    let n := min (s.gpr c.rs).toNat s.cfg.maxVectorLength / size
    VectorEffect (.rotateDown c) s [] fun t => t.len c.rd = n * size
      ∧ ∀ i < n, ∀ j < size, t.vb c.rd (i * size + j) = s.vb c.rt ((i + 1) % n * size + j) := by
  intro size n
  exact ring_effect (source := fun i => (i + 1) % n) (exec_rotateDown c s) rfl rfl rfl fun t hlen helem => ⟨hlen, helem⟩

end

/-- Settles O43. -/
theorem rotateResults : Obligations.RotateResults := fun c s =>
  ⟨⟨rfl, rfl⟩, rotateUp_effect c s, rotateDown_effect c s⟩

/-- Settles O58: the element that stands in position `(i + 1) mod n` goes down to position `i`, and from there back up. -/
theorem rotateUpAfterRotateDown : Obligations.RotateUpAfterRotateDown := by
  intro c d s t u hdot hdrt hdrs ht hu n
  obtain ⟨⟨-, hdown⟩, ⟨hgpr, -⟩, hcfg, -⟩ := (rotateDown_effect c s).of_exec ht
  obtain ⟨⟨hlen, hup⟩, -⟩ := (rotateUp_effect d t).of_exec hu
  simp only [hdot, hdrt, hdrs, hgpr, hcfg] at hlen hup
  refine ⟨hlen, fun k hk => ?_⟩
  have hposition : k / dataSize c.ot < n := (Nat.div_lt_iff_lt_mul (dataSize_pos c.ot)).mpr (hk.trans_eq hlen)
  have hbyte : k % dataSize c.ot < dataSize c.ot := Nat.mod_lt _ (dataSize_pos c.ot)
  obtain ⟨i, hi, hsucc⟩ := exists_succ_mod hposition
  have helem := (hup i hi _ hbyte).trans (hdown i hi _ hbyte)
  rwa [hsucc, Nat.div_add_mod'] at helem

end Sys2Proof.Machine
end

section
/-! SUPPORT. The pair loop (R91): what the even and the odd lanes of `v[rd]` hold after a command of class P that commits, from the
returns of its handler. -/

namespace Sys2Proof.Machine

open Sys2Proof

/-! ## The lanes of a pair (R220) -/

section

variable {s t : State} {rd : RegIx} {n : Nat} {ot : OpType} {ret : Nat → Ret}

/-- The odd lane is what the handler left in `parm[5]`. -/
theorem Holds.velem_odd (h : Holds s t rd ((List.range n).flatMap fun k => pairBytes (dataSize ot) (ret k)))
    (hot : ot ≠ .i128) (hfit : n * (2 * dataSize ot) ≤ s.cfg.maxVectorLength) {k : Nat} (hk : k < n)
    (haux : (ret k).aux.toNat < 256 ^ dataSize ot) :
    t.velem rd (k * (2 * dataSize ot) + dataSize ot) (dataSize ot) = (ret k).aux.toNat := by
  rw [← h.velem_upper hfit hk haux, toNat_ofNat_of_fits hot (velem_lt_dataBits _ _ _ _)]

/-- The even lane is the result. -/
theorem Holds.velem_even (h : Holds s t rd ((List.range n).flatMap fun k => pairBytes (dataSize ot) (ret k)))
    (hfit : n * (2 * dataSize ot) ≤ s.cfg.maxVectorLength) {k : Nat} (hk : k < n)
    (hresult : (ret k).result.toNat < 256 ^ dataSize ot) :
    t.velem rd (k * (2 * dataSize ot)) (dataSize ot) = (ret k).result.toNat := by
  have hbytes : ∀ j < dataSize ot, t.vb rd (k * (2 * dataSize ot) + j)
      = (leBytes (dataSize ot) (ret k).result.toNat).getD j 0 := by
    intro j hj
    rw [h.vb_elements (fun _ _ => length_pairBytes _ _) hfit k j hk (by omega), pairBytes,
      List.getD_append _ _ _ _ (by rwa [length_leBytes])]
  rw [velem_of_getD (length_leBytes _ _) hbytes, leNat_leBytes, Nat.mod_eq_of_lt hresult]

end

/-! ## The operands of a pair (R84) -/

section

variable {c : Fields}

theorem toNat_ofNat_velem (hot : c.ot ≠ .i128) (s : State) (r : RegIx) (off : Nat) :
    (BitVec.ofNat 64 (s.velem r off (min (dataSize c.ot) 8))).toNat = s.velem r off (dataSize c.ot) := by
  have hsize : min (dataSize c.ot) 8 = dataSize c.ot := by
    cases h : c.ot with
    | i128 => exact absurd h hot
    | _ => rfl
  rw [hsize, toNat_ofNat_of_fits hot (velem_lt_dataBits _ _ _ _)]

theorem laneParms_a_toNat (masked : Bool) (hot : c.ot ≠ .i128) (s : State) (off : Nat) :
    (laneParms masked true c s off).a.toNat = s.velem c.rs off (dataSize c.ot) := toNat_ofNat_velem hot s c.rs off

theorem laneParms_b_toNat (masked : Bool) (hot : c.ot ≠ .i128) (s : State) (off : Nat) :
    (laneParms masked true c s off).b.toNat = s.velem c.rt off (dataSize c.ot) := toNat_ofNat_velem hot s c.rt off

/-- R84, R86: the options word of a lane operation that takes a mask. -/
theorem laneParms_opts (vectorRs : Bool) (c : Fields) (s : State) (off : Nat) :
    (laneParms true vectorRs c s off).opts = maskedOptions c s off :=
  (options_eq true c s off).trans (if_pos rfl)

end

/-! ## The effect of a command of class P (R88, R91) -/

/-- The interrupts of a loop, from those of each invocation. -/
theorem loopRaised_eq {n : Nat} {ret : Nat → Ret} {raised : Nat → List IntKind} (h : ∀ k, (ret k).raised = raised k) :
    loopRaised n ret = (List.range n).flatMap raised :=
  List.flatMap_congr fun k _ => h k

theorem loopRaised_eq_nil {n : Nat} {ret : Nat → Ret} (h : ∀ k, (ret k).raised = []) : loopRaised n ret = [] := by
  simp [loopRaised, h]

/-- Everything class P does at a type of at most 64 bits, when the pair at offset `off` returns `ret off`. `Exact` is what is
claimed of the two lanes that the pair at an offset receives. -/
theorem pairOp_effect {i : Instr} {op : BitVec 6} {types : OpType → Bool} {masked : Bool} {c : Fields} {s : State}
    {handler : Nat → Parms → Ret} {ret : Nat → Ret} {Exact : Nat → Nat → Nat → Prop} {ks : List IntKind}
    (he : exec i s = pairOp op types masked c s handler)
    (hret : ∀ off, handler off (laneParms masked true c s off) = ret off) (hf : i.fields = c) (h : types c.ot = true)
    (hot : c.ot ≠ .i128) (hok : s.len c.rs ≤ s.cfg.maxVectorLength)
    (hresult : ∀ off, (ret off).result.toNat < 256 ^ dataSize c.ot)
    (haux : ∀ off, (ret off).aux.toNat < 256 ^ dataSize c.ot)
    (hexact : ∀ off, Exact off (ret off).result.toNat (ret off).aux.toNat) :
    let size := dataSize c.ot
    let np := s.len c.rs / (2 * size)
    loopRaised np (fun j => ret (j * (2 * size))) = ks → Committed s ks →
    VectorEffect i s ks fun t => t.len c.rd = 2 * np * size ∧ ∀ j < np,
      Exact (j * (2 * size)) (t.velem c.rd (j * (2 * size)) size) (t.velem c.rd (j * (2 * size) + size) size) := by
  intro size np hks hc
  have hfit : np * (2 * size) ≤ s.cfg.maxVectorLength := (Nat.div_mul_le_self _ _).trans hok
  have hraised : (loopRaised np fun j => handler (j * (2 * size)) (laneParms masked true c s (j * (2 * size)))) = ks := by
    simp only [hret, hks]
  refine hraised ▸ loopOp_effect (he.trans (pairOp_eq h)) hf (hraised ▸ hc) fun t hholds => ?_
  simp only [hret] at hholds
  refine ⟨(hholds.len_elements (fun _ _ => length_pairBytes _ _) hfit).trans (by ring), fun j hj => ?_⟩
  rw [hholds.velem_even hfit hj (hresult _), hholds.velem_odd hot hfit hj (haux _)]
  exact hexact _

end Sys2Proof.Machine
end

section
/-! SUPPORT. Carry and borrow chains (R221, R222): a pair adds or subtracts twice, and of the two carries at most one is set. -/

namespace Sys2Proof.Machine

open Sys2Proof

/-! ## One addition, one subtraction -/

section

variable {w a b : Nat}

/-- A sum modulo `2 ^ w` and its carry, which is set when the sum is below the first operand. -/
theorem uns_add_carry (ha : a < 2 ^ w) (hb : b < 2 ^ w) :
    uns w (a + b) + 2 ^ w * (decide (uns w (a + b) < a)).toNat = a + b := by
  rcases Nat.lt_or_ge (a + b) (2 ^ w) with h | h
  · simp [uns_of_lt h]
  · have hwrap : uns w (a + b) = a + b - 2 ^ w := by
      rw [uns, Nat.mod_eq_sub_mod h, Nat.mod_eq_of_lt (by omega)]
    rw [hwrap, decide_eq_true (by omega), Bool.toNat_true]
    omega

/-- A difference modulo `2 ^ w` and its borrow. -/
theorem pat_sub_borrow (ha : a < 2 ^ w) (hb : b < 2 ^ w) :
    (pat w ((a : Int) - b) : Int) - 2 ^ w * (decide (a < b)).toNat = (a : Int) - b := by
  have ha' : (a : Int) < 2 ^ w := by exact_mod_cast ha
  have hb' : (b : Int) < 2 ^ w := by exact_mod_cast hb
  rw [cast_pat]
  rcases Nat.lt_or_ge a b with h | h
  · rw [← Int.add_emod_right, Int.emod_eq_of_lt (by omega) (by omega), decide_eq_true h, Bool.toNat_true]
    omega
  · rw [Int.emod_eq_of_lt (by omega) (by omega), decide_eq_false (by omega), Bool.toNat_false]
    omega

/-- R221: adding the carry-in. The sum modulo `2 ^ w` is 0 after a carry-in exactly when it wrapped. -/
theorem uns_add_carryIn (ha : a < 2 ^ w) (cin : Bool) :
    uns w (a + cin.toNat) + 2 ^ w * (cin && decide (uns w (a + cin.toNat) = 0)).toNat = a + cin.toNat := by
  cases cin
  · simp [uns_of_lt ha]
  · rcases Nat.lt_or_eq_of_le (Nat.succ_le_of_lt ha) with h | h
    · simp [uns_of_lt h]
    · have hwrap : uns w (a + 1) = 0 := by rw [uns, ← h, Nat.mod_self]
      simp only [Bool.toNat_true, hwrap, decide_true, Bool.and_true]
      omega

/-- R222: taking the borrow-in away borrows exactly from 0. -/
theorem pat_sub_borrowIn (hw : 1 < 2 ^ w) (ha : a < 2 ^ w) (bin : Bool) :
    (pat w ((a : Int) - bin.toNat) : Int) - 2 ^ w * (bin && decide (a = 0)).toNat = (a : Int) - bin.toNat := by
  have hborrow : decide (a < bin.toNat) = (bin && decide (a = 0)) := by cases bin <;> simp
  rw [← hborrow]
  exact pat_sub_borrow ha ((Bool.toNat_lt bin).trans_le hw)

end

/-! ## One pair -/

theorem toNat_or_of_not_both {x y : Bool} (h : ¬ (x = true ∧ y = true)) : (x || y).toNat = x.toNat + y.toNat := by
  cases x with
  | false => rw [Bool.false_or, Bool.toNat_false, Nat.zero_add]
  | true =>
    obtain rfl : y = false := Bool.eq_false_iff.mpr fun hy => h ⟨rfl, hy⟩
    rfl

theorem toNat_carryWord (b : Bool) : (if b then 1 else 0 : Word).toNat = b.toNat := by cases b <;> rfl

section

variable {w a b : Nat}

theorem addCarry_eq (ha : a < 2 ^ w) (hb : b < 2 ^ w) (cin : Bool) :
    addCarry w a b cin = { result := BitVec.ofNat 64 (uns w (uns w (a + b) + cin.toNat))
                           aux := if decide (uns w (a + b) < a) || (cin && decide (uns w (uns w (a + b) + cin.toNat) = 0))
                             then 1 else 0 } := by
  rw [addCarry, uns_of_lt ha, uns_of_lt hb]
  cases cin <;> rfl

theorem subBorrow_eq (ha : a < 2 ^ w) (hb : b < 2 ^ w) (bin : Bool) :
    subBorrow w a b bin = { result := BitVec.ofNat 64 (pat w ((pat w ((a : Int) - b) : Int) - bin.toNat))
                            aux := if decide (a < b) || (bin && decide (pat w ((a : Int) - b) = 0)) then 1 else 0 } := by
  rw [subBorrow, uns_of_lt ha, uns_of_lt hb]
  cases bin <;> rfl

end

section

variable {ot : OpType} {a b : Nat}

/-- R221: the carries of the two additions are not both set, because the operands are below `2 ^ w`. -/
theorem addCarry_exact (hot : ot ≠ .i128) (ha : a < 2 ^ dataBits ot) (hb : b < 2 ^ dataBits ot) (cin : Bool) :
    (addCarry (dataBits ot) a b cin).result.toNat + 2 ^ dataBits ot * (addCarry (dataBits ot) a b cin).aux.toNat
      = a + b + cin.toNat := by
  have hcin := Bool.toNat_lt cin
  have hsum := uns_add_carry ha hb
  have hin := uns_add_carryIn (uns_lt (dataBits ot) (a + b)) cin
  rw [addCarry_eq ha hb, toNat_carryWord, toNat_ofNat_of_fits hot (uns_lt _ _), toNat_or_of_not_both, Nat.mul_add]
  · omega
  · rintro ⟨h₁, h₂⟩
    rw [h₁, Bool.toNat_true] at hsum
    rw [h₂, Bool.toNat_true] at hin
    omega

/-- R222: likewise the two borrows. -/
theorem subBorrow_exact (hot : ot ≠ .i128) (ha : a < 2 ^ dataBits ot) (hb : b < 2 ^ dataBits ot) (bin : Bool) :
    ((subBorrow (dataBits ot) a b bin).result.toNat : Int)
      - 2 ^ dataBits ot * (subBorrow (dataBits ot) a b bin).aux.toNat = (a : Int) - b - bin.toNat := by
  have hbin := Bool.toNat_lt bin
  have hdiff := pat_sub_borrow ha hb
  have hin := pat_sub_borrowIn (one_lt_two_pow_dataBits ot) (pat_lt (dataBits ot) ((a : Int) - b)) bin
  have hout := pat_lt (dataBits ot) ((pat (dataBits ot) ((a : Int) - b) : Int) - bin.toNat)
  rw [subBorrow_eq ha hb, toNat_carryWord, toNat_ofNat_of_fits hot (pat_lt _ _), toNat_or_of_not_both, Nat.cast_add, Int.mul_add]
  · omega
  · rintro ⟨h₁, h₂⟩
    rw [h₁, Bool.toNat_true] at hdiff
    rw [h₂, Bool.toNat_true] at hin
    zify at hb hout
    omega

end

/-! ## The two operations -/

section

variable (c : Fields) (s : State)

theorem exec_addCarry : exec (.addCarry c) s = pairOp 28 typesInt64 false c s fun off p =>
    addCarry (dataBits c.ot) p.a.toNat p.b.toNat (s.bit0 c.rs (off + dataSize c.ot)) := rfl

theorem exec_subBorrow : exec (.subBorrow c) s = pairOp 29 typesInt64 false c s fun off p =>
    subBorrow (dataBits c.ot) p.a.toNat p.b.toNat (s.bit0 c.rs (off + dataSize c.ot)) := rfl

end

section

variable {c : Fields} {s : State}

/-- R221. -/
theorem addCarry_effect (hot : c.ot ∈ OpType.integersUpTo64) (hok : LengthsOk s) :
    let size := dataSize c.ot
    let np := s.len c.rs / (2 * size)
    VectorEffect (.addCarry c) s [] fun t => t.len c.rd = 2 * np * size ∧ ∀ j < np,
      t.velem c.rd (j * (2 * size)) size + 2 ^ dataBits c.ot * t.velem c.rd (j * (2 * size) + size) size
        = s.velem c.rs (j * (2 * size)) size + s.velem c.rt (j * (2 * size)) size
          + (s.bit0 c.rs (j * (2 * size) + size)).toNat := by
  have hne := ne_i128_of_mem hot
  exact pairOp_effect
    (ret := fun off => addCarry (dataBits c.ot) (s.velem c.rs off (dataSize c.ot)) (s.velem c.rt off (dataSize c.ot))
      (s.bit0 c.rs (off + dataSize c.ot)))
    (Exact := fun off r o => r + 2 ^ dataBits c.ot * o = s.velem c.rs off (dataSize c.ot)
      + s.velem c.rt off (dataSize c.ot) + (s.bit0 c.rs (off + dataSize c.ot)).toNat)
    (exec_addCarry c s) (fun off => by rw [laneParms_a_toNat false hne, laneParms_b_toNat false hne]) rfl
    (typesInt64_of_mem hot) hne (hok c.rs) (fun _ => ofNat_toNat_lt (uns_lt _ _)) (fun _ => carry_toNat_lt _ _)
    (fun _ => addCarry_exact hne (velem_lt_dataBits _ _ _ _) (velem_lt_dataBits _ _ _ _) _)
    (loopRaised_eq_nil fun _ => rfl) (.inl rfl)

/-- R222. -/
theorem subBorrow_effect (hot : c.ot ∈ OpType.integersUpTo64) (hok : LengthsOk s) :
    let size := dataSize c.ot
    let np := s.len c.rs / (2 * size)
    VectorEffect (.subBorrow c) s [] fun t => t.len c.rd = 2 * np * size ∧ ∀ j < np,
      (t.velem c.rd (j * (2 * size)) size : Int) - 2 ^ dataBits c.ot * t.velem c.rd (j * (2 * size) + size) size
        = (s.velem c.rs (j * (2 * size)) size : Int) - s.velem c.rt (j * (2 * size)) size
          - (s.bit0 c.rs (j * (2 * size) + size)).toNat := by
  have hne := ne_i128_of_mem hot
  exact pairOp_effect
    (ret := fun off => subBorrow (dataBits c.ot) (s.velem c.rs off (dataSize c.ot)) (s.velem c.rt off (dataSize c.ot))
      (s.bit0 c.rs (off + dataSize c.ot)))
    (Exact := fun off r o => (r : Int) - 2 ^ dataBits c.ot * o = (s.velem c.rs off (dataSize c.ot) : Int)
      - s.velem c.rt off (dataSize c.ot) - (s.bit0 c.rs (off + dataSize c.ot)).toNat)
    (exec_subBorrow c s) (fun off => by rw [laneParms_a_toNat false hne, laneParms_b_toNat false hne]) rfl
    (typesInt64_of_mem hot) hne (hok c.rs) (fun _ => ofNat_toNat_lt (pat_lt _ _)) (fun _ => carry_toNat_lt _ _)
    (fun _ => subBorrow_exact hne (velem_lt_dataBits _ _ _ _) (velem_lt_dataBits _ _ _ _) _)
    (loopRaised_eq_nil fun _ => rfl) (.inl rfl)

end

/-- Settles O44. -/
theorem carryChainResults : Obligations.CarryChainResults := fun c s =>
  ⟨⟨rfl, rfl⟩,
    fun hot => ⟨exec_illegal_of_typeOk (i := .addCarry c) (typeOk_eq_false hot) s,
      exec_illegal_of_typeOk (i := .subBorrow c) (typeOk_eq_false hot) s⟩,
    fun hot hok => ⟨addCarry_effect hot hok, subBorrow_effect hot hok⟩⟩

/-! ## Two steps of a chain -/

/-- R221: the first pair of `add_carry`. -/
theorem addCarry_first_pair {c : Fields} {s t : State} (hot : c.ot ∈ OpType.integersUpTo64) (hok : LengthsOk s)
    (hlen : 2 * dataSize c.ot ≤ s.len c.rs) (ht : exec (.addCarry c) s = .next t) :
    t.velem c.rd 0 (dataSize c.ot) + 2 ^ dataBits c.ot * t.velem c.rd (dataSize c.ot) (dataSize c.ot)
      = s.velem c.rs 0 (dataSize c.ot) + s.velem c.rt 0 (dataSize c.ot)
        + (s.bit0 c.rs (dataSize c.ot)).toNat := by
  have hsize := dataSize_pos c.ot
  obtain ⟨⟨-, hpairs⟩, -⟩ := (addCarry_effect hot hok).of_exec ht
  simpa only [Nat.zero_mul, Nat.zero_add] using hpairs 0 (Nat.div_pos hlen (by omega))

/-- A lane that is 0 or 1 is its bit 0. -/
theorem toNat_bit0_of_velem_lt_two {s : State} {r : RegIx} {off n : Nat} (hn : 0 < n) (h : s.velem r off n < 2) :
    (s.bit0 r off).toNat = s.velem r off n := by
  rw [← testBit_zero_velem s r off hn]
  interval_cases s.velem r off n <;> rfl

/-- Settles O45: the carry lane of the first step is 0 or 1, so its bit 0 is all of it. -/
theorem addCarryChainIsExact : Obligations.AddCarryChainIsExact := by
  intro c d s t s' t' hot hdot hok hok' hlen hlen' ht hmove ht'
  have hfirst := addCarry_first_pair hot hok hlen ht
  have hsecond := addCarry_first_pair (hdot ▸ hot) hok' (hdot ▸ hlen') ht'
  rw [hdot] at hsecond
  have hcarry : t.velem c.rd (dataSize c.ot) (dataSize c.ot) < 2 := by
    have ha := velem_lt_dataBits s c.rs 0 c.ot
    have hb := velem_lt_dataBits s c.rt 0 c.ot
    have hcin := Bool.toNat_lt (s.bit0 c.rs (dataSize c.ot))
    exact Nat.lt_of_mul_lt_mul_left (a := 2 ^ dataBits c.ot) (by omega)
  rw [toNat_bit0_of_velem_lt_two (dataSize_pos c.ot) (hmove ▸ hcarry), hmove] at hsecond
  change _ = _ + (s.bit0 c.rs (dataSize c.ot)).toNat
  linear_combination hfirst + 2 ^ dataBits c.ot * hsecond

end Sys2Proof.Machine
end

section
/-! SUPPORT. Double-width division (R225 to R227): the two dividers in exact arithmetic, and from these the two operations. -/

namespace Sys2Proof.Machine

open Sys2Proof

/-! ## The signed divider (R225) -/

/-- R225: the quotient of `D` by `d` toward zero does not exist or does not fit `w` bits. -/
def DivExOverflow (w : Nat) (D d : Int) : Prop := d = 0 ∨ D.tdiv d < minSigned w ∨ maxSigned w < D.tdiv d

/-- R226: the double-width number with halves `lo` and `hi`, read with its sign. -/
def pairSgn (w lo hi : Nat) : Int := sgn (2 * w) (lo + 2 ^ w * hi)

/-- R225, signed: what the quotient `q` and the remainder `r` of a pair say about its operands. -/
def DivExExact (w lo hi d q r : Nat) : Prop :=
  (DivExOverflow w (pairSgn w lo hi) (sgn w d) → q = 2 ^ (w - 1) ∧ r = 0)
    ∧ (¬ DivExOverflow w (pairSgn w lo hi) (sgn w d) → sgn w q * sgn w d + sgn w r = pairSgn w lo hi
      ∧ |sgn w r| < |sgn w d| ∧ 0 ≤ sgn w r * pairSgn w lo hi)

section

variable {w lo hi d : Nat} {opts : Word}

/-- The dividend as the divider has it, with the high half first. -/
theorem pairSgn_eq : pairSgn w lo hi = sgn (2 * w) (hi * 2 ^ w + lo) := by rw [pairSgn, add_comm, mul_comm hi]

theorem divExSigned_of_overflow (h : DivExOverflow w (pairSgn w lo hi) (sgn w d)) : divExSigned w lo hi d opts
    = { result := BitVec.ofNat 64 (signBit w), aux := 0, raised := raiseIf (trapS opts) .overflSign } := by
  rw [DivExOverflow, pairSgn_eq, ← overS_iff] at h
  exact if_pos h

theorem divExSigned_of_fits (h : ¬ DivExOverflow w (pairSgn w lo hi) (sgn w d)) : divExSigned w lo hi d opts
    = { result := BitVec.ofNat 64 (pat w ((pairSgn w lo hi).tdiv (sgn w d)))
        aux := BitVec.ofNat 64 (pat w ((pairSgn w lo hi).tmod (sgn w d))) } := by
  rw [DivExOverflow, pairSgn_eq, ← overS_iff] at h
  rw [pairSgn_eq]
  exact if_neg h

theorem divExSigned_raised_eq {_ : Decidable (DivExOverflow w (pairSgn w lo hi) (sgn w d) ∧ opts.getLsbD 2 = true)} :
    (divExSigned w lo hi d opts).raised
      = if DivExOverflow w (pairSgn w lo hi) (sgn w d) ∧ opts.getLsbD 2 = true then [.overflSign] else [] := by
  by_cases h : DivExOverflow w (pairSgn w lo hi) (sgn w d)
  · rw [divExSigned_of_overflow h]
    exact raiseIf_eq_ite (by rw [trapS_eq, and_iff_right h]) _
  · rw [divExSigned_of_fits h, if_neg fun hand => h hand.1]

end

theorem signBit_lt {w : Nat} (hw : 0 < w) : signBit w < 2 ^ w := by
  rw [signBit, two_pow_pred hw]
  exact lt_two_mul_self (Nat.two_pow_pos _)

theorem abs_tmod_lt {D d : Int} (h : d ≠ 0) : |D.tmod d| < |d| := by
  rw [Int.abs_eq_natAbs, Int.abs_eq_natAbs, Int.natAbs_tmod]
  exact_mod_cast Nat.mod_lt _ (Int.natAbs_pos.mpr h)

theorem tmod_mul_self_nonneg (D d : Int) : 0 ≤ D.tmod d * D := by
  rcases le_total 0 D with h | h
  · exact mul_nonneg (Int.tmod_nonneg d h) h
  · have hneg := Int.tmod_nonneg (a := -D) d (by omega)
    rw [Int.neg_tmod] at hneg
    exact mul_nonneg_of_nonpos_of_nonpos (by omega) h

/-- A remainder is smaller than its divisor, so it fits the divisor's type. -/
theorem tmod_sgn_range {w : Nat} (hw : 0 < w) {d : Nat} (h : sgn w d ≠ 0) (D : Int) :
    minSigned w ≤ D.tmod (sgn w d) ∧ D.tmod (sgn w d) ≤ maxSigned w := by
  obtain ⟨hmin, hmax⟩ := sgn_range hw d
  unfold minSigned maxSigned at *
  have hdivisor : |sgn w d| ≤ 2 ^ (w - 1) := abs_le.mpr ⟨hmin, by omega⟩
  obtain ⟨hlow, hhigh⟩ := abs_lt.mp ((abs_tmod_lt h).trans_le hdivisor)
  exact ⟨hlow.le, Int.le_sub_one_of_lt hhigh⟩

theorem divExSigned_exact {ot : OpType} (hot : ot ≠ .i128) (lo hi d : Nat) (opts : Word) :
    DivExExact (dataBits ot) lo hi d (divExSigned (dataBits ot) lo hi d opts).result.toNat
      (divExSigned (dataBits ot) lo hi d opts).aux.toNat := by
  have hw := dataBits_pos ot
  refine ⟨fun h => ?_, fun h => ?_⟩
  · rw [divExSigned_of_overflow h]
    exact ⟨toNat_ofNat_of_fits hot (signBit_lt hw), rfl⟩
  · rw [divExSigned_of_fits h, toNat_ofNat_of_fits hot (pat_lt _ _), toNat_ofNat_of_fits hot (pat_lt _ _)]
    obtain ⟨hd, hfits⟩ := not_or.mp h
    obtain ⟨hmin, hmax⟩ := not_or.mp hfits
    obtain ⟨hrmin, hrmax⟩ := tmod_sgn_range hw hd (pairSgn (dataBits ot) lo hi)
    rw [sgn_pat hw (not_lt.mp hmin) (not_lt.mp hmax), sgn_pat hw hrmin hrmax]
    exact ⟨Int.tdiv_mul_add_tmod _ _, abs_tmod_lt hd, tmod_mul_self_nonneg _ _⟩

/-! ## The unsigned divider (R225) -/

/-- R225, unsigned: what the quotient `q` and the remainder `r` of a pair say about its operands. -/
def DivExUExact (w lo hi d q r : Nat) : Prop :=
  (d ≤ hi → q = 2 ^ w - 1 ∧ r = 0) ∧ (hi < d → q * d + r = lo + 2 ^ w * hi ∧ r < d)

section

variable {w lo hi d : Nat} {opts : Word}

/-- R227: the quotient fits exactly when the high half is below the divisor. -/
theorem quotient_overflows_iff (hlo : lo < 2 ^ w) : (d = 0 ∨ (hi * 2 ^ w + lo) / d ≥ 2 ^ w) ↔ d ≤ hi := by
  rcases Nat.eq_zero_or_pos d with rfl | hd
  · simp
  · rw [ge_iff_le, Nat.le_div_iff_mul_le hd, or_iff_right hd.ne', mul_comm (2 ^ w) d]
    refine ⟨fun h => not_lt.mp fun hlt => ?_, fun h => (Nat.mul_le_mul_right _ h).trans (Nat.le_add_right _ _)⟩
    have hnext := Nat.mul_le_mul_right (2 ^ w) (Nat.succ_le_of_lt hlt)
    rw [Nat.succ_mul] at hnext
    omega

theorem divExUnsigned_of_overflow (hlo : lo < 2 ^ w) (h : d ≤ hi) : divExUnsigned w lo hi d opts
    = { result := BitVec.ofNat 64 (maxUnsigned w), aux := 0, raised := raiseIf (trapU opts) .overflUnsign } :=
  if_pos ((quotient_overflows_iff hlo).mpr h)

theorem divExUnsigned_of_fits (hlo : lo < 2 ^ w) (h : ¬ d ≤ hi) : divExUnsigned w lo hi d opts
    = { result := BitVec.ofNat 64 ((hi * 2 ^ w + lo) / d), aux := BitVec.ofNat 64 ((hi * 2 ^ w + lo) % d) } :=
  if_neg fun hover => h ((quotient_overflows_iff hlo).mp hover)

theorem divExUnsigned_raised_eq (hlo : lo < 2 ^ w) [Decidable (d ≤ hi ∧ opts.getLsbD 1 = true)] :
    (divExUnsigned w lo hi d opts).raised = if d ≤ hi ∧ opts.getLsbD 1 = true then [.overflUnsign] else [] := by
  by_cases h : d ≤ hi
  · rw [divExUnsigned_of_overflow hlo h]
    exact raiseIf_eq_ite (by rw [trapU_eq, and_iff_right h]) _
  · rw [divExUnsigned_of_fits hlo h, if_neg fun hand => h hand.1]

end

theorem maxUnsigned_lt (w : Nat) : maxUnsigned w < 2 ^ w := Nat.sub_one_lt (Nat.two_pow_pos w).ne'

theorem divExUnsigned_exact {ot : OpType} (hot : ot ≠ .i128) {lo d : Nat} (hi : Nat) (opts : Word)
    (hlo : lo < 2 ^ dataBits ot) (hd : d < 2 ^ dataBits ot) :
    DivExUExact (dataBits ot) lo hi d (divExUnsigned (dataBits ot) lo hi d opts).result.toNat
      (divExUnsigned (dataBits ot) lo hi d opts).aux.toNat := by
  refine ⟨fun h => ?_, fun h => ?_⟩
  · rw [divExUnsigned_of_overflow hlo h]
    exact ⟨toNat_ofNat_of_fits hot (maxUnsigned_lt _), rfl⟩
  · have hfits := (quotient_overflows_iff hlo).not.mpr (not_le.mpr h)
    have hrem := Nat.mod_lt (hi * 2 ^ dataBits ot + lo) (Nat.zero_lt_of_lt h)
    rw [divExUnsigned_of_fits hlo (not_le.mpr h), toNat_ofNat_of_fits hot (not_le.mp (not_or.mp hfits).2),
      toNat_ofNat_of_fits hot (hrem.trans hd), Nat.div_add_mod']
    exact ⟨by ring, hrem⟩

/-! ## The two operations -/

theorem uns_velem (s : State) (r : RegIx) (off : Nat) (ot : OpType) :
    uns (dataBits ot) (s.velem r off (dataSize ot)) = s.velem r off (dataSize ot) := uns_of_lt (velem_lt_dataBits _ _ _ _)

/-- R225: a quotient fits its lane. -/
theorem divExUnsigned_result_lt (ot : OpType) (lo hi d : Nat) (opts : Word) :
    (divExUnsigned (dataBits ot) lo hi d opts).result.toNat < 256 ^ dataSize ot := by
  unfold divExUnsigned
  dsimp only
  split
  · exact ofNat_toNat_lt (maxUnsigned_lt _)
  · rename_i h
    exact ofNat_toNat_lt (not_le.mp (not_or.mp h).2)

theorem divExSigned_result_lt (ot : OpType) (lo hi d : Nat) (opts : Word) :
    (divExSigned (dataBits ot) lo hi d opts).result.toNat < 256 ^ dataSize ot := by
  unfold divExSigned
  dsimp only
  split
  · exact ofNat_toNat_lt (signBit_lt (dataBits_pos ot))
  · exact ofNat_toNat_lt (pat_lt _ _)

/-- R226: what the pair at `off` returns. The pair of `v[rs]` is the dividend, the even lane of `v[rt]` the divisor. -/
def dividerRet (divide : Nat → Nat → Nat → Word → Ret) (c : Fields) (s : State) (off : Nat) : Ret :=
  divide (s.velem c.rs off (dataSize c.ot)) (s.velem c.rs (off + dataSize c.ot) (dataSize c.ot))
    (s.velem c.rt off (dataSize c.ot)) (maskedOptions c s off)

theorem dividerRet_eq (divide : Nat → Nat → Nat → Word → Ret) {c : Fields} (hot : c.ot ≠ .i128) (s : State) (off : Nat) :
    divide (uns (dataBits c.ot) (laneParms true true c s off).a.toNat) (oddLane c s c.rs off)
      (uns (dataBits c.ot) (laneParms true true c s off).b.toNat) (laneParms true true c s off).opts
      = dividerRet divide c s off := by
  rw [laneParms_a_toNat true hot, laneParms_b_toNat true hot, uns_velem, uns_velem, laneParms_opts]
  rfl

theorem exec_divEx (c : Fields) (s : State) : exec (.divEx c) s = pairOp 30 (divExTypes s.cfg) true c s fun off p =>
    divExSigned (dataBits c.ot) (uns (dataBits c.ot) p.a.toNat) (oddLane c s c.rs off) (uns (dataBits c.ot) p.b.toNat)
      p.opts := rfl

theorem exec_divExU (c : Fields) (s : State) : exec (.divExU c) s = pairOp 31 (divExTypes s.cfg) true c s fun off p =>
    divExUnsigned (dataBits c.ot) (uns (dataBits c.ot) p.a.toNat) (oddLane c s c.rs off) (uns (dataBits c.ot) p.b.toNat)
      p.opts := rfl

theorem divExTypes_of_mem {cfg : Config} {ot : OpType} (hot : ot ∈ OpType.integersUpTo64)
    (hcfg : cfg.divEx64 = .exact ∨ ot ≠ .i64) : divExTypes cfg ot = true :=
  divExTypes_of_allowed (List.contains_iff_mem.mpr hot) hcfg

/-- Settles O46. -/
theorem divExResult : Obligations.DivExResult := by
  refine fun c s => ⟨rfl, fun hot => exec_illegal_of_typeOk (i := .divEx c) (typeOk_eq_false hot) s, fun hot hcfg hok => ?_⟩
  intro size w np D d ovf ks hc
  have hne := ne_i128_of_mem hot
  exact pairOp_effect (ret := dividerRet (divExSigned w) c s)
    (Exact := fun off => DivExExact w (s.velem c.rs off size) (s.velem c.rs (off + size) size) (s.velem c.rt off size))
    (exec_divEx c s) (dividerRet_eq _ hne s) rfl (divExTypes_of_mem hot hcfg) hne (hok c.rs)
    (fun _ => divExSigned_result_lt _ _ _ _ _) (fun _ => divExSigned_aux_lt _ _ _ _ _)
    (fun _ => divExSigned_exact hne _ _ _ _) (loopRaised_eq fun _ => divExSigned_raised_eq) hc

/-- Settles O47. -/
theorem divExUResult : Obligations.DivExUResult := by
  refine fun c s => ⟨rfl, fun hot => exec_illegal_of_typeOk (i := .divExU c) (typeOk_eq_false hot) s, fun hot hcfg hok => ?_⟩
  intro size w np lo hi d ks hc
  have hne := ne_i128_of_mem hot
  have hlt := fun r off => velem_lt_dataBits s r off c.ot
  exact pairOp_effect (ret := dividerRet (divExUnsigned w) c s)
    (Exact := fun off => DivExUExact w (s.velem c.rs off size) (s.velem c.rs (off + size) size) (s.velem c.rt off size))
    (exec_divExU c s) (dividerRet_eq _ hne s) rfl (divExTypes_of_mem hot hcfg) hne (hok c.rs)
    (fun _ => divExUnsigned_result_lt _ _ _ _ _) (fun _ => divExUnsigned_aux_lt _ _ _ _ _ (hlt _ _))
    (fun _ => divExUnsigned_exact hne _ _ (hlt _ _) (hlt _ _)) (loopRaised_eq fun _ => divExUnsigned_raised_eq (hlt _ _)) hc

end Sys2Proof.Machine
end

section
/-! SUPPORT. The 64-bit multiplication heuristic (R247): every rounding to binary64 is off by at most `2 ^ -52` of its operand,
so the heuristic tells a product that wraps, which is `2 ^ 64` off, from one that fits. With it the overflow conditions of the
products are exact under both settings of `mul64OverflowExact`. -/

namespace Sys2Proof.Machine

open Sys2Proof

/-! ## Relative errors -/

/-- `y` is `x` up to a relative error of `2 ^ -n`. -/
def Near (n : Nat) (x y : Int) : Prop := 2 ^ n * (y - x).natAbs ≤ x.natAbs

theorem Near.neg {n : Nat} {x y : Int} (h : Near n x y) : Near n (-x) (-y) := by
  unfold Near at *
  rwa [← neg_sub', Int.natAbs_neg, Int.natAbs_neg]

/-- The three error terms of a product of two factors of which each is off by at most `2 ^ -52` of itself. -/
theorem error_terms_le {m n d e : Nat} (hd : 2 ^ 52 * d ≤ m) (he : 2 ^ 52 * e ≤ n) :
    2 ^ 50 * (m * e + d * n + d * e) ≤ m * n := by
  have hfirst := Nat.mul_le_mul_left m he
  have hsecond := Nat.mul_le_mul_right n hd
  have hboth := Nat.mul_le_mul_right e hd
  nlinarith

/-- A product of two rounded factors: the errors add up. -/
theorem Near.mul {a a' b b' : Int} (ha : Near 52 a a') (hb : Near 52 b b') : Near 50 (a * b) (a' * b') := by
  have hsplit : a' * b' - a * b = a * (b' - b) + (a' - a) * b + (a' - a) * (b' - b) := by ring
  have hle : (a' * b' - a * b).natAbs ≤ a.natAbs * (b' - b).natAbs + (a' - a).natAbs * b.natAbs
      + (a' - a).natAbs * (b' - b).natAbs := by
    rw [hsplit, ← Int.natAbs_mul, ← Int.natAbs_mul, ← Int.natAbs_mul]
    exact (Int.natAbs_add_le _ _).trans (Nat.add_le_add_right (Int.natAbs_add_le _ _) _)
  unfold Near at *
  rw [Int.natAbs_mul]
  exact (Nat.mul_le_mul_left _ hle).trans (error_terms_le ha hb)

/-! ## Rounding to binary64 -/

/-- In every mode the result is the integer below or, if that is not exact, the one above. -/
theorem roundShift_cases (mode : RoundingMode) (neg : Bool) (m k : Nat) :
    roundShift mode neg m k = m / 2 ^ k ∨ m % 2 ^ k ≠ 0 ∧ roundShift mode neg m k = m / 2 ^ k + 1 := by
  by_cases hexact : m % 2 ^ k = 0
  · have hpos := Nat.two_pow_pos k
    cases mode <;> simp [roundShift, hexact, hpos.ne]
  · exact (ite_eq_or_eq _ _ _).symm.imp_right fun h => ⟨hexact, h⟩

/-- A number brought to the grid of spacing `2 ^ k`: it is on the grid already, or it moves by at most one spacing. -/
theorem roundShift_error (mode : RoundingMode) (neg : Bool) (m k : Nat) :
    roundShift mode neg m k * 2 ^ k = m
      ∨ k ≠ 0 ∧ ((roundShift mode neg m k * 2 ^ k : Nat) - m : Int).natAbs ≤ 2 ^ k := by
  have hdiv := Nat.div_add_mod' m (2 ^ k)
  have hrem := Nat.mod_lt m (Nat.two_pow_pos k)
  by_cases hexact : m % 2 ^ k = 0
  · left
    rw [(roundShift_cases mode neg m k).resolve_right fun h => h.1 hexact]
    omega
  · refine .inr ⟨by rintro rfl; exact hexact (Nat.mod_one m), ?_⟩
    rcases roundShift_cases mode neg m k with h | ⟨-, h⟩ <;> rw [h]
    · omega
    · rw [Nat.succ_mul]
      omega

/-- The 53 leading bits of a number, rounded. -/
theorem near_roundShift (mode : RoundingMode) (neg : Bool) (m : Nat) :
    Near 52 m ((roundShift mode neg m (Nat.log2 m - 52) * 2 ^ (Nat.log2 m - 52) : Nat) : Int) := by
  rcases roundShift_error mode neg m (Nat.log2 m - 52) with hexact | ⟨hk, herror⟩
  · rw [hexact, Near, sub_self]
    exact Nat.zero_le _
  · have hm : m ≠ 0 := by rintro rfl; exact hk rfl
    calc _ ≤ 2 ^ 52 * 2 ^ (Nat.log2 m - 52) := Nat.mul_le_mul_left _ herror
      _ = 2 ^ Nat.log2 m := by rw [← pow_add]; congr 1; omega
      _ ≤ (m : Int).natAbs := Nat.log2_self_le hm

theorem near_toBinary64 (mode : RoundingMode) (t : Int) : Near 52 t (toBinary64 mode t) := by
  have h := near_roundShift mode (decide (t < 0)) t.natAbs
  unfold toBinary64
  dsimp only
  split
  · rename_i hneg
    rw [Int.ofNat_natAbs_of_nonpos hneg.le] at h
    simpa using h.neg
  · rename_i hneg
    rwa [Int.natAbs_of_nonneg (not_lt.mp hneg)] at h

/-! ## The heuristic -/

section

variable (mode : RoundingMode) (a b : Int)

/-- R247: the rounded product of the rounded operands. -/
theorem near_product : Near 49 (a * b) (toBinary64 mode (toBinary64 mode a * toBinary64 mode b)) := by
  have hfactors := (near_toBinary64 mode a).mul (near_toBinary64 mode b)
  have hproduct := near_toBinary64 mode (toBinary64 mode a * toBinary64 mode b)
  unfold Near at *
  omega

/-- A product that is its own wrapped reading differs from it by rounding errors only. -/
theorem mul64Heuristic_of_fits (h : (a * b).natAbs ≤ 2 ^ 64) : mul64Heuristic mode a b (a * b) = false := by
  have hproduct := near_product mode a b
  have hwrapped := near_toBinary64 mode (a * b)
  have hresult := near_toBinary64 mode
    (toBinary64 mode (toBinary64 mode a * toBinary64 mode b) - toBinary64 mode (a * b))
  unfold Near at *
  unfold mul64Heuristic
  rw [decide_eq_false_iff_not]
  omega

/-- A product at least `2 ^ 64` away from the wrapped reading stays far from it through all roundings. -/
theorem mul64Heuristic_of_wraps {r : Int} (hr : r.natAbs ≤ 2 ^ 64) (h : 2 ^ 64 ≤ (a * b - r).natAbs) :
    mul64Heuristic mode a b r = true := by
  have hproduct := near_product mode a b
  have hwrapped := near_toBinary64 mode r
  have hresult := near_toBinary64 mode
    (toBinary64 mode (toBinary64 mode a * toBinary64 mode b) - toBinary64 mode r)
  unfold Near at *
  unfold mul64Heuristic
  rw [decide_eq_true_iff]
  omega

end

/-- R247, signed. A product that does not fit differs from its wrapped reading by a multiple of `2 ^ 64`. -/
theorem mul64Heuristic_signed (mode : RoundingMode) (a b : Int) :
    mul64Heuristic mode a b (sgn 64 (pat 64 (a * b))) = overS 64 (a * b) := by
  have hrange := sgn_range (w := 64) (by decide) (pat 64 (a * b))
  have hread := sgn_pat (w := 64) (t := a * b) (by decide)
  have hcong : sgn 64 (pat 64 (a * b)) % 2 ^ 64 = a * b % 2 ^ 64 := by
    rw [← cast_pat, pat_sgn, uns_of_lt (pat_lt _ _), cast_pat]
  rw [Bool.eq_iff_iff, overS_iff]
  unfold minSigned maxSigned at *
  by_cases h : a * b < -2 ^ (64 - 1) ∨ 2 ^ (64 - 1) - 1 < a * b
  · exact iff_of_true (mul64Heuristic_of_wraps mode a b (by omega) (by omega)) h
  · rw [hread (by omega) (by omega), mul64Heuristic_of_fits mode a b (by omega)]
    exact iff_of_false Bool.false_ne_true h

/-- R247, unsigned. -/
theorem mul64Heuristic_unsigned (mode : RoundingMode) (a b : Nat) :
    mul64Heuristic mode a b (a * b % 2 ^ 64 : Nat) = overU 64 (a * b : Nat) := by
  have hcast : (a * b : Int) = (a * b : Nat) := (Nat.cast_mul a b).symm
  rw [Bool.eq_iff_iff, overU_natCast_iff]
  by_cases h : 2 ^ 64 ≤ a * b
  · exact iff_of_true (mul64Heuristic_of_wraps mode a b (by omega) (by omega)) h
  · rw [Nat.mod_eq_of_lt (not_le.mp h), ← hcast, mul64Heuristic_of_fits mode a b (by omega)]
    exact iff_of_false Bool.false_ne_true h

/-! ## The overflow conditions of a product (R245, R246, R253) -/

/-- Under both settings of `mul64OverflowExact` the signed condition is the exact one. -/
theorem mulOverS_eq (cfg : Config) (w a b : Nat) : mulOverS cfg w a b = overS w (sgn w a * sgn w b) := by
  unfold mulOverS
  dsimp only
  split
  · rename_i h
    obtain rfl : w = 64 := by simp only [Bool.and_eq_true, decide_eq_true_iff] at h; exact h.1
    exact mul64Heuristic_signed _ _ _
  · rfl

/-- The same for the unsigned condition. -/
theorem mulOverU_eq (cfg : Config) (w a b : Nat) : mulOverU cfg w a b = overU w (uns w a * uns w b : Nat) := by
  unfold mulOverU
  dsimp only
  split
  · rename_i h
    obtain rfl : w = 64 := by simp only [Bool.and_eq_true, decide_eq_true_iff] at h; exact h.1
    exact mul64Heuristic_unsigned _ _ _
  · rfl

/-- R241: the signed saturation in terms of its overflow condition. A number too small is negative, one too large is not. -/
theorem satS_eq (w : Nat) (t : Int) :
    satS w t = if overS w t then (if t < 0 then signBit w else 2 ^ (w - 1) - 1, true) else (pat w t, false) := by
  have hpos : (0 : Int) < 2 ^ (w - 1) := by positivity
  unfold satS overS maxSigned minSigned
  by_cases hlarge : t > 2 ^ (w - 1) - 1
  · rw [if_pos hlarge, if_pos (decide_eq_true (.inl hlarge)), if_neg (by omega)]
  · by_cases hsmall : t < -2 ^ (w - 1)
    · rw [if_neg hlarge, if_pos hsmall, if_pos (decide_eq_true (.inr hsmall)), if_pos (by omega)]
    · rw [if_neg hlarge, if_neg hsmall, if_neg (by simp [hlarge, hsmall])]

/-- R243: the unsigned saturation of a natural number. -/
theorem satU_natCast (w t : Nat) : satU w t = if overU w t then (maxUnsigned w, true) else (uns w t, false) := by
  have hlt := maxUnsigned_lt w
  unfold satU
  by_cases h : 2 ^ w ≤ t
  · rw [if_pos (by omega), if_pos ((overU_natCast_iff w t).mpr h)]
  · have hmax : maxUnsigned w = 2 ^ w - 1 := rfl
    rw [if_neg (by omega), if_neg (by omega), if_neg ((overU_natCast_iff w t).not.mpr h), uns_of_lt (not_le.mp h),
      Int.toNat_natCast]

/-- R245: the saturated product is the saturation of the exact product. -/
theorem mulSatS_eq (cfg : Config) (w a b : Nat) : mulSatS cfg w a b = satS w (sgn w a * sgn w b) := by
  rw [satS_eq, mulSatS, mulOverS_eq]

/-- R246: the same without signs. -/
theorem mulSatU_eq (cfg : Config) (w a b : Nat) : mulSatU cfg w a b = satU w (uns w a * uns w b : Nat) := by
  rw [satU_natCast, mulSatU, mulOverU_eq]

end Sys2Proof.Machine
end

section
/-! SUPPORT. Lane loops (R90) and the saturating operations (R240 to R246): a lane is the saturation of the exact sum,
difference or product. -/

namespace Sys2Proof.Machine

open Sys2Proof

/-! ## The effect of a command of class L (R88, R90) -/

/-- `pairOp_effect` for class L (R88, R90): everything it does at a type of at most 64 bits, when the lane at offset `off`
returns `ret off`. `Exact` is what is claimed of the lane at an offset. -/
theorem laneOp_effect {i : Instr} {op : BitVec 6} {types : OpType → Bool} {masked vectorRs : Bool} {c : Fields} {s : State}
    {lengthR : Nat} {handler : Nat → Parms → Ret} {ret : Nat → Ret} {Exact : Nat → Nat → Prop} {ks : List IntKind}
    (he : exec i s = laneOp op types masked vectorRs c s lengthR handler)
    (hret : ∀ off, handler off (laneParms masked vectorRs c s off) = ret off) (hf : i.fields = c) (h : types c.ot = true)
    (hot : c.ot ≠ .i128) (hok : lengthR ≤ s.cfg.maxVectorLength)
    (hresult : ∀ off, (ret off).result.toNat < 256 ^ dataSize c.ot)
    (hexact : ∀ off, Exact off (ret off).result.toNat) :
    let size := dataSize c.ot
    let n := lengthR / size
    loopRaised n (fun k => ret (k * size)) = ks → Committed s ks →
    VectorEffect i s ks fun t => t.len c.rd = n * size ∧ ∀ k < n, Exact (k * size) (t.velem c.rd (k * size) size) := by
  intro size n hks hc
  have hfit : n * size ≤ s.cfg.maxVectorLength := (Nat.div_mul_le_self _ _).trans hok
  have hraised : (loopRaised n fun k => handler (k * size) (laneParms masked vectorRs c s (k * size))) = ks := by
    simp only [hret, hks]
  refine hraised ▸ loopOp_effect (he.trans (laneOp_eq h)) hf (hraised ▸ hc) fun t hholds => ?_
  simp only [hret] at hholds
  have hlength : ∀ k < n, (laneBytes size (ret (k * size))).length = size := fun _ _ => length_laneBytes _ _
  refine ⟨hholds.len_elements hlength hfit, fun k hk => ?_⟩
  rw [hholds.velem_elements hlength hfit k hk, leNat_laneBytes _ hot, Nat.mod_eq_of_lt (hresult _)]
  exact hexact _

/-! ## One saturating lane (R240 to R244) -/

theorem satS_lt {w : Nat} (hw : 0 < w) (t : Int) : (satS w t).1 < 2 ^ w := by
  unfold satS
  split_ifs
  · exact (Nat.sub_le _ _).trans_lt (signBit_lt hw)
  · exact signBit_lt hw
  · exact pat_lt w t

theorem satU_lt (w : Nat) (t : Int) : (satU w t).1 < 2 ^ w := by
  have hspec := (satU_spec w t).1
  have hmax := maxUnsigned_lt w
  omega

/-! ## The effect of a saturating operation -/

section

variable {i : Instr} {op : BitVec 6} {c : Fields} {s : State}

/-- Everything a saturating operation does when the lane at `off` gives the pair `r off` of R241 and R243: the pattern, and
whether it saturated. -/
theorem saturatingOp_effect {lane : Nat → Nat → Nat → Ret} {r : Nat → Nat × Bool} {Out : Nat → Prop}
    {Exact : Nat → Nat → Prop} {trap : Bool} {kind : IntKind}
    {_ : ∀ off, Decidable (s.cfg.satTraps = true ∧ Out off ∧ trap = true)}
    (he : exec i s = saturatingOp op c s lane) (hf : i.fields = c) (hot : c.ot ∈ OpType.integersUpTo64) (hok : LengthsOk s)
    (hlane : ∀ off, lane (dataBits c.ot) (s.velem c.rs off (dataSize c.ot)) (s.velem c.rt off (dataSize c.ot))
      = { result := BitVec.ofNat 64 (r off).1, raised := raiseIf (s.cfg.satTraps && (r off).2 && trap) kind })
    (hlt : ∀ off, (r off).1 < 2 ^ dataBits c.ot) (hout : ∀ off, (r off).2 = true ↔ Out off)
    (hexact : ∀ off, Exact off (r off).1) :
    let size := dataSize c.ot
    let n := s.len c.rs / size
    let ks : List IntKind := (List.range n).flatMap fun k =>
      if s.cfg.satTraps = true ∧ Out (k * size) ∧ trap = true then [kind] else []
    Committed s ks → VectorEffect i s ks fun t =>
      t.len c.rd = n * size ∧ ∀ k < n, Exact (k * size) (t.velem c.rd (k * size) size) := by
  intro size n ks hc
  have hne := ne_i128_of_mem hot
  refine laneOp_effect (Exact := Exact) (ret := fun off =>
    { result := BitVec.ofNat 64 (r off).1, raised := raiseIf (s.cfg.satTraps && (r off).2 && trap) kind }) he
    (fun off => ?_) hf (typesInt64_of_mem hot) hne (hok c.rs)
    (fun off => ofNat_toNat_lt (hlt off)) (fun off => ?_) (loopRaised_eq fun k => raiseIf_eq_ite ?_ _) hc
  · rw [laneParms_a_toNat false hne, laneParms_b_toNat false hne]
    exact hlane off
  · rw [toNat_ofNat_of_fits hne (hlt off)]
    exact hexact off
  · rw [Bool.and_eq_true, Bool.and_eq_true, hout, and_assoc]

variable {f : Nat → Nat → Nat → Int}

/-- R240, R241: the signed operations. `x` is the exact integer of the lane at an offset. -/
theorem saturatingSigned_effect (x : Nat → Int)
    (he : exec i s = saturatingOp op c s fun w a b => satSignedRet s (satS w (f w a b)))
    (hf : i.fields = c) (hot : c.ot ∈ OpType.integersUpTo64) (hok : LengthsOk s)
    (hx : ∀ off, f (dataBits c.ot) (s.velem c.rs off (dataSize c.ot)) (s.velem c.rt off (dataSize c.ot)) = x off) :
    let size := dataSize c.ot
    let w := dataBits c.ot
    let n := s.len c.rs / size
    let ks : List IntKind := (List.range n).flatMap fun k =>
      if s.cfg.satTraps = true ∧ (x (k * size) < minSigned w ∨ maxSigned w < x (k * size)) ∧ s.numContr.getLsbD 2 = true
      then [.overflSign] else []
    Committed s ks → VectorEffect i s ks fun t => t.len c.rd = n * size ∧ ∀ k < n,
      sgn w (t.velem c.rd (k * size) size) = clampTo (minSigned w) (maxSigned w) (x (k * size)) := by
  intro size w
  have hw : 0 < w := dataBits_pos c.ot
  exact saturatingOp_effect (r := fun off => satS w (x off))
    (Exact := fun off q => sgn w q = clampTo (minSigned w) (maxSigned w) (x off)) he hf hot hok
    (fun off => by rw [← hx, ← trapS_eq, satSignedRet]) (fun _ => satS_lt hw _) (fun _ => (satS_spec hw _).2)
    (fun _ => (satS_spec hw _).1)

/-- R240, R243: the unsigned operations. -/
theorem saturatingUnsigned_effect (x : Nat → Int)
    (he : exec i s = saturatingOp op c s fun w a b => satUnsignedRet s (satU w (f w a b)))
    (hf : i.fields = c) (hot : c.ot ∈ OpType.integersUpTo64) (hok : LengthsOk s)
    (hx : ∀ off, f (dataBits c.ot) (s.velem c.rs off (dataSize c.ot)) (s.velem c.rt off (dataSize c.ot)) = x off) :
    let size := dataSize c.ot
    let w := dataBits c.ot
    let n := s.len c.rs / size
    let ks : List IntKind := (List.range n).flatMap fun k =>
      if s.cfg.satTraps = true ∧ decide (x (k * size) < 0 ∨ (maxUnsigned w : Int) < x (k * size)) = true
        ∧ s.numContr.getLsbD 1 = true
      then [.overflUnsign] else []
    Committed s ks → VectorEffect i s ks fun t => t.len c.rd = n * size ∧ ∀ k < n,
      (t.velem c.rd (k * size) size : Int) = clampTo 0 (maxUnsigned w) (x (k * size)) :=
  saturatingOp_effect (r := fun off => satU (dataBits c.ot) (x off))
    (Exact := fun off q => (q : Int) = clampTo 0 (maxUnsigned (dataBits c.ot)) (x off)) he hf hot hok
    (fun off => by rw [← hx, ← trapU_eq, satUnsignedRet]) (fun _ => satU_lt _ _)
    (fun _ => (satU_spec _ _).2.trans decide_eq_true_iff.symm) (fun _ => (satU_spec _ _).1)

end

/-! ## The operations -/

section

variable (c : Fields) (s : State)

theorem exec_addSs : exec (.addSs c) s
    = saturatingOp 32 c s fun w a b => satSignedRet s (satS w (sgn w a + sgn w b)) := rfl

theorem exec_subSs : exec (.subSs c) s
    = saturatingOp 33 c s fun w a b => satSignedRet s (satS w (sgn w a - sgn w b)) := rfl

theorem exec_addUs : exec (.addUs c) s
    = saturatingOp 34 c s fun w a b => satUnsignedRet s (satU w (uns w a + uns w b : Nat)) := rfl

theorem exec_subUs : exec (.subUs c) s
    = saturatingOp 35 c s fun w a b => satUnsignedRet s (satU w ((uns w a : Int) - uns w b)) := rfl

end

/-- Settles O48. -/
theorem saturatingAddSubResults : Obligations.SaturatingAddSubResults := by
  refine fun c s => ⟨⟨rfl, rfl, rfl, rfl⟩, fun hot => ⟨exec_illegal_of_typeOk (i := .addSs c) (typeOk_eq_false hot) s,
    exec_illegal_of_typeOk (i := .subSs c) (typeOk_eq_false hot) s,
    exec_illegal_of_typeOk (i := .addUs c) (typeOk_eq_false hot) s,
    exec_illegal_of_typeOk (i := .subUs c) (typeOk_eq_false hot) s⟩, fun hot hok => ?_⟩
  intro size w n a b outS ksS ksU signed unsigned
  refine ⟨?_, ?_, ?_, ?_⟩
  · exact saturatingSigned_effect (fun off => sgn w (s.velem c.rs off size) + sgn w (s.velem c.rt off size))
      (exec_addSs c s) rfl hot hok fun _ => rfl
  · exact saturatingSigned_effect (fun off => sgn w (s.velem c.rs off size) - sgn w (s.velem c.rt off size))
      (exec_subSs c s) rfl hot hok fun _ => rfl
  · exact saturatingUnsigned_effect (fun off => (s.velem c.rs off size : Int) + s.velem c.rt off size)
      (exec_addUs c s) rfl hot hok fun _ => by rw [uns_velem, uns_velem, Nat.cast_add]
  · exact saturatingUnsigned_effect (fun off => (s.velem c.rs off size : Int) - s.velem c.rt off size)
      (exec_subUs c s) rfl hot hok fun _ => by rw [uns_velem, uns_velem]

/-! ## Products (R245, R246) -/

section

variable (c : Fields) (s : State)

/-- R245 under both settings of `mul64OverflowExact`. -/
theorem exec_mulSs : exec (.mulSs c) s
    = saturatingOp 36 c s fun w a b => satSignedRet s (satS w (sgn w a * sgn w b)) := by
  rw [exec, execMulSs]
  simp only [mulSatS_eq]

/-- R246 under both settings of `mul64OverflowExact`. -/
theorem exec_mulUs : exec (.mulUs c) s
    = saturatingOp 37 c s fun w a b => satUnsignedRet s (satU w (uns w a * uns w b : Nat)) := by
  rw [exec, execMulUs]
  simp only [mulSatU_eq]

end

/-- Settles O49. -/
theorem saturatingMulResults : Obligations.SaturatingMulResults := by
  refine fun c s => ⟨⟨rfl, rfl⟩, fun hot => ⟨exec_illegal_of_typeOk (i := .mulSs c) (typeOk_eq_false hot) s,
    exec_illegal_of_typeOk (i := .mulUs c) (typeOk_eq_false hot) s⟩, fun hot hok _ => ?_⟩
  intro size w n a b outS ksS ksU signed unsigned
  refine ⟨?_, ?_⟩
  · exact saturatingSigned_effect (fun off => sgn w (s.velem c.rs off size) * sgn w (s.velem c.rt off size))
      (exec_mulSs c s) rfl hot hok fun _ => rfl
  · exact saturatingUnsigned_effect (fun off => (s.velem c.rs off size : Int) * s.velem c.rt off size)
      (exec_mulUs c s) rfl hot hok fun _ => by rw [uns_velem, uns_velem, Nat.cast_mul]

end Sys2Proof.Machine
end

section
/-! SUPPORT. Overflow-checked arithmetic (R250 to R254): one pair in exact arithmetic, and from it the four operations. -/

namespace Sys2Proof.Machine

open Sys2Proof

/-! ## The effect of an overflow-checked operation (R250) -/

/-- The flags that come in with the pair at `off`: the first bytes of both odd lanes. -/
def incomingFlags (c : Fields) (s : State) (off : Nat) : Nat :=
  (s.vb c.rs (off + dataSize c.ot)).toNat ||| (s.vb c.rt (off + dataSize c.ot)).toNat

/-- What an invocation computes on the even lanes of the pair at `off`. -/
def checkedAt (pair : Nat → Nat → Nat → Checked) (c : Fields) (s : State) (off : Nat) : Checked :=
  pair (dataBits c.ot) (s.velem c.rs off (dataSize c.ot)) (s.velem c.rt off (dataSize c.ot))

/-- The flag byte that the pair at `off` leaves. -/
def outgoingFlags (pair : Nat → Nat → Nat → Checked) (c : Fields) (s : State) (off : Nat) : Nat :=
  incomingFlags c s off ||| ((checkedAt pair c s off).ovU.toNat + 2 * (checkedAt pair c s off).ovS.toNat)

/-- What the pair at `off` returns. -/
def checkedRet (pair : Nat → Nat → Nat → Checked) (c : Fields) (s : State) (off : Nat) : Ret where
  result := BitVec.ofNat 64 (checkedAt pair c s off).value
  aux := BitVec.ofNat 64 (incomingFlags c s off ||| flagByte (checkedAt pair c s off).ovU (checkedAt pair c s off).ovS)

theorem flagByte_eq (ovU ovS : Bool) : flagByte ovU ovS = ovU.toNat + 2 * ovS.toNat := by
  cases ovU <;> cases ovS <;> rfl

theorem flagByte_lt (ovU ovS : Bool) : flagByte ovU ovS < 2 ^ 8 := by
  cases ovU <;> cases ovS <;> decide

theorem checkedRet_aux_toNat (pair : Nat → Nat → Nat → Checked) (c : Fields) (s : State) (off : Nat) :
    (checkedRet pair c s off).aux.toNat = outgoingFlags pair c s off := by
  have hbyte : incomingFlags c s off ||| flagByte (checkedAt pair c s off).ovU (checkedAt pair c s off).ovS < 2 ^ 8 :=
    Nat.or_lt_two_pow (Nat.or_lt_two_pow (BitVec.isLt _) (BitVec.isLt _)) (flagByte_lt _ _)
  rw [outgoingFlags, ← flagByte_eq, checkedRet, BitVec.toNat_ofNat, Nat.mod_eq_of_lt (hbyte.trans_le (by decide))]

/-- Everything an overflow-checked operation does. -/
theorem checkedOp_effect {i : Instr} {op : BitVec 6} {c : Fields} {s : State} {pair : Nat → Nat → Nat → Checked}
    {Exact : Nat → Nat → Nat → Prop} (he : exec i s = checkedOp op c s pair) (hf : i.fields = c)
    (hot : c.ot ∈ OpType.integersUpTo64) (hok : LengthsOk s)
    (hvalue : ∀ off, (checkedAt pair c s off).value < 2 ^ dataBits c.ot)
    (hexact : ∀ off, Exact off (checkedAt pair c s off).value (outgoingFlags pair c s off)) :
    let size := dataSize c.ot
    let np := s.len c.rs / (2 * size)
    VectorEffect i s [] fun t => t.len c.rd = 2 * np * size ∧ ∀ j < np,
      Exact (j * (2 * size)) (t.velem c.rd (j * (2 * size)) size) (t.velem c.rd (j * (2 * size) + size) size) := by
  have hne := ne_i128_of_mem hot
  refine pairOp_effect (ret := checkedRet pair c s) he (fun off => ?_) hf (typesInt64_of_mem hot) hne (hok c.rs)
    (fun off => ofNat_toNat_lt (hvalue off)) (fun off => flags_toNat_lt _ _ _ _ _) (fun off => ?_)
    (loopRaised_eq_nil fun _ => rfl) (.inl rfl)
  · rw [laneParms_a_toNat false hne, laneParms_b_toNat false hne]
    rfl
  · rw [checkedRet_aux_toNat, checkedRet, toNat_ofNat_of_fits hne (hvalue off)]
    exact hexact off

/-! ## Sums, differences and products (R251 to R253) -/

theorem overS_eq (w : Nat) (t : Int) : overS w t = decide (t < minSigned w ∨ maxSigned w < t) :=
  decide_eq_decide.mpr or_comm

theorem overU_natCast (w t : Nat) : overU w t = decide (2 ^ w ≤ t) := by
  rw [Bool.eq_iff_iff, overU_natCast_iff, decide_eq_true_iff]

section

variable {w a b : Nat}

theorem addChecked_eq (ha : a < 2 ^ w) (hb : b < 2 ^ w) : addChecked w a b
    = { value := (a + b) % 2 ^ w
        ovU := decide (2 ^ w ≤ a + b)
        ovS := decide (sgn w a + sgn w b < minSigned w ∨ maxSigned w < sgn w a + sgn w b) } := by
  rw [addChecked, uns_of_lt ha, uns_of_lt hb, overU_natCast, overS_eq, uns]

/-- The pattern of a difference: the subtrahend's complement added. -/
theorem pat_sub (hb : b < 2 ^ w) : pat w ((a : Int) - b) = (a + (2 ^ w - b)) % 2 ^ w := by
  zify [hb.le]
  rw [cast_pat, ← Int.add_emod_right]
  congr 1
  ring

theorem subChecked_eq (ha : a < 2 ^ w) (hb : b < 2 ^ w) : subChecked w a b
    = { value := (a + (2 ^ w - b)) % 2 ^ w
        ovU := decide (a < b)
        ovS := decide (sgn w a - sgn w b < minSigned w ∨ maxSigned w < sgn w a - sgn w b) } := by
  rw [subChecked, uns_of_lt ha, uns_of_lt hb, pat_sub hb, overS_eq]

/-- R253 under both settings of `mul64OverflowExact`. -/
theorem mulChecked_eq (cfg : Config) (ha : a < 2 ^ w) (hb : b < 2 ^ w) : mulChecked cfg w a b
    = { value := a * b % 2 ^ w
        ovU := decide (2 ^ w ≤ a * b)
        ovS := decide (sgn w a * sgn w b < minSigned w ∨ maxSigned w < sgn w a * sgn w b) } := by
  rw [mulChecked, mulOverU_eq, mulOverS_eq, uns_of_lt ha, uns_of_lt hb, overU_natCast, overS_eq, uns]

end

section

variable {i : Instr} {op : BitVec 6} {c : Fields} {s : State} {pair : Nat → Nat → Nat → Checked}

/-- `checkedOp_effect` for a pair whose value and flags are known. -/
theorem checkedOp_effect_of_eq (r : Nat → Checked) (he : exec i s = checkedOp op c s pair) (hf : i.fields = c)
    (hot : c.ot ∈ OpType.integersUpTo64) (hok : LengthsOk s) (hr : ∀ off, checkedAt pair c s off = r off)
    (hvalue : ∀ off, (r off).value < 2 ^ dataBits c.ot) :
    let size := dataSize c.ot
    let np := s.len c.rs / (2 * size)
    VectorEffect i s [] fun t => t.len c.rd = 2 * np * size ∧ ∀ j < np,
      t.velem c.rd (j * (2 * size)) size = (r (j * (2 * size))).value
      ∧ t.velem c.rd (j * (2 * size) + size) size = (incomingFlags c s (j * (2 * size))
          ||| ((r (j * (2 * size))).ovU.toNat + 2 * (r (j * (2 * size))).ovS.toNat)) :=
  checkedOp_effect (Exact := fun off q o => q = (r off).value
      ∧ o = (incomingFlags c s off ||| ((r off).ovU.toNat + 2 * (r off).ovS.toNat))) he hf hot hok
    (fun off => (hr off).symm ▸ hvalue off) (fun off => by rw [outgoingFlags, hr]; exact ⟨rfl, rfl⟩)

end

section

variable (c : Fields) (s : State)

theorem exec_addOc : exec (.addOc c) s = checkedOp 40 c s addChecked := rfl

theorem exec_subOc : exec (.subOc c) s = checkedOp 41 c s subChecked := rfl

theorem exec_mulOc : exec (.mulOc c) s = checkedOp 42 c s (mulChecked s.cfg) := rfl

theorem exec_divOc : exec (.divOc c) s = checkedOp 43 c s divChecked := rfl

end

/-- Settles O51. -/
theorem checkedArithmeticResults : Obligations.CheckedArithmeticResults := by
  refine fun c s => ⟨⟨rfl, rfl, rfl⟩, fun hot => ⟨exec_illegal_of_typeOk (i := .addOc c) (typeOk_eq_false hot) s,
    exec_illegal_of_typeOk (i := .subOc c) (typeOk_eq_false hot) s,
    exec_illegal_of_typeOk (i := .mulOc c) (typeOk_eq_false hot) s⟩, fun hot hok => ?_⟩
  intro size w np a b fin outS checked
  have hlt := fun r off => velem_lt_dataBits s r off c.ot
  have hmod : ∀ x, x % 2 ^ w < 2 ^ w := fun x => Nat.mod_lt x (Nat.two_pow_pos w)
  refine ⟨?_, ?_, fun _ => ?_⟩
  · exact checkedOp_effect_of_eq _ (exec_addOc c s) rfl hot hok (fun off => addChecked_eq (hlt _ off) (hlt _ off))
      fun _ => hmod _
  · exact checkedOp_effect_of_eq _ (exec_subOc c s) rfl hot hok (fun off => subChecked_eq (hlt _ off) (hlt _ off))
      fun _ => hmod _
  · exact checkedOp_effect_of_eq _ (exec_mulOc c s) rfl hot hok (fun off => mulChecked_eq s.cfg (hlt _ off) (hlt _ off))
      fun _ => hmod _

/-! ## The quotient (R254) -/

/-- R254: what the quotient `q` and the flag byte `o` of a pair say about its operands and the incoming flags. -/
def DivOcExact (w a b fin q o : Nat) : Prop :=
  (b = 0 → q = 2 ^ (w - 1) ∧ o = (fin ||| 3))
    ∧ (sgn w a = minSigned w ∧ sgn w b = -1 → q = 2 ^ (w - 1) ∧ o = (fin ||| 2))
    ∧ (b ≠ 0 → ¬ (sgn w a = minSigned w ∧ sgn w b = -1) → sgn w q = (sgn w a).tdiv (sgn w b) ∧ o = fin)

/-- A quotient fits its type, but for `MIN_SIGNED / -1`. -/
theorem tdiv_sgn_range {w : Nat} (hw : 0 < w) (a : Nat) {b : Nat} (hb : sgn w b ≠ 0)
    (h : ¬ (sgn w a = minSigned w ∧ sgn w b = -1)) :
    minSigned w ≤ (sgn w a).tdiv (sgn w b) ∧ (sgn w a).tdiv (sgn w b) ≤ maxSigned w := by
  obtain ⟨hmin, hmax⟩ := sgn_range hw a
  by_cases hone : sgn w b = 1
  · rw [hone, Int.tdiv_one]
    exact ⟨hmin, hmax⟩
  have hpos : (0 : Int) < 2 ^ (w - 1) := by positivity
  unfold minSigned maxSigned at *
  by_cases hneg : sgn w b = -1
  · have hne : sgn w a ≠ -2 ^ (w - 1) := fun ha => h ⟨ha, hneg⟩
    rw [hneg, Int.tdiv_neg, Int.tdiv_one]
    omega
  · have hquot : ((sgn w a).tdiv (sgn w b)).natAbs ≤ (sgn w a).natAbs / 2 := by
      rw [Int.natAbs_tdiv]
      exact Nat.div_le_div_left (by omega) (by decide)
    omega

theorem divChecked_value_lt {w : Nat} (hw : 0 < w) (a b : Nat) : (divChecked w a b).value < 2 ^ w := by
  unfold divChecked
  split_ifs
  · exact signBit_lt hw
  · exact signBit_lt hw
  · exact pat_lt _ _

theorem divChecked_exact {w a b : Nat} (hw : 0 < w) (hb : b < 2 ^ w) (fin : Nat) :
    DivOcExact w a b fin (divChecked w a b).value
      (fin ||| ((divChecked w a b).ovU.toNat + 2 * (divChecked w a b).ovS.toNat)) := by
  have hzero := sgn_eq_zero_iff hb
  unfold divChecked
  rw [uns_of_lt hb]
  refine ⟨fun h => ?_, fun h => ?_, fun hne h => ?_⟩
  · rw [if_pos h]
    exact ⟨rfl, rfl⟩
  · rw [if_neg (fun h0 => by have := hzero.mpr h0; omega), if_pos h]
    exact ⟨rfl, rfl⟩
  · obtain ⟨hmin, hmax⟩ := tdiv_sgn_range hw a (hzero.not.mpr hne) h
    rw [if_neg hne, if_neg h]
    exact ⟨sgn_pat hw hmin hmax, Nat.or_zero fin⟩

/-- Settles O52. -/
theorem checkedDivisionResult : Obligations.CheckedDivisionResult := by
  refine fun c s => ⟨rfl, fun hot => exec_illegal_of_typeOk (i := .divOc c) (typeOk_eq_false hot) s, fun hot hok => ?_⟩
  intro size w np a b fin corner
  have hw := dataBits_pos c.ot
  exact checkedOp_effect
    (Exact := fun off => DivOcExact w (s.velem c.rs off size) (s.velem c.rt off size) (incomingFlags c s off))
    (exec_divOc c s) rfl hot hok (fun _ => divChecked_value_lt hw _ _)
    (fun off => divChecked_exact hw (velem_lt_dataBits _ _ _ _) _)

end Sys2Proof.Machine
end

section
/-! SUPPORT. How far the parameter `mul64OverflowExact` reaches (R247): two runs that differ in it only give the same data. -/

namespace Sys2Proof.Machine

open Sys2Proof

/-- `s` under another setting of `mul64OverflowExact`. -/
abbrev State.withMul64 (s : State) (exact : Bool) : State := { s with cfg := { s.cfg with mul64OverflowExact := exact } }

/-- R253 reads no parameter but the one the heuristic makes no difference to. -/
theorem mulChecked_congr (cfg cfg' : Config) : mulChecked cfg = mulChecked cfg' := by
  funext w a b
  rw [mulChecked, mulChecked, mulOverU_eq, mulOverU_eq, mulOverS_eq, mulOverS_eq]

section

variable (s : State) (exact : Bool)

theorem sameOutcome_illegal_withMul64 : SameOutcome (.next (illegal s)) (.next (illegal (s.withMul64 exact))) :=
  ⟨_, _, rfl, rfl, rfl, rfl, rfl, rfl⟩

/-- The end of a command adds no difference. -/
theorem sameOutcome_finish_withMul64 {t t' : State} (tag : Option (BitVec 16)) (ks : List IntKind)
    (h : SameData t t' := by exact ⟨rfl, rfl, rfl, rfl⟩) (hpc : t'.pc = t.pc := by rfl) :
    SameOutcome (finish s t tag ks) (finish (s.withMul64 exact) t' tag ks) :=
  ⟨_, _, rfl, rfl, sameData_finishState ⟨rfl, rfl, rfl, rfl⟩ h rfl hpc tag ks⟩

/-- The shape of every class operation: the check of the operand type, and a command that ends in `t` or `t'`. -/
theorem sameOutcome_checked_withMul64 (ok : Bool) {t t' : State} (tag : Option (BitVec 16)) (ks : List IntKind)
    (h : SameData t t' := by exact ⟨rfl, rfl, rfl, rfl⟩) (hpc : t'.pc = t.pc := by rfl) :
    SameOutcome (if ok then finish s t tag ks else .next (illegal s))
      (if ok then finish (s.withMul64 exact) t' tag ks else .next (illegal (s.withMul64 exact))) := by
  cases ok with
  | false => exact sameOutcome_illegal_withMul64 s exact
  | true => exact sameOutcome_finish_withMul64 s exact tag ks h hpc

end

/-- R247: no instruction's data depends on the parameter. The three products are exact under both settings, and nothing else
reads it. -/
theorem exec_withMul64 (i : Instr) (s : State) (exact : Bool) : SameOutcome (exec i s) (exec i (s.withMul64 exact)) := by
  by_cases himm : i.immOk = false
  · rw [exec_illegal_of_immOk himm, exec_illegal_of_immOk himm]
    exact sameOutcome_illegal_withMul64 s exact
  by_cases hmask : i.maskOk = false
  · rw [exec_illegal_of_maskOk hmask, exec_illegal_of_maskOk hmask]
    exact sameOutcome_illegal_withMul64 s exact
  cases i with
  | mulSs c => rw [exec_mulSs, exec_mulSs]; exact sameOutcome_checked_withMul64 s exact _ _ _
  | mulUs c => rw [exec_mulUs, exec_mulUs]; exact sameOutcome_checked_withMul64 s exact _ _ _
  | mulOc c =>
    rw [exec_mulOc, exec_mulOc, mulChecked_congr s.cfg (s.withMul64 exact).cfg]
    exact sameOutcome_checked_withMul64 s exact _ _ _
  | addressForm c => exact sameOutcome_finish_withMul64 s exact _ _
  | absolute c =>
    have himm : c.imm.toNat % 4 ≠ 3 := by simpa [Instr.immOk] using himm
    rw [exec_absolute c s himm, exec_absolute c _ himm]
    exact sameOutcome_checked_withMul64 s exact _ _ _
  | replaceBits c =>
    have himm : (Instr.replaceBits c).immOk = true := by simpa using himm
    rw [exec_replaceBits himm, exec_replaceBits himm]
    exact sameOutcome_checked_withMul64 s exact _ _ _
  | compressSparse c =>
    obtain ⟨m, hm⟩ : ∃ m, c.rm = some m := Option.ne_none_iff_exists'.mp (by simpa [Instr.maskOk] using hmask)
    rw [exec, exec, execCompressSparse_masked s hm, execCompressSparse_masked _ hm]
    exact sameOutcome_checked_withMul64 s exact _ _ _
  | expandSparse c =>
    obtain ⟨m, hm⟩ : ∃ m, c.rm = some m := Option.ne_none_iff_exists'.mp (by simpa [Instr.maskOk] using hmask)
    rw [exec, exec, execExpandSparse_masked s hm, execExpandSparse_masked _ hm]
    exact sameOutcome_checked_withMul64 s exact _ _ _
  | setLen c | getLen c | setNum c | getNum c | extract c | insert c | broadcast c | bits2bool c | bool2bits c
  | shiftExpand c | shiftReduce c | shiftUp c | shiftDown c | rotateUp c | rotateDown c | moveHi32 c | insertHi32 c
  | add32u c | sub32u c | addHi32 c | andHi32 c | orHi32 c | xorHi32 c | compress c | compressSs c | compressUs c
  | expandU c | expandS c =>
    exact sameOutcome_finish_withMul64 s exact _ _
  | bitscanForward c | bitscanReverse c | roundDownPow2 c | roundUpPow2 c | boolReduce c | categoryReduce c | addCarry c
  | subBorrow c | divEx c | divExU c | addSs c | subSs c | addUs c | subUs c | addOc c | subOc c
  | divOc c | shiftAdd c | sqrt c =>
    exact sameOutcome_checked_withMul64 s exact _ _ _

/-- Settles O50. -/
theorem heuristicMultiplyAgrees : Obligations.HeuristicMultiplyAgrees := by
  refine ⟨fun mode a b _ _ => ⟨?_, ?_⟩, fun i s t u exact ht hu => ?_⟩
  · rw [mul64Heuristic_signed, overS_iff]
  · rw [mul64Heuristic_unsigned, overU_natCast_iff, maxUnsigned]
    omega
  · obtain ⟨t', u', ht', hu', hx, hmem, hvlen, hint⟩ := exec_withMul64 i s exact
    obtain rfl : t' = t := Host.Outcome.next.inj (ht'.symm.trans ht)
    obtain rfl : u' = u := Host.Outcome.next.inj (hu'.symm.trans hu)
    exact ⟨hx, hmem, hvlen, hint⟩

end Sys2Proof.Machine
end

section
/-! SUPPORT. The end of every instruction (R96, R284, R287): it completes, and it is illegal or ends as `finishState` says. From
this, what a well-formed instruction records and what an uncommitted one leaves. -/

namespace Sys2Proof.Machine

open Sys2Proof

/-- Taking the next draw tells an executed command from an illegal one (R78). -/
def Executes (s : State) (o : StepOutcome) : Prop := ∃ t, o = .next t ∧ t.draws = s.draws + 1

theorem executes_finish (s : State) {t : State} (tag : Option (BitVec 16)) (ks : List IntKind)
    (h : t.draws = s.draws := by rfl) : Executes s (.next (finishState s t tag ks)) :=
  ⟨_, rfl, by rw [finishState_draws, h]⟩

theorem Executes.ne_illegal {s : State} {o : StepOutcome} (h : Executes s o) : o ≠ .next (illegal s) := by
  obtain ⟨t, rfl, hdraws⟩ := h
  intro heq
  rw [Host.Outcome.next.inj heq, illegal_draws] at hdraws
  omega

/-- R78: a well-formed instruction that the configuration does not forbid is executed, whatever its class. -/
theorem executes_of_wf {i : Instr} {s : State} (hwf : i.wf = true) (hdiv : DivisionAllowed i s) : Executes s (exec i s) := by
  have hty := typeOk_of_wf hwf
  cases classForm i with
  | malformed hw => exact absurd (hw.symm.trans hwf) Bool.false_ne_true
  | scalar _ he ht => rw [he, scalarOp_eq (ht.trans hty)]; exact executes_finish s _ _
  | address hi => subst hi; exact executes_finish s _ _
  | getter _ he => rw [he, getterOp_eq rfl]; exact executes_finish s _ _
  | whole _ he _ ht => rw [he, wholeOp_eq (ht.trans hty)]; exact executes_finish s _ _
  | extract _ he => rw [he, extractOp_eq rfl]; exact executes_finish s _ _
  | lane _ he _ ht => rw [he, laneOp_eq (ht.trans hty)]; exact executes_finish s _ _
  | pair _ he _ _ ht => rw [he, pairOp_eq (ht s hty hdiv)]; exact executes_finish s _ _

/-- Every instruction completes; the interrupts it records are the one of an illegal command, or others. -/
theorem exec_completes_raising (i : Instr) (s : State) :
    ∃ t ks, exec i s = .next t ∧ Raised s t ks ∧ (exec i s = .next (illegal s) ∨ .instIllegal ∉ ks) := by
  obtain ⟨hgpr, hvec⟩ := exec_cases i s
  by_cases hclass : opClass i = .scalar ∨ opClass i = .getter
  · rcases hgpr hclass with ht | ⟨slots, v, tag, ks, -, ht, hks⟩
    · exact ⟨_, [.instIllegal], ht, rfl, .inl ht⟩
    · exact ⟨_, ks, ht, by simp [Raised], .inr hks⟩
  · obtain ⟨hs, hg⟩ := not_or.mp hclass
    rcases hvec hs hg with ht | ⟨slots, bs, ks, -, ht, hks⟩
    · exact ⟨_, [.instIllegal], ht, rfl, .inl ht⟩
    · exact ⟨_, ks, ht, by simp [Raised], .inr hks⟩

/-- Settles O13: an instruction that is executed is not illegal, and only an illegal one records `INT_INST_ILLEGAL`. -/
theorem wellFormedCompletes : Obligations.WellFormedCompletes := by
  intro i s
  obtain ⟨t, ks, ht, hks, hkind⟩ := exec_completes_raising i s
  exact ⟨t, ks, ht, hks, fun hwf hdiv => hkind.resolve_left (executes_of_wf hwf hdiv).ne_illegal⟩

/-! ## Without commits (R287, last paragraph) -/

/-- A command that raised and does not commit restores what it wrote. -/
theorem finishState_uncommitted {s t : State} {tag : Option (BitVec 16)} {ks : List IntKind}
    (hcommit : s.cfg.commitOnInterrupt = false) (hks : ks ≠ []) :
    (finishState s t tag ks).x = s.x ∧ (finishState s t tag ks).mem = s.mem ∧ (finishState s t tag ks).vlen = s.vlen := by
  have h : ¬ commits s ks := by simp [commits, hcommit, hks]
  simp [h]

/-- Settles O16: an illegal command writes nothing, and what any other wrote is restored. -/
theorem nothingCommittedWithoutCommitOnInterrupt : Obligations.NothingCommittedWithoutCommitOnInterrupt := by
  intro i s t hcommit ht hraised
  rcases exec_next_cases ht with rfl | ⟨slots, v, tag, ks, -, rfl⟩ | ⟨slots, bs, ks, -, rfl⟩
  · exact ⟨rfl, rfl, rfl⟩
  · exact finishState_uncommitted hcommit fun hks => hraised (by simp [hks])
  · exact finishState_uncommitted hcommit fun hks => hraised (by simp [hks])

end Sys2Proof.Machine
end

section
/-! SUPPORT. The silent operations (R240, R282): handlers that raise nothing, and from these the commands that record nothing but
`INT_INST_ILLEGAL`. -/

namespace Sys2Proof.Machine

open Sys2Proof

/-- An outcome that records at most the interrupt of an illegal command. -/
def Silent (s : State) (o : StepOutcome) : Prop :=
  ∀ t, o = .next t → t.intRaised = s.intRaised ∨ t.intRaised = s.intRaised ++ [(.instIllegal, s.pc)]

theorem silent_illegal (s : State) : Silent s (.next (illegal s)) := by
  rintro t ht
  cases ht
  exact .inr rfl

theorem silent_finish (s : State) {t : State} (tag : Option (BitVec 16)) {ks : List IntKind} (hks : ks = [])
    (h : t.intRaised = s.intRaised := by rfl) : Silent s (.next (finishState s t tag ks)) := by
  rintro u hu
  cases hu
  exact .inl (by simp [hks, h])

/-! ## The classes -/

section

variable (op : BitVec 6) (types : OpType → Bool) (masked vectorRs : Bool) (c : Fields) (s : State)

theorem scalarOp_silent {handler : Parms → Ret} (hks : ∀ p, (handler p).raised = []) :
    Silent s (scalarOp op types c s handler) := by
  cases h : types c.ot with
  | false => rw [scalarOp_illegal h]; exact silent_illegal s
  | true => rw [scalarOp_eq h]; exact silent_finish s _ (hks _)

theorem getterOp_silent (result : Word) : Silent s (getterOp op types c s result) := by
  cases h : types c.ot with
  | false => rw [getterOp_illegal h]; exact silent_illegal s
  | true => rw [getterOp_eq h]; exact silent_finish s _ rfl

theorem wholeOp_silent {handler : Parms → List Byte × List IntKind} (hks : ∀ p, (handler p).2 = []) :
    Silent s (wholeOp op types masked c s handler) := by
  cases h : types c.ot with
  | false => rw [wholeOp_illegal h]; exact silent_illegal s
  | true => rw [wholeOp_eq h]; exact silent_finish s _ (hks _)

theorem extractOp_silent {handler : Parms → Ret} (hks : ∀ p, (handler p).raised = []) :
    Silent s (extractOp op types c s handler) := by
  cases h : types c.ot with
  | false => rw [extractOp_illegal h]; exact silent_illegal s
  | true => rw [extractOp_eq h]; exact silent_finish s _ (hks _)

theorem loopOp_silent (lengthR stride : Nat) (fill : Nat → Parms) {handler : Nat → Parms → Ret} (bytes : Ret → List Byte)
    (hks : ∀ off p, (handler off p).raised = []) : Silent s (loopOp op c s lengthR stride fill handler bytes) := by
  rw [loopOp_eq]
  exact silent_finish s _ (loopRaised_eq_nil fun _ => hks _ _)

theorem laneOp_silent (lengthR : Nat) {handler : Nat → Parms → Ret} (hks : ∀ off p, (handler off p).raised = []) :
    Silent s (laneOp op types masked vectorRs c s lengthR handler) := by
  cases h : types c.ot with
  | false => rw [laneOp_illegal h]; exact silent_illegal s
  | true => rw [laneOp_eq h]; exact loopOp_silent op c s _ _ _ _ hks

theorem pairOp_silent {handler : Nat → Parms → Ret} (hks : ∀ off p, (handler off p).raised = []) :
    Silent s (pairOp op types masked c s handler) := by
  cases h : types c.ot with
  | false => rw [pairOp_illegal h]; exact silent_illegal s
  | true => rw [pairOp_eq h]; exact loopOp_silent op c s _ _ _ _ hks

/-- R168. -/
theorem expandOp_silent (signed : Bool) : Silent s (expandOp op signed c s) :=
  wholeOp_silent op typesAll false c s fun _ => rfl

/-- R240: without `satTraps` no lane raises. -/
theorem saturatingOp_silent {lane : Nat → Nat → Nat → Ret} (hks : ∀ w a b, (lane w a b).raised = []) :
    Silent s (saturatingOp op c s lane) :=
  laneOp_silent op typesInt64 false true c s _ fun _ _ => hks _ _ _

/-- R250. -/
theorem checkedOp_silent (pair : Nat → Nat → Nat → Checked) : Silent s (checkedOp op c s pair) :=
  pairOp_silent op typesInt64 false c s fun _ _ => rfl

end

theorem satSignedRet_raised_of_noTraps {s : State} (h : s.cfg.satTraps = false) (r : Nat × Bool) :
    (satSignedRet s r).raised = [] := by
  simp [satSignedRet, h, raiseIf]

theorem satUnsignedRet_raised_of_noTraps {s : State} (h : s.cfg.satTraps = false) (r : Nat × Bool) :
    (satUnsignedRet s r).raised = [] := by
  simp [satUnsignedRet, h, raiseIf]

/-! ## The operations -/

/-- R282: the operations listed as silent, by their opcodes; the saturating ones only under `satTraps = false` (R240). -/
abbrev ListedSilent (i : Instr) (s : State) : Prop :=
  (opcodeOf i).1 = 0 ∧ (opcodeOf i).2 ≤ 2 ∨ (opcodeOf i).1 = 4
    ∨ (opcodeOf i).1 = 2 ∧ ((opcodeOf i).2 ≤ 3 ∨ 8 ≤ (opcodeOf i).2 ∧ (opcodeOf i).2 ≤ 29
      ∨ 40 ≤ (opcodeOf i).2 ∧ (opcodeOf i).2 ≤ 43
      ∨ s.cfg.satTraps = false ∧ 32 ≤ (opcodeOf i).2 ∧ (opcodeOf i).2 ≤ 37)

/-- R74: the saturating operations are listed only without traps. -/
theorem satTraps_of_listedSilent {i : Instr} {s : State} (h : ListedSilent i s) {op : Nat} (hopcode : opcodeOf i = (2, op))
    (hmin : 32 ≤ op) (hmax : op ≤ 37) : s.cfg.satTraps = false := by
  by_contra htraps
  simp only [ListedSilent, hopcode, htraps, false_and, or_false] at h
  omega

theorem exec_silent {i : Instr} {s : State} (h : ListedSilent i s) : Silent s (exec i s) := by
  by_cases himm : i.immOk = false
  · rw [exec_illegal_of_immOk himm]
    exact silent_illegal s
  by_cases hmask : i.maskOk = false
  · rw [exec_illegal_of_maskOk hmask]
    exact silent_illegal s
  cases i with
  | bitscanForward c | bitscanReverse c | roundDownPow2 c | moveHi32 c | insertHi32 c | add32u c | sub32u c | addHi32 c
  | andHi32 c | orHi32 c | xorHi32 c =>
    rw [exec]
    refine scalarOp_silent _ _ c s fun _ => ?_
    rfl
  | replaceBits c =>
    rw [exec_replaceBits (by simpa using himm)]
    exact scalarOp_silent _ _ c s fun _ => rfl
  | addressForm c => exact silent_finish s _ rfl
  | getLen c | getNum c =>
    rw [exec]
    exact getterOp_silent _ _ c s _
  | setLen c | setNum c | bits2bool c | bool2bits c | boolReduce c | categoryReduce c | shiftExpand c
  | shiftReduce c | shiftUp c | shiftDown c | rotateUp c | rotateDown c =>
    rw [exec]
    refine wholeOp_silent _ _ _ c s fun _ => ?_
    rfl
  | expandU c | expandS c =>
    rw [exec]
    exact expandOp_silent _ c s _
  | compressSparse c =>
    obtain ⟨m, hm⟩ : ∃ m, c.rm = some m := Option.ne_none_iff_exists'.mp (by simpa [Instr.maskOk] using hmask)
    rw [exec, execCompressSparse_masked s hm]
    exact wholeOp_silent _ _ _ c s fun _ => rfl
  | expandSparse c =>
    obtain ⟨m, hm⟩ : ∃ m, c.rm = some m := Option.ne_none_iff_exists'.mp (by simpa [Instr.maskOk] using hmask)
    rw [exec, execExpandSparse_masked s hm]
    exact wholeOp_silent _ _ _ c s fun _ => rfl
  | extract c =>
    rw [exec]
    refine extractOp_silent _ _ c s fun _ => ?_
    dsimp only
    split <;> rfl
  | insert c =>
    rw [exec]
    refine laneOp_silent _ _ _ _ c s _ fun _ _ => ?_
    split <;> rfl
  | broadcast c =>
    rw [exec]
    exact laneOp_silent _ _ _ _ c s _ fun _ _ => rfl
  | addCarry c | subBorrow c =>
    rw [exec]
    refine pairOp_silent _ _ _ c s fun _ _ => ?_
    rfl
  | addOc c | subOc c | mulOc c | divOc c =>
    rw [exec]
    exact checkedOp_silent _ c s _
  | addSs c | subSs c | mulSs c =>
    rw [exec]
    refine saturatingOp_silent _ c s fun _ _ _ => ?_
    exact satSignedRet_raised_of_noTraps (satTraps_of_listedSilent h rfl (by decide) (by decide)) _
  | addUs c | subUs c | mulUs c =>
    rw [exec]
    refine saturatingOp_silent _ c s fun _ _ _ => ?_
    exact satUnsignedRet_raised_of_noTraps (satTraps_of_listedSilent h rfl (by decide) (by decide)) _
  | roundUpPow2 c | compress c | compressSs c | compressUs c | divEx c | divExU c | sqrt c | absolute c | shiftAdd c =>
    exact absurd h (by simp [ListedSilent, opcodeOf])

/-- Settles O18. -/
theorem silentOperations : Obligations.SilentOperations := fun _ _ t ht h => exec_silent h t ht

end Sys2Proof.Machine
end

section
/-! SUPPORT. How far `numContr` reaches (R96, R287): with commits standing, two runs that differ in it write the same values,
because a handler reads its options word for its interrupts only; `bits2bool` alone puts it into its result (R191). -/

namespace Sys2Proof.Machine

open Sys2Proof

/-- `s` with another numeric control word. -/
abbrev State.withNumContr (s : State) (n : Word) : State := { s with numContr := n }

/-- The same general-purpose registers, vector bytes and lengths; the interrupts may differ. -/
structure SameValues (t u : State) : Prop where
  x : u.x = t.x
  mem : u.mem = t.mem
  vlen : u.vlen = t.vlen

/-- Both commands complete, with the same values. -/
def AgreeOnValues (o o' : StepOutcome) : Prop := ∃ t u, o = .next t ∧ o' = .next u ∧ SameValues t u

theorem agree_illegal (s : State) (n : Word) : AgreeOnValues (.next (illegal s)) (.next (illegal (s.withNumContr n))) :=
  ⟨_, _, rfl, rfl, rfl, rfl, rfl⟩

/-! ## The classes -/

section

variable {s : State} (hcommit : s.cfg.commitOnInterrupt = true) (n : Word)

include hcommit

/-- Where every command commits, the interrupts do not matter to the values. -/
theorem agree_finish {t t' : State} (tag : Option (BitVec 16)) (ks ks' : List IntKind)
    (h : SameValues t t' := by exact ⟨rfl, rfl, rfl⟩) :
    AgreeOnValues (finish s t tag ks) (finish (s.withNumContr n) t' tag ks') := by
  refine ⟨_, _, rfl, rfl, ?_⟩
  constructor <;> simp [commits, hcommit, h.x, h.mem, h.vlen]

/-- The shape of every class operation: the check of the operand type, and a command that ends in `t` or `t'`. -/
theorem agree_checked (ok : Bool) {t t' : State} (tag : Option (BitVec 16)) (ks ks' : List IntKind)
    (h : SameValues t t' := by exact ⟨rfl, rfl, rfl⟩) :
    AgreeOnValues (if ok then finish s t tag ks else .next (illegal s))
      (if ok then finish (s.withNumContr n) t' tag ks' else .next (illegal (s.withNumContr n))) := by
  cases ok with
  | false => exact agree_illegal s n
  | true => exact agree_finish hcommit n tag ks ks' h

variable (op : BitVec 6) (types : OpType → Bool) (masked vectorRs : Bool) (c : Fields)

theorem scalarOp_agree {handler handler' : Parms → Ret}
    (h : (handler' (scalarParms c (s.withNumContr n))).result = (handler (scalarParms c s)).result) :
    AgreeOnValues (scalarOp op types c s handler) (scalarOp op types c (s.withNumContr n) handler') := by
  refine agree_checked hcommit n _ _ _ _ ⟨?_, rfl, rfl⟩
  simp only [h]
  rfl

theorem wholeOp_agree {handler handler' : Parms → List Byte × List IntKind}
    (h : (handler' (wholeParms masked c (s.withNumContr n))).1 = (handler (wholeParms masked c s)).1) :
    AgreeOnValues (wholeOp op types masked c s handler) (wholeOp op types masked c (s.withNumContr n) handler') := by
  refine agree_checked hcommit n _ _ _ _ ⟨rfl, ?_, ?_⟩ <;> simp only [h] <;> rfl

/-- R163: the traps of a compression are all that its options word decides. -/
theorem compressOp_agree (sel : Narrowing) :
    AgreeOnValues (compressOp op sel c s) (compressOp op sel c (s.withNumContr n)) :=
  wholeOp_agree hcommit n op typesAll true c rfl

theorem loopOp_agree (lengthR stride : Nat) {fill fill' : Nat → Parms} {handler handler' : Nat → Parms → Ret}
    (bytes : Ret → List Byte) (h : ∀ off, bytes (handler' off (fill' off)) = bytes (handler off (fill off))) :
    AgreeOnValues (loopOp op c s lengthR stride fill handler bytes)
      (loopOp op c (s.withNumContr n) lengthR stride fill' handler' bytes) := by
  rw [loopOp_eq, loopOp_eq]
  simp only [h]
  exact agree_finish hcommit n _ _ _

theorem laneOp_agree (lengthR : Nat) {handler handler' : Nat → Parms → Ret}
    (h : ∀ off, laneBytes (dataSize c.ot) (handler' off (laneParms masked vectorRs c (s.withNumContr n) off))
      = laneBytes (dataSize c.ot) (handler off (laneParms masked vectorRs c s off))) :
    AgreeOnValues (laneOp op types masked vectorRs c s lengthR handler)
      (laneOp op types masked vectorRs c (s.withNumContr n) lengthR handler') := by
  cases hty : types c.ot with
  | false => rw [laneOp_illegal hty, laneOp_illegal hty]; exact agree_illegal s n
  | true => rw [laneOp_eq hty, laneOp_eq hty]; exact loopOp_agree hcommit n op c _ _ _ h

theorem pairOp_agree {handler handler' : Nat → Parms → Ret}
    (h : ∀ off, pairBytes (dataSize c.ot) (handler' off (laneParms masked true c (s.withNumContr n) off))
      = pairBytes (dataSize c.ot) (handler off (laneParms masked true c s off))) :
    AgreeOnValues (pairOp op types masked c s handler) (pairOp op types masked c (s.withNumContr n) handler') := by
  cases hty : types c.ot with
  | false => rw [pairOp_illegal hty, pairOp_illegal hty]; exact agree_illegal s n
  | true => rw [pairOp_eq hty, pairOp_eq hty]; exact loopOp_agree hcommit n op c _ _ _ h

end

/-! ## The handlers that read the options word -/

theorem roundUpPow2_result_congr (ot : OpType) (a opts opts' : Word) :
    (roundUpPow2 ot a opts).result = (roundUpPow2 ot a opts').result := by
  unfold roundUpPow2
  dsimp only
  split
  · rfl
  · split_ifs <;> rfl

theorem divExSigned_bytes_congr (size w lo hi d : Nat) (opts opts' : Word) :
    pairBytes size (divExSigned w lo hi d opts) = pairBytes size (divExSigned w lo hi d opts') := by
  unfold divExSigned
  dsimp only
  split <;> rfl

theorem divExUnsigned_bytes_congr (size w lo hi d : Nat) (opts opts' : Word) :
    pairBytes size (divExUnsigned w lo hi d opts) = pairBytes size (divExUnsigned w lo hi d opts') := by
  unfold divExUnsigned
  dsimp only
  split <;> rfl

theorem intSqrt_bytes_congr (size w b : Nat) (opts opts' : Word) :
    laneBytes size (intSqrt w b opts) = laneBytes size (intSqrt w b opts') := by
  unfold intSqrt
  split_ifs <;> rfl

theorem floatSqrt_bytes_congr (size : Nat) (f : FloatFormat) (mode : RoundingMode) (nan b : Nat) (opts opts' : Word) :
    laneBytes size (floatSqrt f mode nan b opts) = laneBytes size (floatSqrt f mode nan b opts') := by
  unfold floatSqrt
  split_ifs <;> rfl

/-! ## The operations -/

/-- R96: no instruction but `bits2bool` writes a value that depends on `numContr`. -/
theorem exec_withNumContr {i : Instr} (hi : ∀ c, i ≠ .bits2bool c) {s : State} (hcommit : s.cfg.commitOnInterrupt = true)
    (n : Word) : AgreeOnValues (exec i s) (exec i (s.withNumContr n)) := by
  by_cases himm : i.immOk = false
  · rw [exec_illegal_of_immOk himm, exec_illegal_of_immOk himm]
    exact agree_illegal s n
  by_cases hmask : i.maskOk = false
  · rw [exec_illegal_of_maskOk hmask, exec_illegal_of_maskOk hmask]
    exact agree_illegal s n
  cases i with
  | bits2bool c => exact absurd rfl (hi c)
  | roundUpPow2 c =>
    rw [exec, exec]
    exact scalarOp_agree hcommit n _ _ c (roundUpPow2_result_congr _ _ _ _)
  | shiftAdd c =>
    rw [exec, exec]
    exact scalarOp_agree hcommit n _ _ c rfl
  | compress c | compressSs c | compressUs c =>
    rw [exec, exec]
    exact compressOp_agree hcommit n _ c _
  | divEx c =>
    rw [exec, exec]
    exact pairOp_agree hcommit n _ _ _ c fun _ => divExSigned_bytes_congr _ _ _ _ _ _ _
  | divExU c =>
    rw [exec, exec]
    exact pairOp_agree hcommit n _ _ _ c fun _ => divExUnsigned_bytes_congr _ _ _ _ _ _ _
  | sqrt c =>
    rw [exec, exec]
    refine laneOp_agree hcommit n _ _ _ _ c _ fun off => ?_
    dsimp only
    split
    · exact floatSqrt_bytes_congr _ _ _ _ _ _ _
    · exact intSqrt_bytes_congr _ _ _ _ _
  | addSs c | subSs c | addUs c | subUs c | mulSs c | mulUs c | insert c | broadcast c =>
    rw [exec, exec]
    exact laneOp_agree hcommit n _ _ _ _ c _ fun _ => rfl
  | addCarry c | subBorrow c | addOc c | subOc c | mulOc c | divOc c =>
    rw [exec, exec]
    exact pairOp_agree hcommit n _ _ _ c fun _ => rfl
  | absolute c =>
    have himm : c.imm.toNat % 4 ≠ 3 := by simpa [Instr.immOk] using himm
    rw [exec_absolute c s himm, exec_absolute c _ himm]
    exact agree_checked hcommit n _ _ _ _
  | replaceBits c =>
    have himm : (Instr.replaceBits c).immOk = true := by simpa using himm
    rw [exec_replaceBits himm, exec_replaceBits himm]
    exact agree_checked hcommit n _ _ _ _
  | compressSparse c =>
    obtain ⟨m, hm⟩ : ∃ m, c.rm = some m := Option.ne_none_iff_exists'.mp (by simpa [Instr.maskOk] using hmask)
    rw [exec, exec, execCompressSparse_masked s hm, execCompressSparse_masked _ hm]
    exact agree_checked hcommit n _ _ _ _
  | expandSparse c =>
    obtain ⟨m, hm⟩ : ∃ m, c.rm = some m := Option.ne_none_iff_exists'.mp (by simpa [Instr.maskOk] using hmask)
    rw [exec, exec, execExpandSparse_masked s hm, execExpandSparse_masked _ hm]
    exact agree_checked hcommit n _ _ _ _
  | addressForm c | setLen c | getLen c | setNum c | getNum c | extract c | bool2bits c | expandU c | expandS c
  | shiftExpand c | shiftReduce c | shiftUp c | shiftDown c | rotateUp c | rotateDown c | moveHi32 c | insertHi32 c
  | add32u c | sub32u c | addHi32 c | andHi32 c | orHi32 c | xorHi32 c =>
    exact agree_finish hcommit n _ _ _
  | bitscanForward c | bitscanReverse c | roundDownPow2 c | boolReduce c | categoryReduce c =>
    exact agree_checked hcommit n _ _ _ _

/-- Settles O17. -/
theorem trapEnablesChangeNoValue : Obligations.TrapEnablesChangeNoValue := by
  intro i s t u n hi hcommit ht hu
  obtain ⟨t', u', ht', hu', hx, hmem, hvlen⟩ := exec_withNumContr hi hcommit n
  obtain rfl : t' = t := Host.Outcome.next.inj (ht'.symm.trans ht)
  obtain rfl : u' = u := Host.Outcome.next.inj (hu'.symm.trans hu)
  exact ⟨hx, hmem, hvlen⟩

end Sys2Proof.Machine
end

section
/-! SUPPORT. The square root of an integer lane (R273), and from it the command at the integer types (R271). -/

namespace Sys2Proof.Machine

open Sys2Proof

theorem isFloatType_of_mem_integersUpTo64 {ot : OpType} (h : ot ∈ OpType.integersUpTo64) : isFloatType ot = false :=
  isFloatType_of_mem_integers ((by decide : OpType.integersUpTo64 ⊆ OpType.integers) h)

/-- R271: the lane loop of a square root. -/
theorem exec_sqrt (c : Fields) (s : State) : exec (.sqrt c) s
    = laneOp 48 typesTo64 true true c s (s.len c.rt) fun off p =>
        if isFloatType c.ot then
          floatSqrt (wideFormat c.ot) s.cfg.roundingMode ((wideFormat c.ot).producedNaN s.cfg s.draws off) p.b.toNat p.opts
        else intSqrt (dataBits c.ot) p.b.toNat p.opts := rfl

/-- R273: what the result `q` says about the operand with the signed reading `x`. -/
def IntSqrtExact (x q : Int) : Prop := (x < 0 → q = 0) ∧ (0 ≤ x → q * q ≤ x ∧ x < (q + 1) * (q + 1))

section

variable {w b : Nat} {opts : Word}

theorem intSqrt_of_neg (h : sgn w b < 0) : intSqrt w b opts = { result := 0, raised := signedElseUnsigned opts } := if_pos h

theorem intSqrt_of_nonneg (h : 0 ≤ sgn w b) : intSqrt w b opts = { result := BitVec.ofNat 64 (isqrt (uns w b)) } :=
  if_neg h.not_gt

theorem intSqrt_raised_eq : (intSqrt w b opts).raised =
    if 0 ≤ sgn w b then [] else if opts.getLsbD 2 then [.overflSign] else if opts.getLsbD 1 then [.overflUnsign] else [] := by
  by_cases h : 0 ≤ sgn w b
  · rw [intSqrt_of_nonneg h, if_pos h]
  · rw [intSqrt_of_neg (not_le.mp h), if_neg h, signedElseUnsigned_eq]

end

theorem isqrt_le (v : Nat) : isqrt v ≤ v := (Nat.le_mul_self _).trans (isqrt_spec v).1

/-- R273: the root of an element fits its lane. -/
theorem intSqrt_result_lt (ot : OpType) (b : Nat) (opts : Word) :
    (intSqrt (dataBits ot) b opts).result.toNat < 256 ^ dataSize ot := by
  by_cases h : 0 ≤ sgn (dataBits ot) b
  · rw [intSqrt_of_nonneg h]
    exact ofNat_toNat_lt ((isqrt_le _).trans_lt (uns_lt _ _))
  · rw [intSqrt_of_neg (not_le.mp h)]
    exact carry_toNat_lt ot false

theorem intSqrt_exact {ot : OpType} (hot : ot ≠ .i128) (b : Nat) (opts : Word) :
    IntSqrtExact (sgn (dataBits ot) b) (intSqrt (dataBits ot) b opts).result.toNat := by
  refine ⟨fun h => ?_, fun h => ?_⟩
  · rw [intSqrt_of_neg h]
    rfl
  · obtain ⟨hle, hlt⟩ := isqrt_spec (uns (dataBits ot) b)
    rw [intSqrt_of_nonneg h, toNat_ofNat_of_fits hot ((isqrt_le _).trans_lt (uns_lt _ _)), ← sgn_of_nonneg h]
    exact ⟨by exact_mod_cast hle, by exact_mod_cast hlt⟩

/-- Settles O53. -/
theorem integerSqrtResult : Obligations.IntegerSqrtResult := by
  refine fun c s => ⟨rfl, fun hot => (exec_sqrt c s).trans (laneOp_illegal (typesTo64_of_eq hot)), fun hot hok => ?_⟩
  intro size n x ks hc
  have hne := ne_i128_of_mem hot
  exact laneOp_effect
    (ret := fun off => intSqrt (dataBits c.ot) (s.velem c.rt off size) (maskedOptions c s off))
    (Exact := fun off q => IntSqrtExact (sgn (dataBits c.ot) (s.velem c.rt off size)) q)
    (exec_sqrt c s)
    (fun off => by
      rw [isFloatType_of_mem_integersUpTo64 hot, if_neg Bool.false_ne_true, laneParms_b_toNat true hne, laneParms_opts])
    rfl (typesTo64_of_ne hne) hne (hok c.rt) (fun _ => intSqrt_result_lt _ _ _) (fun _ => intSqrt_exact hne _ _)
    (loopRaised_eq fun _ => intSqrt_raised_eq) hc

end Sys2Proof.Machine
end

section
/-! SUPPORT. The correctly rounded square root (R274): the integer root with its sticky bit lies on the same side of every
rounding point as the exact root, so rounding it rounds the root. -/

namespace Sys2Proof.Machine

open Sys2Proof

/-! ## The integer root with a sticky bit -/

/-- R274: twice the integer root of `v`, with a sticky bit for a root that is not exact. -/
def rootWord (v : Nat) : Nat := 2 * isqrt v + if isqrt v * isqrt v = v then 0 else 1

theorem le_isqrt_iff {v k : Nat} : k ≤ isqrt v ↔ k * k ≤ v := by
  obtain ⟨hle, hlt⟩ := isqrt_spec v
  refine ⟨fun h => (Nat.mul_le_mul h h).trans hle, fun h => ?_⟩
  exact Nat.lt_succ_iff.mp (Nat.mul_self_lt_mul_self_iff.mp (h.trans_lt hlt))

theorem two_mul_le_rootWord_iff {v k : Nat} : 2 * k ≤ rootWord v ↔ k * k ≤ v := by
  rw [← le_isqrt_iff, rootWord]
  split <;> omega

theorem rootWord_le_two_mul_iff {v k : Nat} : rootWord v ≤ 2 * k ↔ v ≤ k * k := by
  by_cases hexact : isqrt v * isqrt v = v
  · have hroot : rootWord v = 2 * isqrt v := by rw [rootWord, if_pos hexact, Nat.add_zero]
    rw [hroot, Nat.mul_le_mul_left_iff (by decide), ← Nat.mul_self_le_mul_self_iff, hexact]
  · have hne : v ≠ k * k := by
      rintro rfl
      have hroot : isqrt (k * k) = k :=
        le_antisymm (Nat.mul_self_le_mul_self_iff.mp (isqrt_spec _).1) (le_isqrt_iff.mpr le_rfl)
      exact hexact (by rw [hroot])
    have hroot : rootWord v = 2 * isqrt v + 1 := by rw [rootWord, if_neg hexact]
    have hside := (le_isqrt_iff (v := v) (k := k)).not
    rw [not_le, not_le] at hside
    rw [hroot, ← Nat.lt_iff_le_and_ne.trans (and_iff_left hne), ← hside]
    omega

/-! ## Rounding points -/

/-- The number `d` and the root of `q` lie on the same side of half of `B`. -/
structure SameSide (d q B : ℚ) : Prop where
  le : B ≤ 2 * d ↔ B ^ 2 ≤ 4 * q
  ge : 2 * d ≤ B ↔ 4 * q ≤ B ^ 2

theorem SameSide.eq {d q B : ℚ} (h : SameSide d q B) : B = 2 * d ↔ B ^ 2 = 4 * q := by
  rw [le_antisymm_iff, le_antisymm_iff, h.le, h.ge]

/-- In units of `u` the root word is on the same side of every multiple of 4 as the root. -/
theorem sameSide_rootWord {u : ℚ} (hu : 0 < u) (v k : Nat) :
    SameSide (rootWord v * u) (v * (2 * u) ^ 2) (k * (4 * u)) := by
  have hlinear : ∀ a b : ℚ, a * (2 * u) ≤ b * (2 * u) ↔ a ≤ b := fun a b => mul_le_mul_iff_left₀ (by positivity)
  have hsquare : ∀ a b : ℚ, a * (16 * u ^ 2) ≤ b * (16 * u ^ 2) ↔ a ≤ b := fun a b => mul_le_mul_iff_left₀ (by positivity)
  have hpoint : (k : ℚ) * (4 * u) = (2 * k : ℕ) * (2 * u) := by push_cast; ring
  have hword : 2 * (rootWord v * u) = rootWord v * (2 * u) := by ring
  have hpoint' : ((k : ℚ) * (4 * u)) ^ 2 = (k * k : ℕ) * (16 * u ^ 2) := by push_cast; ring
  have hroot : 4 * (v * (2 * u) ^ 2) = v * (16 * u ^ 2) := by ring
  constructor
  · rw [hpoint', hroot, hsquare, hpoint, hword, hlinear, Nat.cast_le, Nat.cast_le, two_mul_le_rootWord_iff]
  · rw [hpoint', hroot, hsquare, hpoint, hword, hlinear, Nat.cast_le, Nat.cast_le, rootWord_le_two_mul_iff]

section

variable {f : FloatFormat}

/-- A magnitude that is nearest to a number is nearest to a root that no rounding point next to it tells from the number. -/
theorem FloatFormat.Nearest.nearestRoot {d q : ℚ} {mag : Nat} (h : f.Nearest d mag) (hfin : mag < f.infMag)
    (hlower : mag ≠ 0 → SameSide d q (f.value (mag - 1) + f.value mag))
    (hupper : SameSide d q (f.value mag + f.value (mag + 1))) : f.NearestRoot q mag := by
  obtain ⟨-, hlow, hup⟩ := h
  obtain ⟨hle, htie⟩ := hup hfin
  refine ⟨hfin, fun hne => ?_, hupper.ge.mp hle, fun heq => htie (hupper.eq.mpr heq.symm).symm⟩
  obtain ⟨hle', htie'⟩ := hlow hne
  exact ⟨(hlower hne).le.mp hle', fun heq => htie' ((hlower hne).eq.mpr heq)⟩

/-- From the exponent `t` on every number is a multiple of each power of two up to the spacing one exponent below. -/
theorem FloatFormat.value_multiple {t mag : Nat} {b : Int} (ht : t * 2 ^ f.manBits ≤ mag) (hmag : mag ≤ f.infMag)
    (hb : b ≤ f.emin - f.manBits + (t - 1 : ℕ)) : ∃ k : Nat, f.value mag = k * 2 ^ b := by
  obtain ⟨t', n, rfl, hn, ht'⟩ := f.exists_grid mag
  have hexp : t < t' + 2 := Nat.lt_of_mul_lt_mul_right (a := 2 ^ f.manBits) (by rw [Nat.add_mul]; omega)
  have hsplit : f.emin - f.manBits + t' = ((f.emin - f.manBits + t' - b).toNat : ℤ) + b := by omega
  refine ⟨n * 2 ^ (f.emin - f.manBits + t' - b).toNat, ?_⟩
  rw [value_grid hn.le ht' (hmag.trans_lt f.infMag_lt), spacing, hsplit, zpow_add₀ (by norm_num), zpow_natCast]
  push_cast
  simp only [← hsplit]
  ring

/-! ## The rounded magnitude -/

/-- In every mode, rounding stays within the grid of its exponent or meets the next one. -/
theorem FloatFormat.scaled_le (m : Nat) (mode : RoundingMode) (neg : Bool) (e : Int) :
    f.scaled mode neg m e ≤ 2 * 2 ^ f.manBits := by
  have hlog : (Nat.log2 m : ℤ) + e ≤ f.emin + f.scaleOf m e := by unfold scaleOf; omega
  have hlt := Nat.lt_log2_self (n := m)
  have hpow : ∀ a b : Nat, a ≤ b → 2 ^ a ≤ 2 ^ b := fun _ _ => Nat.pow_le_pow_right (by decide)
  unfold scaled
  dsimp only
  rw [← pow_succ']
  split
  · set k := (f.emin - f.manBits + f.scaleOf m e - e).toNat with hk
    have hdiv : m / 2 ^ k < 2 ^ (f.manBits + 1) := Nat.div_lt_of_lt_mul <| by
      rw [← pow_add]
      exact hlt.trans_le (hpow _ _ (by omega))
    rcases roundShift_cases mode neg m k with h | ⟨-, h⟩ <;> omega
  · set k := (e - (f.emin - f.manBits + f.scaleOf m e)).toNat with hk
    calc m * 2 ^ k ≤ 2 ^ (Nat.log2 m + 1) * 2 ^ k := Nat.mul_le_mul_right _ hlt.le
      _ = 2 ^ (Nat.log2 m + 1 + k) := (pow_add _ _ _).symm
      _ ≤ 2 ^ (f.manBits + 1) := hpow _ _ (by omega)

/-- A number three exponents below infinity does not overflow, whatever the mode. -/
theorem FloatFormat.roundDyadic_of_scale {m : Nat} {e : Int} (hm : m ≠ 0) (ht : f.scaleOf m e + 3 ≤ f.emax)
    (mode : RoundingMode) (neg : Bool) : f.roundedMag mode neg m e < f.infMag
      ∧ f.roundDyadic mode neg m e = f.pack neg (f.roundedMag mode neg m e) := by
  have hmag : f.roundedMag mode neg m e < f.infMag := by
    have hle := grid_le_infMag (t := f.scaleOf m e + 1) (by omega) (scaled_le (f := f) m mode neg e)
    have hpos := Nat.two_pow_pos f.manBits
    rw [Nat.succ_mul] at hle
    unfold roundedMag
    omega
  exact ⟨hmag, by rw [roundDyadic_eq hm, if_neg hmag.not_ge]⟩

/-- To nearest even: the rounded magnitude is the nearest, and above the least exponent it is in the grid of its own. -/
theorem FloatFormat.nearest_roundedMag (hf : f.Proper) {m : Nat} (hm : m ≠ 0) (neg : Bool) (e : Int)
    (hmag : f.roundedMag .nearestEven neg m e ≤ f.infMag) :
    f.Nearest (m * 2 ^ e) (f.roundedMag .nearestEven neg m e)
      ∧ (f.scaleOf m e ≠ 0 → 2 ^ f.manBits ≤ f.scaled .nearestEven neg m e) := by
  obtain ⟨x, hx, hnear⟩ := f.exists_nearestInt_scaled neg m e
  obtain ⟨hlt, hge⟩ := bounds_of_eq_mul_spacing hm hx
  exact ⟨hx ▸ nearest_grid hf hnear hlt hge hmag, fun hscale => hnear.ge (by exact_mod_cast hge hscale)⟩

/-- R274: where the root word has two bits below the rounding points, rounding it rounds the root. -/
theorem FloatFormat.nearestRoot_roundedMag (hf : f.Proper) {v : Nat} {e : Int}
    (hbits : f.manBits + 4 ≤ Nat.log2 (rootWord v))
    (hmag : f.roundedMag .nearestEven false (rootWord v) e < f.infMag) :
    f.NearestRoot (v * (2 * 2 ^ e) ^ 2) (f.roundedMag .nearestEven false (rootWord v) e) := by
  have hm : rootWord v ≠ 0 := by
    intro h
    rw [h, Nat.log2_zero] at hbits
    omega
  obtain ⟨hnearest, hgrid⟩ := nearest_roundedMag hf hm false e hmag.le
  have hunit : (2 : ℚ) ^ (e + 2) = 4 * 2 ^ e := by rw [zpow_add₀ (by norm_num)]; ring
  have hmultiple : ∀ mag, f.scaleOf (rootWord v) e * 2 ^ f.manBits ≤ mag → mag ≤ f.infMag →
      ∃ k : Nat, f.value mag = k * (4 * 2 ^ e) := fun mag hlow hhigh =>
    hunit ▸ value_multiple hlow hhigh (by unfold scaleOf; omega)
  have hpoint : ∀ a b, (∃ k : Nat, f.value a = k * (4 * 2 ^ e)) → (∃ k : Nat, f.value b = k * (4 * 2 ^ e)) →
      SameSide (rootWord v * 2 ^ e) (v * (2 * 2 ^ e) ^ 2) (f.value a + f.value b) := by
    rintro a b ⟨j, ha⟩ ⟨k, hb⟩
    rw [ha, hb, ← add_mul, ← Nat.cast_add]
    exact sameSide_rootWord (by positivity) v (j + k)
  have hpos := Nat.two_pow_pos f.manBits
  have hsum : f.roundedMag .nearestEven false (rootWord v) e
      = f.scaleOf (rootWord v) e * 2 ^ f.manBits + f.scaled .nearestEven false (rootWord v) e := rfl
  refine hnearest.nearestRoot hmag (fun hne => hpoint _ _ (hmultiple _ ?_ (by omega)) (hmultiple _ (by omega) hmag.le))
    (hpoint _ _ (hmultiple _ (by omega) hmag.le) (hmultiple _ (by omega) hmag))
  by_cases hscale : f.scaleOf (rootWord v) e = 0
  · simp [hscale]
  · have := hgrid hscale
    omega

/-! ## The root of a finite pattern -/

/-- R274: the integer of which `sqrtFinite` takes the root of `v`. -/
def FloatFormat.radicand (f : FloatFormat) (v : Nat) : Nat :=
  (f.unpack v).1 * 2 ^ (((f.unpack v).2 % 2).toNat + 2 * (f.manBits + 4))

/-- R274: the exponent of the root word. -/
def FloatFormat.rootExp (f : FloatFormat) (v : Nat) : Int :=
  ((f.unpack v).2 - ((f.unpack v).2 % 2).toNat) / 2 - (f.manBits + 4 : ℕ) - 1

theorem FloatFormat.sqrtFinite_eq (f : FloatFormat) (mode : RoundingMode) (v : Nat) :
    f.sqrtFinite mode v = f.roundDyadic mode false (rootWord (f.radicand v)) (f.rootExp v) := rfl

theorem FloatFormat.value_mag_eq_value (f : FloatFormat) (v : Nat) : f.value (f.mag v) = f.value v := by
  rw [value, value, f.exp_mag, f.man_mag]

/-- The value of a finite pattern is its radicand in squared units of the root. -/
theorem FloatFormat.value_eq_radicand (f : FloatFormat) (v : Nat) :
    f.value v = f.radicand v * (2 * 2 ^ f.rootExp v) ^ 2 := by
  have hexp : (f.unpack v).2 = ((((f.unpack v).2 % 2).toNat + 2 * (f.manBits + 4) : ℕ) : ℤ) + (1 + f.rootExp v) * 2 := by
    unfold rootExp
    omega
  have hunit : (2 * 2 ^ f.rootExp v : ℚ) ^ 2 = 2 ^ ((1 + f.rootExp v) * 2) := by
    rw [← zpow_one_add₀ (by norm_num), zpow_mul, zpow_ofNat]
  rw [← f.value_mag_eq_value, f.value_mag, hunit, radicand, Nat.cast_mul, Nat.cast_pow, Nat.cast_ofNat, mul_assoc,
    ← zpow_natCast, ← zpow_add₀ (by norm_num), ← hexp]

theorem FloatFormat.unpack_ne_zero {v : Nat} (h : f.isZero v = false) : (f.unpack v).1 ≠ 0 := by
  unfold unpack
  split
  · rename_i hexp
    simpa [isZero, hexp] using h
  · have := Nat.two_pow_pos f.manBits
    omega

/-- The root word has bits enough. -/
theorem FloatFormat.le_log2_rootWord {v : Nat} (h : f.isZero v = false) :
    f.manBits + 5 ≤ Nat.log2 (rootWord (f.radicand v)) := by
  have hbase : 2 ^ (f.manBits + 4) * 2 ^ (f.manBits + 4) ≤ f.radicand v := by
    rw [← pow_add]
    calc 2 ^ (f.manBits + 4 + (f.manBits + 4)) ≤ 2 ^ (((f.unpack v).2 % 2).toNat + 2 * (f.manBits + 4)) :=
          Nat.pow_le_pow_right (by decide) (by omega)
      _ ≤ f.radicand v := Nat.le_mul_of_pos_left _ (Nat.pos_of_ne_zero (unpack_ne_zero h))
  have hword := two_mul_le_rootWord_iff.mpr hbase
  rw [← pow_succ'] at hword
  exact (Nat.le_log2 (Nat.pos_iff_ne_zero.mp (lt_of_lt_of_le (Nat.two_pow_pos _) hword))).mpr hword

theorem FloatFormat.Proper.emax_eq (hf : f.Proper) : f.emax = 2 * f.bias + 1 ∧ 1 ≤ f.bias := by
  have hexp := hf.exp
  have hsplit := two_pow_pred (w := f.expBits) (by omega)
  have hpos : 2 ^ 1 ≤ 2 ^ (f.expBits - 1) := Nat.pow_le_pow_right (by decide) (by omega)
  unfold emax bias
  omega

/-- A root lies about half as many exponents from 1 as its operand, so it does not reach infinity. -/
theorem FloatFormat.scaleOf_rootWord (hf : f.Proper) {v : Nat} (hfin : f.isFinite v = true) (hzero : f.isZero v = false) :
    f.scaleOf (rootWord (f.radicand v)) (f.rootExp v) + 3 ≤ f.emax := by
  obtain ⟨hlog, -, hexp⟩ := unpack_bounds hf hfin
  obtain ⟨hemax, hbias⟩ := hf.emax_eq
  have hbits := le_log2_rootWord hzero
  set L := Nat.log2 (rootWord (f.radicand v))
  have hL : 2 * 2 ^ (L - 1) ≤ rootWord (f.radicand v) := by
    rw [← two_pow_pred (by omega)]
    exact Nat.log2_self_le fun h => by simp [L, h] at hbits
  have hradicand : f.radicand v < 2 ^ (f.manBits + 1 + (((f.unpack v).2 % 2).toNat + 2 * (f.manBits + 4))) := by
    rw [radicand, pow_add 2 (f.manBits + 1)]
    refine Nat.mul_lt_mul_of_pos_right ?_ (Nat.two_pow_pos _)
    exact (Nat.lt_log2_self).trans_le (Nat.pow_le_pow_right (by decide) (by omega))
  have hL' := (two_mul_le_rootWord_iff.mp hL).trans_lt hradicand
  rw [← pow_add] at hL'
  have hlt := (Nat.pow_lt_pow_iff_right (by decide)).mp hL'
  unfold scaleOf rootExp emin
  omega

/-- R274: the square root of a positive finite pattern is finite and, to nearest even, correctly rounded. -/
theorem FloatFormat.sqrtFinite_correct (hf : f.Proper) {v : Nat} (hfin : f.isFinite v = true) (hzero : f.isZero v = false)
    (mode : RoundingMode) :
    f.sqrtFinite mode v < f.infMag ∧ (mode = .nearestEven → f.NearestRoot (f.value v) (f.sqrtFinite mode v)) := by
  have hbits := le_log2_rootWord hzero
  have hm : rootWord (f.radicand v) ≠ 0 := fun h => by simp [h] at hbits
  obtain ⟨hmag, hround⟩ := roundDyadic_of_scale hm (scaleOf_rootWord hf hfin hzero) mode false
  have hpack : f.sqrtFinite mode v = f.roundedMag mode false (rootWord (f.radicand v)) (f.rootExp v) := by
    rw [sqrtFinite_eq, hround, pack, if_neg Bool.false_ne_true, Nat.zero_add]
  rw [hpack]
  refine ⟨hmag, ?_⟩
  rintro rfl
  rw [f.value_eq_radicand]
  exact nearestRoot_roundedMag hf (by omega) hmag

/-! ## A lane (R274) -/

/-- R274: the operands below 0. -/
def FloatFormat.Negative (f : FloatFormat) (v : Nat) : Prop := f.isNaN v = false ∧ f.isZero v = false ∧ f.sign v = true

/-- R274: what the result `y` says about the operand `x`. -/
def FloatSqrtExact (f : FloatFormat) (mode : RoundingMode) (x y : Nat) : Prop :=
  (f.isNaN x = true ∨ f.Negative x → f.isNaN y = true)
    ∧ (f.isZero x = true ∨ f.isInf x = true ∧ f.sign x = false → y = x)
    ∧ (f.isFinite x = true → f.isZero x = false → f.sign x = false →
        y < f.infMag ∧ (mode = .nearestEven → f.NearestRoot (f.value x) y))

theorem FloatFormat.isZero_of_isNaN {v : Nat} (h : f.isNaN v = true) : f.isZero v = false := by
  simp only [isNaN, Bool.and_eq_true, bne_iff_ne] at h
  simp [isZero, h.2]

theorem FloatFormat.isFinite_of_isNaN {v : Nat} (h : f.isNaN v = true) : f.isFinite v = false := by
  simp only [isNaN, Bool.and_eq_true, beq_iff_eq] at h
  simp [isFinite, h.1]

theorem FloatFormat.isFinite_of_isInf {v : Nat} (h : f.isInf v = true) : f.isFinite v = false := by
  simp only [isInf, Bool.and_eq_true, beq_iff_eq] at h
  simp [isFinite, h.1]

/-- R274, arm by arm: the result is a pattern of the format, and the right one. -/
theorem exists_floatSqrt_exact (hf : f.Proper) (mode : RoundingMode) {nan b : Nat} (hnan : f.isNaN nan = true)
    (hnanlt : nan < 2 ^ f.width) (hb : b < 2 ^ f.width) (opts : Word) :
    ∃ y < 2 ^ f.width, (floatSqrt f mode nan b opts).result = BitVec.ofNat 64 y ∧ FloatSqrtExact f mode b y := by
  unfold floatSqrt
  split
  · rename_i h
    have hzero := FloatFormat.isZero_of_isNaN h
    have hfin := FloatFormat.isFinite_of_isNaN h
    have hinf : f.isInf b = false := Bool.eq_false_iff.mpr fun hinf => by simp [FloatFormat.isNaN_of_isInf hinf] at h
    exact ⟨nan, hnanlt, rfl, fun _ => hnan, by simp [hzero, hinf], by simp [hfin]⟩
  rename_i hnotNaN
  split
  · rename_i h
    exact ⟨b, hb, rfl, by simp [FloatFormat.Negative, hnotNaN, h], fun _ => rfl, by simp [h]⟩
  rename_i hnotZero
  split
  · rename_i h
    exact ⟨nan, hnanlt, rfl, fun _ => hnan, by simp [hnotZero, h], by simp [h]⟩
  rename_i hpositive
  split
  · rename_i h
    exact ⟨b, hb, rfl, by simp [FloatFormat.Negative, hnotNaN, hpositive], fun _ => rfl,
      by simp [FloatFormat.isFinite_of_isInf h]⟩
  · rename_i h
    obtain ⟨hfinite, hnearest⟩ := FloatFormat.sqrtFinite_correct hf
      (FloatFormat.isFinite_of_not (Bool.eq_false_iff.mpr hnotNaN) (Bool.eq_false_iff.mpr h))
      (Bool.eq_false_iff.mpr hnotZero) mode
    have hlt : f.sqrtFinite mode b < 2 ^ f.width := (hfinite.trans f.infMag_lt).trans_le
      (Nat.pow_le_pow_right (by decide) (by unfold FloatFormat.width; omega))
    exact ⟨_, hlt, rfl, by simp [FloatFormat.Negative, hnotNaN, hpositive], by simp [hnotZero, h],
      fun _ _ _ => ⟨hfinite, hnearest⟩⟩

/-- R283: bit 4 of the options word enables the trap of an invalid operand. -/
theorem trapInv_eq (o : Word) : trapInv o = o.getLsbD 4 := and_twoPow_bne_zero (k := 4) (by decide) o

theorem floatSqrt_raised_eq (mode : RoundingMode) (nan : Nat) {b : Nat} {opts : Word}
    {_ : Decidable (f.Negative b ∧ opts.getLsbD 4 = true)} :
    (floatSqrt f mode nan b opts).raised = if f.Negative b ∧ opts.getLsbD 4 = true then [.floatInvalid] else [] := by
  by_cases h : f.Negative b
  · obtain ⟨hnan, hzero, hsign⟩ := h
    simp only [floatSqrt, hnan, hzero, hsign, if_true, if_neg Bool.false_ne_true]
    exact raiseIf_eq_ite (by rw [trapInv_eq, and_iff_right ⟨hnan, hzero, hsign⟩]) _
  · rw [if_neg fun hand => h hand.1]
    unfold floatSqrt
    split
    · rfl
    split
    · rfl
    split
    · exact absurd ⟨Bool.eq_false_iff.mpr ‹_›, Bool.eq_false_iff.mpr ‹_›, ‹_›⟩ h
    split <;> rfl

end

/-! ## The command at the float types (R271) -/

theorem ne_i128_of_mem_floats {ot : OpType} (h : ot ∈ OpType.floats) : ot ≠ .i128 := by
  rintro rfl
  exact absurd h (by decide)

/-- R274: what the lane at offset `off` returns. -/
def floatSqrtRet (c : Fields) (s : State) (off : Nat) : Ret :=
  floatSqrt (wideFormat c.ot) s.cfg.roundingMode ((wideFormat c.ot).producedNaN s.cfg s.draws off)
    (s.velem c.rt off (dataSize c.ot)) (maskedOptions c s off)

/-- The result of a lane fits it. -/
theorem floatSqrtRet_exact {c : Fields} (hot : c.ot ∈ OpType.floats) (s : State) (off : Nat) :
    (floatSqrtRet c s off).result.toNat < 256 ^ dataSize c.ot
      ∧ FloatSqrtExact (wideFormat c.ot) s.cfg.roundingMode (s.velem c.rt off (dataSize c.ot))
        (floatSqrtRet c s off).result.toNat := by
  have hf := wideFormat_proper c.ot
  have hwidth := width_wideFormat hot
  obtain ⟨y, hy, hresult, hexact⟩ := exists_floatSqrt_exact hf s.cfg.roundingMode (hf.isNaN_producedNaN s.cfg s.draws off)
    (hf.producedNaN_lt s.cfg s.draws off) (hwidth ▸ velem_lt_dataBits s c.rt off c.ot) (maskedOptions c s off)
  rw [hwidth] at hy
  rw [floatSqrtRet, hresult, toNat_ofNat_of_fits (ne_i128_of_mem_floats hot) hy, ← two_pow_dataBits]
  exact ⟨hy, hexact⟩

/-- Settles O54. -/
theorem floatSqrtResult : Obligations.FloatSqrtResult := by
  intro c s hot hok size f n x negative ks hc
  have hne := ne_i128_of_mem_floats hot
  exact laneOp_effect (ret := floatSqrtRet c s)
    (Exact := fun off => FloatSqrtExact f s.cfg.roundingMode (s.velem c.rt off size))
    (exec_sqrt c s)
    (fun off => by rw [if_pos (isFloatType_of_mem_floats hot), laneParms_b_toNat true hne, laneParms_opts, floatSqrtRet]) rfl
    (typesTo64_of_ne hne) hne (hok c.rt) (fun off => (floatSqrtRet_exact hot s off).1)
    (fun off => (floatSqrtRet_exact hot s off).2) (loopRaised_eq fun _ => floatSqrt_raised_eq _ _) hc

end Sys2Proof.Machine
end

section
/-! SUPPORT. The sample words of 95_test_vectors.md Part 2, from the round trip of the decoder and the encoder. -/

namespace Sys2Proof

theorem decode_of_encode_eq {cw : Word} {i : Instr} (h : encode i = cw) : decode cw = .ok i := h ▸ decodeOfEncode i

/-- Settles O4: each word is the encoding of its instruction. -/
theorem sampleWordsDecode : Obligations.SampleWordsDecode :=
  ⟨decode_of_encode_eq rfl, decode_of_encode_eq rfl, decode_of_encode_eq rfl, decode_of_encode_eq rfl,
    decode_of_encode_eq rfl, decode_of_encode_eq rfl⟩

end Sys2Proof
end
